-- ==== Sys2Proof/Word.lean ====
section
/-! DEFINITION. Word types of the Dymuoth Q4 and their plainest arithmetic (spec 00, R2, R4). -/

namespace Sys2Proof

/-- One byte. -/
abbrev Byte := BitVec 8

/-- One element of a vector register, one control word, one token (R130, R146, R5). -/
abbrev Word := BitVec 32

/-- One uniform register, one address (R130, R32). -/
abbrev Dword := BitVec 64

/-- Sparse bytes by address in the canonical form of `Machine/Mem.lean`. -/
abbrev Mem := List (Nat × Byte)

end Sys2Proof
end

