-- ==== Sys2Proof/Syntax.lean ====
section
/-! DEFINITION. The instructions and steps of spec/opcode_table.json, one constructor a row.
Control words: R147 to R152. Lane words: R153 to R159. Steps and events: spec 95.
Operands stand as the spec's fields; codes that name one of a few things are inductive types. -/

namespace Sys2Proof

/-- Element types of R158, in the order of their codes 0 to 15. -/
inductive Ty where
  | i32 | n32 | i16x2 | n16x2 | i8x4 | n8x4 | i64 | n64
  | f32 | f16x2 | bf16x2 | e4m3x4 | e5m2x4 | e2m1x8 | x2m1x8 | e8m0x4
  deriving DecidableEq, Repr

/-- Broadcast code BC of a vector source (R154). -/
inductive Bc where
  | none | lane | first
  deriving DecidableEq, Repr

/-- A source field (R154, R155). `vec 0 .none` is the all-zero field of a source that is not read. -/
inductive Src where
  | vec (n : BitVec 8) (bc : Bc)
  | lat (n : BitVec 2)
  | unif (n : BitVec 6)
  | imm (high : Bool)
  deriving DecidableEq, Repr

/-- Guard field with the enable bit set (R156). -/
structure Guard where
  inv : Bool
  p : BitVec 4
  deriving DecidableEq, Repr

/-- Destination field D (R153). -/
structure Dst where
  ws : Bool
  dl : BitVec 2
  num : BitVec 8
  deriving DecidableEq, Repr

/-- SAT codes (R157). -/
inductive Sat where
  | none | type | c01 | c11
  deriving DecidableEq, Repr

/-- Rounding modes (R157). -/
inductive Rm where
  | rne | rz | rd | ru | rna
  deriving DecidableEq, Repr

/-- A modifier word (R157). Bit k of `neg` and `abs` belongs to source k. -/
structure Mods where
  sat : Sat
  neg : BitVec 3
  abs : BitVec 3
  scale : BitVec 6
  rm : Rm
  deriving DecidableEq, Repr

/-- The operand fields of a lane instruction other than OP (R153). `last` is B; `mods` is present when M = 1. -/
structure LOp where
  last : Bool
  guard : Option Guard
  dst : Dst
  s0 : Src
  s1 : Src
  s2 : Src
  bl : BitVec 6
  ty : Ty
  fn : BitVec 4
  imm : BitVec 16
  mods : Option Mods
  deriving DecidableEq, Repr

/-- `BRC` conditions (R152). -/
inductive Cond where
  | eq | ne | lt | ge | ltu | geu
  deriving DecidableEq, Repr

/-- Engines of a group (R152). -/
inductive Engine where
  | copy | matrix | network | snapshot
  deriving DecidableEq, Repr

/-- Region policies (R152, R336). -/
inductive Policy where
  | replay | recover | drop
  deriving DecidableEq, Repr

/-- `FENCE` scopes (R205). -/
inductive Scope where
  | group | team | core | die | pkg | sys
  deriving DecidableEq, Repr

/-- `VCFLUSH` modes (R84). -/
inductive FlushMode where
  | clean | inval | zero
  deriving DecidableEq, Repr

/-- Destinations of `DRN`, field DK (R319). -/
inductive DrainKind where
  | scratch | mem | tile
  deriving DecidableEq, Repr

/-- Formats of `DRN`, field FMT (R319). -/
inductive DrainFmt where
  | w32 | bf16 | f16 | e4m3 | e5m2 | e2m1 | x2m1
  deriving DecidableEq, Repr

/-- A contribution to a reduction slot (R223): the request it came in, the contributor's place of R380, and its record address. -/
structure SlotJoin where
  id : Nat
  src : BitVec 8
  asid : BitVec 16
  core : Nat
  grp : Nat
  slot : BitVec 9
  gen : BitVec 16
  value : BitVec 64
  recVa : BitVec 64
  deriving DecidableEq, Repr

/-- Body of a fabric request (R365). Offsets of put bytes and reduction elements are within the line. -/
inductive ReqBody where
  | read (n : Nat)
  | put (bytes : Mem) (x : Option (BitVec 8))
  | atomic (fn : BitVec 4) (ty : Ty) (s1 s2 : BitVec 64)
  | red (fn : BitVec 4) (ty : Ty) (elems : List (Nat × BitVec 64))
  | slotOpen (desc : BitVec 64)
  | slotJoin (q : SlotJoin)
  deriving DecidableEq, Repr

/-- Classes of fabric packets (R365). -/
inductive PktClass where
  | request | forwarded | response
  deriving DecidableEq, Repr

/-- The header of a fabric packet (R364): class, hop stage, source and destination chips, the context. -/
structure Hdr where
  cls : PktClass
  stage : Nat
  src : BitVec 8
  dst : BitVec 8
  asid : BitVec 16
  deriving DecidableEq, Repr

/-- A response that names only the request it answers: its header and that request (R401). -/
structure RespTo where
  h : Hdr
  id : Nat
  deriving DecidableEq, Repr

/-- A fabric request (R364). `addr` is a window offset, or a virtual address for a sharded access (R53).
`gang` is the gang key that R401 adds; `cls` and `stage` are the class and the hop stage of its packet as it arrives. -/
structure Req where
  id : Nat
  src : BitVec 8
  dst : BitVec 8
  asid : BitVec 16
  gang : Option (BitVec 8 × BitVec 32)
  win : BitVec 12
  byVa : Bool
  addr : BitVec 64
  body : ReqBody
  cls : PktClass := .request
  stage : Nat := 1
  deriving DecidableEq, Repr

/-- A response: data, or the cause code of a refusal or of poison (R55, R365), with the header of its packet (R364).
`old`: the data are an atomic's old value, an operand in the header (R365). -/
structure Resp where
  id : Nat
  cause : BitVec 8
  x : Bool
  data : List Byte
  old : Bool := false
  src : BitVec 8 := 0
  dst : BitVec 8 := 0
  asid : BitVec 16 := 0
  stage : Nat := 1
  deriving DecidableEq, Repr

/-- A sequence of packets: those that an origin context sends through one writing of a peer-table entry (R435). `gen` tells the writings of the
entry apart. -/
structure FlowId where
  entry : Nat
  gen : Nat
  deriving DecidableEq, Repr

/-- A UET packet (R383, R435). `kind` is the work-request kind of R384. `x` marks bytes of X lines
(offset, length, cause). `rod` numbers the ROD packets of the flow.
`opId` is the work request at the origin. A RMA read answer has `kind` 15, a refusal is an ack with `ok` false. -/
structure UetPkt where
  src : BitVec 8
  dst : BitVec 8
  host : Bool
  srcAsid : BitVec 16
  res : BitVec 16
  flow : FlowId
  seq : Nat
  opId : Nat
  kind : BitVec 4
  ord : Bool
  rod : Nat
  tag : BitVec 64
  rkey : BitVec 64
  roff : BitVec 64
  total : Nat
  off : Nat
  len : Nat
  bytes : Mem
  x : List (Nat × Nat × BitVec 8)
  addr : Nat := 0
  job : Nat := 0
  pid : Nat := 0
  deriving DecidableEq, Repr

/-- A peer-table entry (R382): the endpoint's address, its chip id where it is a device, the job id, the process id on the endpoint, the resource
index, and the payload size if the host sets one (R381). -/
structure Peer where
  chip : BitVec 8
  addr : Nat
  job : Nat
  pid : Nat
  res : BitVec 16
  payload : Option Nat
  deriving DecidableEq, Repr

/-- Values of the CONFIG message (R388). -/
inductive ConfigItem where
  | wcbage (v : BitVec 8)
  | lease (v : BitVec 24)
  | placeb (v : BitVec 5)
  | demotion (asid : BitVec 16) (inPlace : Bool)
  | debug (asid : BitVec 16) (on : Bool)
  | gangTimeout (ms : Nat)
  | etherRate (gbps : Nat)
  deriving DecidableEq, Repr

/-- Power states (R428). -/
inductive Power where
  | p0 | p1 | p2 | p3 | s1 | s2 | off
  deriving DecidableEq, Repr

/-- What the steps of bring-up find (R425, R18, R85, R403, R368); `cool`: every junction sensor reads below 95 °C (R429).
`channels`: the capacities found on the 16 DDR-5 channels; `frames`: the shares that the host gives VC 254 on each die (R66);
`chip`, `rows`, `cols`: the chip id and the domain that the host names (R363); `ports`: the Worrad ports whose training found a step below the first,
with that step (R368); `etherAddr`: the address of the Ethernet port (log 105). -/
structure BringUp where
  selfTestOk : Bool
  dieLinksOk : Bool
  hbmOk : Bool
  channels : List Nat
  badShares : List Nat
  badCores : List Nat
  ports : List (Nat × Nat)
  frames : List Nat
  etherGbps : Nat
  etherAddr : Nat
  chip : BitVec 8
  rows : Nat
  cols : Nat
  cool : Bool
  deriving DecidableEq, Repr

/-- An uncorrectable error in the bank store (R85): one of a share's data array, or one of a bank's tag or state array. -/
inductive ArrayErr where
  | data (share : Nat)
  | tags (bank : Nat)
  deriving DecidableEq, Repr

/-- Why a page moves (R25). -/
inductive MigCause where
  | demand | staging | host | eviction
  deriving DecidableEq, Repr

/-- A request for one migration (R25): the page by address space and virtual address, the tier and die it goes to,
and the key (q, h) of the incoming page. -/
structure MigReq where
  cause : MigCause
  asid : BitVec 16
  va : BitVec 64
  tier : BitVec 2
  die : Nat
  key : Nat × Nat
  deriving DecidableEq, Repr

/-- One constructor per row of spec/opcode_table.json. -/
inductive Instr where
  -- control flow (R193)
  | nop
  | br (o : BitVec 25)
  | brc (c : Cond) (a b : BitVec 6) (o : BitVec 10)
  | brz (a : BitVec 6) (o : BitVec 19)
  | brnz (a : BitVec 6) (o : BitVec 19)
  | call (o : BitVec 25)
  | jmpr (a : BitVec 6)
  | callr (d a : BitVec 6)
  -- lane blocks, yielding, ending (R194 to R199)
  | lblk (n : BitVec 5) (i : BitVec 20)
  | lblkr (a : BitVec 6)
  | lwait
  | yield (e : Engine) (a : BitVec 6) (o : BitVec 16)
  | endg
  | brk (k : BitVec 19)
  | sysc (k : BitVec 19)
  -- uniform arithmetic (R200 to R202)
  | addw (d a b : BitVec 6)
  | subw (d a b : BitVec 6)
  | andw (d a b : BitVec 6)
  | orw (d a b : BitVec 6)
  | xorw (d a b : BitVec 6)
  | shlw (d a b : BitVec 6)
  | shrw (d a b : BitVec 6)
  | sarw (d a b : BitVec 6)
  | minw (d a b : BitVec 6)
  | maxw (d a b : BitVec 6)
  | minuw (d a b : BitVec 6)
  | maxuw (d a b : BitVec 6)
  | mulw (d a b : BitVec 6)
  | mulhw (d a b : BitVec 6)
  | mulhuw (d a b : BitVec 6)
  | sltw (d a b : BitVec 6)
  | sltuw (d a b : BitVec 6)
  | seqw (d a b : BitVec 6)
  | addiw (d a : BitVec 6) (i : BitVec 13)
  | andiw (d a : BitVec 6) (i : BitVec 13)
  | oriw (d a : BitVec 6) (i : BitVec 13)
  | xoriw (d a : BitVec 6) (i : BitVec 13)
  | shliw (d a : BitVec 6) (n : BitVec 6)
  | shriw (d a : BitVec 6) (n : BitVec 6)
  | sariw (d a : BitVec 6) (n : BitVec 6)
  | sltiw (d a : BitVec 6) (i : BitVec 13)
  | liw (d : BitVec 6) (i : BitVec 19)
  | orsw (d : BitVec 6) (i : BitVec 19)
  | leaw (d a b : BitVec 6) (n : BitVec 6)
  | selw (d a b : BitVec 6)
  -- uniform memory and state registers (R203, R204)
  | ldw (d a : BitVec 6) (i : BitVec 13)
  | stw (r a : BitVec 6) (i : BitVec 13)
  | ldws (d a : BitVec 6) (i : BitVec 13)
  | stws (r a : BitVec 6) (i : BitVec 13)
  | mfs (d : BitVec 6) (r : BitVec 13)
  | mts (a : BitVec 6) (r : BitVec 13)
  -- fences, regions, barriers, launches, checks (R205 to R215)
  | fence (sc : Scope)
  | rgn (p : Policy) (o : BitVec 23)
  | cmt (a : BitVec 6)
  | arrive (d a : BitVec 6) (n : BitVec 7)
  | waitb (a b : BitVec 6)
  | bars (a : BitVec 6) (n : BitVec 7)
  | watch (a : BitVec 6)
  | launch (d a : BitVec 6)
  | vclaim (n : BitVec 7)
  | vrel (n : BitVec 7)
  | sigchk (p : BitVec 24)
  -- batches and counters (R216 to R218)
  | efen (e : Engine) (d r : BitVec 6)
  | ewait (e : Engine) (a : BitVec 6)
  | cwait (a b d : BitVec 6)
  -- copy commands (R219)
  | cpy (store : Bool) (h : BitVec 2) (a b c : BitVec 6)
  | cpyg (store : Bool) (h : BitVec 2) (a b c : BitVec 6)
  | cpyx (store : Bool) (h : BitVec 2) (a b c : BitVec 6)
  | cpyxTt (h : BitVec 2) (a b : BitVec 6)
  -- matrix commands (R313 to R319)
  | tld (x : BitVec 5) (r : BitVec 6) (t : Bool)
  | tldP (x : BitVec 5) (r p : BitVec 6) (t : Bool)
  | tst (x : BitVec 5) (r : BitVec 6) (t : Bool)
  | tstP (x : BitVec 5) (r p : BitVec 6) (t : Bool)
  | mma (x y : BitVec 5) (f : BitVec 6) (d : BitVec 3)
  | mmas (x y : BitVec 5) (f : BitVec 6) (d : BitVec 3)
  | drn (k : DrainKind) (acc : BitVec 3) (d r : BitVec 6) (f : DrainFmt) (z : Bool)
  | azr (d : BitVec 3)
  | ald (d : BitVec 3) (r : BitVec 6)
  | aldMem (d : BitVec 3) (r : BitVec 6)
  -- network, slots, snapshots (R221 to R224)
  | nsend (a : BitVec 6)
  | nwrite (a : BitVec 6)
  | nread (a : BitVec 6)
  | npost (a : BitVec 6)
  | sropen (a d : BitVec 6)
  | srjoin (h v r : BitVec 6)
  | snap (a : BitVec 6)
  | sload (a : BitVec 6)
  | manif (a : BitVec 6)
  -- translation and configuration (R225 to R227)
  | shoot (a b c : BitVec 6)
  | vcdef (d v : BitVec 6)
  | vcflush (d v : BitVec 6) (m : FlushMode)
  | stset (d h r : BitVec 6)
  -- lane integer (R236 to R245)
  | iadd (x : LOp) | isub (x : LOp) | imul (x : LOp) | imulh (x : LOp) | imad (x : LOp)
  | imin (x : LOp) | imax (x : LOp) | iabs (x : LOp)
  | and (x : LOp) | or (x : LOp) | xor (x : LOp) | lut3 (x : LOp)
  | shl (x : LOp) | shr (x : LOp) | sar (x : LOp)
  | popc (x : LOp) | clz (x : LOp) | brev (x : LOp) | bfe (x : LOp) | bfi (x : LOp)
  | iset (x : LOp) | sel (x : LOp) | mov (x : LOp) | alignb (x : LOp) | blut (x : LOp)
  | plog (x : LOp) | movp (x : LOp)
  -- cross-lane (R246 to R251)
  | xchi (x : LOp) | xchu (x : LOp) | xchd (x : LOp) | xchx (x : LOp)
  | vote (x : LOp) | matchl (x : LOp) | gred (x : LOp) | scan (x : LOp) | first (x : LOp)
  -- masks (R252 to R256)
  | mif (x : LOp) | melse (x : LOp) | mend (x : LOp) | mget (x : LOp) | mput (x : LOp) | mbrk (x : LOp)
  -- poison inspection and signature (R257 to R260)
  | sread (x : LOp) | ptst (x : LOp) | pclr (x : LOp) | crumb (x : LOp)
  | lsig (last : Bool) (p : BitVec 24)
  -- lane memory (R261 to R279)
  | ld (x : LOp) | st (x : LOp) | lds (x : LOp) | sts (x : LOp) | ldsx (x : LOp)
  | ldx (x : LOp) | stx (x : LOp) | atom (x : LOp) | red (x : LOp) | atoms (x : LOp) | reds (x : LOp)
  | pref (x : LOp)
  -- lane floating point (R281 to R298)
  | fadd (x : LOp) | fsub (x : LOp) | fmul (x : LOp) | fmadd (x : LOp)
  | fmin (x : LOp) | fmax (x : LOp) | fminn (x : LOp) | fmaxn (x : LOp)
  | fset (x : LOp) | fclass (x : LOp) | frcp (x : LOp) | frsq (x : LOp) | fsqrt (x : LOp) | fdiv (x : LOp)
  | fexp2 (x : LOp) | flog2 (x : LOp) | fsin (x : LOp) | fcos (x : LOp) | ftanh (x : LOp)
  | cvt (x : LOp) | pack (x : LOp) | unpack (x : LOp) | qblk (x : LOp) | dqblk (x : LOp)
  -- writes of state registers (R133, R144, R299, R442, R90)
  | exmWrite (v : BitVec 64)
  | prioWrite (v : BitVec 64)
  | tshWrite (n : BitVec 5) (v : BitVec 64)
  | asidWrite (v : BitVec 64)
  | leaseWrite (v : BitVec 64)
  -- runs, chunks and lines
  | runIssue (slot : BitVec 2)
  | groupStop (k : Nat)
  | chunkClose (k : Nat)
  | arbiterAdmit (k : Nat)
  | replayResume (k : Nat)
  | sigGapTimeout (k : Nat)
  | lineRequest (core : Nat)
  | fillReply (core : Nat)
  | snoop (peer : Nat) (line : Nat)
  | watchTimeout (k : Nat)
  -- fabric
  | fabricReadRequest (q : Req)
  | fabricReadResponse (r : Resp)
  | putReceive (q : Req)
  | remoteAtomicReceive (q : Req)
  | remoteRedReceive (q : Req)
  | putAckReceive (r : Resp)
  | atomicResponse (r : Resp)
  | requestTimeout (id : Nat)
  | holdResponseTimer (id : Nat)
  | retryResend (id : Nat)
  | wcbAgeExpiry (core : Nat) (n : Nat)
  -- shootdown, sharding, memory care
  | shootdownRemove (id : Nat) (rcpt : Nat)
  | shootdownAck (id : Nat) (rcpt : Nat)
  | stsetComplete (k : Nat)
  | patrolScrub (frame : Nat)
  | migrationStart (q : MigReq)
  | migrationSwitch (id : Nat)
  | migrationDone (id : Nat)
  | vcPhaseAdvance (vc : Nat)
  | vcLineMove (vc : Nat) (line : Nat)
  -- engines
  | copyIssue (k : Nat)
  | copyLineComplete (op : Nat)
  | copyResume (op : Nat)
  | matrixIssue (k : Nat)
  | matrixOpStart (op : Nat)
  | matrixOpEnd (op : Nat)
  | networkIssue (k : Nat)
  | workRequestComplete (op : Nat) (ok : Bool)
  | uetAckReceive (asid : BitVec 16) (flow : FlowId) (acked : List Nat) (refused : Bool)
  | uetRetransmitTimeout (asid : BitVec 16) (flow : FlowId) (seq : Nat)
  | slotOpenRequest (q : Req)
  | slotAnswer (m : RespTo) (ans : BitVec 64)
  | slotContribution (q : Req)
  | slotTimeout (slot : BitVec 9)
  | slotResultLand (h : Hdr) (id : Nat) (value : BitVec 64) (status : BitVec 8)
  | gangAckReceive (lid : BitVec 32) (h : Hdr) (status : BitVec 8)
  | gangTimeout (lid : BitVec 32)
  | gangAbortResend (lid : BitVec 32)
  | gangKeyExpiry (origin : BitVec 8) (lid : BitVec 32)
  | snapshotIssue (k : Nat)
  | snapshotOpEnd (op : Nat)
  -- words that are no instruction, fetches that fail, late engine and fabric events
  | illegalControlWord (w : BitVec 32)
  | controlWordFetchFault (cause : BitVec 8)
  | networkLocalPartEnd (op : Nat)
  | holdResponseReceive (m : RespTo)
  | retryResponseReceive (m : RespTo)
  -- launching and scheduling
  | gangAdmit
  | teamActivate (team : Nat)
  | preempt (k : Nat)
  | teamComplete (team : Nat)
  | hostLaunchMessage (hdr : List Byte) (bs : List Byte)
  | parkedTeamTimeout (team : Nat)
  | quantumExpiry (team : Nat)
  -- host messages (R388, R389, R427, R428)
  | ctxcreate (asid : BitVec 16) (pt : BitVec 64) (crumb : BitVec 64) (shard : BitVec 64) (res : BitVec 16)
  | ctxdestroy (asid : BitVec 16)
  | winset (n : BitVec 12) (desc : List Byte)
  | peerset (asid : BitVec 16) (n : BitVec 12) (p : Peer)
  | cntrset (n : BitVec 12) (owner : Option (BitVec 16)) (v : BitVec 64)
  | config (c : ConfigItem)
  | link (port : Nat)
  | status
  | report
  | retest (r : BringUp)
  | fwload (img : List Byte) (digest : List Byte)
  | power (p : Power)
  | syslaunch (asid : BitVec 16) (bs : List Byte)
  | resume (asid : BitVec 16) (lid gang : BitVec 32) (team : BitVec 12) (grp : BitVec 6)
  | withdraw (asid : BitVec 16) (lid : BitVec 32) (all : Bool)
  | pin (pa : BitVec 64) (size : BitVec 64)
  | unpin (pa : BitVec 64) (size : BitVec 64)
  | migrate (asid : BitVec 16) (va : BitVec 64) (n : Nat) (tier : BitVec 8) (die : BitVec 8)
  -- containment, bring-up, links
  | dieHeartbeatTimeout (d : Nat)
  | dieLinkRetrainTimeout (d : Nat)
  | dieFaultDetected (d : Nat)
  | overtempTrip
  | powerOn (r : BringUp)
  | linkLaneFailure (port : Nat)
  | linkRetrainComplete (port : Nat)
  | flitCrcReplay (port : Nat)
  -- messages of other chips, failing shares
  | gangLaunchReceive (h : Hdr) (lid : BitVec 32) (asid : BitVec 16) (bs : List Byte)
  | gangAbortReceive (h : Hdr) (lid : BitVec 32)
  | uetPacketReceive (p : UetPkt)
  | shareRetire (err : ArrayErr)
  deriving DecidableEq, Repr

end Sys2Proof
end

