-- ==== Sys2Proof/Machine/Forms.lean ====
section
/-! DEFINITION. The forms of the instructions: which types, functions, sources, destinations and modifiers each
entry permits (R149, R154 to R157, R162, R235, R252, R261, R274, R281, R290 to R298).
What depends on the group (its registers, its width) is judged when a run issues, in `Machine/Runs.lean`. -/

namespace Sys2Proof

/-! ## Element types -/

/-- Code of a type (R158). -/
def Ty.code : Ty → Nat
  | .i32 => 0 | .n32 => 1 | .i16x2 => 2 | .n16x2 => 3 | .i8x4 => 4 | .n8x4 => 5 | .i64 => 6 | .n64 => 7
  | .f32 => 8 | .f16x2 => 9 | .bf16x2 => 10 | .e4m3x4 => 11 | .e5m2x4 => 12 | .e2m1x8 => 13 | .x2m1x8 => 14
  | .e8m0x4 => 15

/-- The type of a code; codes 16 to 31 are reserved (R158). -/
def Ty.ofCode? : Nat → Option Ty
  | 0 => some .i32 | 1 => some .n32 | 2 => some .i16x2 | 3 => some .n16x2 | 4 => some .i8x4 | 5 => some .n8x4
  | 6 => some .i64 | 7 => some .n64 | 8 => some .f32 | 9 => some .f16x2 | 10 => some .bf16x2 | 11 => some .e4m3x4
  | 12 => some .e5m2x4 | 13 => some .e2m1x8 | 14 => some .x2m1x8 | 15 => some .e8m0x4
  | _ => none

/-- Width of one element in bits (R171). -/
def Ty.bits : Ty → Nat
  | .i32 | .n32 | .f32 => 32
  | .i16x2 | .n16x2 | .f16x2 | .bf16x2 => 16
  | .i8x4 | .n8x4 | .e4m3x4 | .e5m2x4 | .e8m0x4 => 8
  | .i64 | .n64 => 64
  | .e2m1x8 | .x2m1x8 => 4

/-- A 64-bit type, held in an even and odd pair (R130). -/
def Ty.wide (t : Ty) : Bool := t.bits == 64

/-- Operand width in bits: 64 for types 6 and 7, else 32 (R235). -/
def Ty.width (t : Ty) : Nat := if t.wide then 64 else 32

/-- Elements of an operand (R171, R290). -/
def Ty.count (t : Ty) : Nat := t.width / t.bits

/-- The integer types 0 to 7. -/
def Ty.isInt (t : Ty) : Bool := t.code < 8

/-- The signed integer types. -/
def Ty.signed (t : Ty) : Bool := t == .i32 || t == .i16x2 || t == .i8x4 || t == .i64

/-- "Float" of R292: types 8 to 14. -/
def Ty.isFloat (t : Ty) : Bool := 8 ≤ t.code && t.code ≤ 14

/-- Types 0, 1, 6 and 7. -/
def Ty.isWord (t : Ty) : Bool := t == .i32 || t == .n32 || t == .i64 || t == .n64

/-- The MX formats, types 11 to 14. -/
def Ty.isMx (t : Ty) : Bool := 11 ≤ t.code && t.code ≤ 14

/-! ## Forms -/

/-- What a source field may hold. `gen` gives the kinds V, L, U, I and the element width in bits at which an immediate
is read (R155, R229, R282); width 64 is a 64-bit operand. `index` is the index group of R272. -/
inductive SForm where
  | none
  | pred
  | index
  | gen (v l u i : Bool) (bits : Nat)
  deriving DecidableEq, Repr

/-- What an instruction writes (R156). -/
inductive Res where
  | none
  | vec (wide : Bool)
  | pred
  | unif
  deriving DecidableEq, Repr

/-- The form of a lane instruction. `sat1` permits SAT = 01, `sat2` SAT = 10 and 11, `na` NEG and ABS, `scale` and `rm`
those fields. `own` says that IMM16 is the entry's own. `ok` holds the entry's further conditions. -/
structure Form where
  op : Nat
  tyOk : Bool
  fnOk : Bool
  s0 : SForm
  s1 : SForm
  s2 : SForm
  res : Res
  own : Bool
  guard : Bool
  sat1 : Bool
  sat2 : Bool
  na : Bool
  scale : Bool
  rm : Bool
  ok : Bool
  deriving DecidableEq, Repr

/-- A form without modifiers, with FN 0, no own immediate and guards allowed. -/
def Form.plain (op : Nat) (tyOk : Bool) (s0 s1 s2 : SForm) (res : Res) : Form :=
  { op := op, tyOk := tyOk, fnOk := true, s0 := s0, s1 := s1, s2 := s2, res := res, own := false, guard := true,
    sat1 := false, sat2 := false, na := false, scale := false, rm := false, ok := true }

/-- Kinds V, L, U and I. -/
def vlui (bits : Nat) : SForm := .gen true true true true bits

/-- Kinds V, L and U. -/
def vlu (bits : Nat) : SForm := .gen true true true false bits

/-- Kinds V and L. -/
def vl (bits : Nat) : SForm := .gen true true false false bits

/-- Element width at which an immediate of an integer type is read (R229): the listed packed integer types per element,
every other type at the operand width. -/
def Ty.immBits (t : Ty) : Nat := if t.isInt then t.bits else t.width

/-- Integer arithmetic with the modifiers S, N, A and K, where asked for. -/
def intForm (op : Nat) (x : LOp) (s1 s2 : SForm) (s n k : Bool) : Form :=
  { Form.plain op x.ty.isInt (vlui x.ty.immBits) s1 s2 (.vec x.ty.wide) with
    fnOk := x.fn == 0, sat1 := s, na := n && x.ty.signed, scale := k }

/-- Logic on types 0, 1, 6 and 7. -/
def wordForm (op : Nat) (x : LOp) (s0 s1 s2 : SForm) : Form :=
  { Form.plain op x.ty.isWord s0 s1 s2 (.vec x.ty.wide) with fnOk := x.fn == 0 }

/-- Cross-lane exchanges: S1 is a 32-bit count and S2 the fill (R246). S0 is a vector register, as the table has it (R235, log 110). -/
def xchForm (op : Nat) (x : LOp) (fill : Bool) : Form :=
  { Form.plain op true (.gen true false false false x.ty.immBits) (vlui 32)
      (if fill then vlui x.ty.immBits else .none) (.vec x.ty.wide) with fnOk := x.fn == 0 }

/-- `GRED` and `SCAN` (R235): the bitwise functions take no `f32`. -/
def redForm (op : Nat) (x : LOp) (fns : List Nat) (res : Res) : Form :=
  { Form.plain op (x.ty.isWord || x.ty == .f32) (vl x.ty.immBits) .none .none res with
    fnOk := fns.contains x.fn.toNat && (x.ty != .f32 || x.fn.toNat % 8 ≤ 2), na := x.ty.signed || x.ty == .f32 }

/-- The mask instructions (R252): no guard, TY 0, own immediate of the bits in `m`. -/
def maskForm (op : Nat) (x : LOp) (fnOk : Bool) (s0 : SForm) (res : Res) (m : BitVec 16) : Form :=
  { Form.plain op (x.ty == .i32) s0 .none .none res with
    fnOk := fnOk, own := true, guard := false, ok := x.imm &&& ~~~m == 0 }

/-- Memory instructions whose FN holds a size and a hint (R261). -/
def sizeForm (op : Nat) (x : LOp) (s0 s2 : SForm) (res : Res) (hint : Bool) : Form :=
  { Form.plain op x.ty.isWord s0 (vlui 32) s2 res with
    fnOk := ((x.fn.toNat % 4 == 3) == x.ty.wide) && (hint || x.fn.toNat < 4) }

/-- The types of an atomic or reduction operation (R274). -/
def atomTyOk (fn : Nat) (t : Ty) : Bool :=
  match fn with
  | 0 => t.isWord || t == .f32 || t == .f16x2 || t == .bf16x2
  | 1 | 2 => t.isWord || t == .f32 || t == .bf16x2
  | 3 | 4 | 5 | 6 | 7 => t == .n32 || t == .n64
  | 8 | 9 | 10 => t == .i32 || t == .n32 || t == .f32 || t == .bf16x2
  | _ => false

/-- `ATOM`, `RED` and their scratch forms: `fns` bounds FN, 6 and 7 only where `cas`. -/
def atomForm (op : Nat) (x : LOp) (scratch : Bool) (fnOk : Bool) (res : Bool) : Form :=
  let f := x.fn.toNat
  { Form.plain op (atomTyOk f x.ty) (vlu (if scratch then 32 else 64)) (vlui x.ty.immBits)
      (if res && f == 7 then vlui x.ty.immBits else .none) (if res then .vec x.ty.wide else .none) with fnOk := fnOk }

/-- Types 8, 9 and 10. -/
def Ty.isFp (t : Ty) : Bool := t == .f32 || t == .f16x2 || t == .bf16x2

/-- Floating-point arithmetic (R281) with modifiers T, N A, K M. An immediate of a packed type is read per element (R282). -/
def fpForm (op : Nat) (x : LOp) (n : Nat) (t na km : Bool) : Form :=
  { Form.plain op x.ty.isFp (vlui x.ty.bits) (if n ≥ 2 then vlui x.ty.bits else .none)
      (if n ≥ 3 then vlui x.ty.bits else .none) (.vec false) with
    fnOk := x.fn == 0, sat1 := t, sat2 := t, na := na, scale := km, rm := km }

/-- The source type that FN names in a conversion. -/
def LOp.src (x : LOp) : Ty := (Ty.ofCode? x.fn.toNat).getD .i32

/-- NEG and ABS in a conversion: FN names a signed or float type other than E8M0 (R292). -/
def LOp.cvtNa (x : LOp) : Bool := x.src.signed || x.src.isFloat

/-- `CVT`, `PACK` and `UNPACK` share the modifiers of R292. A conversion between integer types does not round, so it honours no RM, in `PACK` and
`UNPACK` as in `CVT` (R172, R292, R294, R295; log 8). -/
def cvtForm (op : Nat) (x : LOp) (tyOk : Bool) (s0 s1 : SForm) (own : Bool) (ok : Bool) : Form :=
  { Form.plain op tyOk s0 s1 .none (.vec x.ty.wide) with
    own := own, sat1 := true, sat2 := x.ty.isFloat, na := x.cvtNa, scale := true, rm := !(x.ty.isInt && x.src.isInt), ok := ok }

/-- First source slot, first destination slot, Z and BLK of `CVT` (R290). -/
def LOp.sq (x : LOp) : Nat := x.imm.toNat % 8
def LOp.dq (x : LOp) : Nat := x.imm.toNat / 8 % 8
def LOp.z (x : LOp) : Bool := x.imm.getLsbD 6
def LOp.blk (x : LOp) : Bool := x.imm.getLsbD 15

/-- Elements that `CVT` converts (R290). -/
def LOp.cvtN (x : LOp) : Nat := min x.src.count x.ty.count

/-- `CVT` merges the other slots from S1 (R290). -/
def LOp.cvtMerge (x : LOp) : Bool := x.cvtN < x.ty.count && !x.z

/-- Conditions of R290 and R293 on `CVT`. -/
def cvtOk (x : LOp) : Bool :=
  let m := x.mods.getD ⟨.none, 0, 0, 0, .rne⟩
  x.imm &&& 0x7F80 == 0 && x.sq + x.cvtN ≤ x.src.count && x.dq + x.cvtN ≤ x.ty.count &&
  (x.cvtN < x.ty.count || !x.z) &&
  (!x.blk || (x.ty.isMx && x.src == .f32 && m.sat == .none && m.rm == .rne))

/-- The pairs of `PACK`: destination and source type (R294). -/
def packOk : Ty → Ty → Bool
  | .f16x2, .f32 | .bf16x2, .f32 => true
  | .i16x2, .i32 | .i16x2, .n32 | .n16x2, .i32 | .n16x2, .n32 => true
  | .e4m3x4, .f16x2 | .e4m3x4, .bf16x2 | .e5m2x4, .f16x2 | .e5m2x4, .bf16x2 => true
  | .i8x4, .i16x2 | .i8x4, .n16x2 | .n8x4, .i16x2 | .n8x4, .n16x2 => true
  | .e2m1x8, .e4m3x4 | .e2m1x8, .e5m2x4 | .x2m1x8, .e4m3x4 | .x2m1x8, .e5m2x4 => true
  | _, _ => false

/-- Element width at which an immediate of a chapter 13 operand of type `t` is read (R282, R229); an 8-bit float type takes 32 bits (log 111). -/
def Ty.fpImmBits (t : Ty) : Nat := if t.isFp then t.bits else t.immBits

/-- The form of every lane instruction but `LSIG`, with its opcode (R159, R235, R261, R281). -/
def laneForm : Instr → Option (LOp × Form)
  | .iadd x => some (x, intForm 0x010 x (vlui x.ty.immBits) .none true true true)
  | .isub x => some (x, intForm 0x011 x (vlui x.ty.immBits) .none true true true)
  | .imul x => some (x, intForm 0x012 x (vlui x.ty.immBits) .none true true true)
  | .imulh x => some (x, intForm 0x013 x (vlui x.ty.immBits) .none false false false)
  | .imad x => some (x, intForm 0x014 x (vlui x.ty.immBits) (vlui x.ty.immBits) true true true)
  | .imin x => some (x, intForm 0x015 x (vlui x.ty.immBits) .none false true false)
  | .imax x => some (x, intForm 0x016 x (vlui x.ty.immBits) .none false true false)
  | .iabs x => some (x, { intForm 0x017 x .none .none true false false with tyOk := x.ty.signed })
  | .and x => some (x, wordForm 0x018 x (vlui x.ty.immBits) (vlui x.ty.immBits) .none)
  | .or x => some (x, wordForm 0x019 x (vlui x.ty.immBits) (vlui x.ty.immBits) .none)
  | .xor x => some (x, wordForm 0x01A x (vlui x.ty.immBits) (vlui x.ty.immBits) .none)
  | .lut3 x => some (x, { wordForm 0x01B x (vlu x.ty.immBits) (vlu x.ty.immBits) (vlu x.ty.immBits) with
      own := true, ok := x.imm &&& 0xFF00 == 0 })
  | .shl x => some (x, intForm 0x01C x (vlui x.ty.immBits) .none false false false)
  | .shr x => some (x, intForm 0x01D x (vlui x.ty.immBits) .none false false false)
  | .sar x => some (x, intForm 0x01E x (vlui x.ty.immBits) .none false false false)
  | .popc x => some (x, wordForm 0x01F x (vlui x.ty.immBits) .none .none)
  | .clz x => some (x, wordForm 0x020 x (vlui x.ty.immBits) .none .none)
  | .brev x => some (x, wordForm 0x021 x (vlui x.ty.immBits) .none .none)
  | .bfe x => some (x, wordForm 0x022 x (vlui x.ty.immBits) (vlui 32) .none)
  | .bfi x => some (x, wordForm 0x023 x (vlui x.ty.immBits) (vlui x.ty.immBits) (vlui 32))
  | .iset x => some (x, { Form.plain 0x024 x.ty.isWord (vlui x.ty.immBits) (vlui x.ty.immBits) .none .pred with
      fnOk := x.fn.toNat ≤ 5 })
  | .sel x => some (x, Form.plain 0x025 true (vlui x.ty.immBits) (vlui x.ty.immBits) .none (.vec x.ty.wide))
  | .mov x => some (x, { Form.plain 0x026 true (vlui x.ty.immBits) .none .none (.vec x.ty.wide) with fnOk := x.fn == 0 })
  | .alignb x => some (x, { wordForm 0x027 x (vlui 32) (vlui 32) (vlui 32) with tyOk := x.ty == .i32 || x.ty == .n32 })
  | .blut x => some (x, { Form.plain 0x028 (x.ty == .n8x4) (vlu 8) (vlui 64) (vlui 64) (.vec false) with
      fnOk := x.fn.toNat ≤ 1 })
  | .plog x => some (x, { Form.plain 0x029 (x.ty == .i32) .pred .pred .pred .pred with
      fnOk := x.fn == 0, own := true, ok := x.imm &&& 0xFF00 == 0 })
  | .movp x => some (x, match x.fn.toNat with
      | 0 => Form.plain 0x02A (x.ty == .i32 || x.ty == .n32) (vlui 32) .none .none .pred
      | 1 => Form.plain 0x02A (x.ty == .i32 || x.ty == .n32) .pred .none .none (.vec false)
      | 2 => Form.plain 0x02A (x.ty == .i32) (.gen false false true false 64) .none .none .pred
      | _ => { Form.plain 0x02A true .none .none .none .pred with fnOk := false })
  | .xchi x => some (x, xchForm 0x040 x false)
  | .xchu x => some (x, xchForm 0x041 x true)
  | .xchd x => some (x, xchForm 0x042 x true)
  | .xchx x => some (x, xchForm 0x043 x false)
  | .vote x => some (x, { Form.plain 0x044 (x.ty == .i32 || x.ty == .n32) (vl 32) .none .none .unif with
      fnOk := x.fn.toNat ≤ 3 })
  | .matchl x => some (x, { wordForm 0x045 x (vl x.ty.immBits) .none .none with res := .vec true })
  | .gred x => some (x, redForm 0x046 x [0, 1, 2, 3, 4, 5] .unif)
  | .scan x => some (x, redForm 0x047 x [0, 1, 2, 3, 4, 5, 8, 9, 10, 11, 12, 13] (.vec x.ty.wide))
  | .first x => some (x, { Form.plain 0x048 (x.ty == .i32 || x.ty == .n32) (vlui 32) .none .none
      (if x.fn == 0 then .pred else .vec false) with fnOk := x.fn.toNat ≤ 2 })
  | .mif x => some (x, { maskForm 0x060 x (!x.imm.getLsbD 1 || x.fn == 0) .none .none 0x0003 with })
  | .melse x => some (x, maskForm 0x061 x (x.fn == 0) .none .none 0)
  | .mend x => some (x, maskForm 0x062 x (x.fn == 0) .none .none 0)
  | .mget x => some (x, maskForm 0x063 x (x.fn.toNat ≤ 2) .none .unif (if x.fn == 0 then 0 else 0x1F00))
  | .mput x => some (x, maskForm 0x064 x (x.fn.toNat ≤ 1) (.gen false false true false 64) .none 0)
  | .mbrk x => some (x, maskForm 0x065 x true .none .none 0x1F01)
  | .sread x => some (x, { Form.plain 0x070 (x.ty == .n32) .none .none .none (.vec false) with fnOk := x.fn.toNat ≤ 7 })
  | .ptst x => some (x, { Form.plain 0x071 (x.ty == .n32 || x.ty == .n64) (vlu x.ty.immBits) .none .none .pred with
      fnOk := x.fn == 0 })
  | .pclr x => some (x, { Form.plain 0x072 (x.ty == .n32 || x.ty == .n64) (vlu x.ty.immBits) (vlui x.ty.immBits) .none
      (.vec x.ty.wide) with fnOk := x.fn == 0 })
  | .crumb x => some (x, { Form.plain 0x073 (x.ty == .n32) (vl 32) .none .none (.vec false) with fnOk := x.fn == 0 })
  | .ld x => some (x, sizeForm 0x080 x (vlu 64) .none (.vec x.ty.wide) true)
  | .st x => some (x, sizeForm 0x081 x (vlu 64) (vlui x.ty.immBits) .none false)
  | .lds x => some (x, sizeForm 0x082 x (vlu 32) .none (.vec x.ty.wide) false)
  | .sts x => some (x, sizeForm 0x083 x (vlu 32) (vlui x.ty.immBits) .none false)
  | .ldsx x => some (x, { Form.plain 0x084 (x.ty.bits < 32 && x.ty.isInt) (vlu 32) (vlui 32) .none (.vec false) with
      fnOk := x.fn == 0 })
  | .ldx x => some (x, { Form.plain 0x085 x.ty.isWord .index (.gen false false true false 32) .none (.vec x.ty.wide) with
      own := true })
  | .stx x => some (x, { Form.plain 0x086 x.ty.isWord .index (.gen false false true false 32) (vlu x.ty.immBits) .none with
      own := true, fnOk := x.fn.toNat < 4 })
  | .atom x => some (x, atomForm 0x087 x false (x.fn.toNat ≤ 7) true)
  | .red x => some (x, atomForm 0x088 x false (x.fn.toNat ≤ 5 || 8 ≤ x.fn.toNat) false)
  | .atoms x => some (x, atomForm 0x089 x true (x.fn.toNat ≤ 7) true)
  | .reds x => some (x, atomForm 0x08A x true (x.fn.toNat ≤ 5) false)
  | .pref x => some (x, { Form.plain 0x08B (x.ty == .i32) (vlu 64) (vlui 32) .none .none with
      fnOk := x.fn.toNat % 4 ≤ 1 })
  | .fadd x => some (x, fpForm 0x0C0 x 2 true true true)
  | .fsub x => some (x, fpForm 0x0C1 x 2 true true true)
  | .fmul x => some (x, fpForm 0x0C2 x 2 true true true)
  | .fmadd x => some (x, fpForm 0x0C3 x 3 true true true)
  | .fmin x => some (x, fpForm 0x0C4 x 2 false true false)
  | .fmax x => some (x, fpForm 0x0C5 x 2 false true false)
  | .fminn x => some (x, fpForm 0x0C6 x 2 false true false)
  | .fmaxn x => some (x, fpForm 0x0C7 x 2 false true false)
  | .fset x => some (x, { fpForm 0x0C8 x 2 false true false with tyOk := x.ty == .f32, fnOk := x.fn.toNat ≤ 7, res := .pred })
  | .fclass x => some (x, fpForm 0x0C9 x 1 false false false)
  | .frcp x => some (x, fpForm 0x0CA x 1 true true true)
  | .frsq x => some (x, fpForm 0x0CB x 1 true true false)
  | .fsqrt x => some (x, fpForm 0x0CC x 1 true true true)
  | .fdiv x => some (x, fpForm 0x0CD x 2 true true true)
  | .fexp2 x => some (x, fpForm 0x0CE x 1 true true false)
  | .flog2 x => some (x, fpForm 0x0CF x 1 true true false)
  | .fsin x => some (x, fpForm 0x0D0 x 1 true true false)
  | .fcos x => some (x, fpForm 0x0D1 x 1 true true false)
  | .ftanh x => some (x, fpForm 0x0D2 x 1 true true false)
  | .cvt x => some (x, cvtForm 0x0D3 x true (vlu x.src.immBits) (if x.cvtMerge then vlu 32 else .none) true (cvtOk x))
  | .pack x => some (x, cvtForm 0x0D4 x (packOk x.ty x.src) (vlui x.src.fpImmBits) (vlui x.src.fpImmBits) false true)
  | .unpack x => some (x, cvtForm 0x0D5 x (packOk x.src x.ty) (vlu 32) .none true (x.imm.toNat ≤ 1))
  | .qblk x => some (x, { Form.plain 0x0D6 x.ty.isMx (vlui 32) .none .none (.vec false) with
      fnOk := x.fn == 0, na := true, scale := true })
  | .dqblk x => some (x, { Form.plain 0x0D7 (x.ty == .f32) (vlu 32) (vlu 32) .none (.vec false) with
      fnOk := x.src.isMx, own := true, sat1 := true, sat2 := true, rm := true,
      ok := x.imm.toNat < 8 && x.sq < x.src.count })
  | _ => none

/-! ## Checks of one field -/

/-- A source field against its form (R154, R155, R229, R244). `own` says that IMM16 is the entry's own. -/
def srcOk (f : SForm) (own : Bool) (imm : BitVec 16) : Src → Bool
  | .vec n bc =>
    match f with
    | .none => n == 0 && bc == .none
    | .pred => n.toNat < 16 && bc == .none
    | .index => true
    | .gen v _ _ _ b => v && (b != 64 || n.toNat % 2 == 0)
  | .lat n =>
    match f with
    | .index => true
    | .gen _ l _ _ b => l && (b != 64 || n.toNat % 2 == 0)
    | _ => false
  | .unif _ =>
    match f with
    | .index => true
    | .gen _ _ u _ _ => u
    | _ => false
  | .imm high =>
    match f with
    | .gen _ _ _ i b =>
      i && !own && (!high || b == 32) && (b != 8 || imm.toNat / 256 == 0 || imm.toNat / 256 == 255)
    | _ => false

/-- The index group of `LDX` and `STX` with `m` indices (R272). -/
def indexOk (m : Nat) : Src → Bool
  | .vec n bc => (m == 1 || bc == .none) && (m != 2 || n.toNat % 2 == 0) && (m < 3 || n.toNat % 4 == 0)
  | .lat _ => m == 1
  | .unif _ => m ≤ 2
  | .imm _ => false

/-- A source broadcasts lane BL. -/
def Src.usesBl : Src → Bool
  | .vec _ .lane => true
  | _ => false

/-- The destination field (R139, R156, R232). -/
def dstOk (r : Res) (d : Dst) : Bool :=
  match r with
  | .none => !d.ws && d.dl == 0 && d.num == 0
  | .vec wide => (!d.ws || d.num == 0) && (!wide || (d.num.toNat % 2 == 0 && d.dl.toNat % 2 == 0))
  | .pred => !d.ws && d.dl == 0 && d.num.toNat < 16
  | .unif => !d.ws && d.dl == 0 && d.num.toNat < 64

/-- The modifier word (R157): every nonzero field is one the entry honours, and the entry honours some. Where it honours NEG and ABS for a signed type
alone, an unsigned one takes no modifier word (R235, log 108). -/
def modsOk (f : Form) : Option Mods → Bool
  | none => true
  | some m =>
    (f.sat1 || f.sat2 || f.na || f.scale || f.rm) &&
    (match m.sat with | .none => true | .type => f.sat1 | .c01 => f.sat2 | .c11 => f.sat2) &&
    (f.na || (m.neg == 0 && m.abs == 0)) && (f.scale || m.scale == 0) && (f.rm || m.rm == .rne)

/-- The checks of R162 that the fields of one lane word decide. -/
def LOp.legal (x : LOp) (f : Form) : Bool :=
  f.tyOk && f.fnOk && f.ok && (f.guard || x.guard == none) &&
  srcOk f.s0 f.own x.imm x.s0 && srcOk f.s1 f.own x.imm x.s1 && srcOk f.s2 f.own x.imm x.s2 &&
  (f.s0 != .index || indexOk (x.fn.toNat % 4 + 1) x.s0) &&
  (x.s0.usesBl || x.s1.usesBl || x.s2.usesBl || x.bl == 0) &&
  dstOk f.res x.dst && modsOk f x.mods

/-- The checks of R149, R152, R201, R206, R213, R214 and R106 on a control word that the operand types leave open. -/
def controlLegal : Instr → Bool
  | .rgn .recover o => o != 0
  | .vclaim n => 1 ≤ n.toNat && n.toNat ≤ 32
  | .vrel n => 1 ≤ n.toNat && n.toNat ≤ 31
  | .cpy _ _ a _ _ => a.toNat ≤ 60
  | .cpyg _ _ a _ _ => a.toNat ≤ 60
  | _ => true

/-- An instruction that the encodings admit. A step or event of the table has no encoding and is always admitted. -/
def legal (i : Instr) : Bool :=
  controlLegal i && match laneForm i with | some (x, f) => x.legal f | none => true

end Sys2Proof
end

