-- ==== Sys2Proof/WellFormed.lean ====
section
/-! DEFINITION. Which terms of `Instr` stand for an instruction of the spec. The forms are in `Machine/Forms.lean`. -/

namespace Sys2Proof

/-- `i` is an instruction: every field obeys the entry's form (R149, R154 to R157, R162). -/
def Instr.WellFormed (i : Instr) : Prop := legal i = true

/-- The control words, rows 0 to 91 of the table (R150). -/
def Instr.isControl : Instr → Bool
  | .nop | .br _ | .brc _ _ _ _ | .brz _ _ | .brnz _ _ | .call _ | .jmpr _ | .callr _ _ | .lblk _ _ | .lblkr _ | .lwait
  | .yield _ _ _ | .endg | .brk _ | .sysc _ | .addw _ _ _ | .subw _ _ _ | .andw _ _ _ | .orw _ _ _ | .xorw _ _ _
  | .shlw _ _ _ | .shrw _ _ _ | .sarw _ _ _ | .minw _ _ _ | .maxw _ _ _ | .minuw _ _ _ | .maxuw _ _ _ | .mulw _ _ _
  | .mulhw _ _ _ | .mulhuw _ _ _ | .sltw _ _ _ | .sltuw _ _ _ | .seqw _ _ _ | .addiw _ _ _ | .andiw _ _ _ | .oriw _ _ _
  | .xoriw _ _ _ | .shliw _ _ _ | .shriw _ _ _ | .sariw _ _ _ | .sltiw _ _ _ | .liw _ _ | .orsw _ _ | .leaw _ _ _ _
  | .selw _ _ _ | .ldw _ _ _ | .stw _ _ _ | .ldws _ _ _ | .stws _ _ _ | .mfs _ _ | .mts _ _ | .fence _ | .rgn _ _
  | .cmt _ | .arrive _ _ _ | .waitb _ _ | .bars _ _ | .watch _ | .launch _ _ | .vclaim _ | .vrel _ | .sigchk _
  | .efen _ _ _ | .ewait _ _ | .cwait _ _ _ | .cpy _ _ _ _ _ | .cpyg _ _ _ _ _ | .cpyx _ _ _ _ _ | .cpyxTt _ _ _
  | .tld _ _ _ | .tldP _ _ _ _ | .tst _ _ _ | .tstP _ _ _ _ | .mma _ _ _ _ | .mmas _ _ _ _ | .drn _ _ _ _ _ _ | .azr _
  | .ald _ _ | .aldMem _ _ | .nsend _ | .nwrite _ | .nread _ | .npost _ | .sropen _ _ | .srjoin _ _ _ | .snap _ | .sload _
  | .manif _ | .shoot _ _ _ | .vcdef _ _ | .vcflush _ _ _ | .stset _ _ _ => true
  | _ => false

/-- The lane words, rows 92 to 174 (R159). -/
def Instr.isLane (i : Instr) : Bool :=
  match i with
  | .lsig _ _ => true
  | _ => (laneForm i).isSome

end Sys2Proof
end

