-- ==== Sys2Proof/Decode.lean ====
section
/-! DEFINITION. Decoding of control words (R147 to R152) and lane words (R153 to R159), and the encoder.
Both are total; what is no instruction is rejected by name (R162). -/

namespace Sys2Proof

/-- Why bytes are no instruction: too few of them, or an encoding of R162. -/
inductive Reject where
  | truncated
  | illegalOp
  deriving DecidableEq, Repr

/-! ## Codes -/

def Cond.ofCode? : Nat → Option Cond
  | 0 => some .eq | 1 => some .ne | 2 => some .lt | 3 => some .ge | 4 => some .ltu | 5 => some .geu | _ => none

def Cond.code : Cond → BitVec 3
  | .eq => 0 | .ne => 1 | .lt => 2 | .ge => 3 | .ltu => 4 | .geu => 5

def Engine.ofCode? : Nat → Option Engine
  | 0 => some .copy | 1 => some .matrix | 2 => some .network | 3 => some .snapshot | _ => none

def Engine.code : Engine → BitVec 3
  | .copy => 0 | .matrix => 1 | .network => 2 | .snapshot => 3

def Policy.ofCode? : Nat → Option Policy
  | 0 => some .replay | 1 => some .recover | 2 => some .drop | _ => none

def Policy.code : Policy → BitVec 2
  | .replay => 0 | .recover => 1 | .drop => 2

def Scope.ofCode? : Nat → Option Scope
  | 0 => some .group | 1 => some .team | 2 => some .core | 3 => some .die | 4 => some .pkg | 5 => some .sys | _ => none

def Scope.code : Scope → BitVec 3
  | .group => 0 | .team => 1 | .core => 2 | .die => 3 | .pkg => 4 | .sys => 5

def FlushMode.ofCode? : Nat → Option FlushMode
  | 0 => some .clean | 1 => some .inval | 2 => some .zero | _ => none

def FlushMode.code : FlushMode → BitVec 13
  | .clean => 0 | .inval => 1 | .zero => 2

def DrainKind.ofCode? : Nat → Option DrainKind
  | 0 => some .scratch | 1 => some .mem | 2 => some .tile | _ => none

def DrainKind.code : DrainKind → BitVec 2
  | .scratch => 0 | .mem => 1 | .tile => 2

def DrainFmt.ofCode? : Nat → Option DrainFmt
  | 0 => some .w32 | 1 => some .bf16 | 2 => some .f16 | 3 => some .e4m3 | 4 => some .e5m2 | 5 => some .e2m1
  | 6 => some .x2m1 | _ => none

def DrainFmt.code : DrainFmt → BitVec 3
  | .w32 => 0 | .bf16 => 1 | .f16 => 2 | .e4m3 => 3 | .e5m2 => 4 | .e2m1 => 5 | .x2m1 => 6

def Sat.ofCode : Nat → Sat
  | 0 => .none | 1 => .type | 2 => .c01 | _ => .c11

def Sat.code : Sat → BitVec 2
  | .none => 0 | .type => 1 | .c01 => 2 | .c11 => 3

def Rm.ofCode? : Nat → Option Rm
  | 0 => some .rne | 1 => some .rz | 2 => some .rd | 3 => some .ru | 4 => some .rna | _ => none

def Rm.code : Rm → BitVec 3
  | .rne => 0 | .rz => 1 | .rd => 2 | .ru => 3 | .rna => 4

/-! ## Control words -/

/-- `n` bits of a control word from bit `lo` up. -/
def fld (w : BitVec 32) (lo n : Nat) : BitVec n := w.extractLsb' lo n

/-- `i` where the fields that must be zero are zero. -/
def only (c : Bool) (i : Instr) : Option Instr := if c then some i else none

/-- The WALU function `fn` of R151. -/
def walu (d a b : BitVec 6) : Nat → Option Instr
  | 0 => some (.addw d a b) | 1 => some (.subw d a b) | 2 => some (.andw d a b) | 3 => some (.orw d a b)
  | 4 => some (.xorw d a b) | 5 => some (.shlw d a b) | 6 => some (.shrw d a b) | 7 => some (.sarw d a b)
  | 8 => some (.minw d a b) | 9 => some (.maxw d a b) | 10 => some (.minuw d a b) | 11 => some (.maxuw d a b)
  | 12 => some (.mulw d a b) | 13 => some (.mulhw d a b) | 14 => some (.mulhuw d a b) | 15 => some (.sltw d a b)
  | 16 => some (.sltuw d a b) | 17 => some (.seqw d a b)
  | _ => none

/-- The instruction a control word stands for by its own fields; limits on operands are `legal`'s. -/
def parseControl (w : BitVec 32) : Option Instr :=
  let d := fld w 19 6
  let a := fld w 13 6
  let b := fld w 7 6
  let fn := fld w 0 7
  let i13 := fld w 0 13
  let sub := fld w 20 5
  let ca := fld w 14 6
  let cb := fld w 8 6
  let cc := fld w 2 6
  let fl := fld w 0 2
  let ya := fld w 16 6
  match (fld w 25 7).toNat with
  | 0x01 => only (fld w 0 25 == 0) .nop
  | 0x02 => some (.br (fld w 0 25))
  | 0x03 => (Cond.ofCode? (fld w 22 3).toNat).map fun c => .brc c ya (fld w 10 6) (fld w 0 10)
  | 0x04 => some (.brz d (fld w 0 19))
  | 0x05 => some (.brnz d (fld w 0 19))
  | 0x06 => some (.call (fld w 0 25))
  | 0x07 => only (d == 0 && b == 0 && fn == 0) (.jmpr a)
  | 0x08 => only (b == 0 && fn == 0) (.callr d a)
  | 0x09 => some (.lblk sub (fld w 0 20))
  | 0x0A => only (d == 0 && b == 0 && fn == 0) (.lblkr a)
  | 0x0B => only (fld w 0 25 == 0) .lwait
  | 0x0C => (Engine.ofCode? (fld w 22 3).toNat).map fun e => .yield e ya (fld w 0 16)
  | 0x0D => only (fld w 0 25 == 0) .endg
  | 0x0E => only (d == 0) (.brk (fld w 0 19))
  | 0x0F => only (d == 0) (.sysc (fld w 0 19))
  | 0x10 => walu d a b fn.toNat
  | 0x11 => some (.addiw d a i13)
  | 0x12 => some (.andiw d a i13)
  | 0x13 => some (.oriw d a i13)
  | 0x14 => some (.xoriw d a i13)
  | 0x15 => only (fld w 6 7 == 0) (.shliw d a (fld w 0 6))
  | 0x16 => only (fld w 6 7 == 0) (.shriw d a (fld w 0 6))
  | 0x17 => only (fld w 6 7 == 0) (.sariw d a (fld w 0 6))
  | 0x18 => some (.sltiw d a i13)
  | 0x19 => some (.liw d (fld w 0 19))
  | 0x1A => some (.orsw d (fld w 0 19))
  | 0x1B => only (fld w 6 1 == 0) (.leaw d a b (fld w 0 6))
  | 0x1C => only (fn == 0) (.selw d a b)
  | 0x1D => some (.ldw d a i13)
  | 0x1E => some (.stw d a i13)
  | 0x1F => some (.ldws d a i13)
  | 0x20 => some (.stws d a i13)
  | 0x21 => only (a == 0) (.mfs d i13)
  | 0x22 => only (a == 0) (.mts d i13)
  | 0x23 => if d == 0 && fld w 3 16 == 0 then (Scope.ofCode? (fld w 0 3).toNat).map .fence else none
  | 0x24 => (Policy.ofCode? (fld w 23 2).toNat).map fun p => .rgn p (fld w 0 23)
  | 0x25 => only (d == 0 && b == 0 && fn == 0) (.cmt a)
  | 0x26 => only (b == 0) (.arrive d a fn)
  | 0x27 => only (d == 0 && fn == 0) (.waitb a b)
  | 0x28 => only (d == 0 && b == 0) (.bars a fn)
  | 0x29 => only (d == 0 && b == 0 && fn == 0) (.watch a)
  | 0x2A => only (b == 0 && fn == 0) (.launch d a)
  | 0x2B => only (d == 0 && a == 0 && b == 0) (.vclaim fn)
  | 0x2C => only (d == 0 && a == 0 && b == 0) (.vrel fn)
  | 0x2D => only (fld w 24 1 == 0) (.sigchk (fld w 0 24))
  | 0x2E => if fld w 20 2 == 0 && fld w 0 8 == 0 then (Engine.ofCode? (fld w 22 3).toNat).map fun e => .efen e ca cb
            else none
  | 0x2F => if fld w 0 16 == 0 then (Engine.ofCode? (fld w 22 3).toNat).map fun e => .ewait e ya else none
  | 0x30 => only (sub == 0 && fl == 0) (.cwait ca cb cc)
  | 0x31 => only (fld w 24 1 == 0 && fld w 20 1 == 0 && fl == 0) (.cpy (w.getLsbD 23) (fld w 21 2) ca cb cc)
  | 0x32 => only (fld w 24 1 == 0 && fld w 20 1 == 0 && fl == 0) (.cpyg (w.getLsbD 23) (fld w 21 2) ca cb cc)
  | 0x33 =>
    if fld w 20 1 == 0 && fl == 0 then
      if fld w 24 1 == 0 then some (.cpyx (w.getLsbD 23) (fld w 21 2) ca cb cc)
      else only (fld w 23 1 == 0 && cc == 0) (.cpyxTt (fld w 21 2) ca cb)
    else none
  | 0x34 => if cc == 0 then
      if fld w 1 1 == 0 then only (cb == 0) (.tld sub ca (w.getLsbD 0)) else some (.tldP sub ca cb (w.getLsbD 0))
    else none
  | 0x35 => if cc == 0 then
      if fld w 1 1 == 0 then only (cb == 0) (.tst sub ca (w.getLsbD 0)) else some (.tstP sub ca cb (w.getLsbD 0))
    else none
  | 0x36 => only (fld w 19 1 == 0 && fld w 5 3 == 0 && fl == 0) (.mma sub (fld w 14 5) cb (fld w 2 3))
  | 0x37 => only (fld w 19 1 == 0 && fld w 5 3 == 0 && fl == 0) (.mmas sub (fld w 14 5) cb (fld w 2 3))
  | 0x38 => if fld w 5 3 == 0 && fld w 1 1 == 0 then
      (DrainKind.ofCode? (fld w 23 2).toNat).bind fun k => (DrainFmt.ofCode? (fld w 2 3).toNat).map fun f =>
        .drn k (fld w 20 3) ca cb f (w.getLsbD 0)
    else none
  | 0x39 => only (fld w 23 2 == 0 && fld w 0 20 == 0) (.azr (fld w 20 3))
  | 0x3A => if fld w 23 2 == 0 && cb == 0 && cc == 0 && fld w 1 1 == 0 then
      (if w.getLsbD 0 then some (.aldMem (fld w 20 3) ca) else some (.ald (fld w 20 3) ca)) else none
  | 0x3B => only (sub == 0 && fld w 0 14 == 0) (.nsend ca)
  | 0x3C => only (sub == 0 && fld w 0 14 == 0) (.nwrite ca)
  | 0x3D => only (sub == 0 && fld w 0 14 == 0) (.nread ca)
  | 0x3E => only (sub == 0 && fld w 0 14 == 0) (.npost ca)
  | 0x3F => only (sub == 0 && cb == 0 && fl == 0) (.sropen ca cc)
  | 0x40 => only (sub == 0 && fl == 0) (.srjoin ca cb cc)
  | 0x41 => only (sub == 0 && fld w 0 14 == 0) (.snap ca)
  | 0x42 => only (sub == 0 && fld w 0 14 == 0) (.sload ca)
  | 0x43 => only (sub == 0 && fld w 0 14 == 0) (.manif ca)
  | 0x44 => only (sub == 0 && fl == 0) (.shoot ca cb cc)
  | 0x45 => only (b == 0 && fn == 0) (.vcdef d a)
  | 0x46 => (FlushMode.ofCode? i13.toNat).map fun m => .vcflush d a m
  | 0x47 => only (fn == 0) (.stset d a b)
  | _ => none

/-- The instruction of a control word, none for an encoding of R162. -/
def decodeControl (w : BitVec 32) : Option Instr :=
  match parseControl w with
  | some i => only (controlLegal i) i
  | none => none

/-! ## Lane words -/

def Bc.ofCode? : Nat → Option Bc
  | 0 => some .none | 1 => some .lane | 2 => some .first | _ => none

def Bc.code : Bc → BitVec 2
  | .none => 0 | .lane => 1 | .first => 2

/-- A source field: KIND [11:10], NUM [9:2], BC [1:0] (R154, R155). -/
def parseSrc (s : BitVec 12) : Option Src :=
  let num := s.extractLsb' 2 8
  let bc := s.extractLsb' 0 2
  match (s.extractLsb' 10 2).toNat with
  | 0 => (Bc.ofCode? bc.toNat).map fun b => .vec num b
  | 1 => if num.extractLsb' 2 6 == 0 && bc == 0 then some (.lat (num.extractLsb' 0 2)) else none
  | 2 => if num.extractLsb' 6 2 == 0 && bc == 0 then some (.unif (num.extractLsb' 0 6)) else none
  | _ => if num.extractLsb' 1 7 == 0 && bc == 0 then some (.imm (num.getLsbD 0)) else none

/-- The encoding of a source. -/
def Src.encode : Src → BitVec 12
  | .vec n b => 0#2 ++ n ++ b.code
  | .lat n => 1#2 ++ (0#6 ++ n) ++ 0#2
  | .unif n => 2#2 ++ (0#2 ++ n) ++ 0#2
  | .imm h => 3#2 ++ (0#7 ++ BitVec.ofBool h) ++ 0#2

/-- The guard field G (R156): none where it breaks R156. -/
def parseGuard (g : BitVec 6) : Option (Option Guard) :=
  if g.getLsbD 5 then some (some ⟨g.getLsbD 4, g.extractLsb' 0 4⟩)
  else if g.extractLsb' 0 5 == 0 then some none
  else none

def encodeGuard : Option Guard → BitVec 6
  | none => 0
  | some g => 1#1 ++ BitVec.ofBool g.inv ++ g.p

/-- The destination field D (R153). -/
def parseDst (d : BitVec 11) : Dst := ⟨d.getLsbD 10, d.extractLsb' 8 2, d.extractLsb' 0 8⟩

def Dst.encode (d : Dst) : BitVec 11 := BitVec.ofBool d.ws ++ d.dl ++ d.num

/-- The modifier word (R157). -/
def parseMods (m : BitVec 32) : Option Mods :=
  if m.extractLsb' 0 15 == 0 then
    (Rm.ofCode? (m.extractLsb' 15 3).toNat).map fun r =>
      ⟨Sat.ofCode (m.extractLsb' 30 2).toNat, m.extractLsb' 27 3, m.extractLsb' 24 3, m.extractLsb' 18 6, r⟩
  else none

def Mods.encode (m : Mods) : BitVec 32 := m.sat.code ++ m.neg ++ m.abs ++ m.scale ++ m.rm.code ++ 0#15

/-- The lane instruction of an opcode (R159); `LSIG` has a layout of its own. -/
def mkLane (op : Nat) (x : LOp) : Option Instr :=
  match op with
  | 0x010 => some (.iadd x)
  | 0x011 => some (.isub x)
  | 0x012 => some (.imul x)
  | 0x013 => some (.imulh x)
  | 0x014 => some (.imad x)
  | 0x015 => some (.imin x)
  | 0x016 => some (.imax x)
  | 0x017 => some (.iabs x)
  | 0x018 => some (.and x)
  | 0x019 => some (.or x)
  | 0x01A => some (.xor x)
  | 0x01B => some (.lut3 x)
  | 0x01C => some (.shl x)
  | 0x01D => some (.shr x)
  | 0x01E => some (.sar x)
  | 0x01F => some (.popc x)
  | 0x020 => some (.clz x)
  | 0x021 => some (.brev x)
  | 0x022 => some (.bfe x)
  | 0x023 => some (.bfi x)
  | 0x024 => some (.iset x)
  | 0x025 => some (.sel x)
  | 0x026 => some (.mov x)
  | 0x027 => some (.alignb x)
  | 0x028 => some (.blut x)
  | 0x029 => some (.plog x)
  | 0x02A => some (.movp x)
  | 0x040 => some (.xchi x)
  | 0x041 => some (.xchu x)
  | 0x042 => some (.xchd x)
  | 0x043 => some (.xchx x)
  | 0x044 => some (.vote x)
  | 0x045 => some (.matchl x)
  | 0x046 => some (.gred x)
  | 0x047 => some (.scan x)
  | 0x048 => some (.first x)
  | 0x060 => some (.mif x)
  | 0x061 => some (.melse x)
  | 0x062 => some (.mend x)
  | 0x063 => some (.mget x)
  | 0x064 => some (.mput x)
  | 0x065 => some (.mbrk x)
  | 0x070 => some (.sread x)
  | 0x071 => some (.ptst x)
  | 0x072 => some (.pclr x)
  | 0x073 => some (.crumb x)
  | 0x080 => some (.ld x)
  | 0x081 => some (.st x)
  | 0x082 => some (.lds x)
  | 0x083 => some (.sts x)
  | 0x084 => some (.ldsx x)
  | 0x085 => some (.ldx x)
  | 0x086 => some (.stx x)
  | 0x087 => some (.atom x)
  | 0x088 => some (.red x)
  | 0x089 => some (.atoms x)
  | 0x08A => some (.reds x)
  | 0x08B => some (.pref x)
  | 0x0C0 => some (.fadd x)
  | 0x0C1 => some (.fsub x)
  | 0x0C2 => some (.fmul x)
  | 0x0C3 => some (.fmadd x)
  | 0x0C4 => some (.fmin x)
  | 0x0C5 => some (.fmax x)
  | 0x0C6 => some (.fminn x)
  | 0x0C7 => some (.fmaxn x)
  | 0x0C8 => some (.fset x)
  | 0x0C9 => some (.fclass x)
  | 0x0CA => some (.frcp x)
  | 0x0CB => some (.frsq x)
  | 0x0CC => some (.fsqrt x)
  | 0x0CD => some (.fdiv x)
  | 0x0CE => some (.fexp2 x)
  | 0x0CF => some (.flog2 x)
  | 0x0D0 => some (.fsin x)
  | 0x0D1 => some (.fcos x)
  | 0x0D2 => some (.ftanh x)
  | 0x0D3 => some (.cvt x)
  | 0x0D4 => some (.pack x)
  | 0x0D5 => some (.unpack x)
  | 0x0D6 => some (.qblk x)
  | 0x0D7 => some (.dqblk x)
  | _ => none

/-- Bit M of a lane word: a modifier word follows. -/
def laneHasMods (w : BitVec 96) : Bool := w.getLsbD 94

/-- Bit B of a lane word: it ends its run. -/
def laneEndsRun (w : BitVec 96) : Bool := w.getLsbD 95

/-- Opcode of a lane word. -/
def laneOp (w : BitVec 96) : BitVec 10 := w.extractLsb' 84 10

/-- `LSIG`: the praline in FN, TY[3:0] and IMM16, every other field zero (R260). -/
def parseLsig (w : BitVec 96) : Option Instr :=
  if w.extractLsb' 24 60 == 0 && !laneHasMods w then
    some (.lsig (laneEndsRun w) (w.extractLsb' 16 4 ++ w.extractLsb' 20 4 ++ w.extractLsb' 0 16))
  else none

/-- The operand fields of a lane word with modifier word `m`. -/
def parseLOp (w : BitVec 96) (m : BitVec 32) : Option LOp :=
  match parseGuard (w.extractLsb' 78 6), parseSrc (w.extractLsb' 55 12), parseSrc (w.extractLsb' 43 12),
    parseSrc (w.extractLsb' 31 12), Ty.ofCode? (w.extractLsb' 20 5).toNat with
  | some g, some a, some b, some c, some t =>
    let x (ms : Option Mods) : LOp :=
      ⟨laneEndsRun w, g, parseDst (w.extractLsb' 67 11), a, b, c, w.extractLsb' 25 6, t, w.extractLsb' 16 4,
        w.extractLsb' 0 16, ms⟩
    if laneHasMods w then (parseMods m).map fun q => x (some q) else some (x none)
  | _, _, _, _, _ => none

/-- The instruction of a lane word, none for an encoding of R162. `m` is the word that follows, read when M = 1. -/
def decodeLane (w : BitVec 96) (m : BitVec 32) : Option Instr :=
  if laneOp w == 0x074 then parseLsig w
  else match parseLOp w m with
    | some x =>
      match mkLane (laneOp w).toNat x with
      | some i => only (legal i) i
      | none => none
    | none => none

/-! ## The encoder -/

/-- A control word of the CR format (R147). -/
def wCR (op : BitVec 7) (d a b : BitVec 6) (fn : BitVec 7) : BitVec 32 := op ++ d ++ a ++ b ++ fn

/-- The CI format. -/
def wCI (op : BitVec 7) (d a : BitVec 6) (i : BitVec 13) : BitVec 32 := op ++ d ++ a ++ i

/-- The CJ format. -/
def wCJ (op : BitVec 7) (o : BitVec 25) : BitVec 32 := op ++ o

/-- The CU and CZ formats. -/
def wCU (op : BitVec 7) (d : BitVec 6) (i : BitVec 19) : BitVec 32 := op ++ d ++ i

/-- The CE format. -/
def wCE (op : BitVec 7) (sub : BitVec 5) (a b c : BitVec 6) (fl : BitVec 2) : BitVec 32 := op ++ sub ++ a ++ b ++ c ++ fl

/-- The CY format. -/
def wCY (op : BitVec 7) (e : BitVec 3) (a : BitVec 6) (o : BitVec 16) : BitVec 32 := op ++ e ++ a ++ o

/-- The word of a control instruction, none for an instruction that is no control word. -/
def encodeControl : Instr → Option (BitVec 32)
  | .nop => some (wCJ 0x01 0)
  | .br o => some (wCJ 0x02 o)
  | .brc c a b o => some (0x03#7 ++ c.code ++ a ++ b ++ o)
  | .brz a o => some (wCU 0x04 a o)
  | .brnz a o => some (wCU 0x05 a o)
  | .call o => some (wCJ 0x06 o)
  | .jmpr a => some (wCR 0x07 0 a 0 0)
  | .callr d a => some (wCR 0x08 d a 0 0)
  | .lblk n i => some (0x09#7 ++ n ++ i)
  | .lblkr a => some (wCR 0x0A 0 a 0 0)
  | .lwait => some (wCJ 0x0B 0)
  | .yield e a o => some (wCY 0x0C e.code a o)
  | .endg => some (wCJ 0x0D 0)
  | .brk k => some (wCU 0x0E 0 k)
  | .sysc k => some (wCU 0x0F 0 k)
  | .addw d a b => some (wCR 0x10 d a b 0)
  | .subw d a b => some (wCR 0x10 d a b 1)
  | .andw d a b => some (wCR 0x10 d a b 2)
  | .orw d a b => some (wCR 0x10 d a b 3)
  | .xorw d a b => some (wCR 0x10 d a b 4)
  | .shlw d a b => some (wCR 0x10 d a b 5)
  | .shrw d a b => some (wCR 0x10 d a b 6)
  | .sarw d a b => some (wCR 0x10 d a b 7)
  | .minw d a b => some (wCR 0x10 d a b 8)
  | .maxw d a b => some (wCR 0x10 d a b 9)
  | .minuw d a b => some (wCR 0x10 d a b 10)
  | .maxuw d a b => some (wCR 0x10 d a b 11)
  | .mulw d a b => some (wCR 0x10 d a b 12)
  | .mulhw d a b => some (wCR 0x10 d a b 13)
  | .mulhuw d a b => some (wCR 0x10 d a b 14)
  | .sltw d a b => some (wCR 0x10 d a b 15)
  | .sltuw d a b => some (wCR 0x10 d a b 16)
  | .seqw d a b => some (wCR 0x10 d a b 17)
  | .addiw d a i => some (wCI 0x11 d a i)
  | .andiw d a i => some (wCI 0x12 d a i)
  | .oriw d a i => some (wCI 0x13 d a i)
  | .xoriw d a i => some (wCI 0x14 d a i)
  | .shliw d a n => some (wCI 0x15 d a (0#7 ++ n))
  | .shriw d a n => some (wCI 0x16 d a (0#7 ++ n))
  | .sariw d a n => some (wCI 0x17 d a (0#7 ++ n))
  | .sltiw d a i => some (wCI 0x18 d a i)
  | .liw d i => some (wCU 0x19 d i)
  | .orsw d i => some (wCU 0x1A d i)
  | .leaw d a b n => some (wCR 0x1B d a b (0#1 ++ n))
  | .selw d a b => some (wCR 0x1C d a b 0)
  | .ldw d a i => some (wCI 0x1D d a i)
  | .stw r a i => some (wCI 0x1E r a i)
  | .ldws d a i => some (wCI 0x1F d a i)
  | .stws r a i => some (wCI 0x20 r a i)
  | .mfs d r => some (wCI 0x21 d 0 r)
  | .mts a r => some (wCI 0x22 a 0 r)
  | .fence sc => some (wCU 0x23 0 (0#16 ++ sc.code))
  | .rgn p o => some (0x24#7 ++ p.code ++ o)
  | .cmt a => some (wCR 0x25 0 a 0 0)
  | .arrive d a n => some (wCR 0x26 d a 0 n)
  | .waitb a b => some (wCR 0x27 0 a b 0)
  | .bars a n => some (wCR 0x28 0 a 0 n)
  | .watch a => some (wCR 0x29 0 a 0 0)
  | .launch d a => some (wCR 0x2A d a 0 0)
  | .vclaim n => some (wCR 0x2B 0 0 0 n)
  | .vrel n => some (wCR 0x2C 0 0 0 n)
  | .sigchk p => some (0x2D#7 ++ 0#1 ++ p)
  | .efen e d r => some (wCE 0x2E (e.code ++ 0#2) d r 0 0)
  | .ewait e a => some (wCY 0x2F e.code a 0)
  | .cwait a b d => some (wCE 0x30 0 a b d 0)
  | .cpy st h a b c => some (wCE 0x31 (0#1 ++ BitVec.ofBool st ++ h ++ 0#1) a b c 0)
  | .cpyg st h a b c => some (wCE 0x32 (0#1 ++ BitVec.ofBool st ++ h ++ 0#1) a b c 0)
  | .cpyx st h a b c => some (wCE 0x33 (0#1 ++ BitVec.ofBool st ++ h ++ 0#1) a b c 0)
  | .cpyxTt h a b => some (wCE 0x33 (2#2 ++ h ++ 0#1) a b 0 0)
  | .tld x r t => some (wCE 0x34 x r 0 0 (0#1 ++ BitVec.ofBool t))
  | .tldP x r p t => some (wCE 0x34 x r p 0 (1#1 ++ BitVec.ofBool t))
  | .tst x r t => some (wCE 0x35 x r 0 0 (0#1 ++ BitVec.ofBool t))
  | .tstP x r p t => some (wCE 0x35 x r p 0 (1#1 ++ BitVec.ofBool t))
  | .mma x y f d => some (wCE 0x36 x (0#1 ++ y) f (0#3 ++ d) 0)
  | .mmas x y f d => some (wCE 0x37 x (0#1 ++ y) f (0#3 ++ d) 0)
  | .drn k acc d r f z => some (wCE 0x38 (k.code ++ acc) d r (0#3 ++ f.code) (0#1 ++ BitVec.ofBool z))
  | .azr d => some (wCE 0x39 (0#2 ++ d) 0 0 0 0)
  | .ald d r => some (wCE 0x3A (0#2 ++ d) r 0 0 0)
  | .aldMem d r => some (wCE 0x3A (0#2 ++ d) r 0 0 1)
  | .nsend a => some (wCE 0x3B 0 a 0 0 0)
  | .nwrite a => some (wCE 0x3C 0 a 0 0 0)
  | .nread a => some (wCE 0x3D 0 a 0 0 0)
  | .npost a => some (wCE 0x3E 0 a 0 0 0)
  | .sropen a d => some (wCE 0x3F 0 a 0 d 0)
  | .srjoin h v r => some (wCE 0x40 0 h v r 0)
  | .snap a => some (wCE 0x41 0 a 0 0 0)
  | .sload a => some (wCE 0x42 0 a 0 0 0)
  | .manif a => some (wCE 0x43 0 a 0 0 0)
  | .shoot a b c => some (wCE 0x44 0 a b c 0)
  | .vcdef d v => some (wCR 0x45 d v 0 0)
  | .vcflush d v m => some (wCI 0x46 d v m.code)
  | .stset d h r => some (wCR 0x47 d h r 0)
  | _ => none

/-- The 96 bits of a lane instruction with opcode `op` (R153). -/
def LOp.encode (x : LOp) (op : BitVec 10) : BitVec 96 :=
  BitVec.ofBool x.last ++ BitVec.ofBool x.mods.isSome ++ op ++ encodeGuard x.guard ++ x.dst.encode ++ x.s0.encode ++
  x.s1.encode ++ x.s2.encode ++ x.bl ++ BitVec.ofNat 5 x.ty.code ++ x.fn ++ x.imm

/-- The lane word of an instruction and its modifier word, none for an instruction that is no lane word. -/
def encodeLane : Instr → Option (BitVec 96 × Option (BitVec 32))
  | .lsig last p =>
    some (BitVec.ofBool last ++ 0#1 ++ 0x074#10 ++ 0#60 ++ p.extractLsb' 16 4 ++ p.extractLsb' 20 4 ++ p.extractLsb' 0 16, none)
  | i => (laneForm i).map fun q => (q.1.encode (BitVec.ofNat 10 q.2.op), q.1.mods.map Mods.encode)

/-- The 32-bit words of an instruction as they are stored, first word first: one control word, or three or four lane
words (R146, R153). A step or event has no words. -/
def encode (i : Instr) : List (BitVec 32) :=
  match encodeControl i with
  | some w => [w]
  | none =>
    match encodeLane i with
    | some (w, m) => [w.extractLsb' 64 32, w.extractLsb' 32 32, w.extractLsb' 0 32] ++ m.toList
    | none => []

/-! ## Bytes -/

/-- A 32-bit word of four bytes, little-endian (R2). -/
def word32 (a b c d : Byte) : BitVec 32 := d ++ c ++ b ++ a

/-- The first instruction of control-section bytes, and the bytes after it. -/
def decodeControlBytes : List Byte → Except Reject (Instr × List Byte)
  | a :: b :: c :: d :: bs =>
    match decodeControl (word32 a b c d) with
    | some i => .ok (i, bs)
    | none => .error .illegalOp
  | _ => .error .truncated

/-- The first instruction of lane-section bytes, and the bytes after it. -/
def decodeLaneBytes : List Byte → Except Reject (Instr × List Byte)
  | a :: b :: c :: d :: e :: f :: g :: h :: i :: j :: k :: l :: bs =>
    let w : BitVec 96 := word32 a b c d ++ word32 e f g h ++ word32 i j k l
    if laneHasMods w then
      match bs with
      | m :: n :: o :: p :: bs' =>
        match decodeLane w (word32 m n o p) with
        | some i => .ok (i, bs')
        | none => .error .illegalOp
      | _ => .error .truncated
    else
      match decodeLane w 0 with
      | some i => .ok (i, bs)
      | none => .error .illegalOp
  | _ => .error .truncated

/-- The host's question: the instruction of a table word of `nbits` bits `w`. The table gives bits to control words
alone, each of one 32-bit word. -/
def decodeTableWord (nbits w : Nat) : Option Instr :=
  if nbits ≤ 32 then
    let v := BitVec.ofNat 32 w
    match decodeControlBytes [v.extractLsb' 0 8, v.extractLsb' 8 8, v.extractLsb' 16 8, v.extractLsb' 24 8] with
    | .ok (i, _) => some i
    | .error _ => none
  else none

end Sys2Proof
end

