-- ==== Sys2Proof/Machine/Bits.lean ====
section
/-! DEFINITION. Bit-field, byte-order and list helpers (R2: little-endian everywhere). -/

namespace Sys2Proof.Machine

/-- Bits `lo` to `lo + n - 1` of `v`. -/
def bits (v lo n : Nat) : Nat := v >>> lo % 2 ^ n

/-- Bit `i` of `v`. -/
def bit (v i : Nat) : Bool := v >>> i % 2 == 1

/-- Bit 1 for true. -/
def b2n (b : Bool) : Nat := if b then 1 else 0

/-- `v` taken as a two's complement value of `n` bits. -/
def sextInt (v n : Nat) : Int := if bit (v % 2 ^ n) (n - 1) then (v % 2 ^ n : Nat) - (2 ^ n : Nat) else (v % 2 ^ n : Nat)

/-- Two's complement image of `i` in `n` bits. -/
def wrapInt (i : Int) (n : Nat) : Nat := (i % (2 ^ n : Nat)).toNat

/-- The value of little-endian bytes. -/
def leNat : List Byte → Nat
  | [] => 0
  | b :: bs => b.toNat + 256 * leNat bs

/-- The `n` little-endian bytes of `v`. -/
def toBytes : Nat → Nat → List Byte
  | 0, _ => []
  | n + 1, v => BitVec.ofNat 8 v :: toBytes n (v / 256)

/-- `v` rounded up to a multiple of `n`. -/
def roundUp (v n : Nat) : Nat := (v + n - 1) / n * n

/-- `⌊log₂ n⌋`, 0 for 0. -/
def log2 (n : Nat) : Nat := Nat.log2 n

/-- Largest `r` below `2 ^ (k + 1)` with `(acc + r)² ≤ n`, bit by bit. -/
def isqrtGo (n : Nat) : Nat → Nat → Nat
  | 0, acc => if (acc + 1) * (acc + 1) ≤ n then acc + 1 else acc
  | k + 1, acc =>
    let t := acc + 2 ^ (k + 1)
    isqrtGo n k (if t * t ≤ n then t else acc)

/-- Integer square root. -/
def isqrt (n : Nat) : Nat := isqrtGo n (log2 n / 2 + 1) 0

/-- Replace the first element that `p` accepts. -/
def replaceFirst {α : Type} (p : α → Bool) (f : α → α) : List α → List α
  | [] => []
  | a :: as => if p a then f a :: as else a :: replaceFirst p f as

/-- Sum of a list. -/
def sumNat (l : List Nat) : Nat := l.foldl (· + ·) 0

/-- Least element of a list, `d` for the empty list. -/
def minNat (d : Nat) : List Nat → Nat
  | [] => d
  | a :: as => as.foldl min a

/-- Greatest element of a list, 0 for the empty list. -/
def maxNat (l : List Nat) : Nat := l.foldl max 0

/-- Number of set bits among the low `n` bits of `v`. -/
def popCount : Nat → Nat → Nat
  | 0, _ => 0
  | n + 1, v => v % 2 + popCount n (v / 2)

/-- The numbers below `n` whose bit of `v` is set, ascending. -/
def bitList (n v : Nat) : List Nat := (List.range n).filter (bit v)

/-- The mask of a list of bit numbers. -/
def maskOf (l : List Nat) : Nat := l.foldl (fun m i => m ||| 2 ^ i) 0

/-- Insertion in a list sorted by a key, after equal keys. -/
def insertBy {α : Type} (key : α → Nat) (x : α) : List α → List α
  | [] => [x]
  | a :: as => if key a ≤ key x then a :: insertBy key x as else x :: a :: as

/-- A stable sort by a key. -/
def sortBy {α : Type} (key : α → Nat) (l : List α) : List α := l.foldl (fun acc x => insertBy key x acc) []

/-- A list without repeats, first occurrences kept. -/
def dedup {α : Type} [BEq α] (l : List α) : List α := l.foldl (fun acc x => if acc.contains x then acc else acc ++ [x]) []

end Sys2Proof.Machine
end

