-- ==== Sys2Proof/Machine/Mem.lean ====
section
/-! DEFINITION. Sparse bytes in one canonical form: addresses strictly rising, no byte equal to what an unlisted address
reads as, which is 0 (log 4). -/

namespace Sys2Proof.Machine

/-- What an address that is not listed reads as (log 4). -/
def unlisted : Byte := 0

/-- The canonical form, for addresses at and above `lo`. -/
def memWfFrom : Nat → Mem → Bool
  | _, [] => true
  | lo, (a, b) :: m => decide (lo ≤ a) && b != unlisted && memWfFrom (a + 1) m

/-- The canonical form. -/
def memWf (m : Mem) : Bool := memWfFrom 0 m

/-- The name of the canonical form. -/
abbrev Memory.wf (m : Mem) : Bool := memWf m

/-- The byte at an address. -/
def memGet : Mem → Nat → Byte
  | [], _ => unlisted
  | (a, b) :: m, i => if a == i then b else memGet m i

/-- Write a byte. Writing `unlisted` removes the entry. -/
def memSet : Mem → Nat → Byte → Mem
  | [], i, v => if v == unlisted then [] else [(i, v)]
  | (a, b) :: m, i, v =>
    if a < i then (a, b) :: memSet m i v
    else if a == i then (if v == unlisted then m else (i, v) :: m)
    else if v == unlisted then (a, b) :: m else (i, v) :: (a, b) :: m

/-- The `n` bytes from address `a` up. -/
def memBytes (m : Mem) (a : Nat) : Nat → List Byte
  | 0 => []
  | n + 1 => memGet m a :: memBytes m (a + 1) n

/-- Write bytes from address `a` up. -/
def memWrite (m : Mem) (a : Nat) : List Byte → Mem
  | [] => m
  | b :: bs => memWrite (memSet m a b) (a + 1) bs

/-- Write the listed bytes, each address plus `off`. -/
def memMerge (m : Mem) (off : Nat) (bs : Mem) : Mem := bs.foldl (fun m c => memSet m (off + c.1) c.2) m

/-- The part of `m` at addresses `a` to `a + n - 1`, numbered from 0. -/
def memSlice (m : Mem) (a n : Nat) : Mem :=
  (m.filter fun c => decide (a ≤ c.1) && decide (c.1 < a + n)).map fun c => (c.1 - a, c.2)

/-- Replace the bytes at addresses `a` to `a + n - 1` by those of `d`, numbered from 0. -/
def memPut (m : Mem) (a n : Nat) (d : Mem) : Mem :=
  (m.filter fun c => decide (c.1 < a)) ++ ((d.filter fun c => decide (c.1 < n)).map fun c => (a + c.1, c.2)) ++
  (m.filter fun c => decide (a + n ≤ c.1))

/-- The little-endian value of `n` bytes. -/
def memNat (m : Mem) (a : Nat) : Nat → Nat
  | 0 => 0
  | n + 1 => (memGet m a).toNat + 256 * memNat m (a + 1) n

/-- Bytes with their addresses from `a` up, zero bytes kept: the bytes of a store, not a canonical memory. -/
def cellsAt (a : Nat) : List Byte → Mem
  | [] => []
  | b :: bs => (a, b) :: cellsAt (a + 1) bs

/-- A byte of listed store bytes, the last listing winning. -/
def cellGet (bs : Mem) (i : Nat) : Option Byte := bs.foldl (fun r c => if c.1 == i then some c.2 else r) none

/-- The listed bytes cover `a` to `a + n - 1`. -/
def cellsCover (bs : Mem) (a n : Nat) : Bool := (List.range n).all fun i => bs.any fun c => c.1 == a + i

end Sys2Proof.Machine
end

