-- ==== Sys2Proof/Config.lean ====
section
/-! DEFINITION. What an implementation fixes, and the free values of the model.
Every `opaque` constant below has no body: no statement can rest on a value of it. -/

namespace Sys2Proof.Config

/-- Free value number `n`, 64 bits: a value the spec leaves open after an instruction that goes on (log 3). -/
opaque freeValue : Nat → BitVec 64

/-- Clocks by which `CLOCK` advances over step number `n` (R144: only that it counts clocks; log 5). -/
opaque clockTick : Nat → Nat

/-- The device's fixed hash of an allocation block to one of `n` shares (R69). -/
opaque shareHash : Nat → Nat

/-- The device's fixed hash of an allocation block to a set of its share (R69). -/
opaque setHash : Nat → Nat

/-- The device's fixed hash of a line to one of the 64 arbiter slices of its home die (R328). -/
opaque sliceHash : Nat → Nat

/-- A code an approximate function answers where the accuracy bound admits it: by function, type and operand bits only,
so the map is fixed (R288, R289; log 3). -/
opaque funcCode : Nat → Nat → Nat → Nat

/-- The junction temperature that STATUS reports of a core at a clock count (R427; log 77). -/
opaque temperature : Nat → Nat → BitVec 8

/-- The egress of a Worrad port has credit for a class and hop stage at a clock count (R364, R365; log 86). -/
opaque credit : Nat → Nat → Nat → Nat → Bool

/-- Headroom, 0 to 15, that a sensor of a core reports at a clock count: sensor 0 of temperature, 1 of droop (R403; log 77). -/
opaque headroom : Nat → Nat → Nat → Nat

/-- Lines of DRAM that a correctable error strikes over step number `n` (R22; log 80). -/
opaque softErrors : Nat → List Nat

/-- Lines of DRAM that an uncorrectable error strikes over step number `n` (R22, R23; log 80). -/
opaque hardErrors : Nat → List Nat

/-- Lines of the bank store whose data array an uncorrectable error strikes over step number `n` (R85; log 80). -/
opaque arrayErrors : Nat → List Nat

/-- Physical address of frame slot `k` of the management core's frame area, in units of 4 KiB
within its reserved area (R140, R398 give no address). -/
def frameAreaBase : Nat := 0x2F00000000

/-- Physical address [51:15] of the VC table that the management core builds (R62: set at bring-up). -/
def vctBase : Nat := 0x2EFFFF8000

/-- Installed DDR-5 capacity in bytes at reset (R18; log 6). -/
def ddrCapacity : Nat := 0x40000000000

/-- Arithmetic clock limit of a chunk (R324). -/
def chunkClocks : Nat := 16384

end Sys2Proof.Config
end

