-- ==== Sys2Proof/Machine/State.lean ====
section
/-! DEFINITION. The state of one package with its groups, as plain data, and the state after reset.
INVENTORY.md lists every field with its rule and reset value. Times of logical time are `Nat`s (R87, R88). -/

namespace Sys2Proof.Machine

/-- Why the machine as a whole stops. -/
inductive Fault where
  /-- Raised by `step` alone: the package is OFF (R428) and no bring-up is due, so no rule moves it.
  Safe: the hardware does nothing then either. -/
  | packageOff
  deriving DecidableEq, Repr

/-- Why an instruction has no meaning here. -/
inductive Refusal where
  /-- Raised by an arm of `exec` whose instruction has no meaning yet. Safe: the hardware goes on. -/
  | notModelled (mnemonic : String)
  deriving DecidableEq, Repr

/-! ## Registers of a group (R130 to R144) -/

/-- A uniform register: 64 bits and a poison bit; a poisoned one holds its token in [31:0] (R130). -/
structure UElem where
  val : BitVec 64
  poison : Bool
  deriving DecidableEq, Repr, Inhabited

/-- One lane element of a vector register (R130). A poisoned element holds its token as its value (R228). -/
structure VElem where
  val : BitVec 32
  poison : Bool
  deriving DecidableEq, Repr, Inhabited

/-- A predicate register: one bit and one poison bit a lane, and one token (R130). -/
structure PReg where
  bits : BitVec 64
  pois : BitVec 64
  token : BitVec 32
  deriving DecidableEq, Repr, Inhabited

/-- One lane element of a bypass latch (R139). -/
structure LatchElem where
  val : BitVec 32
  poison : Bool
  valid : Bool
  deriving DecidableEq, Repr, Inhabited

/-- One entry of the mask stack (R134). -/
structure MaskEntry where
  saved : BitVec 64
  pending : BitVec 64
  deriving DecidableEq, Repr, Inhabited

/-- A tile or an accumulator: its bytes, poison bit and token (R130, R300, R301). -/
structure Block where
  data : Mem
  poison : Bool
  token : BitVec 32
  deriving DecidableEq, Repr, Inhabited

/-- A uniform value captured at enqueue (R161). -/
structure Cap where
  num : BitVec 6
  val : UElem
  deriving DecidableEq, Repr, Inhabited

/-- A lane block in the lane queue (R141, R160, R161, R341). `dests` are the uniforms its instructions write (R191). -/
structure LBlock where
  start : BitVec 20
  nruns : Nat
  lpc : BitVec 20
  left : Nat
  caps : List Cap
  dests : List (BitVec 6)
  sig : BitVec 64
  unchecked : Bool
  deriving DecidableEq, Repr, Inhabited

/-- The registers and stream positions that a squash restores (R188, R326, R128). -/
structure Regs where
  v : List (List VElem)
  w : List UElem
  p : List PReg
  exm : BitVec 64
  mask : List MaskEntry
  sigr : BitVec 64
  unchecked : Bool
  cpc : BitVec 64
  laneq : List LBlock
  finished : List (BitVec 64)
  tsh : List (BitVec 20)
  prio : BitVec 3
  deriving DecidableEq, Repr, Inhabited

/-- `REGION` (R144). -/
structure Region where
  pol : Policy
  isOpen : Bool
  label : BitVec 32
  deriving DecidableEq, Repr

/-- The system registers that select an address space (R33, R333), as in force for a group (R204). -/
structure SysRegs where
  asid : BitVec 16
  ptbase : BitVec 64
  stbase : BitVec 64
  crumbbase : BitVec 64
  deriving DecidableEq, Repr, Inhabited

/-! ## Chunks (R324 to R332) -/

/-- A line as the chunk's lists name it (R326, R268): a memory line by physical line number, a scratch line of a team,
a line of a peer's window, or the line of a sharded element with remote replicas only, on the chips listed. -/
inductive LineId where
  | mem (line : Nat)
  | scr (team : Nat) (line : Nat)
  | rem (chip : BitVec 8) (win : BitVec 12) (line : Nat)
  | shd (chips : List (BitVec 8)) (win : BitVec 12) (line : Nat)
  deriving DecidableEq, Repr

/-- One operation waiting in a quarantine entry, in program order (R266, R277). `seq` numbers the instruction in its
chunk. A store of `STX` carries its remote replicas, reached through window `win` at virtual line `vline`, and the handle it resolved through
(R54, R57). -/
inductive QOp where
  | st (bytes : Mem)
  | stx (bytes : Mem) (h : BitVec 16) (win : BitVec 12) (vline : Nat) (reps : List (BitVec 8))
  | red (fn : BitVec 4) (ty : Ty) (off : Nat) (val : BitVec 64) (lane : Nat) (ea : BitVec 64) (seq : Nat)
  deriving DecidableEq, Repr

/-- A quarantine entry (R126). `r`, `w`, `u`, `hint` are the bits of the translation that its first write used, which the copy left in L1
carries (R39, R92). -/
structure QEntry where
  line : LineId
  va : BitVec 64
  ops : List QOp
  poison : Option (BitVec 32)
  vc : Nat
  r : Bool
  w : Bool
  u : Bool
  hint : Nat
  lpc : BitVec 20
  deriving DecidableEq, Repr

/-- An entry of the read list with the `wts` recorded at the read (R329). -/
structure ReadRec where
  line : LineId
  va : BitVec 64
  wts : Nat
  deriving DecidableEq, Repr

/-- Where live poison came from, in the order of R445. -/
inductive LiveSrc where
  | lane | control | cmt
  deriving DecidableEq, Repr

/-- A fault that a group has made poison of (R337): the token, the address, and the operations that held a lock on it then (R114). `own`: the open chunk
made it. -/
structure FaultRec where
  token : BitVec 32
  va : BitVec 64
  ops : List Nat
  own : Bool
  deriving DecidableEq, Repr

/-- A poison made live (R335, R445): the lane it is in, if it is in one, and the fault of an access that failed itself (R337). -/
structure Live where
  src : LiveSrc
  lane : Option Nat
  token : BitVec 32
  fault : Option FaultRec
  deriving DecidableEq, Repr

/-- Why a chunk is to close (R324, R126, R189, R325, R344): at its next run boundary, or for the control instruction that waits for it. -/
inductive CloseReason where
  | limit | shortfall | registers | atomic | forced | control
  deriving DecidableEq, Repr

/-- The open chunk of a group (R326). `begun`: an instruction of it has been taken up, at clock `clock0` (R324). `key0` the number of the next engine operation then. `hold`: a closing
instruction waits for the run boundary (R189). `stop`: the stop of a control instruction has been entered in `live`. `pend` and `got` are the arbiters still to admit it and those that have (R329), `arrive` the
order number of its arrival at the arbiter it waits at. `forRun`: the chunk before closed for the run that stands next, which starts
this one (R126, R275, R325). `vlines` are the virtual lines, each with its ASID, through which it named memory lines (R46). -/
structure Chunk where
  reads : List ReadRec
  quar : List QEntry
  nlane : Nat
  vw : List Nat
  live : List Live
  begun : Bool
  clock0 : Nat
  key0 : Nat
  closing : Option CloseReason
  hold : Bool
  stop : Bool
  committing : Bool
  pend : List Nat
  got : List Nat
  arrive : Nat
  forRun : Bool
  vlines : List (BitVec 16 × Nat)
  deriving DecidableEq, Repr, Inhabited

/-! ## Engines and batches (R104 to R120, R306 to R311, R217, R421) -/

/-- An entry of a batch record (R119, R310, R386, R421). -/
structure OpEnt where
  op : Nat
  done : Bool
  status : BitVec 8
  kind : Nat
  extra : Nat
  token : BitVec 32
  ctime : Nat
  deriving DecidableEq, Repr, Inhabited

/-- A closed batch that has not completed (R118). -/
structure Closed where
  num : BitVec 32
  recAt : Option Nat
  ents : List OpEnt
  deriving DecidableEq, Repr, Inhabited

/-- One engine of a group (R118, R142). -/
structure EngSt where
  openNum : BitVec 32
  ents : List OpEnt
  closedNum : BitVec 32
  closed : List Closed
  doneNum : BitVec 32
  cursor : Option Nat
  ctime : Nat
  deriving DecidableEq, Repr, Inhabited

/-- A parked group waits for one of these (R405, R120, R136, R198, R199, R210, R218, R101, R337, R44). `replay`: system software has been asked and has not
resumed it, addresses that migrate, operations whose batches must complete (R337). -/
inductive Park where
  | barrier (addr : Nat) (phase : BitVec 31)
  | watch (line : Nat)
  | counter (name : BitVec 16) (thr : BitVec 64) (d : BitVec 6)
  | batch (e : Engine) (n : BitVec 32) (cont : BitVec 64)
  | claim (n : Nat)
  | brk
  | sysc
  | replay (sys : Bool) (vas : List (BitVec 64)) (ops : List Nat)
  | fetch (sys : Bool) (va : BitVec 64)
  deriving DecidableEq, Repr

/-- A sharding-table entry (R49). -/
structure Shard where
  rank : Nat
  esz : Nat
  valid : Bool
  repl : Nat
  order : List Nat
  gen : BitVec 16
  win : BitVec 12
  base : BitVec 64
  gdim : List Nat
  shape : List Nat
  grid : List Nat
  chips : List (BitVec 8)
  deriving DecidableEq, Repr, Inhabited

/-- A control stream waits for the answer of a command (R405). `stset` keeps the moment of the command (R57). `got`: the answer has come while the group
stood in its frame (R400). -/
inductive Wait where
  | issue (i : Instr) (pc : BitVec 64)
  | rload (id : Nat) (d : BitVec 6) (va : BitVec 64)
  | shoot (id : Nat)
  | stset (d : BitVec 6) (h : BitVec 16) (val : BitVec 64) (key : Nat)
  | slot (d : BitVec 6)
  | fence (sc : Scope)
  | flush (d : BitVec 6) (vc : Nat) (m : FlushMode)
  | got (d : BitVec 6) (val : UElem)
  deriving DecidableEq, Repr

/-- What a group is doing. `none` is the blank record of a group that does not exist. -/
inductive Phase where
  | none
  | run
  | wait (w : Wait)
  | parked (p : Park)
  | ending
  | ended
  deriving DecidableEq, Repr

/-- A run in flight (R163): the index of its next word and of the word after it (`after`), instructions done, lanes left out by DROP (R230). `stop`: live poison stops the
chunk at this instruction (R230, R256). `resv` are the quarantine entries it has reserved, `q0` those its chunk held before, `ctl` those that the control stream has made meanwhile (R126). -/
structure RunSt where
  wi : BitVec 20
  n : Nat
  resv : Nat
  q0 : Nat
  ctl : Nat
  skip : BitVec 64
  stop : Bool
  after : BitVec 20
  deriving DecidableEq, Repr, Inhabited

/-- A remote load or atomic that has not answered (R55, R275): where its value goes. `keep`: its chunk has committed. `both`: the
shadow lane takes it too, `lat`: its run has not ended, so the latch takes it. `lpc` is the instruction's word. -/
structure FRead where
  id : Nat
  keep : Bool
  both : Bool
  lat : Bool
  lpc : BitVec 20
  reg : BitVec 8
  ws : Bool
  dl : BitVec 2
  lane : Nat
  ty : Ty
  size : Nat
  va : BitVec 64
  deriving DecidableEq, Repr

/-- One group (R6, R130 to R145, R392, R399). `stall` and `lstall`: its control stream, its lane stream waits and tries again. `faultVa` are the PAGE_MISS and RANGE_LOCKED
faults that it made poison of (the replay records of R337). -/
structure Group where
  key : Nat
  teamKey : Nat
  lid : BitVec 32
  gang : BitVec 32
  team : BitVec 12
  grp : BitVec 6
  core : Nat
  width : Nat
  user : Bool
  shadow : Bool
  checked : Bool
  launchPrio : BitVec 3
  dflt : Policy
  region : Region
  crumbLast : BitVec 32
  faultVa : List FaultRec
  cbase : BitVec 64
  lbase : BitVec 64
  sysr : SysRegs
  regs : Regs
  undo : Regs
  latches : List (List LatchElem)
  tiles : List Block
  accs : List Block
  chunk : Chunk
  squashes : Nat
  reserve : Option Nat
  replays : Nat
  mism : Nat
  fracture : Bool
  eng : List EngSt
  phase : Phase
  stall : Bool
  lstall : Bool
  run : Option RunSt
  freads : List FRead
  frame : Option Nat
  reason : Nat
  issued : Nat
  passed : Nat
  deriving DecidableEq, Repr

/-! ## Teams, launches, contexts (R392 to R409) -/

/-- How a team ended, with the `pts` of its core then (R408). -/
structure EndSt where
  status : BitVec 8
  grp : BitVec 6
  token : BitVec 32
  ltime : Nat
  deriving DecidableEq, Repr, Inhabited

/-- A team that has been admitted or is active (R398 to R400), with its scratch (R121, R124, R328). `admitted` and `activated` are order
numbers, `since` that of the moment it began to wait for room; `quantum`: another team leaves for it (R400); `leaving`: it is being
deactivated itself. `core` is its core, the even one of a pair; a team that ended before it was placed holds `placed` false. -/
structure Team where
  key : Nat
  lid : BitVec 32
  gang : BitVec 32
  num : BitVec 12
  asid : BitVec 16
  core : Nat
  ngroups : Nat
  prio : BitVec 3
  scrSize : Nat
  scratch : Mem
  scrPois : List (Nat × BitVec 32)
  scrTs : List (Nat × Nat × Nat)
  placed : Bool
  active : Bool
  started : Bool
  leaving : Bool
  admitted : Nat
  activated : Nat
  since : Option Nat
  quantum : Bool
  frameAt : Nat
  slotSize : Nat
  endSt : Option EndSt
  recorded : Bool
  deriving DecidableEq, Repr, Inhabited

/-- A range of a launch's range list (R393). -/
structure LRange where
  base : BitVec 64
  len : Nat
  hint : Nat
  deriving DecidableEq, Repr, Inhabited

/-- The fields of a launch record (R393). -/
structure LaunchRec where
  width : Nat
  shadow : Bool
  checked : Bool
  policy : Policy
  prio : BitVec 3
  teamg : Nat
  teams : Nat
  gangs : Nat
  vregs : Nat
  tiles : Nat
  accs : Nat
  scratch : Nat
  cbase : BitVec 64
  lbase : BitVec 64
  args : BitVec 64
  entry : BitVec 32
  deps : List (BitVec 16 × BitVec 64)
  ccntr : Option (BitVec 16)
  crec : BitVec 64
  ranges : List LRange
  chips : List (BitVec 8)
  deriving DecidableEq, Repr

/-- A launch held by the launch front (R396, R390). `origin` and `olid` are its gang key, `stop` the status with
which its teams end (R389, R391), `counted` its teams counted under R409, `staged` the pages of its ranges that staging has looked at
(R25), `time` the logical time of the command that issued it (R352). -/
structure Launch where
  lid : BitVec 32
  asid : BitVec 16
  lrec : LaunchRec
  prio : BitVec 3
  arrival : Nat
  nextGang : Nat
  passed : Nat
  started : Bool
  counted : Nat
  origin : BitVec 8
  olid : BitVec 32
  stop : Option (BitVec 8)
  staged : Nat
  time : Nat
  deriving DecidableEq, Repr

/-- A context (R388): bases, resource index, demotion mode (R21), debug enable (R198), killed (R412). -/
structure Ctx where
  asid : BitVec 16
  pt : BitVec 64
  crumb : BitVec 64
  shard : BitVec 64
  res : BitVec 16
  inPlace : Bool
  debug : Bool
  killed : Bool
  deriving DecidableEq, Repr, Inhabited

/-- A pending claim of granules (R136). -/
structure Claim where
  gkey : Nat
  n : Nat
  passed : Nat
  deriving DecidableEq, Repr, Inhabited

/-! ## Coherence (R86 to R103) -/

/-- States of an L1 line (R93); an absent line is I. -/
inductive L1St where
  | v | u | x
  deriving DecidableEq, Repr

/-- A line in an L1 (R39, R93). `hint` is the HINT of the translation that filled it (R73); `parts` are the partial results of state U by byte offset. -/
structure L1Line where
  asid : BitVec 16
  vline : Nat
  r : Bool
  w : Bool
  u : Bool
  hint : Nat
  line : Nat
  vc : Nat
  st : L1St
  data : Mem
  token : BitVec 32
  wts : Nat
  rts : Nat
  fn : BitVec 4
  ty : Ty
  parts : List (Nat × BitVec 64)
  deriving DecidableEq, Repr

/-- States of a bank-store copy (R94); an absent line is I. -/
inductive BSt where
  | s | m | u | x
  deriving DecidableEq, Repr

/-- A bank-store copy of a line (R65 to R73, R94). `ways` are the ways of the VC when it was placed, which with its share give its set (R69). -/
structure BLine where
  line : Nat
  vc : Nat
  share : Nat
  ways : Nat
  st : BSt
  dirty : Bool
  data : Mem
  token : BitVec 32
  wts : Nat
  rts : Nat
  uset : List Nat
  prot : Nat
  last : Nat
  deriving DecidableEq, Repr

/-- A registered box of an engine operation (R111, R309). `space` is 0 for scratch of the team, 1 for the context's memory. -/
structure Box where
  op : Nat
  team : Nat
  gkey : Nat
  matrix : Bool
  space : Nat
  lo : Nat
  hi : Nat
  dest : Bool
  deriving DecidableEq, Repr

/-- A write-combining entry (R373). `gkeys` are the groups whose stores it holds, `seqs` counts stores. -/
structure Wcb where
  asid : BitVec 16
  chip : BitVec 8
  win : BitVec 12
  line : Nat
  bytes : Mem
  gang : Option (BitVec 8 × BitVec 32)
  gkeys : List Nat
  deriving DecidableEq, Repr

/-- An outstanding fill request of a core (R91, R125), made by `PREF` into L1 (R279): `phint` is the page's HINT, `hint` the request's level. -/
structure LReq where
  asid : BitVec 16
  vline : Nat
  r : Bool
  w : Bool
  u : Bool
  line : Nat
  vc : Nat
  phint : Nat
  hint : Nat
  deriving DecidableEq, Repr

/-- A reply on its way to a core (R91). -/
structure LReply where
  req : LReq
  x : Option (BitVec 32)
  data : Mem
  wts : Nat
  rts : Nat
  deriving DecidableEq, Repr

/-- One core (R12, R87, R125, R129, R111). -/
structure Core where
  id : Nat
  pts : Nat
  l1 : List L1Line
  boxes : List Box
  wcb : List Wcb
  reqs : List LReq
  replies : List LReply
  deriving DecidableEq, Repr

/-- An entry of a snoop filter (R97): the home die, the peer, the 4 KiB region and its mask. -/
structure FilterEnt where
  home : Nat
  peer : Nat
  region : Nat
  mask : BitVec 32
  deriving DecidableEq, Repr

/-- An entry of a watch table (R102); `listed` is false for a group kept only in the overflow count. -/
structure WatchEnt where
  die : Nat
  line : Nat
  gkey : Nat
  listed : Bool
  deriving DecidableEq, Repr

/-- A line reserved in reservation mode (R332). -/
structure Resv where
  line : LineId
  gkey : Nat
  start : Nat
  deriving DecidableEq, Repr

/-! ## Translation (R32 to R59) -/

/-- A leaf translation in a cluster TLB (R38, R40). -/
structure TlbE where
  asid : BitVec 16
  vbase : Nat
  size : Nat
  r : Bool
  w : Bool
  x : Bool
  u : Bool
  frame : Nat
  tier : BitVec 2
  fv : Bool
  hint : BitVec 2
  vc : Nat
  deriving DecidableEq, Repr

/-- A cached pointer entry (R36, R40): the table of level `lvl` that maps the region of addresses numbered `idx`, and the permissions so far. -/
structure PtrE where
  asid : BitVec 16
  lvl : Nat
  idx : Nat
  table : Nat
  perm : Nat
  deriving DecidableEq, Repr

/-- A cached sharding entry (R59), with the logical time of the commit that wrote it (R352). -/
structure ShardE where
  asid : BitVec 16
  h : BitVec 16
  e : Shard
  time : Nat
  deriving DecidableEq, Repr

/-- What the cores of one cluster share (R8, R40, R47, R59). -/
structure Cluster where
  id : Nat
  tlb : List TlbE
  ptrs : List PtrE
  shards : List ShardE
  epoch : Nat
  deriving DecidableEq, Repr

/-- A shootdown in flight (R46). Recipients 0 to 3 are the compute dies, 4 is the I/O die. -/
structure Shoot where
  id : Nat
  asid : BitVec 16
  whole : Bool
  lo : Nat
  hi : Nat
  removed : List Nat
  acked : List Nat
  deriving DecidableEq, Repr

/-- Bytes of remote storage that a snapshot operation reads by RMA, or a message that writes them (R418); `bad`: some line read was X. `id` is
the number of its message. -/
structure RmaPart where
  id : Nat
  write : Bool
  peer : Nat
  rkey : BitVec 64
  off : Nat
  len : Nat
  bytes : Mem
  bad : Bool
  done : Bool
  deriving DecidableEq, Repr

/-- An engine operation (R105, R306, R221, R224). `args` are the operand uniforms read at issue, `img` and `imgPois` the bytes and the
poisoned words read from scratch at issue, `shapes` the tile shapes in effect (R299). `pos` is its progress, `out` the remote answers it
waits for, `failed` the pieces that have failed, `seen` the poisoned sources that have their crumb; `parts` and `hdr` are the remote bytes and the
header that a snapshot operation holds. -/
structure EngOp where
  id : Nat
  core : Nat
  gkey : Nat
  teamKey : Nat
  eng : Engine
  instr : Instr
  args : List (BitVec 64)
  img : Mem
  imgPois : List (Nat × BitVec 32)
  shapes : List (BitVec 20)
  src : Option Shard
  dst : Option Shard
  sysr : SysRegs
  user : Bool
  active : Bool
  suspended : Option (BitVec 64)
  pos : Nat
  status : BitVec 8
  token : BitVec 32
  count : Nat
  failed : List Nat
  seen : List (Nat × BitVec 32)
  out : Nat
  parts : List RmaPart
  hdr : List Byte
  ctime : Nat
  cpcw : BitVec 24
  grp : BitVec 6
  team : BitVec 12
  gang : BitVec 32
  deriving DecidableEq, Repr

/-! ## Virtual caches (R60 to R85) -/

/-- Phases of a VC (R79). -/
inductive VPhase where
  | stable | claim | move | release | removing | undefined
  deriving DecidableEq, Repr

/-- A virtual cache: its CDR in force (R63), its shares and its status record (R65). `live` is LIVE as the record holds it; `stale`: a change of the
record waits for its arbiter. -/
structure Vc where
  id : Nat
  phase : VPhase
  pool : Bool
  lsz : Nat
  assoc : Nat
  wpol : Nat
  shared : Bool
  cen : Bool
  owner : BitVec 16
  lease : Nat
  groups : List (BitVec 64)
  near : List (BitVec 16)
  shares : List Nat
  joining : List Nat
  leaving : List Nat
  hits : BitVec 64
  misses : BitVec 64
  evicts : BitVec 64
  retired : Nat
  mcount : BitVec 24
  live : Nat
  stale : Bool
  deriving DecidableEq, Repr

/-- Lines of an addressed pool that were lost with a die (R414): the pool's shares then, and the lines held elsewhere than their share says, lost or not. -/
structure LostPool where
  vc : Nat
  die : Nat
  shares : List Nat
  gone : List Nat
  kept : List Nat
  deriving DecidableEq, Repr

/-! ## Migration (R25 to R31) -/

/-- A migration under way (R28). `marked` are the lines written since they were copied. -/
structure Migration where
  id : Nat
  q : MigReq
  pte : Nat
  size : Nat
  src : Nat
  dst : Nat
  srcTier : BitVec 2
  switching : Bool
  marked : List Nat
  shoot : Option Nat
  deriving DecidableEq, Repr

/-! ## Fabric, network, host (R363 to R391) -/

/-- A window with its two counters (R369, R375) and the largest commit time that `target` has counted (R218). -/
structure Window where
  n : BitVec 12
  valid : Bool
  r : Bool
  w : Bool
  a : Bool
  host : Bool
  asid : BitVec 16
  base : BitVec 64
  size : Nat
  peers : BitVec 256
  target : BitVec 64
  origin : BitVec 64
  ctime : Nat
  deriving DecidableEq, Repr

/-- A network completion counter (R376), with the largest commit time of a landing it has counted (R218). -/
structure NetCnt where
  n : BitVec 12
  owner : Option (BitVec 16)
  val : BitVec 64
  ctime : Nat
  deriving DecidableEq, Repr

/-- Whose remote request is outstanding (R366). A reduction keeps the lane and address of a crumb (R277). -/
inductive Owner where
  | load (gkey : Nat)
  | write (gkeys : List Nat) (win : BitVec 12) (asid : BitVec 16)
  | red (gkey : Nat) (win : BitVec 12) (asid : BitVec 16) (lane : Nat) (va : BitVec 64) (lpc : BitVec 20)
  | copy (op : Nat) (pos : Nat)
  | slot (gkey : Nat)
  deriving DecidableEq, Repr

/-- An outstanding remote request (R366, R401): `waiting` after a retry response until it is resent; `hs` are the tensor handles it was resolved
through (R57), `held` that a hold response has begun its time limit again. -/
structure OutReq where
  q : Req
  owner : Owner
  waiting : Bool
  hs : List (BitVec 16)
  held : Bool
  deriving DecidableEq, Repr

/-- A request that waits here for the migration of its page, with the window descriptor it was admitted under (R55, R371). -/
structure Missed where
  q : Req
  w : Window
  deriving DecidableEq, Repr

/-- A gang launch at its origin: the other chips that have not acknowledged it, or after its abort those that have not acknowledged
that (R390, R391). -/
structure GangSt where
  lid : BitVec 32
  asid : BitVec 16
  chips : List (BitVec 8)
  left : List (BitVec 8)
  aborted : Bool
  deriving DecidableEq, Repr

/-- A WITHDRAW whose answer waits for the teams of these launches (R389), and the number it will answer. -/
structure Withdrawal where
  lids : List (BitVec 32)
  total : Nat
  deriving DecidableEq, Repr

/-- A reduction slot (R378). -/
structure Slot where
  n : BitVec 9
  gen : BitVec 16
  isOpen : Bool
  desc : BitVec 64
  joins : List SlotJoin
  deriving DecidableEq, Repr

/-- A peer-table entry of a context with its sequence count (R382, R435). `gen` is the number of the writing; `lost`: the peer is known to be
unreachable (R386). -/
structure PeerEnt where
  asid : BitVec 16
  n : BitVec 12
  peer : Peer
  gen : Nat
  nextSeq : Nat
  nextRod : Nat
  lost : Bool
  deriving DecidableEq, Repr

/-- A packet not yet acknowledged (R436, R382): the context and the writing of its peer-table entry, how often it has been sent again, and how many
packets above it have been acknowledged. -/
structure UTx where
  asid : BitVec 16
  flow : FlowId
  pkt : UetPkt
  retries : Nat
  above : Nat
  deriving DecidableEq, Repr

/-- A message being received (R383, R435). -/
structure URx where
  src : BitVec 8
  srcAsid : BitVec 16
  opId : Nat
  kind : BitVec 4
  asid : BitVec 16
  laddr : BitVec 64
  room : Nat
  cntr : Option (BitVec 12)
  win : Option (BitVec 12)
  op : Option Nat
  got : List Nat
  bytes : Nat
  ctime : Nat
  bad : Bool
  done : Bool
  deriving DecidableEq, Repr

/-- The next sequence number expected of an ordered flow (R383). -/
structure RodFlow where
  src : BitVec 8
  srcAsid : BitVec 16
  flow : FlowId
  next : Nat
  deriving DecidableEq, Repr

/-- A posted receive (R384). -/
structure PRecv where
  asid : BitVec 16
  op : Nat
  tagged : Bool
  tag : BitVec 64
  ign : BitVec 64
  laddr : BitVec 64
  len : Nat
  cntr : BitVec 12
  deriving DecidableEq, Repr

/-- A work request whose local part has ended and whose completion is awaited (R385). -/
structure NetPend where
  op : Nat
  gkey : Nat
  kind : Nat
  asid : BitVec 16
  cntr : BitVec 12
  left : List Nat
  ctime : Nat
  deriving DecidableEq, Repr

/-- A Worrad port (R368): lane fallback step, retraining, flits kept for replay. `owed`: LINK messages that wait for their answers (R388). -/
structure Port where
  n : Nat
  level : Nat
  retraining : Bool
  replays : Nat
  owed : Nat
  deriving DecidableEq, Repr

/-- What leaves the package (R364, R383, R387 to R389, R429). What goes to another chip leaves in `pkt`, a packet at a Worrad port. -/
inductive Out where
  | req (q : Req)
  | resp (r : Resp)
  | hold (id : Nat)
  | retry (id : Nat)
  | slotAns (id : Nat) (ans : BitVec 64)
  | slotRes (id : Nat) (value : BitVec 64) (status : BitVec 8)
  | gangLaunch (lid : BitVec 32) (bs : List Byte)
  | gangAck (lid : BitVec 32) (status : BitVec 8)
  | gangAbort (lid : BitVec 32)
  | uet (p : UetPkt)
  | uetAck (dst : BitVec 8) (asid : BitVec 16) (flow : FlowId) (seqs : List Nat) (refused : Bool)
  | answer (code : Nat) (status : BitVec 8) (value : BitVec 64)
  | launchReply (cookie : BitVec 64) (status : BitVec 8) (lid : BitVec 32)
  | breakpoint (k : BitVec 19) (asid : BitVec 16) (lid : BitVec 32) (team : BitVec 12) (grp : BitVec 6) (cpc : BitVec 64)
  | sysRequest (k : BitVec 19) (asid : BitVec 16) (gkey : Nat) (frame : Nat)
  | service (cause : BitVec 8) (va : BitVec 64) (gkey : Nat)
  | status (state : Nat) (power : Nat) (temps : List (BitVec 8)) (counts : List (Nat × Nat))
  | report (events : List (Nat × Nat))
  | note (what : Nat) (arg : Nat)
  | pkt (port : Nat) (h : Hdr) (flits : Nat) (body : Out)
  deriving DecidableEq, Repr

/-- A fabric packet: its header and what it carries (R364). -/
structure Wire where
  h : Hdr
  body : Out
  deriving DecidableEq, Repr

/-- Device states (R425 to R428); `closing` is OFF pending. -/
inductive Dev where
  | running | safe | closing | off
  deriving DecidableEq, Repr

/-! ## The state of the package -/

/-- The whole state. `cur` is the group whose instruction executes, `rest` every other group.
`agenda`, `rr`, `nextKey`, `fresh`, `engHeld` are the model's own (log 2, log 3, log 78); `lastCtl` is the group whose control stream issued last (R405). -/
structure State where
  cur : Group
  rest : List Group
  teams : List Team
  launches : List Launch
  ctxs : List Ctx
  claims : List (Nat × Claim)
  cores : List Core
  clusters : List Cluster
  ioTlb : List TlbE
  dram : Mem
  synd : List Nat
  ue : List Nat
  soft : List Nat
  bankErr : List Nat
  channels : List Nat
  ddrCap : Nat
  free : List (Nat × Nat)
  pinned : List (Nat × Nat)
  devPinned : List (Nat × Nat)
  migrations : List Migration
  migWait : List MigReq
  migOwed : List (List MigReq)
  lastUse : List (Nat × Nat)
  bank : List BLine
  slices : List (Nat × Nat × Nat)
  bases : List (Nat × Nat)
  vcs : List Vc
  per254 : List Nat
  badShares : List Nat
  filters : List FilterEnt
  watches : List WatchEnt
  reserved : List Resv
  shoots : List Shoot
  ops : List EngOp
  vctbase : BitVec 64
  lease : BitVec 24
  wcbage : BitVec 8
  placeb : BitVec 5
  chip : BitVec 8
  clock : Nat
  windows : List Window
  counters : List NetCnt
  peers : List PeerEnt
  outReqs : List OutReq
  holds : List Req
  missed : List Missed
  winAnswers : List (BitVec 12)
  slots : List Slot
  utx : List UTx
  urx : List URx
  rod : List RodFlow
  recvs : List PRecv
  netPend : List NetPend
  abortKeys : List (BitVec 8 × BitVec 32)
  endedKeys : List (BitVec 8 × BitVec 32)
  gangs : List GangSt
  withdrawals : List Withdrawal
  ports : List Port
  rows : Nat
  cols : Nat
  egress : List Wire
  detours : List Wire
  etherGbps : Nat
  etherAddr : Nat
  flashAddr : Nat
  gangMs : Nat
  cursor1 : Nat
  cursor2 : Nat
  skips : List (Nat × Nat)
  badCores : List Nat
  lostDies : List Nat
  lostPools : List LostPool
  nextLid : BitVec 32
  dev : Dev
  hot : Bool
  power : Power
  log : List (Nat × Nat)
  counts : List (Nat × Nat)
  flash : List (Bool × List Byte × List Byte)
  fwNew : Bool
  out : List Out
  agenda : List Instr
  rr : Nat
  lastCtl : Nat
  nextKey : Nat
  fresh : Nat
  engHeld : Bool
  deriving DecidableEq, Repr

/-! ## Reset -/

/-- The registers of a group that does not exist (log 1). -/
def Regs.blank : Regs :=
  { v := [], w := List.replicate 64 ⟨0, false⟩, p := List.replicate 16 ⟨0, 0, 0⟩, exm := 0, mask := [], sigr := 0,
    unchecked := false, cpc := 0, laneq := [], finished := [], tsh := List.replicate 32 0, prio := 0 }

/-- A chunk that has done nothing (R324). -/
def Chunk.empty (clock key : Nat) : Chunk :=
  { reads := [], quar := [], nlane := 0, vw := [], live := [], begun := false, clock0 := clock, key0 := key, closing := none, hold := false, stop := false, committing := false,
    pend := [], got := [], arrive := 0, forRun := false, vlines := [] }

/-- An engine of a group that has issued nothing: batch 1 is open, none is closed (R118). -/
def EngSt.fresh : EngSt :=
  { openNum := 1, ents := [], closedNum := 0, closed := [], doneNum := 0, cursor := none, ctime := 0 }

/-- The blank record that stands where no group exists (log 1). -/
def Group.blank : Group :=
  { key := 0, teamKey := 0, lid := 0, gang := 0, team := 0, grp := 0, core := 0, width := 16, user := true,
    shadow := false, checked := false, launchPrio := 0, dflt := .replay,
    region := ⟨.replay, false, 0xFFFFFFFF⟩, crumbLast := 0, faultVa := [], cbase := 0, lbase := 0, sysr := ⟨0, 0, 0, 0⟩,
    regs := Regs.blank, undo := Regs.blank, latches := [], tiles := [], accs := [], chunk := Chunk.empty 0 0,
    squashes := 0, reserve := none, replays := 0, mism := 0, fracture := false,
    eng := List.replicate 4 EngSt.fresh, phase := .none, stall := false, lstall := false, run := none, freads := [], frame := none,
    reason := 0, issued := 0, passed := 0 }

/-- SHA-256 of no bytes: the digest stored beside the empty image that stands for the firmware of the flash banks (log 6). -/
def emptyDigest : List Byte :=
  [0xe3, 0xb0, 0xc4, 0x42, 0x98, 0xfc, 0x1c, 0x14, 0x9a, 0xfb, 0xf4, 0xc8, 0x99, 0x6f, 0xb9, 0x24] ++
  [0x27, 0xae, 0x41, 0xe4, 0x64, 0x9b, 0x93, 0x4c, 0xa4, 0x95, 0x99, 0x1b, 0x78, 0x52, 0xb8, 0x55]

/-- VC 0, 254 and 255 exist from bring-up (R66). -/
def Vc.fixed (id assoc lsz : Nat) : Vc :=
  { id := id, phase := .stable, pool := false, lsz := lsz, assoc := assoc, wpol := 0, shared := true, cen := false,
    owner := 0, lease := 0, groups := List.replicate 4 0, near := List.replicate 4 0, shares := [], joining := [],
    leaving := [], hits := 0, misses := 0, evicts := 0, retired := 0, mcount := 0, live := 0, stale := false }

/-- The package right after a bring-up in which no step failed (R425): no context, no launch, memory with nothing
listed, and every register at the value its rule states or log 1 and log 6 name. -/
def State.reset : State :=
  { cur := Group.blank, rest := [], teams := [], launches := [], ctxs := [], claims := [], cores := [], clusters := [], ioTlb := [],
    dram := [], synd := [], ue := [], soft := [], bankErr := [], channels := List.replicate 16 (Config.ddrCapacity / 16), ddrCap := Config.ddrCapacity,
    free := [(0, 0x2E00000000), (0x4000000000, 0x3000000000), (0x8000000000, 0x3000000000),
      (0xC000000000, 0x3000000000), (0x10000000000, Config.ddrCapacity)],
    pinned := [], devPinned := [(0x2E00000000, 0x200000000)], migrations := [], migWait := [], migOwed := [], lastUse := [], bank := [], slices := [],
    bases := [], vcs := [Vc.fixed 0 4 0, Vc.fixed 254 2 3, Vc.fixed 255 0 0], per254 := [1024, 1024, 1024, 1024],
    badShares := [], filters := [], watches := [], reserved := [], shoots := [], ops := [],
    vctbase := BitVec.ofNat 64 Config.vctBase, lease := 0x400, wcbage := 8, placeb := 0x13, chip := 0, clock := 0,
    windows := [], counters := [], peers := [], outReqs := [], holds := [], missed := [], winAnswers := [], slots := [], utx := [], urx := [], rod := [],
    recvs := [], netPend := [], abortKeys := [], endedKeys := [], gangs := [], withdrawals := [], ports := [], rows := 16, cols := 16, egress := [], detours := [], etherGbps := 1600, etherAddr := 0, flashAddr := 0, gangMs := 50, cursor1 := 0,
    cursor2 := 0, skips := [], badCores := [], lostDies := [], lostPools := [], nextLid := 1, dev := .running, hot := false,
    power := .p0, log := [], counts := [], flash := [(true, [], emptyDigest), (false, [], emptyDigest)], fwNew := false,
    out := [], agenda := [], rr := 0, lastCtl := 0, nextKey := 1, fresh := 0, engHeld := false }

end Sys2Proof.Machine
end

