-- ==== Sys2Proof/Machine/Access.lean ====
section
/-! DEFINITION. The one place that reads and writes each list of the state: cores, clusters, teams, groups, virtual caches,
line times; the cause and status codes (R334, R408). -/

namespace Sys2Proof.Machine

/-- What an instruction answers. -/
abbrev Ans := Host.Outcome State Fault Refusal

/-- A cause code (R334). -/
abbrev Cause := BitVec 8

def Cause.ok : Cause := 0x00
def Cause.pageMiss : Cause := 0x01
def Cause.perm : Cause := 0x02
def Cause.bounds : Cause := 0x03
def Cause.ue : Cause := 0x04
def Cause.rangeLocked : Cause := 0x05
def Cause.invalid : Cause := 0x06
def Cause.latchStale : Cause := 0x07
def Cause.dieLost : Cause := 0x08
def Cause.remoteUnreach : Cause := 0x09
def Cause.vcFault : Cause := 0x0A
def Cause.vcMismatch : Cause := 0x0B
def Cause.sigGap : Cause := 0x0C
def Cause.poisonLine : Cause := 0x0D
def Cause.illegalOp : Cause := 0x10

/-- The cause of a token: cause in [31:24], crumb index in [23:0] (R259). -/
def tokenCause (t : BitVec 32) : Cause := t.extractLsb' 24 8

/-- A cause that data carries rather than a refusal. -/
def lineCause (t : BitVec 32) : Cause := if tokenCause t == Cause.ok then Cause.poisonLine else tokenCause t

/-- A token with no crumb (R334). -/
def bareToken (c : Cause) : BitVec 32 := c ++ 0xFFFFFF#24

/-! ## Groups -/

/-- Every group of the package. -/
def State.groups (s : State) : List Group := s.cur :: s.rest

/-- Change every group. -/
def State.mapGroups (s : State) (f : Group → Group) : State := { s with cur := f s.cur, rest := s.rest.map f }

/-- Change the group with a key. -/
def State.onGroup (s : State) (k : Nat) (f : Group → Group) : State :=
  s.mapGroups fun g => if g.key == k then f g else g

/-- Change the group whose instruction executes. -/
def State.onCur (s : State) (f : Group → Group) : State := { s with cur := f s.cur }

/-- Change its restorable registers. -/
def State.onRegs (s : State) (f : Regs → Regs) : State := { s with cur := { s.cur with regs := f s.cur.regs } }

/-- Change its open chunk. -/
def State.onChunk (s : State) (f : Chunk → Chunk) : State := { s with cur := { s.cur with chunk := f s.cur.chunk } }

/-- The group with a key. -/
def State.group? (s : State) (k : Nat) : Option Group := s.groups.find? fun g => g.key == k && g.phase != .none

/-- Make the group with a key the one whose instruction executes. -/
def State.focus (s : State) (k : Nat) : State :=
  if s.cur.key == k then s
  else match s.rest.find? fun g => g.key == k with
    | some g => { s with cur := g, rest := s.cur :: s.rest.filter fun h => h.key != k }
    | none => s

/-- Do `f` to the state with group `k` current, then make the group that was current so again. -/
def State.withGroup (s : State) (k : Nat) (f : State → State) : State := (f (s.focus k)).focus s.cur.key

/-- A run is in flight, or a remote load or atomic of an ended one has not answered: the lane stream is at no boundary (R265). -/
def Group.inRun (g : Group) : Bool := g.run.isSome || !g.freads.isEmpty

/-- A group that exists and has not ended. -/
def Group.alive (g : Group) : Bool := g.phase != .none && g.phase != .ended

/-- A migration moves the page of an address (R28). -/
def Migration.covers (m : Migration) (asid : BitVec 16) (va : Nat) : Bool :=
  m.q.asid == asid && m.q.va.toNat % 2 ^ 57 / m.size == va % 2 ^ 57 / m.size

/-- A request names the 64 KiB page of an address. -/
def MigReq.names (q : MigReq) (asid : BitVec 16) (va : Nat) : Bool :=
  q.asid == asid && q.va.toNat % 2 ^ 57 / 65536 == va % 2 ^ 57 / 65536

/-- A migration of the page of an address is asked for, waits, or is under way (R21, R26). -/
def State.movesPage (s : State) (asid : BitVec 16) (va : Nat) : Bool :=
  s.migrations.any (fun m => m.covers asid va) || s.migWait.any (fun q => MigReq.names q asid va) ||
  s.agenda.any fun i => match i with | .migrationStart q => MigReq.names q asid va | _ => false

/-! ## Teams, launches, contexts -/

/-- The team with a key. -/
def State.team? (s : State) (k : Nat) : Option Team := s.teams.find? fun t => t.key == k

/-- The team of the current group; a blank team where there is none. -/
def State.team (s : State) : Team := (s.team? s.cur.teamKey).getD default

/-- Change the team with a key. -/
def State.onTeam (s : State) (k : Nat) (f : Team → Team) : State :=
  { s with teams := s.teams.map fun t => if t.key == k then f t else t }

/-- The groups of a team. -/
def State.groupsOf (s : State) (k : Nat) : List Group := s.groups.filter fun g => g.phase != .none && g.teamKey == k

/-- The context of an ASID. -/
def State.ctx? (s : State) (a : BitVec 16) : Option Ctx := s.ctxs.find? fun c => c.asid == a

/-- Change the context of an ASID. -/
def State.onCtx (s : State) (a : BitVec 16) (f : Ctx → Ctx) : State :=
  { s with ctxs := s.ctxs.map fun c => if c.asid == a then f c else c }

/-- The launch with a number. -/
def State.launch? (s : State) (l : BitVec 32) : Option Launch := s.launches.find? fun x => x.lid == l

/-- Change the launch with a number. -/
def State.onLaunch (s : State) (l : BitVec 32) (f : Launch → Launch) : State :=
  { s with launches := s.launches.map fun x => if x.lid == l then f x else x }

/-! ## Cores and clusters -/

/-- A core on which nothing has happened (R87, R93). -/
def Core.idle (id : Nat) : Core := { id := id, pts := 0, l1 := [], boxes := [], wcb := [], reqs := [], replies := [] }

/-- Requests of a core whose reply has not reached it (R12, R125). -/
def Core.outstanding (c : Core) : Nat := c.reqs.length + c.replies.length

/-- A core by its `CORE` value, die × 64 + core (R8). -/
def State.coreAt (s : State) (id : Nat) : Core := (s.cores.find? fun c => c.id == id).getD (Core.idle id)

/-- Change a core. -/
def State.onCore (s : State) (id : Nat) (f : Core → Core) : State :=
  if s.cores.any fun c => c.id == id then { s with cores := s.cores.map fun c => if c.id == id then f c else c }
  else { s with cores := insertBy Core.id (f (Core.idle id)) s.cores }

/-- The cluster of a core: four cores share one (R8). -/
def clusterOf (core : Nat) : Nat := core / 4

def Cluster.idle (id : Nat) : Cluster := { id := id, tlb := [], ptrs := [], shards := [], epoch := 0 }

def State.clusterAt (s : State) (id : Nat) : Cluster := (s.clusters.find? fun c => c.id == id).getD (Cluster.idle id)

def State.onCluster (s : State) (id : Nat) (f : Cluster → Cluster) : State :=
  if s.clusters.any fun c => c.id == id then { s with clusters := s.clusters.map fun c => if c.id == id then f c else c }
  else { s with clusters := insertBy Cluster.id (f (Cluster.idle id)) s.clusters }

/-- `LTIME` of a core (R87). -/
def State.pts (s : State) (core : Nat) : Nat := (s.coreAt core).pts

/-- Raise a core's `pts`; it never decreases (R87). -/
def State.raisePts (s : State) (core t : Nat) : State :=
  if t ≤ s.pts core then s else s.onCore core fun c => { c with pts := max c.pts t }

/-! ## Free values, answers, counts -/

/-- The next free value (log 3). -/
def State.free64 (s : State) : BitVec 64 := Config.freeValue s.fresh

/-- A free value has been used. -/
def State.used (s : State) : State := { s with fresh := s.fresh + 1 }

/-- Send something out of the package. -/
def State.emit (s : State) (o : Out) : State := { s with out := s.out ++ [o] }

/-- Let an event happen after those already listed (log 2). -/
def State.later (s : State) (i : Instr) : State := { s with agenda := s.agenda ++ [i] }

/-- An entry in the event log (R410). -/
def State.logEvent (s : State) (what arg : Nat) : State := { s with log := s.log ++ [(what, arg)] }

/-- Add one to a fault count (R389). -/
def State.countFault (s : State) (what : Nat) : State :=
  { s with counts := if s.counts.any fun c => c.1 == what then s.counts.map fun c => if c.1 == what then (c.1, c.2 + 1) else c
      else s.counts ++ [(what, 1)] }

/-- A fault or a corrected error is counted in its class of R410 (0 lane, 1 operation, 2 team, 3 context, 4 die, 5 device, 6 corrected) and
entered in the event log. -/
def State.faultEvent (s : State) (cls code arg : Nat) : State := (s.countFault cls).logEvent code arg

/-! ## Association lists of numbers -/

/-- The value of a key, `d` where none is listed. -/
def assocD (d : Nat) (l : List (Nat × Nat)) (k : Nat) : Nat := ((l.find? fun p => p.1 == k).map Prod.snd).getD d

/-- Set the value of a key. -/
def assocSet (l : List (Nat × Nat)) (k v : Nat) : List (Nat × Nat) :=
  if l.any fun p => p.1 == k then l.map fun p => if p.1 == k then (k, v) else p else l ++ [(k, v)]

end Sys2Proof.Machine
end

