-- ==== Sys2Proof/Machine/Num.lean ====
section
/-! DEFINITION. Number formats and exact arithmetic (R171 to R183). A real is exact: a sign, a natural number and a
power of two. Rounding happens once (R181). -/

namespace Sys2Proof.Machine

/-- An exact real or an IEEE special. `fin n m e` is (-1)^n × m × 2^e, a zero when m = 0. -/
inductive FVal where
  | nan
  | inf (neg : Bool)
  | fin (neg : Bool) (m : Nat) (e : Int)
  deriving DecidableEq, Repr

namespace Num

/-- An element format: exponent bits, fraction bits, bias (R171, R175, R177). `spec` is 2 for IEEE infinities and NaNs,
1 for E4M3 (one NaN code a sign), 0 for none. -/
structure Fmt where
  eb : Nat
  fb : Nat
  bias : Nat
  spec : Nat
  deriving DecidableEq, Repr

def f32 : Fmt := ⟨8, 23, 127, 2⟩
def f16 : Fmt := ⟨5, 10, 15, 2⟩
def bf16 : Fmt := ⟨8, 7, 127, 2⟩
def e4m3 : Fmt := ⟨4, 3, 7, 1⟩
def e5m2 : Fmt := ⟨5, 2, 15, 2⟩
def e2m1 : Fmt := ⟨2, 1, 1, 0⟩

/-- The format of a float type; `f32` for the others. -/
def fmtOf : Ty → Fmt
  | .f16x2 => f16 | .bf16x2 => bf16 | .e4m3x4 => e4m3 | .e5m2x4 => e5m2 | .e2m1x8 => e2m1 | .x2m1x8 => e2m1
  | _ => f32

/-- Bits of a code. -/
def fmtBits (f : Fmt) : Nat := 1 + f.eb + f.fb

/-- Smallest normal exponent. -/
def emin (f : Fmt) : Int := 1 - (f.bias : Int)

/-- The value of a code (R171, R175, R177). -/
def decode (f : Fmt) (c : Nat) : FVal :=
  let s := bit c (f.eb + f.fb)
  let e := bits c f.fb f.eb
  let m := c % 2 ^ f.fb
  if f.spec == 2 && e + 1 == 2 ^ f.eb then (if m == 0 then .inf s else .nan)
  else if f.spec == 1 && e + 1 == 2 ^ f.eb && m + 1 == 2 ^ f.fb then .nan
  else if e == 0 then .fin s m (emin f - f.fb)
  else .fin s (2 ^ f.fb + m) (e - f.bias - f.fb)

/-- Magnitude code of the largest finite value. -/
def maxCode (f : Fmt) : Nat :=
  match f.spec with
  | 2 => 2 ^ (f.eb + f.fb) - 2 ^ f.fb - 1
  | 1 => 2 ^ (f.eb + f.fb) - 2
  | _ => 2 ^ (f.eb + f.fb) - 1

/-- The largest finite value with a sign. -/
def maxFinite (f : Fmt) (neg : Bool) : FVal :=
  match decode f (maxCode f) with
  | .fin _ m e => .fin neg m e
  | v => v

/-- The canonical NaN code (R173, R175, R177). -/
def nanCode (f : Fmt) : Nat :=
  match f.spec with
  | 2 => 2 ^ (f.eb + f.fb) - 2 ^ (f.fb - 1)
  | 1 => 2 ^ (f.eb + f.fb) - 1
  | _ => 0

/-- m × 2^e as a multiple of 2^q, for q ≤ e. -/
def shiftTo (m : Nat) (e q : Int) : Nat := m <<< (e - q).toNat

/-- A finite value as a signed multiple of 2^q, for q ≤ e. -/
def toInt (neg : Bool) (m : Nat) (e q : Int) : Int := if neg then -(shiftTo m e q : Int) else shiftTo m e q

/-- Round the magnitude m × 2^e to a multiple of 2^q in mode `rm` (R157, R181). -/
def roundAt (rm : Rm) (neg : Bool) (m : Nat) (e q : Int) : Nat :=
  if q ≤ e then shiftTo m e q
  else
    let s := (q - e).toNat
    let k := m >>> s
    let r := m - k <<< s
    let h := 1 <<< (s - 1)
    let up := match rm with
      | .rne => h < r || (r == h && k % 2 == 1)
      | .rna => h ≤ r
      | .rz => false
      | .rd => neg && r != 0
      | .ru => !neg && r != 0
    if up then k + 1 else k

/-- `⌊log₂⌋` of the magnitude m × 2^e, for m ≠ 0. -/
def exponent (m : Nat) (e : Int) : Int := log2 m + e

/-- Last place of a value of exponent `l` in a format. -/
def lastPlace (f : Fmt) (l : Int) : Int := max l (emin f) - f.fb

/-- Rounding with the exponent range unbounded above (R176, R181). -/
def roundUnbounded (f : Fmt) (rm : Rm) : FVal → FVal
  | .fin neg m e =>
    if m == 0 then .fin neg 0 0
    else
      let q := lastPlace f (exponent m e)
      .fin neg (roundAt rm neg m e q) q
  | v => v

/-- |a| > |b| of finite values. -/
def magGt (m : Nat) (e : Int) (m' : Nat) (e' : Int) : Bool :=
  let q := min e e'
  shiftTo m' e' q < shiftTo m e q

/-- A finite value beyond the largest finite magnitude of a format. -/
def overflows (f : Fmt) : FVal → Bool
  | .fin _ m e => match decode f (maxCode f) with
    | .fin _ m' e' => magGt m e m' e'
    | _ => false
  | _ => false

/-- What a finite overflow gives (R176, R177, R182). -/
def overflowTo (f : Fmt) (rm : Rm) (neg : Bool) : FVal :=
  if f.spec == 2 then
    match rm with
    | .rne | .rna => .inf neg
    | .rz => maxFinite f neg
    | .rd => if neg then .inf true else maxFinite f false
    | .ru => if neg then maxFinite f true else .inf false
  else maxFinite f neg

/-- `RoundTo` of R181 for float formats: the one rounding, overflow and what a format makes of an infinity. -/
def roundTo (f : Fmt) (rm : Rm) (v : FVal) : FVal :=
  match roundUnbounded f rm v with
  | .inf neg => if f.spec == 2 then .inf neg else if f.spec == 1 then .nan else maxFinite f neg
  | .nan => .nan
  | .fin neg m e => if overflows f (.fin neg m e) then overflowTo f rm neg else .fin neg m e

/-- Code of a representable value. -/
def encode (f : Fmt) : FVal → Nat
  | .nan => nanCode f
  | .inf neg => b2n neg <<< (f.eb + f.fb) + (if f.spec == 2 then 2 ^ (f.eb + f.fb) - 2 ^ f.fb else if f.spec == 1 then
      2 ^ (f.eb + f.fb) - 1 else maxCode f)
  | .fin neg m e =>
    b2n neg <<< (f.eb + f.fb) +
    (if m == 0 then 0
     else
      let l := exponent m e
      let q := lastPlace f l
      let k := if q ≤ e then shiftTo m e q else m >>> (q - e).toNat
      if l < emin f then k else (l + f.bias).toNat <<< f.fb + (k - 2 ^ f.fb))

/-! ## Arithmetic on exact values -/

def neg : FVal → FVal
  | .nan => .nan
  | .inf n => .inf (!n)
  | .fin n m e => .fin (!n) m e

def abs : FVal → FVal
  | .nan => .nan
  | .inf _ => .inf false
  | .fin _ m e => .fin false m e

def isNeg : FVal → Bool
  | .nan => false
  | .inf n => n
  | .fin n _ _ => n

def isNan (v : FVal) : Bool := v == .nan

def isInf : FVal → Bool
  | .inf _ => true
  | _ => false

def isZero : FVal → Bool
  | .fin _ m _ => m == 0
  | _ => false

/-- v × 2^k; zeros, infinities and NaN are unchanged (R181). -/
def scale (v : FVal) (k : Int) : FVal :=
  match v with
  | .fin n m e => .fin n m (e + k)
  | v => v

/-- The value of an integer. -/
def ofInt (i : Int) : FVal := .fin (i < 0) i.natAbs 0

/-- Exact sum (R284). An exactly zero sum of operands with unlike signs is +0, or -0 under RD. -/
def add (rm : Rm) : FVal → FVal → FVal
  | .nan, _ => .nan
  | _, .nan => .nan
  | .inf a, .inf b => if a == b then .inf a else .nan
  | .inf a, .fin _ _ _ => .inf a
  | .fin _ _ _, .inf b => .inf b
  | .fin a m e, .fin b n f =>
    let q := min e f
    let s := toInt a m e q + toInt b n f q
    if s == 0 then .fin (if m == 0 && n == 0 && a == b then a else rm == .rd) 0 0
    else .fin (s < 0) s.natAbs q

def sub (rm : Rm) (a b : FVal) : FVal := add rm a (neg b)

/-- Exact product (R284). -/
def mul : FVal → FVal → FVal
  | .nan, _ => .nan
  | _, .nan => .nan
  | .inf a, .inf b => .inf (a != b)
  | .inf a, .fin b n _ => if n == 0 then .nan else .inf (a != b)
  | .fin a m _, .inf b => if m == 0 then .nan else .inf (a != b)
  | .fin a m e, .fin b n f => .fin (a != b) (m * n) (e + f)

/-- Quotient (R284). An inexact one is cut to at least 70 bits with a last bit that stands for the rest, so the one
rounding that follows is right in every mode. -/
def div : FVal → FVal → FVal
  | .nan, _ => .nan
  | _, .nan => .nan
  | .inf _, .inf _ => .nan
  | .inf a, .fin b _ _ => .inf (a != b)
  | .fin a _ _, .inf b => .fin (a != b) 0 0
  | .fin a m e, .fin b n f =>
    if n == 0 then (if m == 0 then .nan else .inf (a != b))
    else if m == 0 then .fin (a != b) 0 0
    else
      let k := 70 + log2 n - log2 m
      let q := m <<< k / n
      .fin (a != b) (2 * q + b2n (q * n != m <<< k)) (e - f - k - 1)

/-- Square root (R288), cut as a quotient is. -/
def sqrt : FVal → FVal
  | .nan => .nan
  | .inf n => if n then .nan else .inf false
  | .fin n m e =>
    if m == 0 then .fin n 0 0
    else if n then .nan
    else
      let k := 160 + (e % 2).toNat
      let s := isqrt (m <<< k)
      .fin false (2 * s + b2n (s * s != m <<< k)) ((e - k) / 2 - 1)

/-- a < b of values that are no NaN, -0 below +0 (R174). -/
def lt : FVal → FVal → Bool
  | .nan, _ => false
  | _, .nan => false
  | .inf a, .inf b => a && !b
  | .inf a, .fin _ _ _ => a
  | .fin _ _ _, .inf b => !b
  | .fin a m e, .fin b n f =>
    let q := min e f
    let x := toInt a m e q
    let y := toInt b n f q
    x < y || (x == y && a && !b)

/-- a = b with -0 equal to +0, false on NaN (R286). -/
def eq (a b : FVal) : Bool := !isNan a && !isNan b && ((isZero a && isZero b) || (!lt a b && !lt b a))

/-- a < b with -0 equal to +0, false on NaN (R286). -/
def below (a b : FVal) : Bool := lt a b && !(isZero a && isZero b)

/-- minimumNumber of R174. -/
def minNum (a b : FVal) : FVal := if isNan a then b else if isNan b then a else if lt b a then b else a

/-- maximumNumber of R174. -/
def maxNum (a b : FVal) : FVal := if isNan a then b else if isNan b then a else if lt a b then b else a

def one (neg : Bool) : FVal := .fin neg 1 0

/-! ## Finish (R181) -/

/-- SAT of R181 on a float result `r` of the exact value `t`. -/
def saturate (f : Fmt) (s : Sat) (t r : FVal) : FVal :=
  match s with
  | .none => r
  | .type => if isNan t then r else if isInf t then maxFinite f (isNeg t) else if isInf r then maxFinite f (isNeg t) else r
  | .c01 => if isNan r then .fin false 0 0 else minNum (maxNum r (.fin false 0 0)) (one false)
  | .c11 => if isNan r then .fin false 0 0 else minNum (maxNum r (one true)) (one false)

/-- SCALE, the one rounding, then SAT. -/
def finish (f : Fmt) (m : Mods) (t : FVal) : FVal :=
  let t := scale t m.scale.toInt
  saturate f m.sat t (roundTo f m.rm t)

/-- E8M0 code of a real (R178, R181). -/
def toE8m0 (m : Mods) (t : FVal) : Nat :=
  match scale t m.scale.toInt with
  | .nan => 255
  | .inf _ => if m.sat == .type then 254 else 255
  | .fin _ k e =>
    if k == 0 then 0
    else
      let l := exponent k e
      let exact := k == 1 <<< log2 k
      let up := match m.rm with
        | .rz | .rd => false
        | .ru => !exact
        | .rne | .rna => magGt (k * k) (2 * e) 1 (2 * l + 1)
      let x : Int := (if up then l + 1 else l) + 127
      (max 0 (min x 254)).toNat

/-- Value of an E8M0 code (R178). -/
def ofE8m0 (c : Nat) : FVal := if c == 255 then .nan else .fin false 1 (c - 127)

/-- Nearest integer of a finite value in mode `rm`. -/
def toIntRm (rm : Rm) : FVal → Int
  | .fin n m e => let k := roundAt rm n m e 0; if n then -(k : Int) else k
  | _ => 0

/-- Ends of an integer type's range (R172). -/
def intMin (t : Ty) : Int := if t.signed then -((2 ^ (t.bits - 1) : Nat) : Int) else 0
def intMax (t : Ty) : Int := if t.signed then (2 ^ (t.bits - 1) - 1 : Nat) else (2 ^ t.bits - 1 : Nat)

/-- The nearest end of a type's range. -/
def clampInt (t : Ty) (i : Int) : Int := max (intMin t) (min i (intMax t))

/-- i × 2^k, floored for a negative k (R172). -/
def scaleInt (i : Int) (k : Int) : Int := if 0 ≤ k then i * (2 ^ k.toNat : Nat) else i / (2 ^ (-k).toNat : Nat)

/-- Integer value of an element code (R171). -/
def intVal (t : Ty) (c : Nat) : Int := if t.signed then sextInt c t.bits else (c % 2 ^ t.bits : Nat)

/-- Integer element of an exact result: SCALE, then saturate or wrap (R172, R236). -/
def finishInt (t : Ty) (m : Mods) (i : Int) : Nat :=
  let i := scaleInt i m.scale.toInt
  wrapInt (if m.sat == .type then clampInt t i else i) t.bits

/-- Real value of an element code of any type (R171, R177, R178, R292). -/
def value (t : Ty) (c : Nat) : FVal :=
  if t.isInt then ofInt (intVal t c)
  else match t with
    | .e8m0x4 => ofE8m0 (c % 256)
    | .x2m1x8 => if c % 16 == 8 then .nan else decode e2m1 (c % 16)
    | t => decode (fmtOf t) (c % 2 ^ t.bits)

/-- ABS then NEG of source `k` (R157). -/
def applyNa (m : Mods) (k : Nat) (v : FVal) : FVal :=
  let v := if m.abs.getLsbD k then abs v else v
  if m.neg.getLsbD k then neg v else v

/-- The same on an exact integer (R236). -/
def applyNaInt (m : Mods) (k : Nat) (i : Int) : Int :=
  let i := if m.abs.getLsbD k then (i.natAbs : Int) else i
  if m.neg.getLsbD k then -i else i

/-- Element code of an exact value in a destination type (R176 to R183, R292). -/
def fromReal (t : Ty) (m : Mods) (v : FVal) : Nat :=
  if t.isInt then
    match scale v m.scale.toInt with
    | .nan => 0
    | .inf n => wrapInt (if n then intMin t else intMax t) t.bits
    | w => wrapInt (clampInt t (toIntRm m.rm w)) t.bits
  else match t with
    | .e8m0x4 => toE8m0 m v
    | .x2m1x8 => let c := encode e2m1 (finish e2m1 m v); if c == 8 then 0 else c
    | t => encode (fmtOf t) (finish (fmtOf t) m v)

/-- Conversion of one element code from type `s` to type `t` (R291, R292). `k` is the source's number for NEG and ABS, which act on an integer source as
an integer: it has no signed zero. -/
def convert (t s : Ty) (m : Mods) (k : Nat) (c : Nat) : Nat :=
  if s.isInt then
    let i := applyNaInt m k (intVal s c)
    if t.isInt then finishInt t m i else fromReal t m (ofInt i)
  else fromReal t m (applyNa m k (value s c))

/-- Rounded `f32` code, RNE. -/
def toF32 (v : FVal) : Nat := encode f32 (roundTo f32 .rne v)

/-- Element `e` of an operand of type `t`. -/
def elem (t : Ty) (v e : Nat) : Nat := bits v (e * t.bits) t.bits

/-- An operand of its elements, element 0 lowest (R171). -/
def packElems (t : Ty) : List Nat → Nat
  | [] => 0
  | c :: cs => c + packElems t cs <<< t.bits

end Num
end Sys2Proof.Machine
end

