-- ==== Sys2Proof/Machine/Atom.lean ====
section
/-! DEFINITION. The operations of the bank ALU (R75, R274): one element of 4 or 8 bytes. -/

namespace Sys2Proof.Machine

/-- Least or greatest of two element codes. -/
def minMaxElem (isMax : Bool) (t : Ty) (a b : Nat) : Nat :=
  if t.isInt then
    if (if isMax then Num.intVal t a < Num.intVal t b else Num.intVal t b < Num.intVal t a) then b else a
  else
    let f := Num.fmtOf t
    let x := Num.decode f a
    let y := Num.decode f b
    Num.encode f (if isMax then Num.maxNum x y else Num.minNum x y)

/-- Sum of two element codes: wrapping, or one IEEE addition in RNE (R75). -/
def addElem (t : Ty) (a b : Nat) : Nat :=
  if t.isInt then (a + b) % 2 ^ t.bits
  else
    let f := Num.fmtOf t
    Num.encode f (Num.roundTo f .rne (Num.add .rne (Num.decode f a) (Num.decode f b)))

/-- `g` on each element of an operand of type `t`. -/
def mapElems2 (t : Ty) (g : Nat → Nat → Nat) (a b : Nat) : Nat :=
  Num.packElems t ((List.range t.count).map fun e => g (Num.elem t a e) (Num.elem t b e))

/-- New value of an atomic operation FN (R274). FN 8 to 10 are the line forms of 0 to 2. -/
def atomOp (fn : Nat) (t : Ty) (old s1 s2 : Nat) : Nat :=
  match fn % 8 with
  | 0 => mapElems2 t (addElem t) old s1
  | 1 => mapElems2 t (minMaxElem false t) old s1
  | 2 => mapElems2 t (minMaxElem true t) old s1
  | 3 => old &&& s1
  | 4 => old ||| s1
  | 5 => old ^^^ s1
  | 6 => s1
  | _ => if old == s2 then s1 else old

/-- Bytes of an operand. -/
def tyBytes (t : Ty) : Nat := t.width / 8

end Sys2Proof.Machine
end

