-- ==== Sys2Proof/Machine/Place.lean ====
section
/-! DEFINITION. Lines where they stand: DRAM, bank store and addressed pools, their times, watches, snoop filters and folds (R16 to R24, R66, R69, R86 to
R102). -/

namespace Sys2Proof.Machine

/-! ## Physical lines -/

/-- First address of the addressed-pool space, in lines (R16). -/
def poolBase : Nat := 0x8000000000000 / 128

/-- A line of the addressed-pool space. -/
def isPool (l : Nat) : Bool := decide (poolBase ≤ l) && decide (l < poolBase + 0x20000000000 / 128)

/-- VC id of a pool address (R16). -/
def poolVc (l : Nat) : Nat := (l - poolBase) / 0x4000000 % 256

/-- Line number within the pool. -/
def poolLine (l : Nat) : Nat := (l - poolBase) % 0x4000000

/-- A defined virtual cache (R79). -/
def State.vc? (s : State) (v : Nat) : Option Vc := s.vcs.find? fun c => c.id == v && c.phase != .undefined

/-- Change a virtual cache. -/
def State.onVc (s : State) (v : Nat) (f : Vc → Vc) : State :=
  { s with vcs := s.vcs.map fun c => if c.id == v then f c else c }

/-- Die of a global share number (R60). -/
def shareDie (g : Nat) : Nat := g / 16384

/-- Global bank number of a global share number (R60). -/
def shareBank (g : Nat) : Nat := g / 16

/-- VC 254 holds a share: share 0 of every bank first, the low banks before the high, then share 1, up to its size per die (R66, log 95). -/
def State.in254 (s : State) (g : Nat) : Bool :=
  let i := g % 16384
  decide (i % 16 * 1024 + i / 16 < s.per254.getD (shareDie g) 1024)

/-- Some VC with a CDR holds a share, or it is between two (R83). -/
def State.shareTaken (s : State) (g : Nat) : Bool :=
  s.vcs.any fun c => c.shares.contains g || c.joining.contains g || c.leaving.contains g

/-- A share that works, on a die that is there: those of a lost die have left every VC (R66, R412). -/
def State.goodShare (s : State) (g : Nat) : Bool := !s.badShares.contains g && !s.lostDies.contains (shareDie g)

/-- VC 0 holds a share: a good one that no other VC holds (R66). -/
def State.in0 (s : State) (g : Nat) : Bool := s.goodShare g && !s.in254 g && !s.shareTaken g

/-- Shares of VC 0 on a die. -/
def State.vc0Shares (s : State) (d : Nat) : List Nat := ((List.range 16384).map fun i => d * 16384 + i).filter s.in0

/-- Shares of VC 254. -/
def State.vc254Shares (s : State) : List Nat := (List.range 65536).filter fun g => s.goodShare g && s.in254 g

/-- Where a line stands whose VC has no share to hold it: share 0 of the lowest die that is there (log 96). -/
def State.spareShare (s : State) : Nat := ((List.range 4).find? fun d => !s.lostDies.contains d).getD 0 * 16384

/-- The bank-store copy of a line. -/
def State.bank? (s : State) (l : Nat) : Option BLine := s.bank.find? fun b => b.line == l

/-- The share that the mapping of its pool gives a pool line (R69). -/
def State.poolShare (s : State) (v l : Nat) : Nat :=
  match s.vc? v with
  | some c => if c.shares.isEmpty then s.spareShare else c.shares.getD (poolLine l % c.shares.length) 0
  | none => s.spareShare

/-! ## DRAM parts (R17, R18) -/

/-- Where an address of DRAM lies: an HBM4E stack and the address in it, or a DDR-5 channel. -/
inductive Site where
  | hbm (stack addr : Nat)
  | ddr (channel : Nat)
  deriving DecidableEq, Repr

/-- Stack of the address at offset `o` of die window `d`, and its address there: 4 KiB units interleave over the three stacks of the die (R17). -/
def hbmSite (d o : Nat) : Site := .hbm (3 * d + o / 4096 % 3) (o / 4096 / 3 * 4096 + o % 4096)

/-- Channel of a DDR-5 address (R18). -/
def ddrChannel (pa : Nat) : Nat := (pa - 0x10000000000) / 4096 % 16

/-- The site of a DRAM address. -/
def dramSite (pa : Nat) : Site :=
  if pa < 0x10000000000 then hbmSite (pa / 0x4000000000) (pa % 0x4000000000) else .ddr (ddrChannel pa)

/-- A site as the event log names it: stacks 0 to 11 with the address above, channels from 16. -/
def Site.code : Site → Nat
  | .hbm k a => k + 32 * a
  | .ddr c => 16 + c

/-- Home die of a line (R16, R18, R414). A pool line is at home where the bank that holds it is (R74). -/
def State.home (s : State) (l : Nat) : Nat :=
  if isPool l then shareDie (((s.bank? l).map BLine.share).getD (s.poolShare (poolVc l) l))
  else
    let pa := l * 128
    if pa < 0x10000000000 then pa / 0x4000000000
    else
      let d := ddrChannel pa / 4
      if s.lostDies.contains d then ((List.range 4).find? fun e => !s.lostDies.contains e).getD d else d

/-- A pool line stood in a share of the die when that was lost (R414). -/
def LostPool.has (p : LostPool) (l : Nat) : Bool :=
  p.vc == poolVc l && decide (poolLine l < p.shares.length * 1024) &&
  (p.gone.contains l || (!p.kept.contains l && shareDie (p.shares.getD (poolLine l % p.shares.length) 0) == p.die))

/-- The line is lost with its die: an HBM4E line homed there, or a pool line that stood in one of its shares (R414). -/
def State.lost (s : State) (l : Nat) : Bool :=
  !s.lostDies.isEmpty && if isPool l then s.lostPools.any fun p => p.has l else s.lostDies.contains (s.home l)

/-- Global number of the arbiter slice of a line (R328). -/
def State.slice (s : State) (l : Nat) : Nat := s.home l * 64 + Config.sliceHash l % 64

/-! ## Arbiters (R328, R329, R332) -/

/-- Rank of the arbiter of a line: scratch arbiters, by core, below every slice. -/
def State.arbiterOf (s : State) : LineId → Option Nat
  | .mem l => some (256 + s.slice l)
  | .scr t _ => some (((s.team? t).map Team.core).getD 0)
  | _ => none

/-- A chunk lists a line. -/
def Chunk.names (c : Chunk) (id : LineId) : Bool := c.reads.any (fun r => r.line == id) || c.quar.any fun q => q.line == id

/-- A group other than `own` has reserved a line (R332). -/
def State.reservedFrom (s : State) (own : Option Nat) (id : LineId) : Bool := s.reserved.any fun r => r.line == id && some r.gkey != own

/-- A line that has an arbiter. -/
def LineId.arbitrated : LineId → Bool
  | .mem _ | .scr _ _ => true
  | .rem _ _ _ | .shd _ _ _ => false

/-- Two chunks that no arbiter admits together: one writes a line of this chip that the other lists (R329). -/
def Chunk.conflicts (c d : Chunk) : Bool :=
  c.quar.any (fun q => q.line.arbitrated && (d.reads.any (fun r => r.line == q.line) || d.quar.any fun p => p.line == q.line)) ||
  c.reads.any (fun r => d.quar.any fun p => p.line == r.line)

/-- The reservations of other groups that keep a group's chunk out of arbiter `arb`, or out of any: those of lines it writes there. A chunk that some
arbiter has admitted goes past the reservations of a group whose chunk will wait for it (R329, R332, log 98). -/
def State.keptBy (s : State) (g : Group) (arb : Option Nat) : List Resv :=
  s.reserved.filter fun r => r.gkey != g.key &&
    (g.chunk.quar.any fun q => q.line == r.line && (arb.isNone || s.arbiterOf q.line == arb)) &&
    !(!g.chunk.got.isEmpty && (s.group? r.gkey).any fun h => h.chunk.conflicts g.chunk)

/-- A group's chunk stands in the FIFO of an arbiter, and not for a reservation (log 78). -/
def State.waitsAt (s : State) (a : Nat) (g : Group) : Bool :=
  g.chunk.committing && g.chunk.pend.head? == some a && (s.keptBy g (some a)).isEmpty

/-- The arbiter of a line does not admit an engine commit of it now: a reservation, an admitted chunk that lists the line, or a chunk that reached the
arbiter before stands against it. `own` is a group whose own chunk does not count (log 78). -/
def State.lineHeld (s : State) (own : Option Nat) (id : LineId) : Bool :=
  s.reservedFrom own id ||
  s.groups.any fun g => g.chunk.committing && some g.key != own && match s.arbiterOf id with
    | some a => (g.chunk.got.contains a && g.chunk.names id) || s.waitsAt a g
    | none => false

/-- A physical address has memory behind it (R16, R19). -/
def State.populated (s : State) (pa : Nat) : Bool :=
  if pa < 0x10000000000 then decide (pa % 0x4000000000 < 0x3000000000)
  else decide (0x10000000000 ≤ pa) && decide (pa < 0x50000000000) && decide (pa - 0x10000000000 < s.ddrCap)

/-- Bytes of an addressed pool (R69). -/
def Vc.poolSize (c : Vc) : Nat := c.shares.length * 131072

/-- Share of a line in its VC (R69); the spare one where the VC holds none (log 96). -/
def State.shareFor (s : State) (v l : Nat) : Nat :=
  if isPool l then s.poolShare v l
  else
    let block (lsz : Nat) := l >>> lsz
    let pick (ss : List Nat) (b : Nat) := if ss.isEmpty then s.spareShare else ss.getD (Config.shareHash b % ss.length) 0
    if v == 0 then pick (s.vc0Shares (s.home l)) (block 0)
    else if v == 254 then pick s.vc254Shares (block 3)
    else match s.vc? v with
      | some c => pick c.shares (block c.lsz)
      | none => s.spareShare

/-- Allocation-block size code and ways of a VC (R63, R66). -/
def State.geometry (s : State) (v : Nat) : Nat × Nat :=
  match s.vc? v with
  | some c => (c.lsz, 2 ^ c.assoc)
  | none => (0, 16)

/-- Write policy of a VC: 0 write-back, 1 write-through, 2 no-allocate, 3 read-only (R63). -/
def State.wpol (s : State) (v : Nat) : Nat := ((s.vc? v).map Vc.wpol).getD 0

/-- Lease length of a VC (R90). -/
def State.leaseOf (s : State) (v : Nat) : Nat :=
  let own := if v == 0 || v == 254 || v == 255 then 0 else ((s.vc? v).map Vc.lease).getD 0
  max 16 (if own == 0 then s.lease.toNat else own)

/-! ## Line times -/

/-- `MWT` and `MRT` of the slice of a line (R89). -/
def State.sliceTimes (s : State) (l : Nat) : Nat × Nat :=
  match s.slices.find? fun t => t.1 == s.slice l with
  | some t => t.2
  | none => (0, 0)

/-- Set them. -/
def State.setSlice (s : State) (l w r : Nat) : State :=
  if s.slices.any fun t => t.1 == s.slice l then
    { s with slices := s.slices.map fun t => if t.1 == s.slice l then (t.1, w, r) else t }
  else { s with slices := (s.slice l, w, r) :: s.slices }

/-- Raise the slice times of a line (R89). -/
def State.raiseSlice (s : State) (l w r : Nat) : State :=
  let (mw, mr) := s.sliceTimes l
  s.setSlice l (max mw w) (max mr r)

/-- Timestamp base of the bank of a share (R88). -/
def State.baseOf (s : State) (share : Nat) : Nat := if s.bases.isEmpty then 0 else assocD 0 s.bases (shareBank share)

/-- `wts` and `rts` of a line at its place (R88, R89). A pool line that nothing has touched has both 0, which reads as its bank's base. -/
def State.times (s : State) (l : Nat) : Nat × Nat :=
  match s.bank? l with
  | some b => (max b.wts (s.baseOf b.share), max b.rts (s.baseOf b.share))
  | none => if isPool l then let t := s.baseOf (s.poolShare (poolVc l) l); (t, t) else s.sliceTimes l

/-- A bank stores time `t`: its base advances when the delta leaves 24 bits (R88). -/
def State.bankTime (s : State) (share t : Nat) : State :=
  if t ≤ s.baseOf share + 0xFFFFFF then s
  else { s with bases := assocSet s.bases (shareBank share) (t - 0x800000) }

/-- Put a bank-store copy in place of the one of the same line. -/
def State.putBank (s : State) (b : BLine) : State :=
  let bank := if s.bank.any (fun c => c.line == b.line) then s.bank.map (fun c => if c.line == b.line then b else c)
    else insertBy BLine.line b s.bank
  let s := { s with bank := bank }
  s.bankTime b.share (max b.wts b.rts)

/-! ## Watches (R101, R102) -/

/-- A group wakes from `WATCH` and goes on after it. -/
def State.unwatch (s : State) (k : Nat) : State :=
  s.onGroup k fun g => match g.phase with | .parked (.watch _) => { g with phase := .run } | _ => g

/-- A watched write: it wakes the watchers of a line. In overflow it wakes every watch of the home die and clears the overflow (R102). -/
def State.wakeWatch (s : State) (l : Nat) : State :=
  let d := s.home l
  if !s.watches.any fun w => w.die == d && w.line == l then s
  else
    let crowded := s.watches.any fun v => v.die == d && !v.listed
    let hit (w : WatchEnt) : Bool := w.die == d && (w.line == l || crowded)
    (s.watches.filter hit).foldl (fun s w => s.unwatch w.gkey) { s with watches := s.watches.filter fun w => !hit w }

/-- A line is watched. -/
def State.watched (s : State) (l : Nat) : Bool := s.watches.any fun w => w.line == l

/-- Groups that the watch table of a die lists (R102). -/
def State.tableCount (s : State) (d : Nat) : Nat := (s.watches.filter fun w => w.die == d && w.listed).length

/-- A pool line that has come to another die is watched there: its groups enter that die's table, or its overflow count where the table is full (R81,
R102, log 83). -/
def State.rewatch (s : State) (l : Nat) : State :=
  let d := s.home l
  (s.watches.filter fun w => w.line == l && w.die != d).foldl (fun s w =>
    { s with watches := (s.watches.filter fun v => v != w) ++ [{ w with die := d, listed := decide (s.tableCount d < 64) }] }) s

/-! ## DRAM (R22 to R24) -/

/-- Contents of a line: its bytes, or the token it is poisoned with. -/
structure LineSt where
  data : Mem
  x : Option (BitVec 32)
  deriving DecidableEq, Repr

/-- A correctable error of a line is corrected, the stored words are rewritten and the correction is counted for the host (R22). -/
def State.correct (s : State) (l : Nat) : State :=
  if s.soft.contains l then ({ s with soft := s.soft.filter fun x => x != l } : State).faultEvent 6 16 (dramSite (l * 128)).code else s

/-- Read a line of DRAM. The first read that meets an uncorrectable error gets UE and rewrites the line with the poison
syndrome; a line so stored gives POISON_LINE (R23). -/
def State.dramRead (s : State) (l : Nat) : State × LineSt :=
  if s.ue.contains l then
    ({ s with ue := s.ue.filter fun x => x != l, synd := if s.synd.contains l then s.synd else insertBy id l s.synd },
      ⟨[], some (bareToken Cause.ue)⟩)
  else if s.synd.contains l then (s, ⟨[], some (bareToken Cause.poisonLine)⟩)
  else (s.correct l, ⟨memSlice s.dram (l * 128) 128, none⟩)

/-- Store a whole clean line in DRAM with fresh check symbols. -/
def State.dramPut (s : State) (l : Nat) (d : Mem) : State :=
  { s with dram := memPut s.dram (l * 128) 128 d, synd := s.synd.filter fun x => x != l, ue := s.ue.filter fun x => x != l,
           soft := s.soft.filter fun x => x != l }

/-- Store a line with the poison syndrome (R23). -/
def State.dramPoison (s : State) (l : Nat) : State :=
  { s with synd := if s.synd.contains l then s.synd else insertBy id l s.synd, ue := s.ue.filter fun x => x != l,
           soft := s.soft.filter fun x => x != l }

/-- A write that reaches DRAM while the line has no bank-store copy: a partial write to a poisoned line is lost (R24), and
the slice's times become the commit time, and never fall (R89). -/
def State.dramCommit (s : State) (l : Nat) (bs : Mem) (poison : Option (BitVec 32)) (t : Nat) : State :=
  let s := match poison with
    | some _ => s.dramPoison l
    | none =>
      if cellsCover bs 0 128 then s.dramPut l (memMerge [] 0 bs)
      else
        let (s, c) := s.dramRead l
        if c.x.isSome then s else { s with dram := memPut s.dram (l * 128) 128 (memMerge c.data 0 bs) }
  s.raiseSlice l t t

/-! ## Update-only lines (R99, R100) -/

/-- The U copy of a line in a core's L1. -/
def Core.uCopy? (c : Core) (l : Nat) : Option L1Line := c.l1.find? fun x => x.line == l && x.st == .u

/-- Apply one element of `n` bytes at offset `o` of a line's data. -/
def applyElem (fn : BitVec 4) (t : Ty) (d : Mem) (o v : Nat) : Mem :=
  memWrite d o (toBytes (tyBytes t) (atomOp fn.toNat t (memNat d o (tyBytes t)) v 0))

/-- A line's data with the partials of every core of its U set, ascending (R100). -/
def State.foldedData (s : State) (b : BLine) : Mem :=
  if b.st != .u then b.data
  else (sortBy id b.uset).foldl (fun d c => match (s.coreAt c).uCopy? b.line with
    | some x => x.parts.foldl (fun d p => applyElem x.fn x.ty d p.1 p.2.toNat) d
    | none => d) b.data

/-- The update-only copies of a line leave the L1s of its U set (R93). -/
def State.dropU (s : State) (b : BLine) : State :=
  b.uset.foldl (fun s c => s.onCore c fun k => { k with l1 := k.l1.filter fun x => !(x.line == b.line && x.st == .u) }) s

/-- A line takes the partial results into its data at its place and is modified then (R100): the fold, but for the snoop filters. -/
def State.foldHere (s : State) (l : Nat) : State :=
  match s.bank? l with
  | some b =>
    if b.st == .u then
      let d := s.foldedData b
      let t := (s.times l).2 + 1
      ((s.dropU b).putBank { b with data := d, wts := t, rts := t, uset := [], st := .m, dirty := true }).wakeWatch l
    else s
  | none => s

/-! ## Snoop filters (R97) -/

/-- Set the filter bit of a line for a peer, in the entry of its region or in a new one. -/
def State.filterAdd (s : State) (peer l : Nat) : State :=
  let h := s.home l
  let hit (f : FilterEnt) : Bool := f.home == h && f.peer == peer && f.region == l / 32
  if s.filters.any hit then
    { s with filters := s.filters.map fun f => if hit f then { f with mask := f.mask ||| BitVec.twoPow 32 (l % 32) } else f }
  else { s with filters := s.filters ++ [⟨h, peer, l / 32, BitVec.twoPow 32 (l % 32)⟩] }

/-- Clear the filter bits of a line for the peers that `p` takes; an entry without bits is freed. -/
def State.filterClearFor (s : State) (p : Nat → Bool) (l : Nat) : State :=
  if s.filters.isEmpty then s
  else { s with filters := (s.filters.map fun f =>
      if f.region == l / 32 && p f.peer then { f with mask := f.mask &&& ~~~(BitVec.twoPow 32 (l % 32)) } else f).filter fun f => f.mask != 0 }

/-- Clear the filter bits of a line for every peer. -/
def State.filterClear (s : State) (l : Nat) : State := s.filterClearFor (fun _ => true) l

/-- A peer writes back the modified copy that it holds of a line, which stays as S (R97). -/
def State.cleanAt (s : State) (peer l : Nat) : State :=
  match s.bank? l with
  | some b => if b.st == BSt.m && shareDie b.share == peer && !isPool l then (s.dramPut l b.data).putBank { b with st := .s, dirty := false } else s
  | none => s

/-- The entry that the filter of a home for a peer recalls before it takes one more: its oldest, once it holds 65,536. -/
def State.filterOldest (s : State) (h peer : Nat) : Option FilterEnt :=
  let fs := s.filters.filter fun f => f.home == h && f.peer == peer
  if fs.length < 65536 then none else fs.head?

/-- Set the filter bit of a line for a peer. A full filter first recalls its oldest entry: the peer writes back that region's modified lines and hands over
its partial results, and the entry is freed (R97). A line that such a fold leaves modified at a third die gets its bit there, at most `n` deep. -/
def State.filterSetIn (s : State) (peer l : Nat) : Nat → State
  | 0 => s.filterAdd peer l
  | n + 1 =>
    let h := s.home l
    if h == peer then s
    else if s.filters.any fun f => f.home == h && f.peer == peer && f.region == l / 32 then s.filterAdd peer l
    else match s.filterOldest h peer with
      | none => s.filterAdd peer l
      | some f =>
        let s := (bitList 32 f.mask.toNat).foldl (fun s i =>
          let k := f.region * 32 + i
          let summed := (s.bank? k).any fun b => b.st == .u
          let s := (s.foldHere k).cleanAt peer k
          let s := s.filterClearFor (fun p => p == peer || summed) k
          match if summed then s.bank? k else none with
          | some b => if b.st == .m then s.filterSetIn (shareDie b.share) k n else s
          | none => s) s
        s.filterAdd peer l

/-- Set the filter bit of a line for a peer (R97). -/
def State.filterSet (s : State) (peer l : Nat) : State := s.filterSetIn peer l 4

/-- The filter bits of a line as its copy stands: those of the dies where it is modified or update-only away from home (R97). -/
def State.refilter (s : State) (b : BLine) : State :=
  let s := s.filterClear b.line
  match b.st with
  | .m => s.filterSet (shareDie b.share) b.line
  | .u => b.uset.foldl (fun s c => s.filterSet (c / 64) b.line) (s.filterSet (shareDie b.share) b.line)
  | _ => s

/-! ## Copies that fold, move and leave -/

/-- A fold at the line's place: it is modified there afterwards, which a filter of its home records where that is a peer die (R97, R100). -/
def State.foldLine (s : State) (l : Nat) : State :=
  if (s.bank? l).any fun b => b.st == .u then
    let s := s.foldHere l
    match s.bank? l with
    | some b => s.refilter b
    | none => s
  else s

/-- A copy comes to another share as it is; its times may read later there (R81, R88). -/
def State.moveCopy (s : State) (b : BLine) (share : Nat) : State :=
  let (w, r) := s.times b.line
  let b := { b with share := share, ways := (s.geometry b.vc).2, wts := w, rts := r }
  ((s.putBank b).refilter b).rewatch b.line

/-- A copy leaves the bank store: written back as its state asks, its times handed to the slice (R71, R89, R94). -/
def State.takeOut (s : State) (l : Nat) : State :=
  let s := s.foldLine l
  match s.bank? l with
  | none => s
  | some b =>
    let (w, r) := s.times l
    let s := if isPool l then s else match b.st with
      | .x => s.dramPoison l
      | .m => s.dramPut l b.data
      | .u => s
      | .s => s
    let s := s.raiseSlice l w r
    ({ s with bank := s.bank.filter fun c => c.line != l, bankErr := s.bankErr.filter fun x => x != l } : State).filterClear l

/-- A pool line is there from the start as zeros (R74). -/
def State.poolLineIn (s : State) (l v hint : Nat) : State :=
  if (s.bank? l).isSome then s
  else s.putBank { line := l, vc := v, share := s.shareFor v l, ways := 1, st := .s, dirty := false, data := [], token := 0, wts := 0, rts := 0,
                   uset := [], prot := hint, last := s.clock }

/-- Lines that stand in some shares of a VC. -/
def State.linesIn (s : State) (v : Nat) (gs : List Nat) : List Nat := (s.bank.filter fun b => b.vc == v && gs.contains b.share).map BLine.line

end Sys2Proof.Machine
end

