-- ==== Sys2Proof/Machine/Shares.lean ====
section
/-! DEFINITION. Bank-share faults (R83, R85), and what meets them: a line that folds or leaves the bank store. -/

namespace Sys2Proof.Machine

/-- Put a VC's new record in place of the old one. -/
def State.putVc (s : State) (c : Vc) : State :=
  { s with vcs := if s.vcs.any fun v => v.id == c.id then s.vcs.map fun v => if v.id == c.id then c else v else insertBy Vc.id c s.vcs }

/-- The status record of a VC has changed: it is written at the end of the turn (R65). -/
def State.staleVc (s : State) (v : Nat) : State := s.onVc v fun c => { c with stale := true }

/-! ## Retirement (R83, R85) -/

/-- The VC that holds a share. -/
def State.holderOf (s : State) (g : Nat) : Nat :=
  match s.vcs.find? fun c => c.shares.contains g || c.joining.contains g || c.leaving.contains g with
  | some c => c.id
  | none => if s.in254 g then 254 else 0

/-- The copy of a line becomes X for a cause at a share (R95). -/
def State.poisonCopy (s : State) (b : BLine) (share : Nat) (c : Cause) : State :=
  let t := (s.times b.line).2 + 1
  let x : BLine := { b with share := share, ways := (s.geometry b.vc).2, st := .x, dirty := true, data := [], token := bareToken c, wts := t, rts := t, uset := [] }
  (((s.dropU b).filterClear b.line).putBank x).rewatch b.line

/-- A line of a failed share becomes X with cause VC_FAULT at a share. -/
def State.faultLine (s : State) (b : BLine) (share : Nat) : State := s.poisonCopy b share Cause.vcFault

/-- A line of a cache VC's failed share: a clean one leaves, a modified one becomes X in the other shares, one with U copies keeps their partial
results (log 63). -/
def State.retireLine (s : State) (l : Nat) : State :=
  match s.bank? l with
  | none => s
  | some b =>
    let dest := s.shareFor b.vc l
    match b.st with
    | .m => s.faultLine b dest
    | .u => if b.dirty then s.faultLine b dest else s.moveCopy b dest
    | .x => s.moveCopy b dest
    | .s => s.takeOut l

/-- A line of a pool's failed share that was leaving the pool: it becomes X at its new place, or has none (R82, R85). -/
def State.retireLeaving (s : State) (c : Vc) (l : Nat) : State :=
  match s.bank? l with
  | none => s
  | some b => if b.vc != c.id then s.retireLine l else if c.poolSize ≤ poolLine l * 128 then s.takeOut l else s.faultLine b (s.poolShare c.id l)

/-- The share that replaces a failed one of a pool: one of VC 0 whose number stands between those of its neighbours, so that the pool's numbering stays
ascending (R69), of the same die if there is one; else any share of VC 0 (log 63). -/
def State.substitute (s : State) (c : Vc) (share : Nat) : Option Nat :=
  let below := c.shares.filter fun g => decide (g < share)
  let above := c.shares.filter fun g => decide (share < g)
  let fits (g : Nat) : Bool := below.all (fun x => decide (x < g)) && above.all fun x => decide (g < x)
  let own := s.vc0Shares (shareDie share)
  let all := (List.range 4).flatMap s.vc0Shares
  (own.filter fits).getLast? <|> (all.filter fits).getLast? <|> own.getLast? <|> all.getLast?

/-- Lines of a pool that the mapping of `c` places in a share, touched or not (R69). -/
def Vc.linesOf (c : Vc) (share : Nat) : List Nat :=
  if c.shares.contains share then (List.range 1024).map fun i => poolBase + c.id * 0x4000000 + i * c.shares.length + c.shares.idxOf share else []

/-- Every line of a pool that no migration moves stands where the numbering of R69 places it. -/
def State.settlePool (s : State) (c : Vc) : State :=
  (s.bank.filter fun b => b.vc == c.id && isPool b.line && b.share != s.poolShare c.id b.line).foldl (fun s b => s.moveCopy b (s.poolShare c.id b.line)) s

/-- A pool's failed share is replaced, also where it is about to leave: VC 0 gives the replacement, without its own lines, and every line of the failed
share, touched or not, becomes X with cause VC_FAULT (R83, R85). -/
def State.retirePool (s : State) (c : Vc) (share : Nat) : State :=
  let lost := dedup ((c.linesOf share).filter (fun l => (s.bank? l).all fun b => b.share == share) ++ s.linesIn c.id [share])
  let s := lost.foldl (fun s l => s.poolLineIn l c.id 1) s
  let left (l : List Nat) : List Nat := l.filter fun g => g != share
  let s := match s.substitute c share with
    | some n =>
      let swap (l : List Nat) : List Nat := if l.contains share then sortBy id (left l ++ [n]) else l
      ((s.linesIn 0 [n]).foldl State.takeOut s).putVc { c with shares := swap c.shares, leaving := swap c.leaving, retired := c.retired + 1 }
    | none => s.putVc { c with shares := left c.shares, leaving := left c.leaving, live := c.live - 1, retired := c.retired + 1 }
  let s := lost.foldl (fun s l => match s.bank? l with
    | some b => s.faultLine b (s.poolShare c.id l)
    | none => s) s
  if c.phase == .stable then s.settlePool c else s

/-- A cache VC's share, or a share that joins or leaves, is gone from every list of its VC. -/
def Vc.lose (c : Vc) (share : Nat) : Vc :=
  let gone (l : List Nat) : List Nat := l.filter fun g => g != share
  { c with shares := gone c.shares, joining := gone c.joining, leaving := gone c.leaving, retired := c.retired + 1,
           live := if c.shares.contains share || c.leaving.contains share then c.live - 1 else c.live }

/-- One share leaves its VC and never enters one again; a share in claim or release leaves both mappings (R83, R85). -/
def State.retireShare (s : State) (share : Nat) : State :=
  if !s.goodShare share then s
  else
    let v := s.holderOf share
    let ls := (s.bank.filter fun b => b.share == share).map BLine.line
    let s : State := { s with badShares := s.badShares ++ [share], bankErr := s.bankErr.filter fun l => !ls.contains l }
    let c := (s.vcs.find? fun c => c.id == v).getD (Vc.fixed v 0 0)
    let s : State :=
      if c.pool && c.shares.contains share then s.retirePool c share
      else if c.pool then ls.foldl (fun s l => s.retireLeaving c l) (s.putVc (c.lose share))
      else ls.foldl State.retireLine (s.putVc (c.lose share))
    ((s.staleVc 0).staleVc v).faultEvent 6 7 share

/-- An error of the data array retires its share, one of the tag or state array all 16 shares of its bank (R85). -/
def State.retire (s : State) (err : ArrayErr) : State :=
  match err with
  | .data share => s.retireShare share
  | .tags bank => (List.range 16).foldl (fun s i => s.retireShare (bank * 16 + i)) s

/-- SHARE_RETIRE (R85). -/
def execShareRetire (err : ArrayErr) (s : State) : Ans := .next (s.retire err)

/-! ## Lines that meet an error (R85) -/

/-- Whatever reads a bank-store copy with an uncorrectable error in its share's data array finds the share failed: it is retired at once. -/
def State.meetError (s : State) (l : Nat) : State :=
  if !s.bankErr.contains l then s
  else match s.bank? l with
    | some b => s.retireShare b.share
    | none => s

/-- The fold of R100. -/
def State.fold (s : State) (l : Nat) : State := (s.meetError l).foldLine l

/-- Take a line out of the bank store (R71, R82, R84, R94). -/
def State.dropLine (s : State) (l : Nat) : State := (s.meetError l).takeOut l

end Sys2Proof.Machine
end

