-- ==== Sys2Proof/Machine/Bank.lean ====
section
/-! DEFINITION. The bank store at work: fills and replacement (R69 to R73), writes at the place (R72, R95, R96), engine commits (R115), the status records
of virtual caches (R65). -/

namespace Sys2Proof.Machine

/-! ## Bank-store fills (R69 to R73) -/

/-- Rank of a replacement hint: 0 evict-first, 1 normal, 2 evict-last (R73). -/
def hintLevel (instr pte : Nat) : Nat :=
  match instr with
  | 1 => 0 | 2 => 1 | 3 => 2
  | _ => match pte with | 1 => 0 | 2 => 2 | _ => 1

/-- Count a bank-level lookup (R65). -/
def State.countLookup (s : State) (v : Nat) (hit : Bool) : State :=
  if v < 255 && ((s.vc? v).map Vc.cen).getD false then
    s.onVc v fun c => if hit then { c with hits := c.hits + 1, stale := true } else { c with misses := c.misses + 1, stale := true }
  else s

/-- The lines of a VC that share the set of line `l`; one that a change of ASSOC has yet to move stands in another set (R69, R79). No hash is taken while
the VC holds fewer blocks than ways. -/
def State.setMates (s : State) (v l : Nat) : List BLine :=
  let (lsz, ways) := s.geometry v
  let mine := s.bank.filter fun b => b.vc == v && b.line >>> lsz != l >>> lsz
  if (dedup (mine.map fun b => b.line >>> lsz)).length < ways then []
  else
    let sets := 131072 / (128 <<< lsz * ways)
    let idx (x : Nat) := Config.setHash (x >>> lsz) % sets
    mine.filter fun b => b.share == s.shareFor v l && b.ways == ways && idx b.line == idx l

/-- Replacement rank of an allocation block: the highest level and the latest use among its lines (R71, R73). -/
def blockRank (lsz : Nat) (bs : List BLine) (k : Nat) : Nat × Nat :=
  let ls := bs.filter fun b => b.line >>> lsz == k
  (maxNat (ls.map BLine.prot), maxNat (ls.map BLine.last))

/-- The block of a set that leaves: of the lowest protection level, and among those the least recently used (R73). -/
def setVictim (lsz : Nat) (bs : List BLine) : Option Nat :=
  match dedup (bs.map fun b => b.line >>> lsz) with
  | [] => none
  | k :: ks => some (ks.foldl (fun a b =>
      let (pa, ta) := blockRank lsz bs a
      let (pb, tb) := blockRank lsz bs b
      if pb < pa || (pb == pa && tb < ta) then b else a) k)

/-- Evict blocks of the set of line `l` while it is full, at most `n`. -/
def State.evictFor (s : State) (v l : Nat) : Nat → State
  | 0 => s
  | n + 1 =>
    let (lsz, ways) := s.geometry v
    let mates := s.setMates v l
    if (dedup (mates.map fun b => b.line >>> lsz)).length < ways then s
    else match setVictim lsz mates with
      | none => s
      | some k =>
        let s := (List.range (2 ^ lsz)).foldl (fun s i => s.dropLine (k <<< lsz + i)) s
        (if ((s.vc? v).map Vc.cen).getD false then s.onVc v fun c => { c with evicts := c.evicts + 1, stale := true } else s).evictFor v l n

/-- Make room for line `l` in its set (R71, R73). -/
def State.makeRoom (s : State) (v l : Nat) : State := s.evictFor v l (s.setMates v l).length

/-- Fill one line from DRAM into the bank store (R23, R89, R95). -/
def State.fillOne (s : State) (l v hint : Nat) (cleanOnly : Bool) : State :=
  if (s.bank? l).isSome then s
  else if isPool l then s.poolLineIn l v hint
  else if cleanOnly && (s.ue.contains l || s.synd.contains l) then s
  else
    let (w, r) := s.sliceTimes l
    let (s, c) := s.dramRead l
    let s := { s with lastUse := assocSet s.lastUse (l / 512) (s.clock / 1500000) }
    s.putBank { line := l, vc := v, share := s.shareFor v l, ways := (s.geometry v).2, st := if c.x.isSome then .x else .s, dirty := false, data := c.data,
                token := c.x.getD 0, wts := w, rts := r, uset := [], prot := hint, last := s.clock }

/-- A miss of line `l` of VC `v` allocates its block: the line first, then the others ascending (R71). -/
def State.fillBlock (s : State) (l v hint : Nat) : State :=
  let (lsz, _) := s.geometry v
  let s := if isPool l then s else s.makeRoom v l
  let s := s.fillOne l v hint false
  if lsz == 0 || isPool l then s
  else (List.range (2 ^ lsz)).foldl (fun s i => s.fillOne ((l >>> lsz) <<< lsz + i) v hint true) s

/-- An access touches the block of a line: its use is the latest, and its level rises to the access's hint, if it has one (R73). -/
def State.touchBlock (s : State) (l v : Nat) (hint : Option Nat) : State :=
  let (lsz, _) := s.geometry v
  { s with bank := s.bank.map fun b =>
      if b.vc == v && b.line >>> lsz == l >>> lsz then { b with prot := max b.prot (hint.getD 0), last := s.clock } else b }

/-- Bring line `l` into the bank store for VC `v`, folded (R71, R100). A block that an access without a hint fills starts at level normal (log 79). -/
def State.placeIn (s : State) (l v : Nat) (hint : Option Nat) : State :=
  let s := s.fold l
  (if (s.bank? l).isSome then s else s.fillBlock l v (hint.getD 1)).touchBlock l v hint

/-- Bring a line in for a read, and count the lookup (R65). -/
def State.bringIn (s : State) (l v : Nat) (hint : Option Nat) : State :=
  let s := s.fold l
  (s.countLookup v (s.bank? l).isSome).placeIn l v hint

/-- Contents of a bank-store copy. -/
def BLine.view (b : BLine) : LineSt := ⟨b.data, if b.st == .x then some b.token else none⟩

/-! ## Writes at the place (R72, R95, R96) -/

/-- What a write makes of a bank-store copy (R95). -/
def BLine.write (b : BLine) (bs : Mem) (poison : Option (BitVec 32)) (through : Bool) (t : Nat) : BLine :=
  match poison with
  | some k => { b with st := .x, token := k, data := [], wts := t, rts := t, dirty := true }
  | none =>
    if b.st == .x && !cellsCover bs 0 128 then { b with wts := t, rts := t }
    else { b with data := memMerge (if b.st == .x then [] else b.data) 0 bs, st := if through then .s else .m, wts := t, rts := t,
                  dirty := !through }

/-- The home slices mark a line of a page under migration that a commit writes (R28). -/
def State.markMoved (s : State) (l : Nat) : State :=
  if s.migrations.isEmpty then s
  else { s with migrations := s.migrations.map fun m =>
      if m.src ≤ l * 128 && l * 128 < m.src + m.size && !m.marked.contains l then { m with marked := m.marked ++ [l] } else m }

/-- A write's lookup of a line is counted: a hit, a miss that fills, or a miss under no-allocate (R65, R72). -/
def State.countWrite (s : State) (l v : Nat) : State :=
  if isPool l || (s.bank? l).isSome then s.countLookup v true
  else if s.wpol v == 0 || s.wpol v == 2 then s.countLookup v false
  else s

/-- A committed or engine write of bytes `bs` (offsets within the line) to line `l` of VC `v` at time `t`. A block that a write allocates starts at
protection level normal (log 79). -/
def State.writePlace (s : State) (l v : Nat) (bs : Mem) (poison : Option (BitVec 32)) (t : Nat) : State :=
  if s.lost l then s else
  let s := (s.markMoved l).fold l
  let pol := if isPool l then 0 else s.wpol v
  let onBank (s : State) : State :=
    match s.bank? l with
    | some b =>
      let b' := b.write bs poison (pol == 1) t
      let s := (s.putBank b').touchBlock l b'.vc none
      let s := if pol == 1 then (if b'.st == .x then s.dramPoison l else s.dramPut l b'.data) else s
      if b'.st == .m && v != 0 then s.filterSet (shareDie b'.share) l else s
    | none => s
  let s :=
    if isPool l then onBank (s.fillOne l v 1 false)
    else if v == 255 then s.dramCommit l bs poison t
    else if (s.bank? l).isSome then
      (if pol == 3 then (s.dropLine l).dramCommit l bs poison t else onBank s)
    else if pol == 0 then onBank (s.fillBlock l v 1)
    else s.dramCommit l bs poison t
  s.wakeWatch l

/-- The token that a line is poisoned with where it stands: in the bank store, else in DRAM (R23, R95). -/
def State.lineX (s : State) (l : Nat) : Option (BitVec 32) :=
  match s.bank? l with
  | some b => if b.st == .x then some b.token else none
  | none => if s.synd.contains l then some (bareToken Cause.poisonLine) else if s.ue.contains l then some (bareToken Cause.ue) else none

/-- A line is made ready for a write outside a chunk: folded, and without its bank-store copy under a read-only policy (R72, R100). -/
def State.settleLine (s : State) (l v : Nat) : State :=
  let s := s.fold l
  if !isPool l && s.wpol v == 3 then s.dropLine l else s

/-- VC of a line for an access by physical address: that of its bank-store copy, else VC 0. -/
def State.vcOf (s : State) (l : Nat) : Nat :=
  if isPool l then poolVc l else ((s.bank? l).map BLine.vc).getD 0

/-- An engine commit of one line (R115), as a chunk of one written line (R329): on behalf of a core its time is above the core's `pts` and the line's
`rts`, on behalf of none above `rts` alone. Answers the commit time. Where the line's arbiter does not admit it now, nothing is written and `engHeld`
asks for the whole step to be tried again. -/
def State.engineCommit (s : State) (own core : Option Nat) (l v : Nat) (bs : Mem) (poison : Option (BitVec 32)) : State × Nat :=
  if s.lineHeld own (.mem l) then ({ s with engHeld := true }, 0)
  else
    let s := s.settleLine l v
    let r := (s.times l).2 + 1
    let t := match core with | some c => max (s.pts c + 1) r | none => r
    ((s.countWrite l v).writePlace l v bs poison t, t)

/-- An engine commit that no chunk's group makes itself. -/
def State.engineWrite (s : State) (core : Option Nat) (l v : Nat) (bs : Mem) (poison : Option (BitVec 32)) : State × Nat :=
  s.engineCommit none core l v bs poison

/-- Cut store bytes by absolute address into lines: each line with its bytes by offset. -/
def splitLines (bs : Mem) : List (Nat × Mem) :=
  let ls := dedup (bs.map fun c => c.1 / 128)
  ls.map fun l => (l, (bs.filter fun c => c.1 / 128 == l).map fun c => (c.1 % 128, c.2))

/-- Engine commits of bytes at a physical address, line by line; `own` is the group that makes them itself. -/
def State.ownBytes (s : State) (own core : Option Nat) (pa : Nat) (bs : List Byte) : State × Nat :=
  (splitLines (cellsAt pa bs)).foldl (fun r q => let (s, t) := r.1.engineCommit own core q.1 (r.1.vcOf q.1) q.2 none; (s, max r.2 t)) (s, 0)

/-- Engine commits of bytes at a physical address. -/
def State.engineBytes (s : State) (core : Option Nat) (pa : Nat) (bs : List Byte) : State × Nat := s.ownBytes none core pa bs

/-! ## Status records (R65) -/

/-- MSTATE of a phase (R79). -/
def VPhase.code : VPhase → Nat
  | .stable => 0 | .removing => 2 | .undefined => 3 | _ => 1

/-- LIVE of a VC: VC 0 and VC 254 hold what the others leave them (R66), any other what its last completed change left it (R79). -/
def State.liveShares (s : State) (c : Vc) : Nat :=
  if c.id == 0 then sumNat ((List.range 4).map fun d => (s.vc0Shares d).length)
  else if c.id == 254 then s.vc254Shares.length
  else c.live

/-- The 32 bytes of a status record. -/
def vcRecord (c : Vc) (live : Nat) : List Byte :=
  toBytes 8 c.hits.toNat ++ toBytes 8 c.misses.toNat ++ toBytes 8 c.evicts.toNat ++
  toBytes 8 (live % 2 ^ 17 + (c.retired % 65536) <<< 17 + c.phase.code <<< 34 + c.mcount.toNat <<< 40)

/-- Address of the VC table (R62). -/
def State.vcTable (s : State) : Nat := bits s.vctbase.toNat 15 37 * 32768

/-- Address of the status record of a VC. -/
def State.recordAt (s : State) (v : Nat) : Nat := s.vcTable + 0x4000 + 32 * v

/-- Write the status record of a VC as an engine write; while its arbiter does not admit one the record is left for later. -/
def State.writeStatus (s : State) (v : Nat) : State :=
  match s.vcs.find? fun c => c.id == v with
  | none => s
  | some c =>
    if s.lineHeld none (.mem (s.recordAt v / 128)) then s.onVc v fun c => { c with stale := true }
    else (s.engineBytes none (s.recordAt v) (vcRecord c (s.liveShares c))).1.onVc v fun c => { c with stale := false }

/-- Records with a change that has not been written are written (R65). -/
def State.publishCounts (s : State) : State := (s.vcs.filter Vc.stale).foldl (fun s c => s.writeStatus c.id) s

end Sys2Proof.Machine
end

