-- ==== Sys2Proof/Machine/Reads.lean ====
section
/-! DEFINITION. Reads of a line at its place, reductions at the place, and the L1 copies of a core (R71, R85, R93, R98 to R100, R115, R125, R277). -/

namespace Sys2Proof.Machine

/-! ## Reads at the place -/

/-- The bank-store copy of a line has an uncorrectable error in its share's data array: the share is retired at once (R85). -/
def State.arrayFault (s : State) (l : Nat) : Option State :=
  if !s.bankErr.contains l then none
  else match s.bank? l with
    | some b => some (s.retireShare b.share)
    | none => none

/-- Contents that a read which meets an uncorrectable error delivers. -/
def LineSt.ue : LineSt := ⟨[], some (bareToken Cause.ue)⟩

/-- Read a line at its place outside any lease, as engines do (R115). A line of VC 255 is read from DRAM. -/
def State.readPlace (s : State) (l v : Nat) (hint : Option Nat) : State × LineSt :=
  if s.lost l then (s, ⟨[], some (bareToken Cause.dieLost)⟩)
  else if v == 255 && !isPool l then s.dramRead l
  else match s.arrayFault l with
    | some s => (s, .ue)
    | none =>
      let s := s.bringIn l v hint
      (s, ((s.bank? l).map BLine.view).getD ⟨[], none⟩)

/-- Read a line through its home without a hint: page walks, fetches, frames, network and fabric reads. A line that is absent is filled (R23, R38, R98). -/
def State.peek (s : State) (l v : Nat) : State × LineSt := s.readPlace l v none

/-- Read `n` bytes at a physical address through the home, with the token of the first poisoned line. A reader without a translation names the VC that
holds the line, else VC 0. -/
def State.peekBytes (s : State) (pa n : Nat) (v : Option Nat := none) : State × List Byte × Option (BitVec 32) :=
  let ls := (List.range ((pa + n - 1) / 128 + 1 - pa / 128)).map fun i => pa / 128 + i
  let r := ls.foldl (fun (r : State × Mem × Option (BitVec 32)) l =>
      let (s, c) := r.1.peek l (v.getD (r.1.vcOf l))
      (s, memMerge r.2.1 (l * 128) c.data, r.2.2 <|> c.x)) (s, [], none)
  (r.1, memBytes r.2.1 pa n, r.2.2)

/-- Read a line as its home gives it, leaving the bank store as it is: what a migration copies (R23, R28) and what a commit leaves in an L1 (R92). -/
def State.lookAt (s : State) (l : Nat) : State × LineSt :=
  if s.lost l then (s, ⟨[], some (bareToken Cause.dieLost)⟩)
  else match s.arrayFault l with
    | some s => (s, .ue)
    | none =>
      let s := s.fold l
      match s.bank? l with
      | some b => (s, b.view)
      | none => if isPool l then (s, ⟨[], none⟩) else s.dramRead l

/-! ## Operations at the place (R72, R99, R275, R277) -/

/-- A read-modify-write's lookup of a line is counted: a hit, or a miss that fills (R65). -/
def State.countRmw (s : State) (l v : Nat) : State :=
  if isPool l || (s.bank? l).isSome then s.countLookup v true
  else if s.wpol v == 3 then s
  else s.countLookup v false

/-- Contents of a line where an operation at its place reads it, which `countRmw` counts. A line of a read-only VC leaves the bank store first (R72). -/
def State.rmwRead (s : State) (l v : Nat) : State × LineSt :=
  if s.lost l then (s, ⟨[], some (bareToken Cause.dieLost)⟩)
  else if v == 255 && !isPool l then s.dramRead l
  else if !isPool l && s.wpol v == 3 then (s.dropLine l).dramRead l
  else match s.arrayFault l with
    | some s => (s, .ue)
    | none =>
      let s := s.placeIn l v none
      (s, ((s.bank? l).map BLine.view).getD ⟨[], none⟩)

/-- Apply reduction elements to a line at time `t` as a read-modify-write at the place. `none` when the line is X. -/
def State.reduceAt (s : State) (l v : Nat) (fn : BitVec 4) (ty : Ty) (els : List (Nat × Nat)) (t : Nat) : State × Option (BitVec 32) :=
  let (s, c) := s.rmwRead l v
  match c.x with
  | some k => (s, some k)
  | none =>
    let d := els.foldl (fun d p => applyElem fn ty d p.1 p.2) c.data
    let bs := els.foldl (fun bs p => bs ++ cellsAt p.1 (memBytes d p.1 (tyBytes ty))) []
    (s.writePlace l v bs none t, none)

/-- Partials of a U copy after one more contribution (R99). -/
def addPart (fn : BitVec 4) (ty : Ty) (ps : List (Nat × BitVec 64)) (o : Nat) (v : BitVec 64) : List (Nat × BitVec 64) :=
  if ps.any fun p => p.1 == o then
    ps.map fun p => if p.1 == o then (o, BitVec.ofNat 64 (atomOp fn.toNat ty p.2.toNat v.toNat 0)) else p
  else ps ++ [(o, v)]

/-! ## L1 (R39, R42, R93, R125) -/

/-- The L1 line that a virtual address of an address space hits (R39). -/
def Core.l1Hit (c : Core) (asid : BitVec 16) (va : Nat) : Option L1Line :=
  c.l1.find? fun x => x.asid == asid && x.vline == va % 2 ^ 57 / 128

/-- The set of a line among the 256 of an L1: the low bits of its virtual line (R125, log 17). -/
def L1Line.set (x : L1Line) : Nat := x.vline % 256

/-- Copies that leave when `x` enters: any other copy of its line or under its tag (R42), and the oldest of its set past seven (R125). -/
def Core.displaced (c : Core) (x : L1Line) : List L1Line :=
  let same (y : L1Line) : Bool := y.line == x.line || (y.asid == x.asid && y.vline == x.vline)
  c.l1.filter same ++ (c.l1.filter fun (y : L1Line) => !same y && y.set == x.set).drop 7

/-- Put a copy into an L1. What leaves for it leaves as R93 says: an update-only copy after its partials are handed over, as in a fold. -/
def State.l1Put (s : State) (core : Nat) (x : L1Line) : State :=
  let out := (s.coreAt core).displaced x
  let s := out.foldl (fun s y => if y.st == .u && y.line != x.line then s.fold y.line else s) s
  s.onCore core fun c => { c with l1 := x :: c.l1.filter fun y => !out.contains y }

/-- The place gets a copy of a line that a `RED` is to make update-only, whatever the write policy (R72, R99, log 97): a block that it fills starts at level
normal (log 79). -/
def State.allocU (s : State) (l v : Nat) : State := (if (s.bank? l).isSome then s else s.fillBlock l v 1).touchBlock l v none

/-- One `RED` contribution of a core to a line of a cache VC at time `t`: the core's U copy takes it and the core joins the
U set (R99). `tag` is the L1 tag of the copy. -/
def State.redU (s : State) (core : Nat) (tag : L1Line) (fn : BitVec 4) (ty : Ty) (o : Nat) (v : BitVec 64) (t : Nat) : State :=
  let l := tag.line
  if s.lost l then s else
  let s := match (s.coreAt core).uCopy? l with
    | some x => if x.fn == fn && x.ty == ty then s else s.fold l
    | none => s
  let s := s.allocU l tag.vc
  match s.bank? l with
  | none => s
  | some b =>
    let s := s.putBank { b with st := .u, dirty := b.dirty || b.st == .m, uset := if b.uset.contains core then b.uset else b.uset ++ [core],
                                rts := max b.rts t }
    let s := match (s.coreAt core).uCopy? l with
      | some _ => s.onCore core fun c =>
          { c with l1 := c.l1.map fun (x : L1Line) => if x.line == l && x.st == L1St.u then { x with parts := addPart fn ty x.parts o v } else x }
      | none => s.l1Put core { tag with st := .u, fn := fn, ty := ty, parts := [(o, v)], data := [] }
    (s.filterSet (core / 64) l).markMoved l

/-- After the contributions of a chunk to a line: a watched line is folded at once (R99). -/
def State.redWatched (s : State) (l : Nat) : State := if s.watched l then s.fold l else s

end Sys2Proof.Machine
end

