-- ==== Sys2Proof/Machine/Poison.lean ====
section
/-! DEFINITION. Crumbs and poison (R333, R334): `MakePoison`, and poison made live (R335, R445). -/

namespace Sys2Proof.Machine

/-- What a crumb records (R334). -/
structure CrumbInfo where
  cause : Cause
  lane : Nat
  ctrl : Bool
  grp : Nat
  team : Nat
  lpc : Nat
  gang : Nat
  cpcw : Nat
  va : Nat
  ltime : Nat
  deriving DecidableEq, Repr

/-- The 32 bytes of a crumb record. -/
def CrumbInfo.bytes (i : CrumbInfo) : List Byte :=
  toBytes 8 (i.cause.toNat + (i.lane % 64) <<< 8 + b2n i.ctrl <<< 14 + (i.grp % 64) <<< 16 + (i.team % 4096) <<< 22 +
    (i.lpc % 2 ^ 20) <<< 34) ++
  toBytes 8 (i.gang % 2 ^ 32 + (i.cpcw % 2 ^ 24) <<< 32) ++ toBytes 8 (i.va % 2 ^ 64) ++ toBytes 8 (i.ltime % 2 ^ 64)

/-- Entries of a crumb table (R333). -/
def crumbEntries (base : BitVec 64) : Nat := min (2 ^ max 4 (min (base.toNat % 32) 24)) 0xFFFFFF

/-- Physical address of a crumb table (R333). -/
def crumbTable (base : BitVec 64) : Nat := bits base.toNat 12 40 * 4096

/-- Steps 1 and 2 of R334 in the table that `base` locates, on behalf of `core`; `own` is the group
whose chunk makes it. Answers the token. -/
def State.makeCrumb (s : State) (base : BitVec 64) (own core : Option Nat) (i : CrumbInfo) : State × BitVec 32 :=
  let pa := crumbTable base
  let (s, hd, x) := s.peekBytes pa 16
  match x with
  | some _ => (s.emit (.note 1 i.cause.toNat), bareToken i.cause)
  | none =>
    let n := leNat (hd.take 3)
    if crumbEntries base ≤ n then
      ((s.ownBytes own core (pa + 8) (toBytes 8 ((leNat (hd.drop 8) + 1) % 2 ^ 64))).1, bareToken i.cause)
    else
      let s := (s.ownBytes own core pa (toBytes 3 (n + 1))).1
      let s := (s.ownBytes own core (pa + 32 * n) i.bytes).1
      (s, i.cause ++ BitVec.ofNat 24 n)

/-- Control word index of the current control PC from the control-section base (R334). -/
def Group.cpcw (g : Group) : Nat := bits ((g.regs.cpc - g.cbase).toNat) 2 24

/-! ## Range locks (R111, R112) -/

/-- Addresses `a` to `a + n - 1` touch a box. -/
def Box.touches (b : Box) (a n : Nat) : Bool := decide (b.lo < a + n) && decide (a ≤ b.hi)

/-- The boxes that a team's accesses are checked against: those in the table of its core, or of both cores of a pair (R111). -/
def State.teamBoxes (s : State) (t : Team) (core : Nat) : List Box :=
  let cores := if 32 < t.ngroups then [t.core, t.core + 1] else [core]
  (cores.flatMap fun k => (s.coreAt k).boxes).filter fun b => b.team == t.key

/-- A registered box of the team forbids an access of the current group (R112): a read meets destination boxes, a write every box. `space` is 0
for scratch, 1 for memory. -/
def State.teamLocked (s : State) (write : Bool) (space a n : Nat) : Bool :=
  (s.teamBoxes s.team s.cur.core).any fun b => b.space == space && (write || b.dest) && b.touches a n

/-- Locked or clean: a cause. -/
def State.lockCause (s : State) (write : Bool) (space a n : Nat) : Option Cause :=
  if s.teamLocked write space a n then some Cause.rangeLocked else none

/-- Operations whose boxes of a team touch the 128 bytes of an address (R114, log 23). -/
def State.holdersAt (s : State) (t : Team) (core va : Nat) : List Nat :=
  dedup (((s.teamBoxes t core).filter fun b => b.touches (va / 128 * 128) 128).map Box.op)

/-- Those of the current group's team. -/
def State.lockHolders (s : State) (va : Nat) : List Nat := s.holdersAt s.team s.cur.core va

/-! ## MakePoison -/

/-- A fault of a group that poison now stands for is kept for a replay: one record of each token with an index, one of each address under a token
without (R337, log 87). `own`: the open chunk made it. -/
def Group.keepFault (g : Group) (t : BitVec 32) (c : Cause) (va : Nat) (ops : List Nat) (own : Bool) : Group :=
  if c == Cause.pageMiss || c == Cause.rangeLocked then
    let a := BitVec.ofNat 64 va
    { g with faultVa := ⟨t, a, ops, own⟩ :: g.faultVa.filter fun f => f.token != t || (t.setWidth 24 == 0xFFFFFF#24 && f.va != a) }
  else g

/-- `MakePoison` for the current group: the crumb, then `CRUMBLAST` (R334). `lpc` is the lane word index for a lane. -/
def State.makePoison (s : State) (c : Cause) (va : Nat) (lane : Nat) (ctrl : Bool) (lpc : Nat) : State × BitVec 32 :=
  let g := s.cur
  let (s, t) := s.makeCrumb g.sysr.crumbbase (some g.key) (some g.core)
    { cause := c, lane := if ctrl then 0 else lane, ctrl := ctrl, grp := g.grp.toNat, team := g.team.toNat, lpc := lpc,
      gang := g.gang.toNat, cpcw := g.cpcw, va := va, ltime := s.pts g.core }
  let s := if c == Cause.illegalOp then s else s.countFault 0
  let ops := if c == Cause.rangeLocked then s.lockHolders va else []
  (s.onCur fun g => { g.keepFault t c va ops true with crumbLast := t }, t)

/-- `MakePoison` by the control stream. -/
def State.ctrlPoison (s : State) (c : Cause) (va : Nat) : State × BitVec 32 := s.makePoison c va 0 true 0

/-- A crumb that an engine makes for an operation (R334): CTRL, no lane, no `CRUMBLAST`. The operations that hold a lock it met are kept for a replay
(R114, R337). -/
def State.enginePoison (s : State) (o : EngOp) (c : Cause) (va : Nat) : State × BitVec 32 :=
  let (s, t) := s.makeCrumb o.sysr.crumbbase none (some o.core)
    { cause := c, lane := 0, ctrl := true, grp := o.grp.toNat, team := o.team.toNat, lpc := 0, gang := o.gang.toNat,
      cpcw := o.cpcw.toNat, va := va, ltime := s.pts o.core }
  let ops := if c == Cause.rangeLocked then (s.holdersAt ((s.team? o.teamKey).getD default) o.core va).filter fun k => k != o.id else []
  (s.onGroup o.gkey fun g => g.keepFault t c va ops false, t)

/-- Live poison of an access that has just failed: the fault record that its poison left stands beside it (R337). -/
def State.failedAt (s : State) (src : LiveSrc) (lane : Option Nat) (t : BitVec 32) : Live :=
  ⟨src, lane, t, s.cur.faultVa.head?.filter fun f => f.token == t⟩

/-- Live poison that a source, a guard or a decision carries (R335). -/
def carried (src : LiveSrc) (lane : Option Nat) (t : BitVec 32) : Live := ⟨src, lane, t, none⟩

/-- Poison becomes live in the open chunk (R335). -/
def State.goLive (s : State) (l : Live) : State := s.onChunk fun c => { c with live := c.live ++ [l] }

/-- Order of a live poison's source: lane stream, control stream, `CMT` (R445). -/
def LiveSrc.rank : LiveSrc → Nat
  | .lane => 0 | .control => 1 | .cmt => 2

/-- The first live token (R445): lane poisons are listed in program and lane order, so the first of the lowest rank. -/
def Chunk.firstLive (c : Chunk) : BitVec 32 :=
  match c.live.find? (fun l => l.src.rank == 0) <|> c.live.find? (fun l => l.src.rank == 1) <|> c.live.head? with
  | some l => l.token
  | none => 0

end Sys2Proof.Machine
end

