-- ==== Sys2Proof/Machine/Translate.lean ====
section
/-! DEFINITION. Virtual addresses, page tables, the cluster TLB and the checks of an access (R19, R32 to R43, R47, R70,
R72, R112). -/

namespace Sys2Proof.Machine

/-- Kinds of access (R37). The remote kinds also need FV. -/
inductive AccKind where
  | read | write | atomic | execute | remoteRead | remoteWrite | remoteAtomic
  deriving DecidableEq, Repr

/-- Who translates: the address space, its top-level table, user mode, the core whose cluster TLB is used (none for a
unit of the I/O die), whether a miss asks for promotion (R21, R279), and the die that a promotion goes to: that of the requesting core (R25). -/
structure Xl where
  asid : BitVec 16
  ptbase : BitVec 64
  user : Bool
  core : Option Nat
  promote : Bool
  die : Nat
  deriving DecidableEq, Repr

/-- A translated address. -/
structure Phys where
  pa : Nat
  vc : Nat
  hint : Nat
  r : Bool
  w : Bool
  u : Bool
  deriving DecidableEq, Repr

/-- Bits [63:57] all equal bit [56] (R32). -/
def canonical (va : Nat) : Bool := bits va 57 7 == (if bit va 56 then 127 else 0)

/-- A canonical address with bit 56 set names another chip (R264). -/
def isRemote (va : Nat) : Bool := bit va 56

/-- `Permits` of R38 with R37, and R72: a page of a read-only VC is as if it were not writable. -/
def State.permits (s : State) (e : TlbE) (k : AccKind) (user : Bool) : Bool :=
  let w := e.w && s.wpol e.vc != 3
  (!user || e.u) &&
  match k with
  | .read => e.r
  | .write => w
  | .atomic => e.r && w
  | .execute => e.x
  | .remoteRead => e.fv && e.r
  | .remoteWrite => e.fv && e.w
  | .remoteAtomic => e.fv && e.r && e.w

/-- What a walk finds. `miss` says whether the migration engine can serve it (R21, R337), and the frame. -/
inductive WalkRes where
  | leaf (e : TlbE)
  | miss (movable : Bool)
  | bad (c : Cause)
  deriving DecidableEq, Repr

/-- The leaf of a page-table entry at a level of page size `size` (R35). -/
def leafOf (asid : BitVec 16) (va pte size : Nat) (perm : Nat) : TlbE :=
  { asid := asid, vbase := va % 2 ^ 57 / size * size, size := size, r := bit perm 1, w := bit perm 2, x := bit perm 3, u := bit perm 4,
    frame := bits pte 16 36 * 65536 / size * size, tier := BitVec.ofNat 2 (pte / 64), fv := bit pte 8,
    hint := BitVec.ofNat 2 (pte / 512), vc := bits pte 56 8 }

/-- Bits of address space that a pointer to a table of a level maps, as a shift (R34). -/
def regionShift : Nat → Nat
  | 3 => 39
  | 2 => 30
  | _ => 21

/-- A pointer entry that a walk has read is cached, the newest first, at most 4,096 of them (R40, log 17). -/
def State.ptrInstall (s : State) (x : Xl) (p : PtrE) : State :=
  match x.core with
  | some c => s.onCluster (clusterOf c) fun k => { k with ptrs := (p :: k.ptrs.filter fun q => q != p).take 4096 }
  | none => s

/-- The cached pointer to the lowest table of an address. -/
def State.ptrLookup (s : State) (x : Xl) (va : Nat) : Option PtrE :=
  match x.core with
  | some c =>
    let at_ (lvl : Nat) := (s.clusterAt (clusterOf c)).ptrs.find? fun p =>
      p.asid == x.asid && p.lvl == lvl && p.idx == (va % 2 ^ 57) >>> regionShift lvl
    at_ 1 <|> at_ 2 <|> at_ 3
  | none => none

/-- A frame has something behind it: populated DRAM or the addressed-pool space (R16, R19). -/
def State.behind (s : State) (pa : Nat) : Bool := isPool (pa / 128) || s.populated pa

/-- One level of the walk of R38. `lvl` is 4 to 1 and `t` the table; `perm` holds the bits R, W, X, U so far. -/
def State.walkFrom (s : State) (x : Xl) (va : Nat) : Nat → Nat → Nat → State × WalkRes
  | 0, _, _ => (s, .miss false)
  | n + 1, t, perm =>
    let lvl := n + 1
    let (idx, size) := match lvl with
      | 4 => (bits va 39 18, 0)
      | 3 => (bits va 30 9, 2 ^ 30)
      | 2 => (bits va 21 9, 2 ^ 21)
      | _ => (bits va 16 5, 2 ^ 16)
    let (s, bs, k) := s.peekBytes (t + 8 * idx) 8
    match k with
    | some k => (s, .bad (tokenCause k))
    | none =>
      let pte := leNat bs
      let isLeaf := lvl == 1 || (lvl != 4 && bit pte 5)
      if !bit pte 0 then
        let f := bits pte 16 36 * 65536 / size * size
        (s, .miss (isLeaf && ((bits pte 6 2 == 1 && decide (0x10000000000 ≤ f) && s.populated (f + va % size)) ||
          (bits pte 6 2 == 0 && s.movesPage x.asid va))))
      else
        let perm := perm &&& pte
        if isLeaf then
          let e := leafOf x.asid va pte size perm
          if e.tier == 3 || !s.behind (e.frame + va % size) then (s, .miss false) else (s, .leaf e)
        else
          let next := bits pte 8 44 * 256
          let table := if lvl == 2 then next else next / 4096 * 4096
          (s.ptrInstall x ⟨x.asid, n, (va % 2 ^ 57) >>> regionShift n, table, perm⟩).walkFrom x va n table perm

/-- A fresh walk, from the top-level table (R38). -/
def State.walk (s : State) (x : Xl) (va : Nat) : State × WalkRes := s.walkFrom x va 4 (bits x.ptbase.toNat 21 31 * 2 ^ 21) 0x1E

/-- TLB entry of an address: in the cluster TLB, or in the network engine's translation cache for a unit of the I/O die (R40, R45). -/
def State.tlbLookup (s : State) (x : Xl) (va : Nat) : Option TlbE :=
  (match x.core with
   | some c => (s.clusterAt (clusterOf c)).tlb
   | none => s.ioTlb).find? fun e => e.asid == x.asid && decide (e.vbase ≤ va % 2 ^ 57) && decide (va % 2 ^ 57 < e.vbase + e.size)

/-- Install a leaf: the newest entry stands first, and a 8,193rd leaves (R40, log 17). -/
def State.tlbInstall (s : State) (x : Xl) (e : TlbE) : State :=
  match x.core with
  | some c => s.onCluster (clusterOf c) fun k => { k with tlb := (e :: k.tlb.filter fun f => f != e).take 8192 }
  | none => { s with ioTlb := (e :: s.ioTlb.filter fun f => f != e).take 8192 }

/-- The leaf of an address for an access of a kind. A walk starts at the lowest table that a cached pointer gives; what it finds counts only where it
permits the access, and otherwise one fresh walk decides (R38, R40, R41). -/
def State.findLeaf (s : State) (x : Xl) (va : Nat) (k : AccKind) : State × WalkRes :=
  match if (s.tlbLookup x va).isSome then none else s.ptrLookup x va with
  | none => s.walk x va
  | some p => match s.walkFrom x va p.lvl p.table p.perm with
    | (s, .bad c) => (s, .bad c)
    | (s, .leaf e) => if s.permits e k x.user then (s, .leaf e) else s.walk x va
    | (s, .miss _) => s.walk x va

/-- The TLB checks of R43: a live entry for the same physical page names another VC. -/
def State.vcClash (s : State) (x : Xl) (e : TlbE) : Bool :=
  match x.core with
  | some c => (s.clusterAt (clusterOf c)).tlb.any fun f =>
      f.vc != e.vc && decide (f.frame < e.frame + e.size) && decide (e.frame < f.frame + f.size)
  | none => false

/-- An address space may name a VC (R70). -/
def State.mayName (s : State) (asid : BitVec 16) (v : Nat) : Bool :=
  if v == 0 || v == 255 then true
  else if v == 254 then asid == 0
  else match s.vc? v with
    | some c => c.shared || c.owner == asid
    | none => false

/-- `VCConsistent` of R38: the VC is defined and may be named (R70), and a pool page names the pool of its address (R43). -/
def State.vcConsistent (s : State) (asid : BitVec 16) (e : TlbE) : Bool :=
  (if e.tier == 2 || isPool (e.frame / 128) then e.vc == e.frame / 2 ^ 33 % 256 else true) && s.mayName asid e.vc

/-- What the home refuses of an access to line `l` that names VC `v`: a lost line (R414), a VC that may not be named (R70), a copy of the line in another
VC (R43), a pool offset at or above the pool's size (R19). -/
def State.homeFault (s : State) (asid : BitVec 16) (v l : Nat) : Option Cause :=
  if s.lost l then some Cause.dieLost
  else if !s.mayName asid v || (s.bank? l).any (fun b => b.vc != v) then some Cause.vcMismatch
  else if isPool l && decide (((s.vc? (poolVc l)).map Vc.poolSize).getD 0 ≤ poolLine l * 128) then some Cause.bounds
  else none

/-- A page of tier 1 or 0 that is not present asks for promotion once (R21, R25), to the die of the requesting core; a unit without a core names die 0
(log 81). -/
def State.askPromotion (s : State) (x : Xl) (va : Nat) : State :=
  if s.movesPage x.asid va then s
  else s.later (.migrationStart { cause := .demand, asid := x.asid, va := BitVec.ofNat 64 va, tier := 0, die := x.die, key := (0, 0) })

/-- `Translate` of R38. -/
def State.translate (s : State) (x : Xl) (va : Nat) (k : AccKind) : State × Except Cause Phys :=
  if !canonical va || isRemote va then (s, .error Cause.perm)
  else
    let finish (s : State) (e : TlbE) : State × Except Cause Phys :=
      if !s.vcConsistent x.asid e then (s, .error Cause.vcMismatch)
      else
        let pa := e.frame + va % e.size
        match s.homeFault x.asid e.vc (pa / 128) with
        | some c => (s, .error c)
        | none => (s, .ok { pa := pa, vc := e.vc, hint := e.hint.toNat, r := e.r, w := e.w && s.wpol e.vc != 3, u := e.u })
    match (s.tlbLookup x va).filter fun e => s.permits e k x.user with
    | some e => finish s e
    | none =>
      match s.findLeaf x va k with
      | (s, .bad c) => (s, .error c)
      | (s, .miss m) => (if m && x.promote then s.askPromotion x va else s, .error Cause.pageMiss)
      | (s, .leaf e) =>
        if !s.permits e k x.user then (s, .error Cause.perm)
        else if s.vcClash x e then (s, .error Cause.vcMismatch)
        else finish (s.tlbInstall x e) e

/-- The translator of a group: its own system registers and mode (R33, R204). -/
def Group.xl (g : Group) : Xl :=
  { asid := g.sysr.asid, ptbase := g.sysr.ptbase, user := g.user, core := some g.core, promote := true, die := g.core / 64 }

/-- The translator of an engine operation (R105). -/
def EngOp.xl (o : EngOp) : Xl :=
  { asid := o.sysr.asid, ptbase := o.sysr.ptbase, user := o.user, core := some o.core, promote := true, die := o.core / 64 }

/-- The translator of the I/O die for a context (R370). -/
def Ctx.xl (c : Ctx) : Xl := { asid := c.asid, ptbase := c.pt, user := true, core := none, promote := true, die := 0 }

/-- Engine commits of bytes at a translated address, line by line (R115). Answers the largest commit time. -/
def State.putAt (s : State) (core : Option Nat) (p : Phys) (bs : List Byte) : State × Nat :=
  (splitLines (cellsAt p.pa bs)).foldl (fun r q => let (s, t) := r.1.engineWrite core q.1 p.vc q.2 none; (s, max r.2 t)) (s, 0)

end Sys2Proof.Machine
end

