-- ==== Sys2Proof/Machine/Lines.lean ====
section
/-! DEFINITION. How a core reads and keeps lines: L1, leases, and what a chunk sees (R39, R42, R87, R91 to R93, R267). -/

namespace Sys2Proof.Machine

/-- Drop a core's copy of a line. -/
def Core.l1Drop (c : Core) (l : Nat) : Core := { c with l1 := c.l1.filter fun y => y.line != l }

/-- An empty copy under the tag of a translation. -/
def tagOf (asid : BitVec 16) (va : Nat) (p : Phys) : L1Line :=
  { asid := asid, vline := va % 2 ^ 57 / 128, r := p.r, w := p.w, u := p.u, hint := p.hint, line := p.pa / 128, vc := p.vc, st := .v, data := [],
    token := 0, wts := 0, rts := 0, fn := 0, ty := .n32, parts := [] }

/-- What a core gets of a line: its contents and the `wts` that the read list records (R91). -/
structure Got where
  view : LineSt
  wts : Nat
  deriving DecidableEq, Repr

/-- What a place answers a core (R91): contents, `wts`, `rts`. -/
structure Grant where
  view : LineSt
  wts : Nat
  rts : Nat
  deriving DecidableEq, Repr

/-- A line's place grants a lease to a core at its `pts` (R89, R91), and answers the times as the bank then holds them (R88), unless the home refuses the access (R43, R70, R82). -/
def State.grant (s : State) (core : Nat) (asid : BitVec 16) (l v hint : Nat) : State × Except Cause Grant :=
  match s.homeFault asid v l with
  | some c => (s, .error c)
  | none =>
    match s.arrayFault l with
    | some s => (s, .error Cause.ue)
    | none =>
      if v == 255 && !isPool l then
        let (w, r) := s.sliceTimes l
        let (s, c) := s.dramRead l
        let r := max r (max (s.pts core) w + s.leaseOf v)
        (s.setSlice l w r, .ok ⟨c, w, r⟩)
      else
        let s := s.bringIn l v (some hint)
        match s.bank? l with
        | none => (s, .error Cause.vcMismatch)
        | some b =>
          let (w, r) := s.times l
          let s := s.putBank { b with wts := w, rts := max r (max (s.pts core) w + s.leaseOf v) }
          let (w, r) := s.times l
          (s, .ok ⟨b.view, w, r⟩)

/-- The reply enters the L1 (never a VC 255 line) and raises `pts` to the write time (R91). -/
def State.install (s : State) (core : Nat) (tag : L1Line) (g : Grant) : State :=
  let s := if tag.vc == 255 && !isPool tag.line then s
    else s.l1Put core { tag with st := if g.view.x.isSome then .x else .v, data := g.view.data, token := g.view.x.getD 0,
                                 wts := g.wts, rts := g.rts }
  s.raisePts core g.wts

/-- A fill or renewal for a core, request and reply. -/
def State.acquire (s : State) (core : Nat) (tag : L1Line) (hint : Nat) : State × Except Cause Got :=
  match s.grant core tag.asid tag.line tag.vc hint with
  | (s, .error c) => (s, .error c)
  | (s, .ok g) => (s.install core tag g, .ok ⟨g.view, g.wts⟩)

/-- A reading of a line through the core's L1 under its lease, else from its place (R39, R91). -/
def State.readThrough (s : State) (core : Nat) (tag : L1Line) (hint : Nat) : State × Except Cause Got :=
  match (s.coreAt core).l1Hit tag.asid (tag.vline * 128) with
  | some x =>
    if x.line == tag.line && x.st != .u && decide (x.wts ≤ s.pts core) && decide (s.pts core ≤ x.rts) then
      (s, .ok ⟨⟨x.data, if x.st == .x then some x.token else none⟩, x.wts⟩)
    else s.acquire core tag hint
  | none => s.acquire core tag hint

/-- The chunk has named a memory line through a virtual line (R46). -/
def State.noteVia (s : State) (id : LineId) (va : Nat) : State :=
  let k := (s.cur.sysr.asid, va % 2 ^ 57 / 128)
  match id with
  | .mem _ => if s.cur.chunk.vlines.contains k then s else s.onChunk fun c => { c with vlines := c.vlines ++ [k] }
  | _ => s

/-- Enter a line into the read list; reservation mode reserves it too (R268, R326, R332). -/
def State.noteRead (s : State) (id : LineId) (va wts : Nat) : State :=
  let s := s.noteVia id va
  let s := if s.cur.chunk.reads.any fun r => r.line == id then s
    else s.onChunk fun c => { c with reads := c.reads ++ [⟨id, BitVec.ofNat 64 va, wts⟩] }
  match s.cur.reserve with
  | some t0 => if s.reserved.any fun r => r.line == id && r.gkey == s.cur.key then s
      else { s with reserved := s.reserved ++ [⟨id, s.cur.key, t0⟩] }
  | none => s

/-- The chunk's own entry for a line. -/
def Chunk.entry? (c : Chunk) (id : LineId) : Option QEntry := c.quar.find? fun q => q.line == id

/-- Bytes an entry's plain stores write, later ones winning (R267). -/
def QEntry.stored (q : QEntry) : Mem :=
  q.ops.foldl (fun bs o => match o with | .st b => bs ++ b | .stx b _ _ _ _ => bs ++ b | .red _ _ _ _ _ _ _ => bs) []

/-- What the chunk sees of a line with contents `v` (R267): its own stores over it; a poisoned own entry, or an X line that
they do not cover, gives the cause. -/
def Chunk.over (c : Chunk) (id : LineId) (v : LineSt) : Except Cause Mem :=
  match c.entry? id with
  | some q =>
    match q.poison with
    | some t => .error (tokenCause t)
    | none =>
      match v.x with
      | some t => if cellsCover q.stored 0 128 then .ok (memMerge [] 0 q.stored) else .error (tokenCause t)
      | none => .ok (memMerge v.data 0 q.stored)
  | none =>
    match v.x with
    | some t => .error (tokenCause t)
    | none => .ok v.data

/-- Where an access of the current group lies: a line that its L1 tag allows needs no translation, else `Translate` (R39). -/
def State.locate (s : State) (va : Nat) (k : AccKind) : State × Except Cause Phys :=
  let g := s.cur
  let ok (x : L1Line) : Bool := canonical va && !isRemote va && (!g.user || x.u) &&
    match k with | .read => x.r | .write => x.w | .atomic => x.r && x.w | _ => false
  match ((s.coreAt g.core).l1Hit g.sysr.asid va).filter ok with
  | some x => (s, .ok { pa := x.line * 128 + va % 128, vc := x.vc, hint := x.hint, r := x.r, w := x.w, u := x.u })
  | none => s.translate g.xl va k

/-- `ChunkView` of R265 for `n` bytes at a local virtual address: L1 tag or translation, range locks, read list, own
stores. Answers the bytes or a cause. `hint` is the instruction's. -/
def State.chunkLoad (s : State) (va n hint : Nat) : State × Except Cause (List Byte) :=
  let g := s.cur
  match s.locate va .read with
  | (s, .error c) => (s, .error c)
  | (s, .ok p) =>
    let tag := tagOf g.sysr.asid va p
    match s.lockCause false 1 va n with
    | some c => (s, .error c)
    | none =>
      match s.readThrough g.core tag (hintLevel hint p.hint) with
      | (s, .error c) => (s, .error c)
      | (s, .ok got) =>
        let s := s.noteRead (.mem tag.line) va got.wts
        match s.cur.chunk.over (.mem tag.line) got.view with
        | .ok d => (s, .ok (memBytes d (va % 128) n))
        | .error c => (s, .error c)

/-- The tag that a store leaves its line in L1: the bits of the tag or translation that it used (R39, R92). -/
def State.storeTag (s : State) (q : QEntry) : QEntry :=
  let va := q.va.toNat
  match (s.coreAt s.cur.core).l1Hit s.cur.sysr.asid va with
  | some x => { q with r := x.r, w := x.w, u := x.u, hint := x.hint }
  | none => match s.tlbLookup s.cur.xl va with
    | some e => { q with r := e.r, w := e.w && s.wpol e.vc != 3, u := e.u, hint := e.hint.toNat }
    | none => q

/-- Add an operation to the chunk's quarantine entry for a line, or make one (R126, R266, R268). -/
def State.quarantine (s : State) (q : QEntry) : State :=
  (s.noteVia q.line q.va.toNat).onChunk fun c =>
    if c.quar.any fun e => e.line == q.line then
      { c with quar := c.quar.map fun e => if e.line == q.line then { e with ops := e.ops ++ q.ops, poison := e.poison <|> q.poison } else e }
    else { c with quar := c.quar ++ [s.storeTag q] }

/-- An entry of one plain operation. -/
def mkEntry (id : LineId) (va vc : Nat) (ops : List QOp) (poison : Option (BitVec 32)) (lpc : Nat) : QEntry :=
  { line := id, va := BitVec.ofNat 64 va, ops := ops, poison := poison, vc := vc, r := false, w := false, u := false, hint := 0, lpc := BitVec.ofNat 20 lpc }

/-- The checks of a local store or atomic (R112, R266, R275): tag or translation, the home (R43, R70), then the range locks. -/
def State.storeCheck (s : State) (va n : Nat) (k : AccKind) : State × Except Cause Phys :=
  match s.locate va k with
  | (s, .ok p) =>
    match s.homeFault s.cur.sysr.asid p.vc (p.pa / 128) <|> s.lockCause true 1 va n with
    | some c => (s, .error c)
    | none => (s, .ok p)
  | (s, .error c) => (s, .error c)

end Sys2Proof.Machine
end

