-- ==== Sys2Proof/Machine/Scratch.lean ====
section
/-! DEFINITION. Scratch (R121, R124, R270, R328): bytes of a team with a poison bit and token for each 8-byte word. -/

namespace Sys2Proof.Machine

/-- Token of a scratch word, if it is poisoned (R124). -/
def Team.wordToken (t : Team) (w : Nat) : Option (BitVec 32) := (t.scrPois.find? fun p => p.1 == w).map Prod.snd

/-- Words that bytes `a` to `a + n - 1` touch. -/
def wordsOf (a n : Nat) : List Nat := if n == 0 then [] else (List.range ((a + n - 1) / 8 + 1 - a / 8)).map fun i => a / 8 + i

/-- Token of the lowest-addressed poisoned word among `n` bytes at `a`. -/
def Team.firstPoison (t : Team) (a n : Nat) : Option (BitVec 32) :=
  if t.scrPois.isEmpty then none else (wordsOf a n).findSome? fun w => t.wordToken w

/-- The access lies inside the allocation (R121). -/
def Team.inside (t : Team) (a n : Nat) : Bool := decide (a + n ≤ t.scrSize)

/-- Store clean bytes given by scratch address: a word they cover whole becomes clean, a poisoned word they cover in part
loses them (R124). -/
def Team.putBytes (t : Team) (bs : Mem) : Team :=
  let clears := (t.scrPois.map Prod.fst).filter fun w => cellsCover bs (w * 8) 8
  let keep := t.scrPois.filter fun p => !clears.contains p.1
  { t with scrPois := keep,
           scratch := bs.foldl (fun m c => if keep.any fun p => p.1 == c.1 / 8 then m else memSet m c.1 c.2) t.scratch }

/-- Poison a scratch word: it holds its token in its low 4 bytes (R116, R124). -/
def Team.poisonWord (t : Team) (w : Nat) (k : BitVec 32) : Team :=
  { t with scrPois := (t.scrPois.filter fun p => p.1 != w) ++ [(w, k)],
           scratch := memWrite t.scratch (w * 8) (toBytes 8 k.toNat) }

/-- `wts` and `rts` of a scratch line at its arbiter (R328). -/
def Team.lineTimes (t : Team) (l : Nat) : Nat × Nat := ((t.scrTs.find? fun p => p.1 == l).map Prod.snd).getD (0, 0)

def Team.setTimes (t : Team) (l w r : Nat) : Team :=
  { t with scrTs := if t.scrTs.any fun p => p.1 == l then t.scrTs.map fun p => if p.1 == l then (l, w, r) else p
                    else t.scrTs ++ [(l, w, r)] }

/-! ## The scratch image of a team that is not active (R398 to R400) -/

/-- Where a team's scratch image stands in its frame slot (R398). -/
def Team.imageAt (t : Team) : Nat := t.frameAt + (t.slotSize - t.scrSize)

/-- The team's scratch stands in its frame slot alone (R400). -/
def Team.away (t : Team) : Bool := t.started && !t.active && t.endSt.isNone

/-- Line `l` of a scratch image: its bytes, or the token of a line that cannot be read. -/
def State.imageLine (s : State) (t : Team) (l : Nat) : State × LineSt := s.peek (t.imageAt / 128 + l) 254

/-- Line `l` of a team's scratch as the image gives it: the words of a line that cannot be read take its poison (log 25). -/
def Team.takeLine (t : Team) (l : Nat) (c : LineSt) : Team :=
  match c.x with
  | none => { t with scratch := memPut t.scratch (l * 128) 128 c.data }
  | some k => (List.range 16).foldl (fun t j => t.poisonWord (16 * l + j) k) t

/-- One engine commit of a scratch line of a team on behalf of a core (R115). Answers its time. Where the scratch arbiter does not admit it now, nothing
is written and `engHeld` asks for the whole step to be tried again (R329, R332, log 78). The scratch of a team that is not active is its image in the frame
slot: the engines read and write it there (R117, R400). -/
def State.scratchCommit (s : State) (team core l : Nat) (f : Team → Team) : State × Nat :=
  match s.team? team with
  | some t =>
    if s.lineHeld none (.scr team l) then ({ s with engHeld := true }, 0) else
    let ts := max (s.pts core + 1) ((t.lineTimes l).2 + 1)
    if t.away then
      let (s, c) := s.imageLine t l
      let u := (f (t.takeLine l c)).setTimes l ts ts
      let s := s.onTeam team fun _ => u
      ((s.engineWrite none (t.imageAt / 128 + l) 254 (cellsAt 0 (memBytes u.scratch (l * 128) 128)) none).1, ts)
    else (s.onTeam team fun t => (f t).setTimes l ts ts, ts)
  | none => (s, 0)

/-- Engine commits of clean bytes at a scratch address, line by line. -/
def State.scratchBytes (s : State) (team core a : Nat) (bs : List Byte) : State × Nat :=
  (splitLines (cellsAt a bs)).foldl (fun r q =>
    let (s, t) := r.1.scratchCommit team core q.1 fun t => t.putBytes (q.2.map fun c => (q.1 * 128 + c.1, c.2))
    (s, max r.2 t)) (s, 0)

/-- Why a scratch load gives poison: a cause of its own, or the token of a poisoned word (R124, R269). -/
inductive Miss where
  | cause (c : Cause)
  | word (t : BitVec 32)
  deriving DecidableEq, Repr

/-- The cause that a lane's new crumb records (R269): POISON_LINE where the word has no better token. -/
def Miss.toCause : Miss → Cause
  | .cause c => c
  | .word t => if tokenCause t == Cause.ok then Cause.poisonLine else tokenCause t

/-- What the chunk sees of `n` bytes of scratch at `a`, all in one 128-byte line (R270): bounds, locks, own stores, poisoned
words. -/
def State.scratchLoad (s : State) (a n : Nat) : State × Except Miss (List Byte) :=
  let t := s.team
  if !t.inside a n then (s, .error (.cause Cause.bounds))
  else match s.lockCause false 0 a n with
    | some c => (s, .error (.cause c))
    | none =>
      let l := a / 128
      let id := LineId.scr t.key l
      let s := s.noteRead id a (t.lineTimes l).1
      match s.cur.chunk.entry? id with
      | some q =>
        match q.poison with
        | some k => (s, .error (.cause (tokenCause k)))
        | none =>
          match (wordsOf a n).findSome? fun w =>
            if cellsCover q.stored (w * 8 % 128) 8 then none else t.wordToken w with
          | some k => (s, .error (.word k))
          | none => (s, .ok (memBytes (memMerge (memSlice t.scratch (l * 128) 128) 0 q.stored) (a % 128) n))
      | none =>
        match t.firstPoison a n with
        | some k => (s, .error (.word k))
        | none => (s, .ok (memBytes t.scratch a n))

/-- The checks of a scratch store or atomic. -/
def State.scratchCheck (s : State) (a n : Nat) : Except Cause Unit :=
  if !s.team.inside a n then .error Cause.bounds
  else match s.lockCause true 0 a n with
    | some c => .error c
    | none => .ok ()

/-- Bytes of scratch outside any chunk, as an engine reads them at issue: the token of the first poisoned word, or the
bytes. -/
def Team.engineRead (t : Team) (a n : Nat) : Except (BitVec 32) (List Byte) :=
  match t.firstPoison a n with
  | some k => .error k
  | none => .ok (memBytes t.scratch a n)

end Sys2Proof.Machine
end

