-- ==== Sys2Proof/Machine/Remote.lean ====
section
/-! DEFINITION. What leaves for other chips (R14, R51 to R55, R129, R264, R363 to R367, R372 to R377): requests, the
write-combining buffer, counters. -/

namespace Sys2Proof.Machine

/-! ## Remote addresses (R264) -/

def remChip (va : Nat) : BitVec 8 := BitVec.ofNat 8 (va >>> 48)
def remWin (va : Nat) : BitVec 12 := BitVec.ofNat 12 (va >>> 36)
def remOff (va : Nat) : Nat := va % 2 ^ 36

/-- Hops between two chips (R51). -/
def hops (a b : BitVec 8) : Nat :=
  b2n (a.extractLsb' 4 4 != b.extractLsb' 4 4) + b2n (a.extractLsb' 0 4 != b.extractLsb' 0 4)

/-! ## Counters (R375 to R377) -/

/-- One more in COUNT, which wraps, or in ERR, which saturates (R375). -/
def bumpVal (v : BitVec 64) (err : Bool) : BitVec 64 :=
  if err then (if v.extractLsb' 48 16 == 0xFFFF#16 then v else v + 0x1000000000000#64)
  else v.extractLsb' 48 16 ++ (v.extractLsb' 0 48 + 1#48)

/-- The window with a number, where it is registered. -/
def State.window? (s : State) (n : BitVec 12) : Option Window := s.windows.find? fun w => w.n == n && w.valid

/-- Change a window. -/
def State.onWindow (s : State) (n : BitVec 12) (f : Window → Window) : State :=
  { s with windows := s.windows.map fun w => if w.n == n then f w else w }

/-- A unit landed in window `n` at commit time `t` (R377). -/
def State.countTarget (s : State) (n : BitVec 12) (t : Nat) : State :=
  s.onWindow n fun w => { w with target := bumpVal w.target false, ctime := max w.ctime t }

/-- An acknowledgement or a failure of a write that context `a` sent to window `n` (R377). -/
def State.countOrigin (s : State) (n : BitVec 12) (a : BitVec 16) (err : Bool) : State :=
  s.onWindow n fun w => if w.valid && w.asid == a then { w with origin := bumpVal w.origin err } else w

/-- The network completion counter with a number. -/
def State.netCnt? (s : State) (n : BitVec 12) : Option NetCnt := s.counters.find? fun c => c.n == n

/-- Count in a network completion counter (R377). -/
def State.countNet (s : State) (n : BitVec 12) (err : Bool) (t : Nat) : State :=
  { s with counters := s.counters.map fun c => if c.n == n then { c with val := bumpVal c.val err, ctime := max c.ctime t } else c }

/-- The counter that 16 bits name, in a context (R218): its value and the largest commit time it has counted. Bits [13:12] that are not zero name none
(log 106). -/
def State.counter? (s : State) (a : BitVec 16) (name : BitVec 16) : Option (BitVec 64 × Nat) :=
  let n := name.extractLsb' 0 12
  if name.extractLsb' 12 2 != 0#2 then none
  else match (name.extractLsb' 14 2).toNat with
    | 0 => match s.window? n with | some w => if w.asid == a then some (w.target, w.ctime) else none | none => none
    | 1 => match s.window? n with | some w => if w.asid == a then some (w.origin, 0) else none | none => none
    | 2 => match s.netCnt? n with | some c => if c.owner == some a then some (c.val, c.ctime) else none | none => none
    | _ => none

/-- Count one in the counter that 16 bits name (R409). -/
def State.countNamed (s : State) (a : BitVec 16) (name : BitVec 16) (err : Bool) (t : Nat) : State :=
  let n := name.extractLsb' 0 12
  match (name.extractLsb' 14 2).toNat with
  | 0 => s.onWindow n fun w => if w.valid && w.asid == a then { w with target := bumpVal w.target err, ctime := max w.ctime t } else w
  | 1 => s.countOrigin n a err
  | 2 => if (s.netCnt? n).any (fun c => c.owner == some a) then s.countNet n err t else s
  | _ => s

/-! ## Topology and routes (R363, R364) -/

/-- Row and column of a device (R51, R363). -/
def chipRow (c : BitVec 8) : Nat := c.toNat / 16
def chipCol (c : BitVec 8) : Nat := c.toNat % 16

/-- The position that port `n` of a device reaches: ports 0 to 14 are X0 to X14, ports 15 to 29 are Y0 to Y14 (R363). -/
def neighbour (c : BitVec 8) (n : Nat) : BitVec 8 :=
  if n < 15 then BitVec.ofNat 8 (chipRow c * 16 + (chipCol c + n + 1) % 16)
  else BitVec.ofNat 8 ((chipRow c + (n - 15) + 1) % 16 * 16 + chipCol c)

/-- The partner position of a port holds a device of the domain (R363). -/
def State.hasPartner (s : State) (n : Nat) : Bool :=
  decide (n < 30) && decide (chipRow (neighbour s.chip n) < s.rows) && decide (chipCol (neighbour s.chip n) < s.cols)

/-- A Worrad port is up: it has a partner, has not lost its last lane and does not retrain (R363, R368). -/
def State.portUp (s : State) (n : Nat) : Bool := s.hasPartner n && !s.ports.any fun p => p.n == n && (p.level == 4 || p.retraining)

/-- The port of the minimal route: an X hop to the destination's column, then a Y hop to its row (R364). -/
def minimalPort (here dst : BitVec 8) : Option Nat :=
  if chipCol here != chipCol dst then some ((chipCol dst + 15 - chipCol here) % 16)
  else if chipRow here != chipRow dst then some (15 + (chipRow dst + 15 - chipRow here) % 16)
  else none

/-- The packet reached this device by a detour: it is past its first hop, and this is not the corner of its minimal route. -/
def State.detoured (s : State) (src dst : BitVec 8) (stage : Nat) : Bool :=
  decide (2 ≤ stage) && !(chipRow s.chip == chipRow src && chipCol s.chip == chipCol dst)

/-- Ports that hop number `stage` of a packet may take: the minimal one first, then, once, a detour that ends within three hops (R364). -/
def State.ways (s : State) (src dst : BitVec 8) (stage : Nat) : List Nat :=
  match minimalPort s.chip dst with
  | none => []
  | some p => ((if s.detoured src dst stage then [p] else p :: (List.range 30).filter fun n => n != p)).filter fun n =>
      decide (stage + hops (neighbour s.chip n) dst ≤ 3)

/-- A route exists to a chip, directly or as a detour, as far as this package's own ports show (R364, R367). -/
def State.routeTo (s : State) (chip : BitVec 8) : Bool := chip == s.chip || (s.ways s.chip chip 1).any s.portUp

/-! ## Packets (R364 to R366) -/

/-- Number of a class. -/
def classCode : PktClass → Nat
  | .request => 0 | .forwarded => 1 | .response => 2

/-- Payload flits of a packet (R365). -/
def Out.flits : Out → Nat
  | .req q => match q.body with
    | .put _ _ => 4
    | .red fn _ _ => if 8 ≤ fn.toNat then 4 else 0
    | _ => 0
  | .resp r => if r.old || r.data.isEmpty then 0 else 4
  | .gangLaunch _ _ => 8
  | _ => 0

/-- Flits of a packet: its header and its payload (R364). -/
def Wire.flits (w : Wire) : Nat := 1 + w.body.flits

/-- The port that a packet leaves by now: the first that is up and has credit for its class and hop stage (R364, R365, log 86). -/
def State.portFor (s : State) (w : Wire) : Option Nat :=
  (s.ways w.h.src w.h.dst w.h.stage).find? fun n => s.portUp n && Config.credit n (classCode w.h.cls) w.h.stage s.clock

/-- The forwarded-request buffer of 9 flits that stands here for a packet's source has room for it (R366). -/
def State.hasBuffer (s : State) (w : Wire) : Bool :=
  decide (sumNat ((s.detours.filter fun v => v.h.src == w.h.src).map Wire.flits) + w.flits ≤ 9)

/-- A packet leaves, or waits for a port: a forwarded request in the buffer of its source, any other, and one that finds that buffer full, in the
buffer of its class and stage (R364 to R366, log 86). -/
def State.route (s : State) (w : Wire) : State :=
  match s.portFor w with
  | some n => s.emit (.pkt n w.h w.body.flits w.body)
  | none =>
    if w.h.cls == .forwarded && s.hasBuffer w then { s with detours := s.detours ++ [w] } else { s with egress := s.egress ++ [w] }

/-- Something of this device's own travels to another chip for a context. -/
def State.toChip (s : State) (cls : PktClass) (dst : BitVec 8) (asid : BitVec 16) (o : Out) : State := s.route ⟨⟨cls, 1, s.chip, dst, asid⟩, o⟩

/-- A packet for another chip is passed on: a request that came by a detour goes on as a forwarded request (R364, R365). -/
def State.passOn (s : State) (h : Hdr) (o : Out) : State :=
  s.route ⟨{ h with cls := if h.cls == .request && s.detoured h.src h.dst (h.stage + 1) then .forwarded else h.cls, stage := h.stage + 1 }, o⟩

/-- The header of a request's packet. -/
def reqHdr (q : Req) : Hdr := ⟨q.cls, q.stage, q.src, q.dst, q.asid⟩

/-- The header of a response's packet. -/
def respHdr (r : Resp) : Hdr := ⟨.response, r.stage, r.src, r.dst, r.asid⟩

/-- What arrives for this chip acts here; what arrives for another leaves again (R364). -/
def State.here (s : State) (h : Hdr) (o : Out) (f : State → State) : State := if h.dst == s.chip then f s else s.passOn h o

/-- Packets that waited for a port and may leave now: the reserved buffers first. -/
def State.drainEgress (s : State) : Option State :=
  match s.detours.find? fun w => (s.portFor w).isSome with
  | some w => some (({ s with detours := s.detours.erase w } : State).route w)
  | none => (s.egress.find? fun w => (s.portFor w).isSome).map fun w => ({ s with egress := s.egress.erase w } : State).route w

/-! ## Requests (R364 to R367, R401) -/

/-- The gang key that a request of a group to a chip carries (R401). -/
def State.gangKey (s : State) (g : Group) (chip : BitVec 8) : Option (BitVec 8 × BitVec 32) :=
  match s.launch? g.lid with
  | some l => if l.lrec.chips.contains chip then some (l.origin, l.olid) else none
  | none => none

/-- The arrival of a request. -/
def arrivalOf (q : Req) : Instr :=
  match q.body with
  | .read _ => .fabricReadRequest q
  | .put _ _ => .putReceive q
  | .atomic _ _ _ _ => .remoteAtomicReceive q
  | .red _ _ _ => .remoteRedReceive q
  | .slotOpen _ => .slotOpenRequest q
  | .slotJoin _ => .slotContribution q

/-- A request leaves; one to this chip loops back through the router (R264). -/
def State.depart (s : State) (q : Req) : State := if q.dst == s.chip then s.later (arrivalOf q) else s.toChip .request q.dst q.asid (.req q)

/-- The handle that answers an `SROPEN`: root, slot, generation and status (R222). -/
def slotHandle (root : BitVec 8) (slot : BitVec 9) (gen : BitVec 16) (status : BitVec 8) : BitVec 64 :=
  0#16 ++ gen ++ status ++ root ++ 0#7 ++ slot

/-- The arrival of a response to a request. -/
def answerTo (q : Req) (r : Resp) : Instr :=
  match q.body with
  | .read _ => .fabricReadResponse r
  | .put _ _ => .putAckReceive r
  | .atomic _ _ _ _ => .atomicResponse r
  | .red _ _ _ => .putAckReceive r
  | .slotOpen _ => .slotAnswer ⟨respHdr r, q.id⟩ (slotHandle q.dst 0 0 3)
  | .slotJoin _ => .slotResultLand (respHdr r) q.id 0 4

/-- A response to a request of a chip leaves, or loops back through the router (R264, R365). -/
def State.respond (s : State) (dst : BitVec 8) (asid : BitVec 16) (id : Nat) (i : RespTo → Instr) (o : Out) : State :=
  let h : Hdr := ⟨.response, 1, s.chip, dst, asid⟩
  if dst == s.chip then s.later (i ⟨h, id⟩) else s.route ⟨h, o⟩

/-- A slot's answer travels (R222). -/
def State.sendSlotAnswer (s : State) (q : Req) (ans : BitVec 64) : State :=
  s.respond q.src q.asid q.id (fun m => .slotAnswer m ans) (.slotAns q.id ans)

/-- A result record travels (R378). -/
def State.sendSlotResult (s : State) (x : SlotJoin) (value : BitVec 64) (status : BitVec 8) : State :=
  s.respond x.src x.asid x.id (fun m => .slotResultLand m.h m.id value status) (.slotRes x.id value status)

/-- Answer a request (R55, R365). -/
def State.reply (s : State) (q : Req) (cause : Cause) (x : Bool) (data : List Byte) : State :=
  let old := match q.body with | .atomic _ _ _ _ => true | _ => false
  let r : Resp := { id := q.id, cause := cause, x := x, data := data, old := old, src := s.chip, dst := q.src, asid := q.asid }
  match q.body with
  | .slotOpen _ => s.sendSlotAnswer q (slotHandle s.chip 0 0 3)
  | .slotJoin x => s.sendSlotResult x 0 4
  | _ => s.respond q.src q.asid q.id (fun _ => answerTo q r) (.resp r)

/-- Send a new request with the next identifier (R366); `hs` are the tensor handles it was resolved through. -/
def State.sendReq (s : State) (o : Owner) (asid : BitVec 16) (gang : Option (BitVec 8 × BitVec 32)) (chip : BitVec 8) (win : BitVec 12)
    (byVa : Bool) (addr : Nat) (body : ReqBody) (hs : List (BitVec 16) := []) : State :=
  let q : Req := { id := s.nextKey, src := s.chip, dst := chip, asid := asid, gang := gang, win := win, byVa := byVa,
                   addr := BitVec.ofNat 64 addr, body := body }
  let s : State := { s with nextKey := s.nextKey + 1, outReqs := s.outReqs ++ [⟨q, o, false, hs, false⟩] }
  s.depart q

/-- Send a write, or count its failure where no route exists (R367). -/
def State.sendWrite (s : State) (o : Owner) (asid : BitVec 16) (gang : Option (BitVec 8 × BitVec 32)) (chip : BitVec 8)
    (win : BitVec 12) (byVa : Bool) (addr : Nat) (body : ReqBody) (hs : List (BitVec 16) := []) : State :=
  if s.routeTo chip then s.sendReq o asid gang chip win byVa addr body hs else s.countOrigin win asid true

/-! ## Write combining (R129, R373, R374) -/

/-- Store bytes `b` over `a`. -/
def overlay (a b : Mem) : Mem := (a.filter fun c => !b.any fun d => d.1 == c.1) ++ b

/-- An entry leaves as one put. -/
def State.drainWcb (s : State) (core : Nat) (e : Wcb) : State :=
  (s.onCore core fun c => { c with wcb := c.wcb.filter fun x => x != e }).sendWrite (.write e.gkeys e.win e.asid) e.asid e.gang e.chip e.win false (e.line * 128)
    (.put e.bytes none)

/-- Entries for a key leave (R275, R277, R373). -/
def State.drainKey (s : State) (core : Nat) (asid : BitVec 16) (chip : BitVec 8) (win : BitVec 12) (line : Nat) : State :=
  ((s.coreAt core).wcb.filter fun e => e.asid == asid && e.chip == chip && e.win == win && e.line == line).foldl (fun s e => s.drainWcb core e) s

/-- Every entry of a core leaves (R205). -/
def State.drainAll (s : State) (core : Nat) : State := (s.coreAt core).wcb.foldl (fun s e => s.drainWcb core e) s

/-- A committed store to a remote line enters the buffer. -/
def State.wcbStore (s : State) (core gkey : Nat) (asid : BitVec 16) (gang : Option (BitVec 8 × BitVec 32)) (chip : BitVec 8)
    (win : BitVec 12) (line : Nat) (bs : Mem) : State :=
  let key (e : Wcb) : Bool := e.asid == asid && e.chip == chip && e.win == win && e.line == line
  let merge (e : Wcb) : Wcb := { e with bytes := overlay e.bytes bs, gkeys := if e.gkeys.contains gkey then e.gkeys else e.gkeys ++ [gkey] }
  let s := if (s.coreAt core).wcb.any key then
      s.onCore core fun c => { c with wcb := c.wcb.map fun e => if key e then merge e else e }
    else
      let s := if (s.coreAt core).wcb.length < 64 then s
        else match (s.coreAt core).wcb with | e :: _ => s.drainWcb core e | [] => s
      s.onCore core fun c => { c with wcb := c.wcb ++ [⟨asid, chip, win, line, overlay [] bs, gang, [gkey]⟩] }
  ((s.coreAt core).wcb.filter fun e => key e && cellsCover e.bytes 0 128).foldl (fun s e => s.drainWcb core e) s

end Sys2Proof.Machine
end

