-- ==== Sys2Proof/Machine/Frame.lean ====
section
/-! DEFINITION. Context frames (R140 to R143): the bytes a group is saved as, and the group they give back. -/

namespace Sys2Proof.Machine

/-- Nonzero bytes from offset `o` up: a piece of a canonical image. -/
def piece (o : Nat) (bs : List Byte) : Mem := (cellsAt o bs).filter fun c => c.2 != unlisted

/-- `n`-byte little-endian words. -/
def words (n : Nat) (l : List Nat) : List Byte := l.flatMap (toBytes n)

/-- Exactly `n` entries of a list, `d` where it is too short. -/
def padTo {α : Type} (n : Nat) (d : α) (l : List α) : List α := (List.range n).map fun i => l.getD i d

/-- Bytes of the vector area (R140). -/
def vecArea (v w : Nat) : Nat := roundUp (4 * v * w + v * w / 8) 4096

/-- Bytes of a frame (R140). -/
def frameSize (w v t a : Nat) : Nat := 0x1000 + vecArea v w + t * 16384 + a * 65536

def Group.frameSize (g : Group) : Nat := Machine.frameSize g.width g.regs.v.length g.tiles.length g.accs.length

/-- Image of `REGION` (R144). -/
def Region.image (r : Region) : Nat :=
  (match r.pol with | .replay => 0 | .recover => 1 | .drop => 2) + 4 * b2n r.isOpen + r.label.toNat * 2 ^ 32

/-- `REGION` of an image. -/
def Region.ofImage (v : Nat) : Region :=
  { pol := (match v % 4 with | 1 => .recover | 2 => .drop | _ => .replay), isOpen := bit v 2, label := BitVec.ofNat 32 (v / 2 ^ 32) }

/-- A lane block has begun: its frame entry is the current block. -/
def LBlock.begun (b : LBlock) : Bool := b.left != b.nruns || b.lpc != b.start

/-- The block that is running, if one is. -/
def Regs.current (r : Regs) : Option LBlock := match r.laneq with | b :: _ => if b.begun then some b else none | [] => none

/-- Poison flag and token of a tile or an accumulator as frames hold them (R142). -/
def Block.flag (b : Block) : Nat := if b.poison then b.token.toNat + 2 ^ 32 else b.token.toNat

/-- Lanes of a group as lane instructions see them (R233). -/
def laneWidth (shadow : Bool) (width : Nat) : Nat := if shadow then 32 else width

/-- The parts of a frame of REASON `reason` with CAUSE `cause`, each at its offset (R140 to R142, R342): header, control state, uniforms, predicates, masks,
signatures, vector registers and their poison. LPC is 0 when no block is running (log 84), and the count of unfolded signatures is that of the 16 that the
frame can hold (log 85). -/
def Group.frameParts (g : Group) (pts reason : Nat) (cause : BitVec 32) : List (Nat × List Byte) :=
  let r := g.regs
  let q := r.laneq.take 16
  let cur := r.current
  [(0x000, words 8 [1 + g.width <<< 8 + b2n g.shadow <<< 16 + b2n g.checked <<< 17 + b2n (!g.user) <<< 18 + (reason % 8) <<< 20 +
      g.frameSize <<< 32, r.cpc.toNat % 2 ^ 57,
      (match cur with | some b => b.lpc.toNat + b.left <<< 20 | none => 0) + q.length <<< 32, pts % 2 ^ 64, g.region.image,
      g.crumbLast.toNat, cause.toNat,
      r.v.length + g.tiles.length <<< 16 + g.accs.length <<< 24 + r.prio.toNat <<< 32]),
   (0x040, words 4 (q.map fun b => b.start.toNat + (b.nruns % 32) <<< 20 + 2 ^ 31)),
   (0x100, words 8 (g.eng.map fun e => e.openNum.toNat + e.closedNum.toNat <<< 32)),
   (0x120, words 4 (padTo 32 0 (r.tsh.map BitVec.toNat))),
   (0x1A0, words 8 (q.map fun b => (b.caps.foldr (fun c n => n * 64 + c.num.toNat) 0) + b.caps.length <<< 48)),
   (0x220, words 1 (q.map fun b => b.caps.foldr (fun c n => n * 2 + b2n c.val.poison) 0)),
   (0x230, words 4 (padTo 16 0 (r.p.map fun p => p.token.toNat))),
   (0x270, words 8 (g.eng.map fun e => match e.cursor with | some a => a % 2 ^ 19 | none => 2 ^ 63)),
   (0x300, words 8 (q.flatMap fun b => padTo 8 0 (b.caps.map fun c => c.val.val.toNat))),
   (0x700, words 8 (g.tiles.map Block.flag)),
   (0x800, words 8 (g.accs.map Block.flag)),
   (0x900, words 8 (padTo 64 0 (r.w.map fun e => e.val.toNat))),
   (0xB00, words 8 [r.w.foldr (fun e n => n * 2 + b2n e.poison) 0]),
   (0xB40, words 8 (padTo 16 0 (r.p.map fun p => p.bits.toNat))),
   (0xBC0, words 8 (padTo 16 0 (r.p.map fun p => p.pois.toNat))),
   (0xC40, words 8 [r.exm.toNat, r.mask.length]),
   (0xC50, words 8 (r.mask.flatMap fun m => [m.saved.toNat, m.pending.toNat])),
   (0xE80, words 8 [r.sigr.toNat, (match cur with | some b => b.sig.toNat | none => 0),
      b2n r.unchecked + 2 * b2n (match cur with | some b => b.unchecked | none => false), min 16 r.finished.length]),
   (0xEC0, words 8 ((r.finished.take 16).map BitVec.toNat)),
   (0x1000, words 4 (r.v.flatMap fun x => (padTo g.width ⟨0, false⟩ x).map fun e => e.val.toNat)),
   (0x1000 + 4 * r.v.length * g.width,
      words (g.width / 8) (r.v.map fun x => (padTo g.width ⟨0, false⟩ x).foldr (fun e n => n * 2 + b2n e.poison) 0))]

/-- The image that parts at their offsets make. -/
def partsImage (l : List (Nat × List Byte)) : Mem := l.flatMap fun s => piece s.1 s.2

/-- The image of tiles or accumulators of `size` bytes each from `o` up. -/
def blocksImage (o size : Nat) (bs : List Block) : Mem := bs.zipIdx.flatMap fun b => b.1.data.map fun c => (o + b.2 * size + c.1, c.2)

/-- The whole image of a frame (R140). -/
def Group.frameImage (g : Group) (pts reason : Nat) (cause : BitVec 32) : Mem :=
  let t0 := 0x1000 + vecArea g.regs.v.length g.width
  partsImage (g.frameParts pts reason cause) ++ blocksImage t0 16384 g.tiles ++ blocksImage (t0 + g.tiles.length * 16384) 65536 g.accs

/-- A group holds no more than a frame has places for (R130 to R134, R140 to R142). -/
def Group.Framed (g : Group) : Prop :=
  (g.width = 16 ∨ g.width = 32 ∨ g.width = 64) ∧ (∀ x ∈ g.regs.v, x.length = g.width) ∧ g.regs.w.length = 64 ∧ g.regs.p.length = 16 ∧
  g.regs.tsh.length = 32 ∧ g.regs.v.length ≤ 256 ∧ g.tiles.length ≤ 32 ∧ g.accs.length ≤ 8 ∧ g.eng.length ≤ 4 ∧ g.regs.mask.length ≤ 32 ∧
  (∀ b ∈ g.tiles, Memory.wf b.data = true ∧ ∀ c ∈ b.data, c.1 < 16384) ∧ ∀ b ∈ g.accs, Memory.wf b.data = true ∧ ∀ c ∈ b.data, c.1 < 65536

/-- A group at a run boundary, its registers within their bits: at most 16 blocks of at most 32 runs, of which only the first may have begun, and the others
have no signature (R133, R141, R160, R342). -/
def Group.AtBoundary (g : Group) : Prop :=
  let lw := laneWidth g.shadow g.width
  g.regs.cpc.toNat % 4 = 0 ∧ g.regs.cpc.toNat < 2 ^ 57 ∧ g.regs.exm.toNat < 2 ^ lw ∧ (∀ m ∈ g.regs.mask, m.saved.toNat < 2 ^ lw ∧ m.pending.toNat < 2 ^ lw) ∧
  g.regs.laneq.length ≤ 16 ∧ (∀ b ∈ g.regs.laneq, 1 ≤ b.nruns ∧ b.nruns ≤ 32 ∧ b.caps.length ≤ 8) ∧
  (∀ b ∈ g.regs.laneq, b.begun = true → g.regs.laneq.head? = some b ∧ 1 ≤ b.left ∧ b.left ≤ 32) ∧
  (∀ b ∈ g.regs.laneq, b.begun = false → b.sig = 0 ∧ b.unchecked = false) ∧
  (∀ b ∈ g.regs.laneq.tail, b.begun = false) ∧ ∀ e ∈ g.eng, ∀ a, e.cursor = some a → a < 2 ^ 19

/-- Bytes of the frame slot of one group: a frame with 256 vector registers fits (R398). -/
def Group.slotBytes (g : Group) : Nat := Machine.frameSize g.width 256 g.tiles.length g.accs.length

/-- Physical address of a group's frame in its team's slot (R398). -/
def State.frameAddr (s : State) (g : Group) : Nat := ((s.team? g.teamKey).map Team.frameAt).getD 0 + g.grp.toNat * g.slotBytes

/-- Lines of `n` bytes at `pa` are written whole, each as an engine commit of the I/O die in VC 254 (R98, R140). -/
def State.writeImage (s : State) (pa n : Nat) (img : Mem) : State :=
  (List.range (n / 128)).foldl (fun s i =>
    (s.engineWrite none (pa / 128 + i) 254 (cellsAt 0 (memBytes (memSlice img (i * 128) 128) 0 128)) none).1) s

/-- Write the frame of the current group (R143). -/
def State.saveFrame (s : State) (reason : Nat) (cause : BitVec 32) : State :=
  let g := s.cur
  let a := s.frameAddr g
  let s := s.writeImage a g.frameSize (g.frameImage (s.pts g.core) reason cause)
  s.onCur fun g => { g with frame := some a, reason := reason }

/-- Read the frame at `pa`, `n` bytes. -/
def State.readImage (s : State) (pa n : Nat) : State × Mem × Bool :=
  (List.range (n / 128)).foldl (fun (r : State × Mem × Bool) i =>
    let (s, c) := r.1.peek (pa / 128 + i) 254
    (s, r.2.1 ++ c.data.map (fun b => (i * 128 + b.1, b.2)), r.2.2 || c.x.isSome)) (s, [], false)

/-- The uniform, predicate, mask and stream registers that an image holds. Masks have `lw` bits (R133, R233, R255). Unfolded signatures past the 16 of
the frame stand in the group's own record (log 85). -/
def Regs.ofImage (old : Regs) (m : Mem) (w lw v : Nat) : Regs :=
  let n (a k : Nat) := memNat m a k
  let hdr := n 0x10 8
  let runs := bits hdr 20 6
  let nq := min 16 (bits hdr 32 5)
  let flags := n 0xE90 8
  let blk (k : Nat) : LBlock :=
    let e := n (0x40 + 4 * k) 4
    let nr := if bits e 20 5 == 0 then 32 else bits e 20 5
    let cw := n (0x1A0 + 8 * k) 8
    let isCur := k == 0 && runs != 0
    { start := BitVec.ofNat 20 e, nruns := nr, lpc := BitVec.ofNat 20 (if isCur then hdr else e), left := if isCur then runs else nr,
      caps := (List.range (min 8 (bits cw 48 4))).map (fun j =>
        ⟨BitVec.ofNat 6 (bits cw (6 * j) 6), ⟨BitVec.ofNat 64 (n (0x300 + 64 * k + 8 * j) 8), bit (n (0x220 + k) 1) j⟩⟩),
      dests := ((old.laneq.drop k).head?.map LBlock.dests).getD [],
      sig := BitVec.ofNat 64 (if isCur then n 0xE88 8 else 0), unchecked := isCur && bit flags 1 }
  { v := (List.range v).map (fun r => (List.range w).map (fun i =>
      ⟨BitVec.ofNat 32 (n (0x1000 + 4 * (r * w + i)) 4), bit (n (0x1000 + 4 * v * w + (r * w + i) / 8) 1) ((r * w + i) % 8)⟩)),
    w := (List.range 64).map (fun i => ⟨BitVec.ofNat 64 (n (0x900 + 8 * i) 8), bit (n 0xB00 8) i⟩),
    p := (List.range 16).map (fun i => ⟨BitVec.ofNat 64 (n (0xB40 + 8 * i) 8), BitVec.ofNat 64 (n (0xBC0 + 8 * i) 8),
      BitVec.ofNat 32 (n (0x230 + 4 * i) 4)⟩),
    exm := BitVec.ofNat 64 (n 0xC40 8 % 2 ^ lw),
    mask := (List.range (min 32 (n 0xC48 8))).map (fun e => ⟨BitVec.ofNat 64 (n (0xC50 + 16 * e) 8 % 2 ^ lw), BitVec.ofNat 64 (n (0xC58 + 16 * e) 8 % 2 ^ lw)⟩),
    sigr := BitVec.ofNat 64 (n 0xE80 8), unchecked := bit flags 0, cpc := BitVec.ofNat 64 (n 0x08 8 % 2 ^ 57 / 4 * 4),
    laneq := (List.range nq).map blk,
    finished := (List.range (min 16 (n 0xE98 8 % 32))).map (fun k => BitVec.ofNat 64 (n (0xEC0 + 8 * k) 8)) ++ old.finished.drop 16,
    tsh := (List.range 32).map (fun i => BitVec.ofNat 20 (n (0x120 + 4 * i) 4)), prio := BitVec.ofNat 3 (n 0x3C 1) }

/-- The group that an image gives back, if its VERSION, WIDTH, V, T and A match (R143). `full` also restores tiles and
accumulators: a team that stayed active keeps its own. -/
def Group.ofImage (g : Group) (m : Mem) (full : Bool) : Option Group :=
  let v := g.regs.v.length
  let q0 := memNat m 0 8
  let sz := memNat m 0x38 8
  if bits q0 0 8 != 1 || bits q0 8 7 != g.width || bits sz 0 9 != v || bits sz 16 6 != g.tiles.length || bits sz 24 4 != g.accs.length then none
  else
    let t0 := 0x1000 + vecArea v g.width
    let a0 := t0 + g.tiles.length * 16384
    let blk (o n p : Nat) : Block := { data := memSlice m o n, poison := bit (memNat m p 8) 32, token := BitVec.ofNat 32 (memNat m p 4) }
    let r := g.regs.ofImage m g.width (laneWidth (bit q0 16) g.width) v
    let eng := g.eng.zipIdx.map fun e =>
      let c := memNat m (0x270 + 8 * e.2) 8
      { e.1 with openNum := BitVec.ofNat 32 (memNat m (0x100 + 8 * e.2) 4), closedNum := BitVec.ofNat 32 (memNat m (0x104 + 8 * e.2) 4),
                 cursor := if bit c 63 then none else some (c % 2 ^ 19) }
    some { g with regs := r, undo := r, latches := [], run := none, freads := [], stall := false, lstall := false, shadow := bit q0 16, checked := bit q0 17,
                  user := !bit q0 18, region := Region.ofImage (memNat m 0x20 8), crumbLast := BitVec.ofNat 32 (memNat m 0x28 4), eng := eng,
                  tiles := if full then (List.range g.tiles.length).map (fun i => blk (t0 + i * 16384) 16384 (0x700 + 8 * i)) else g.tiles,
                  accs := if full then (List.range g.accs.length).map (fun i => blk (a0 + i * 65536) 65536 (0x800 + 8 * i)) else g.accs }

end Sys2Proof.Machine
end

