-- ==== Sys2Proof/Machine/Batch.lean ====
section
/-! DEFINITION. Batches of the engines and their records (R114, R118, R119, R216, R310, R386, R421). -/

namespace Sys2Proof.Machine

/-- Number of an engine. -/
def Engine.idx : Engine → Nat
  | .copy => 0 | .matrix => 1 | .network => 2 | .snapshot => 3

/-- A group's engine. -/
def Group.engAt (g : Group) (e : Engine) : EngSt := (g.eng[Engine.idx e]?).getD EngSt.fresh

/-- Change a group's engine. -/
def State.onEng (s : State) (k : Nat) (e : Engine) (f : EngSt → EngSt) : State :=
  s.onGroup k fun g => { g with eng := g.eng.modify (Engine.idx e) f }

/-- Statuses of batch entries that are no cause codes (R119, R310, R386). -/
def stPoisoned : BitVec 8 := 0x20
def stBadShape : BitVec 8 := 0x21
def stAborted : BitVec 8 := 0x22
def stPartial : BitVec 8 := 0x23
def stBadWr : BitVec 8 := 0x30
def stBadPeer : BitVec 8 := 0x31
def stBadCntr : BitVec 8 := 0x32

/-- The 8 bytes of an entry. An operation that has not ended has a zero entry. -/
def OpEnt.bytes (e : OpEnt) : List Byte :=
  if e.done then toBytes 8 (e.status.toNat + e.kind <<< 8 + (e.extra % 65536) <<< 16 + e.token.toNat <<< 32) else toBytes 8 0

/-- The header of a record (R119). -/
def Closed.header (c : Closed) (done : Bool) (ctime : Nat) : List Byte :=
  toBytes 4 c.num.toNat ++
  toBytes 4 (c.ents.length + b2n done <<< 8 + b2n (done && c.ents.any fun e => e.status != 0) <<< 9) ++
  toBytes 8 (if done then ctime % 2 ^ 64 else 0)

/-- What an entry counts: pieces of a copy that failed, wholly or at some replica (R56, R119), or the count that another engine keeps (R421). -/
def EngOp.tally (o : EngOp) : Nat := if o.eng == .copy then (dedup (o.failed.map fun n => n / 65)).length else o.count

/-- Write part of a batch record, on behalf of the group's core (R115). -/
def State.writeRecord (s : State) (k : Nat) (a : Nat) (bs : List Byte) : State :=
  match s.group? k with
  | some g => (s.scratchBytes g.teamKey g.core a bs).1
  | none => s

/-- Complete the closed batches whose operations have all ended, in order (R118). -/
def State.completeBatches (s : State) (k : Nat) (e : Engine) : Nat → State
  | 0 => s
  | n + 1 =>
    match (s.group? k).map fun g => (g.engAt e) with
    | some st =>
      match st.closed with
      | b :: rest =>
        if b.ents.all OpEnt.done then
          let t := b.ents.foldl (fun t o => max t o.ctime) st.ctime
          let s := match b.recAt with
            | some a => s.writeRecord k a (b.header true t)
            | none => s
          let s := s.onEng k e fun st => { st with closed := rest, doneNum := b.num, ctime := t }
          s.completeBatches k e n
        else s
      | [] => s
    | none => s

/-- Batches that a group has closed and that have not completed. -/
def State.settle (s : State) (k : Nat) (e : Engine) : State :=
  s.completeBatches k e ((((s.group? k).map fun g => (g.engAt e).closed.length).getD 0) + 1)

/-- Close the open batch with a record address or without one (R118, R216). -/
def State.closeBatch (s : State) (k : Nat) (e : Engine) (a : Option Nat) : State :=
  match s.group? k with
  | none => s
  | some g =>
    let st := g.engAt e
    let b : Closed := { num := st.openNum, recAt := a, ents := st.ents }
    let s := s.onEng k e fun st => { st with closed := st.closed ++ [b], closedNum := st.openNum, openNum := st.openNum + 1, ents := [] }
    let s := match a with
      | some a => s.writeRecord k a (b.header false 0 ++ b.ents.flatMap OpEnt.bytes ++ List.replicate (240 - 8 * b.ents.length) 0)
      | none => s
    s.settle k e

/-- The implicit close of R118. -/
def State.closeImplicit (s : State) (k : Nat) (e : Engine) : State :=
  match s.group? k with
  | none => s
  | some g =>
    let size := ((s.team? g.teamKey).map Team.scrSize).getD 0
    match (g.engAt e).cursor with
    | some a =>
      if a + 256 ≤ size then (s.onEng k e fun st => { st with cursor := some (a + 256) }).closeBatch k e (some a)
      else (s.onEng k e fun st => { st with cursor := none }).closeBatch k e none
    | none => s.closeBatch k e none

/-- Enter operation `op` in the open batch; a 31st closes it first (R105, R118). -/
def State.enterOp (s : State) (k : Nat) (e : Engine) (op kind : Nat) : State :=
  let full := ((s.group? k).map fun g => (g.engAt e).ents.length).getD 0
  let s := if 30 ≤ full then s.closeImplicit k e else s
  s.onEng k e fun st => { st with ents := st.ents ++ [{ op := op, done := false, status := 0, kind := kind, extra := 0, token := 0, ctime := 0 }] }

/-- An operation's entry is written and its batch may complete (R114, R119). -/
def State.endEntry (s : State) (k : Nat) (e : Engine) (op : Nat) (f : OpEnt → OpEnt) : State :=
  match s.group? k with
  | none => s
  | some g =>
    let upd (l : List OpEnt) : List OpEnt := l.map fun o => if o.op == op then { f o with done := true } else o
    let s := s.onEng k e fun st => { st with ents := upd st.ents, closed := st.closed.map fun b => { b with ents := upd b.ents } }
    let s := (g.engAt e).closed.foldl (fun s b =>
      match b.recAt with
      | some a => (upd b.ents).zipIdx.foldl (fun s o => if o.1.op == op then s.writeRecord k (a + 0x10 + 8 * o.2) o.1.bytes else s) s
      | none => s) s
    s.settle k e

/-- An engine operation leaves: its boxes are released and its entry is written (R114). `record` is false in a killed
context (R117). -/
def State.endOp (s : State) (o : EngOp) (status : BitVec 8) (extra : Nat) (token : BitVec 32) (record : Bool) : State :=
  let s : State := { s with ops := s.ops.filter fun p => p.id != o.id }
  let s := if status == 0 || !record then s else s.countFault 1
  let s := s.onCore o.core fun c => { c with boxes := c.boxes.filter fun b => b.op != o.id }
  if record then s.endEntry o.gkey o.eng o.id fun e => { e with status := status, extra := extra, token := token, ctime := o.ctime }
  else s.onEng o.gkey o.eng fun st => { st with ents := st.ents.map fun e => if e.op == o.id then { e with done := true } else e }

/-- Change an engine operation. -/
def State.onOp (s : State) (id : Nat) (f : EngOp → EngOp) : State :=
  { s with ops := s.ops.map fun o => if o.id == id then f o else o }

def State.op? (s : State) (id : Nat) : Option EngOp := s.ops.find? fun o => o.id == id

/-- Batch `n` of an engine has completed, or was never closed (R120). -/
def EngSt.passed (e : EngSt) (n : BitVec 32) : Bool :=
  let d := (n - e.closedNum).toNat
  (1 ≤ d && d ≤ 2 ^ 31) || !e.closed.any fun b => b.num == n

/-- Largest commit time that a waiter on the engine's completed batches must see. -/
def EngSt.seen (e : EngSt) : Nat := e.ctime

end Sys2Proof.Machine
end

