-- ==== Sys2Proof/Machine/Ending.lean ====
section
/-! DEFINITION. How groups and teams end (R44, R117, R135 to R137, R162, R197, R311, R346, R408), and the register pool. -/

namespace Sys2Proof.Machine

/-- Team statuses (R408). -/
def tsOk : BitVec 8 := 0x00
def tsIllegal : BitVec 8 := 0x40
def tsPriv : BitVec 8 := 0x41
def tsFault : BitVec 8 := 0x42
def tsDeadlock : BitVec 8 := 0x43
def tsAborted : BitVec 8 := 0x44
def tsSdc : BitVec 8 := 0x45
def tsBreak : BitVec 8 := 0x46
def tsKilled : BitVec 8 := 0x47
def tsWithdrawn : BitVec 8 := 0x48

/-! ## The register pool (R135, R136) -/

/-- Vector granules a group holds. -/
def Group.granules (g : Group) : Nat := g.regs.v.length / 8

/-- The team of a group is active. -/
def State.activeTeam (s : State) (k : Nat) : Bool := ((s.team? k).map Team.active).getD false

/-- Its groups may issue: it is active and is not being deactivated (R405, R406). -/
def State.issuing (s : State) (k : Nat) : Bool := ((s.team? k).map fun t => t.active && !t.leaving).getD false

/-- Free blocks of a core (R135). -/
def State.poolFree (s : State) (core : Nat) : Nat :=
  1024 - sumNat ((s.groups.filter fun g => g.alive && g.core == core && s.activeTeam g.teamKey).map fun g => g.granules * (g.width / 16))

/-- Blocks that a claim asks for. -/
def State.claimBlocks (s : State) (c : Claim) : Nat := c.n * (((s.group? c.gkey).map Group.width).getD 16 / 16)

/-- `n` zero granules for a group of width `w` (R131). -/
def zeroGranules (n w : Nat) : List (List VElem) := List.replicate (8 * n) (List.replicate w ⟨0, false⟩)

/-- The claim that a grant chooses: the oldest that fits, but never past one that 64 grants have passed (R136). -/
def State.chooseClaim (s : State) (free : Nat) : List Claim → Option Claim
  | [] => none
  | c :: cs => if s.claimBlocks c ≤ free then some c else if 64 ≤ c.passed then none else s.chooseClaim free cs

/-- Claims of a core that may be granted: those of active teams that are not being deactivated, oldest first. -/
def State.claimsAt (s : State) (core : Nat) : List Claim :=
  (s.claims.filter fun c => c.1 == core && ((s.group? c.2.gkey).map fun g => s.issuing g.teamKey && g.frame.isNone).getD false).map Prod.snd

/-- Grant pending claims of a core while one fits (R136). -/
def State.grantClaims (s : State) (core : Nat) : Nat → State
  | 0 => s
  | n + 1 =>
    match s.chooseClaim (s.poolFree core) (s.claimsAt core) with
    | none => s
    | some c =>
      let older := ((s.claimsAt core).takeWhile fun d => d.gkey != c.gkey).map Claim.gkey
      let s : State := { s with claims := (s.claims.filter fun d => d.2.gkey != c.gkey).map (fun d =>
          if older.contains d.2.gkey then (d.1, { d.2 with passed := d.2.passed + 1 }) else d) }
      let s := s.onGroup c.gkey fun g =>
        let add (r : Regs) : Regs := { r with v := r.v ++ zeroGranules c.n g.width }
        { g with regs := add g.regs, undo := add g.undo, phase := .run }
      s.grantClaims core n

/-- Blocks were freed on a core. -/
def State.freedBlocks (s : State) (core : Nat) : State := s.grantClaims core (s.claims.length + 1)

/-! ## Ending -/

/-- What a group leaves when it stops: no chunk, no queued work, no claim, no watch, no reservation; its registers keep
their last values until its team's record is written. -/
def Group.stopped (g : Group) (clock key : Nat) : Group :=
  { g with chunk := Chunk.empty clock key, regs := { g.regs with laneq := [] }, run := none, freads := [], reserve := none, stall := false,
           lstall := false, frame := none, phase := .ended }

/-- A group ends (R162, R197). Its outstanding atomics still count when they are answered (R377). -/
def State.endGroup (s : State) (k : Nat) : State :=
  match s.group? k with
  | none => s
  | some g0 =>
    let s := s.onGroup k fun g => g.stopped s.clock s.nextKey
    let s : State := { s with claims := s.claims.filter fun c => c.2.gkey != k, watches := s.watches.filter fun w => w.gkey != k,
                              reserved := s.reserved.filter fun r => r.gkey != k,
                              outReqs := s.outReqs.filter fun r => match r.owner, r.q.body with
                                | .load _, .atomic _ _ _ _ => true
                                | .load g, _ => g != k
                                | _, _ => true }
    s.freedBlocks g0.core

/-- An operation ends with ABORTED; a copy first finishes what is in flight to and from other chips. The token and the failed pieces that it has met stay in
its entry (R117, R119). -/
def State.abortOp (s : State) (o : EngOp) : State :=
  if o.eng == .copy && o.out != 0 then s.onOp o.id fun p => { p with status := stAborted, suspended := none } else s.endOp o stAborted o.tally o.token true

/-- The engine operations of an ended team that end with ABORTED: every copy, every matrix operation not started, every
snapshot operation (R117, R311). -/
def State.abortOps (s : State) (tk : Nat) : State :=
  (s.ops.filter fun o => o.teamKey == tk && (match o.eng with
    | .copy => true | .matrix => !o.active && o.suspended.isNone | .network => false | .snapshot => true)).foldl State.abortOp s

/-- The team has ended: it has its status, and none of its groups is left. -/
def State.hasEnded (s : State) (t : Team) : Bool := t.endSt.isSome && (s.groupsOf t.key).all fun g => g.phase == .ended

/-- Teams that hold an admission count and a frame slot: both return when the team ends, which its record may follow later (R197, R398). -/
def State.admittedTeams (s : State) : List Team := s.teams.filter fun t => t.placed && !s.hasEnded t

/-- A team that ends with a fault of its own class is counted (R410). -/
def State.countTeamFault (s : State) (status : BitVec 8) : State :=
  if status == tsOk || status == tsSdc || status == tsKilled then s else s.countFault 2

/-- A team ends with a status that one of its groups set: its groups stop at their next run boundary or control instruction, and its claims go. Only the first
cause is kept (R162, R408). -/
def State.endTeam (s : State) (tk : Nat) (status : BitVec 8) (grp : BitVec 6) (token : BitVec 32) : State :=
  match s.team? tk with
  | none => s
  | some t =>
    if t.endSt.isSome then s
    else
      let s := s.onTeam tk fun t => { t with endSt := some ⟨status, grp, token, s.pts t.core⟩ }
      let s := s.countTeamFault status
      let s := s.mapGroups fun g => if g.teamKey == tk && g.alive then { g with phase := .ending } else g
      let s : State := { s with claims := s.claims.filter fun c => !(s.groupsOf tk).any fun g => g.key == c.2.gkey }
      s.abortOps tk

/-- End the current group's team for its own doing: the group stops at once. -/
def State.endHere (s : State) (status : BitVec 8) (token : BitVec 32) : State :=
  (s.endTeam s.cur.teamKey status s.cur.grp token).endGroup s.cur.key

/-- `ILLEGAL_ENCODING` of R162: a crumb with cause ILLEGAL_OP and both PCs, and the team ends. The open chunk goes with the
group. -/
def State.illegal (s : State) (status : BitVec 8) (lpc : Nat) (lane : Bool) : State :=
  let (s, t) := s.makePoison Cause.illegalOp 0 0 (!lane) lpc
  s.endHere status t

/-- Every team of a context ends (R346, R412). -/
def State.endContext (s : State) (a : BitVec 16) (status : BitVec 8) (grp : BitVec 6) (token : BitVec 32) : State :=
  ((s.teams.filter fun t => t.asid == a && t.endSt.isNone).map Team.key).foldl (fun s k => s.endTeam k status grp token) (s.countFault 3)

/-- Claim deadlock of R137, checked when the current group of an active team blocks; the record names that group (R434). -/
def State.checkDeadlock (s : State) (tk : Nat) : State :=
  let gs := (s.groupsOf tk).filter Group.alive
  let isClaim (g : Group) : Bool := match g.phase with | .parked (.claim _) => true | _ => false
  let isBar (g : Group) : Bool := match g.phase with | .parked (.barrier _ _) => true | _ => false
  let mine := s.claims.filter fun c => gs.any fun g => g.key == c.2.gkey
  if s.activeTeam tk && gs.all (fun g => isClaim g || isBar g) && gs.any isClaim &&
      mine.all (fun c => s.poolFree c.1 < s.claimBlocks c.2) then
    let s := s.endTeam tk tsDeadlock s.cur.grp 0
    gs.foldl (fun s g => s.endGroup g.key) s
  else s

end Sys2Proof.Machine
end

