-- ==== Sys2Proof/Machine/Chunk.lean ====
section
/-! DEFINITION. How a chunk ends (R113, R188, R267, R275 to R277, R324 to R332, R335 to R346, R445): commit, squash, and
TAKING THE STOP OF LIVE POISON, which every instruction shares (`State.takeStop`). -/

namespace Sys2Proof.Machine

/-- What closing a chunk gives: it ended and the next one is open; it must wait; or the group went elsewhere. -/
inductive CloseRes where
  | ok (s : State)
  | wait (s : State)
  | stopped (s : State)

/-! ## Starting and squashing -/

/-- The next chunk of the current group starts here (R324, R326): its undo share is what the registers hold now. -/
def State.newChunk (s : State) : State :=
  s.onCur fun g => { g with undo := g.regs, chunk := Chunk.empty s.clock s.nextKey, faultVa := g.faultVa.map fun f => { f with own := false } }

/-- Reservations of the current group are released (R332). -/
def State.unreserve (s : State) : State := { s with reserved := s.reserved.filter fun r => r.gkey != s.cur.key }

/-- A control stream that waited inside the chunk no longer does (R203). -/
def Phase.dropLoad : Phase → Phase
  | .wait (.rload _ _ _) => .run
  | p => p

/-- `Squash` of R331: the quarantine is discarded and both streams are at the chunk's start again. Crumbs and `CRUMBLAST`
stay; the poison that the chunk made is gone from the registers, and its fault records with it. -/
def State.squash (s : State) : State :=
  s.unreserve.onCur fun g => { g with regs := g.undo, chunk := Chunk.empty s.clock s.nextKey, run := none, latches := [], stall := false, lstall := false,
                                      freads := g.freads.filter FRead.keep, phase := g.phase.dropLoad,
                                      faultVa := g.faultVa.filter fun f => !f.own }

/-- The chunk closes for the sake of the run that stands next (R126, R275, R325). -/
def CloseReason.forRun : CloseReason → Bool
  | .shortfall | .registers | .atomic => true
  | .limit | .forced | .control => false

/-- The chunk has committed (R332, R337, R346). A run that is cut into two chunks has used what its chunk held before it, and goes on after its stop
(R230, R339). A control instruction that waited for the commit acts before a run begins in the next chunk, and knows that its stop has been taken (R189). -/
def State.committed (s : State) : State :=
  let c := s.cur.chunk
  let r := (c.closing.map CloseReason.forRun).getD false
  let k := c.closing == some .control
  s.unreserve.newChunk.onCur fun g => { g with squashes := 0, reserve := none, replays := 0, mism := 0,
                                               chunk := { g.chunk with forRun := r, hold := k, stop := k && c.stop },
                                               run := g.run.map fun x => { x with q0 := 0, ctl := 0, stop := false } }

/-! ## Applying a committed chunk (R329) -/

/-- `wts` and `rts` of a line at its arbiter. -/
def State.idTimes (s : State) : LineId → Nat × Nat
  | .mem l => s.times l
  | .scr t l => ((s.team? t).map fun t => t.lineTimes l).getD (0, 0)
  | _ => (0, 0)

/-- Raise the `rts` of a line to `t`. -/
def State.raiseRts (s : State) (id : LineId) (t : Nat) : State :=
  match id with
  | .mem l =>
    let (w, r) := s.times l
    match s.bank? l with
    | some b => s.putBank { b with wts := w, rts := max r t }
    | none => if isPool l then s else s.setSlice l w (max r t)
  | .scr k l => s.onTeam k fun x => let (w, r) := x.lineTimes l; x.setTimes l w (max r t)
  | _ => s

/-- The tag under which the copy of a committed write stays: the bits of the tag or translation that the write used (R39, R92). -/
def QEntry.tag (q : QEntry) (asid : BitVec 16) (l : Nat) : L1Line :=
  { asid := asid, vline := q.va.toNat % 2 ^ 57 / 128, r := q.r, w := q.w, u := q.u, hint := q.hint, line := l, vc := q.vc, st := .v, data := [],
    token := 0, wts := 0, rts := 0, fn := 0, ty := .n32, parts := [] }

/-- Contents of a line after a write, in the committing core's L1 (R92, R93): a copy that is there takes them, else one appears. -/
def State.ownCopy (s : State) (q : QEntry) (l t : Nat) : State :=
  if q.vc == 255 && !isPool l then s
  else
    let g := s.cur
    let (s, c) := s.lookAt l
    let tag := ((s.coreAt g.core).l1.find? fun x => x.line == l).getD (q.tag g.sysr.asid l)
    s.l1Put g.core { tag with st := if c.x.isSome then .x else .v, data := c.data, token := c.x.getD 0, wts := t, rts := t, parts := [] }

/-- The crumb of a reduction that reached a poisoned line or word (R277). -/
def State.redCrumb (s : State) (tok : BitVec 32) (ops : List QOp) (lpc : BitVec 20) : State :=
  let reds := ops.filterMap fun o => match o with | .red _ _ _ _ lane ea _ => some (lane, ea) | .st _ | .stx _ _ _ _ _ => none
  match reds with
  | [] => s
  | r :: rs =>
    let low := rs.foldl (fun a b => if b.1 < a.1 then b else a) r
    (s.makePoison (tokenCause tok) low.2.toNat low.1 false lpc.toNat).1

/-- Apply the operations of one memory line in program order at time `t`: the token of a poisoned line that a reduction
met. -/
def State.applyOps (s : State) (l v : Nat) (t : Nat) : List QOp → State × Option (BitVec 32)
  | [] => (s, none)
  | .st bs :: os => (s.writePlace l v bs none t).applyOps l v t os
  | .stx bs _ _ _ _ :: os => (s.writePlace l v bs none t).applyOps l v t os
  | .red fn ty off x _ _ _ :: os =>
    let (s, k) := s.reduceAt l v fn ty [(off, x.toNat)] t
    let (s, k') := s.applyOps l v t os
    (s, k <|> k')

/-- The entry of a scratch line: stores and reductions in program order (R124, R277). -/
def Team.applyScratch (x : Team) (l : Nat) : List QOp → Team × Option (BitVec 32)
  | [] => (x, none)
  | .st bs :: os => (x.putBytes (bs.map fun c => (l * 128 + c.1, c.2))).applyScratch l os
  | .stx _ _ _ _ _ :: os => x.applyScratch l os
  | .red fn ty off v _ _ _ :: os =>
    let a := l * 128 + off
    match x.wordToken (a / 8) with
    | some k => let (x, k') := x.applyScratch l os; (x, some k <|> k')
    | none =>
      let n := atomOp fn.toNat ty (memNat x.scratch a (tyBytes ty)) v.toNat 0
      (x.putBytes (cellsAt a (toBytes (tyBytes ty) n))).applyScratch l os

/-- The stores of one chunk commit together: a poisoned word of line `l` that they cover whole is clean before the entry applies (R124). -/
def Team.healWords (x : Team) (l : Nat) (bs : Mem) : Team :=
  let at_ : Mem := bs.map fun c => (l * 128 + c.1, c.2)
  x.putBytes (at_.filter fun c => (x.wordToken (c.1 / 8)).isSome && cellsCover at_ (c.1 / 8 * 8) 8)

/-! ## What leaves for other chips at a commit (R14, R54, R277) -/

/-- A reduction message, with its lowest lane and that lane's address. -/
structure RedMsg where
  fn : BitVec 4
  ty : Ty
  seq : Nat
  lane : Nat
  ea : BitVec 64
  els : List (Nat × BitVec 64)
  deriving DecidableEq, Repr

/-- Element reductions leave one by one, the lanes of one line form together (R277, R365). -/
def groupReds : List QOp → List RedMsg
  | [] => []
  | .st _ :: os => groupReds os
  | .stx _ _ _ _ _ :: os => groupReds os
  | .red fn ty off v lane ea seq :: os =>
    match groupReds os with
    | m :: rest =>
      if 8 ≤ fn.toNat && fn == m.fn && ty == m.ty && seq == m.seq then ⟨fn, ty, seq, lane, ea, (off, v) :: m.els⟩ :: rest
      else ⟨fn, ty, seq, lane, ea, [(off, v)]⟩ :: m :: rest
    | [] => [⟨fn, ty, seq, lane, ea, [(off, v)]⟩]

/-- The number of the instruction that a reduction belongs to. -/
def QOp.seqOf : QOp → Option Nat
  | .red _ _ _ _ _ _ n => some n
  | .st _ | .stx _ _ _ _ _ => none

/-- Operations in program order, the reductions of one instruction together. -/
def bySeq : List QOp → List (List QOp)
  | [] => []
  | o :: os =>
    match bySeq os with
    | (p :: ps) :: rest => if o.seqOf.isSome && o.seqOf == p.seqOf then (o :: p :: ps) :: rest else [o] :: (p :: ps) :: rest
    | rest => [o] :: rest

/-- A reduction message leaves for a remote line. -/
def State.sendRed (s : State) (chip : BitVec 8) (win : BitVec 12) (line : Nat) (lpc : BitVec 20) (m : RedMsg) : State :=
  let g := s.cur
  s.sendWrite (.red g.key win g.sysr.asid m.lane m.ea lpc) g.sysr.asid (s.gangKey g chip) chip win false (line * 128) (.red m.fn m.ty m.els)

/-- Operations of one instruction on a remote line leave the core: a store for the write-combining buffer, reductions after what the buffer holds for
the line (R14, R277, R373). -/
def State.sendOps (s : State) (chip : BitVec 8) (win : BitVec 12) (line : Nat) (lpc : BitVec 20) : List QOp → State
  | [.st bs] => s.wcbStore s.cur.core s.cur.key s.cur.sysr.asid (s.gangKey s.cur chip) chip win line bs
  | os => (groupReds os).foldl (fun s m => s.sendRed chip win line lpc m) (s.drainKey s.cur.core s.cur.sysr.asid chip win line)

/-- A line of a remote replica. -/
structure RepLine where
  chip : BitVec 8
  win : BitVec 12
  vline : Nat
  deriving DecidableEq, Repr

/-- The lines of remote replicas that an `STX` store goes to. -/
def QOp.repLines : QOp → List RepLine
  | .stx _ _ w v reps => reps.map fun c => ⟨c, w, v⟩
  | .st _ | .red _ _ _ _ _ _ _ => []

/-- Put the `STX` stores of an entry together: for each line of a replica the bytes it takes, in program order, and the handles they were resolved
through (R54). -/
def mergeStx (ops : List QOp) : List (RepLine × Mem × List (BitVec 16)) :=
  (dedup (ops.flatMap QOp.repLines)).map fun k =>
    let xs := ops.filterMap fun o => match o with | .stx b h _ _ _ => if o.repLines.contains k then some (b, h) else none | .st _ | .red _ _ _ _ _ _ _ => none
    (k, xs.foldl (fun m x => overlay m x.1) [], dedup (xs.map Prod.snd))

/-- Puts of the bytes of `STX` stores to their remote replicas, at the elements' addresses, one put a line of a replica (R54, R358). -/
def State.sendReplicas (s : State) (ops : List QOp) : State :=
  let g := s.cur
  (mergeStx ops).foldl (fun s (k, bs, hs) =>
    s.sendWrite (.write [g.key] k.win g.sysr.asid) g.sysr.asid (s.gangKey g k.chip) k.chip k.win true (k.vline * 128) (.put bs none) hs) s

/-! ## Applying an entry (R329) -/

/-- The entry holds nothing but reductions that form or extend a U copy (R99, R329). -/
def QEntry.forU (q : QEntry) : Bool :=
  match q.line with
  | .mem l => !isPool l && q.vc != 255 && !q.ops.isEmpty && q.ops.all fun o => o.seqOf.isSome
  | _ => false

/-- Reductions of the current group's chunk reach a line of a cache VC (R99, R277). -/
def State.applyU (s : State) (q : QEntry) (l t : Nat) : State :=
  let s := (s.countRmw l q.vc).allocU l q.vc
  match (s.bank? l).map BLine.view with
  | some ⟨_, some k⟩ => s.redCrumb k q.ops q.lpc
  | _ =>
    let g := s.cur
    (q.ops.foldl (fun s o => match o with
      | .red fn ty off v _ _ _ => s.redU g.core (q.tag g.sysr.asid l) (fn % 8) ty off v t
      | .st _ | .stx _ _ _ _ _ => s) s).redWatched l

/-- Apply one clean entry at commit time `t`. The stores of a chunk commit together, so stores that cover a poisoned line whole first make it
clean (R24). -/
def State.applyEntry (s : State) (q : QEntry) (t : Nat) : State :=
  match q.line with
  | .mem l =>
    if q.forU then s.applyU q l t
    else
      let s := if q.ops.any fun o => o.seqOf.isSome then s.countRmw l q.vc else s.countWrite l q.vc
      let s := if cellsCover q.stored 0 128 && (s.lineX l).isSome then s.writePlace l q.vc q.stored none t else s
      let (s, k) := s.applyOps l q.vc t q.ops
      let s := match k with | some k => s.redCrumb k q.ops q.lpc | none => s
      (s.ownCopy q l t).sendReplicas q.ops
  | .scr tk l =>
    match s.team? tk with
    | none => s
    | some x =>
      let (x, k) := (x.healWords l q.stored).applyScratch l q.ops
      let s := s.onTeam tk fun _ => x.setTimes l t t
      match k with | some k => s.redCrumb k q.ops q.lpc | none => s
  | .rem chip win line => (bySeq q.ops).foldl (fun s os => s.sendOps chip win line q.lpc os) s
  | .shd _ _ _ => s.sendReplicas q.ops

/-- R113: the chunk read a line that a later box now writes, or wrote a line that a later box covers. -/
def State.boxClash (s : State) : Bool :=
  let c := s.cur.chunk
  let boxes := (s.teamBoxes s.team s.cur.core).filter fun b => decide (c.key0 ≤ b.op)
  let at? (id : LineId) (va : BitVec 64) : Option (Nat × Nat) :=
    match id with
    | .mem _ => some (1, va.toNat / 128 * 128)
    | .scr _ l => some (0, l * 128)
    | _ => none
  let hit (write : Bool) (id : LineId) (va : BitVec 64) : Bool :=
    match at? id va with
    | some (sp, a) => boxes.any fun b => b.space == sp && (write || b.dest) && b.touches a 128
    | none => false
  !boxes.isEmpty && (c.reads.any (fun r => hit false r.line r.va) || c.quar.any (fun q => hit true q.line q.va))

/-- R414: the chunk holds a line homed on a lost die. -/
def State.lostClash (s : State) : Bool :=
  let bad (id : LineId) : Bool := match id with | .mem l => s.lost l | _ => false
  !s.lostDies.isEmpty && (s.cur.chunk.reads.any (fun r => bad r.line) || s.cur.chunk.quar.any fun q => bad q.line && q.poison.isNone)

/-- The core of the current group forgets its copies of the lost lines that the chunk names, so that the re-execution meets DIE_LOST (R331, R414, R415). -/
def State.forgetLost (s : State) : State :=
  let c := s.cur.chunk
  let ls := (c.reads.map ReadRec.line ++ c.quar.map QEntry.line).filterMap fun id => match id with | .mem l => if s.lost l then some l else none | _ => none
  if ls.isEmpty then s else s.onCore s.cur.core fun k => { k with l1 := k.l1.filter fun x => !ls.contains x.line }

/-- Age of a reservation: its start time, then die, core and group (R332). -/
def Group.ageKey (g : Group) (start : Nat) : Nat := ((start * 256 + g.core) * 64 + g.grp.toNat) * 2 ^ 64 + g.key

/-- The age of the oldest reservation that keeps the current group's chunk out of arbiter `arb`, or out of any (R332). -/
def State.blockedBy (s : State) (arb : Option Nat) : Option Nat :=
  let age (r : Resv) : Nat := ((s.group? r.gkey).getD s.cur).ageKey r.start
  match s.keptBy s.cur arb with
  | [] => none
  | r :: rest => some (minNat (age r) (rest.map age))

/-- Arbiters of a chunk by ascending rank: scratch arbiters below every slice (R328). -/
def State.arbiters (s : State) (c : Chunk) : List Nat :=
  sortBy id (dedup ((c.reads.filterMap fun r => s.arbiterOf r.line) ++ (c.quar.filterMap fun q => s.arbiterOf q.line)))

/-- A chunk of another group that some arbiter has admitted conflicts with the current group's chunk. -/
def State.admittedClash (s : State) (arb : Option Nat) : Bool :=
  s.rest.any fun h => h.chunk.committing && !h.chunk.got.isEmpty && s.cur.chunk.conflicts h.chunk &&
    match arb with | some a => h.chunk.got.contains a | none => true

/-- A chunk that reached arbiter `a` before number `n` waits there still (R329: first come, first admitted). -/
def State.queuedBefore (s : State) (a n : Nat) : Bool := s.rest.any fun h => s.waitsAt a h && decide (h.chunk.arrive < n)

/-- The chunk has come to the next of its arbiters: it takes its place in the FIFO there. -/
def State.arriveNext (s : State) : State :=
  ({ s with nextKey := s.nextKey + 1 } : State).onChunk fun c => { c with arrive := s.nextKey }

/-- What a chunk's commit must find whole: the lines it reads are folded, and so are the lines it writes otherwise than by reductions alone, which also
leave the bank store under a read-only policy (R72, R89, R100). -/
def State.settleChunk (s : State) : State :=
  let c := s.cur.chunk
  let s := c.reads.foldl (fun s r => match r.line with | .mem l => s.fold l | _ => s) s
  c.quar.foldl (fun s q => match q.line with | .mem l => if q.forU then s else s.settleLine l q.vc | _ => s) s

/-- Validation, the choice of `cts` and the writes of R329, all arbiters held. -/
def State.commitNow (s : State) : CloseRes :=
  let g := s.cur
  let c := g.chunk
  if c.reads.isEmpty && c.quar.isEmpty then .ok s.committed
  else if s.boxClash || s.lostClash then .stopped s.forgetLost.squash
  else
    let s := s.settleChunk
    let bad := c.reads.filter fun r => (s.idTimes r.line).1 != r.wts
    if !bad.isEmpty then
      let s := bad.foldl (fun s r => match r.line with | .mem l => s.onCore g.core fun k => { k with l1 := k.l1.filter fun y => y.line != l || y.st == .u } | _ => s) s
      let n := g.squashes + 1
      .stopped (s.squash.onCur fun g => { g with squashes := n, reserve := if 8 ≤ n then (g.reserve <|> some s.clock) else g.reserve })
    else
      let cts := maxNat ([s.pts g.core + 1] ++ c.quar.map (fun q => (s.idTimes q.line).2 + 1) ++ c.reads.map fun r => (s.idTimes r.line).1)
      let s := c.reads.foldl (fun s r => s.raiseRts r.line cts) s
      let s := c.quar.foldl (fun s q => s.applyEntry q cts) s
      .ok (s.raisePts g.core cts).committed

/-- Something stands against the current group's chunk at one of its arbiters: a reservation, a chunk that is admitted or one that waits there
(R329, R332). -/
def State.mustWait (s : State) : Bool :=
  (s.blockedBy none).isSome || s.admittedClash none || (s.arbiters s.cur.chunk).any fun a => s.queuedBefore a s.nextKey

/-- The chunk goes to its arbiters, one after another by ascending rank, and takes its place at the first (R329). -/
def State.queueCommit (s : State) : State :=
  (s.onChunk fun c => { c with committing := true, pend := s.arbiters c, got := [] }).arriveNext

/-- Commit of a closed chunk without live poison: at once where nothing stands against it at any of its arbiters, else it takes its place in their FIFOs
(R327, R329, R332). -/
def State.commitChunk (s : State) : CloseRes :=
  if s.mustWait then .wait s.queueCommit else s.commitNow

/-! ## Stops (R335 to R340, R407) -/

/-- `Mix` of R341. -/
def mix (sg : BitVec 64) (v : BitVec 64) : BitVec 64 := 0x00000100000001B3#64 * (sg.rotateLeft 7 ^^^ v)

/-- Enter a value in `SIGR`; in checked mode it is unchecked until a check passes (R341, R343). -/
def Regs.mixSig (r : Regs) (v : BitVec 64) : Regs := { r with sigr := mix r.sigr v, unchecked := true }

/-- A taken branch to `target` (R341). -/
def takenEvent (target : BitVec 64) : BitVec 64 := 0x02#8 ++ 0#1 ++ target.extractLsb' 2 55

/-- Fold finished blocks into `SIGR` in queue order; folds leave nothing unchecked (R341, R342). -/
def Regs.foldSigs (r : Regs) : Regs :=
  { r with sigr := r.finished.foldl (fun g b => mix g (0x05#8 ++ b.extractLsb' 0 56)) r.sigr, finished := [] }

/-- Control word index that means no label (R144). -/
def noLabel : BitVec 32 := 0xFFFFFFFF

/-- `REGION` at the launch default (R207, R336). -/
def Group.defaultRegion (g : Group) : Region := ⟨g.dflt, false, noLabel⟩

/-- An unchecked event exists in `SIGR` or in the running block's signature (R344). -/
def Group.anyUnchecked (g : Group) : Bool :=
  g.checked && (g.regs.unchecked || (match g.regs.current with | some b => b.unchecked | none => false))

/-- SIG_GAP poison, with a crumb at address 0 (R340, R344). -/
def State.sigGap (s : State) : State :=
  let (s, t) := s.ctrlPoison Cause.sigGap 0
  s.goLive (s.failedAt .control none t)

/-- The lane queue that a RECOVER leaves: the block that has begun, past the run that the stop cut short (R230, R338, log 18). -/
def Group.begunBlock (g : Group) : List LBlock :=
  match g.regs.laneq, g.run with
  | b :: _, some r => if b.left ≤ 1 then [] else [{ b with left := b.left - 1, lpc := r.after }]
  | b :: _, none => if b.begun then [b] else []
  | [], _ => []

/-- `RECOVER_TRANSFER` of R338. -/
def State.recover (s : State) : State :=
  let g := s.cur
  let c := g.chunk
  let lanes := c.live.foldl (fun m l => match l.lane with | some i => m ||| BitVec.twoPow 64 i | none => m ||| g.regs.exm) 0#64
  let target := g.cbase + (g.region.label.setWidth 64 <<< 2)
  let regs := { g.regs with p := g.regs.p.modify 15 (fun p => { p with bits := lanes, pois := 0 }), laneq := g.begunBlock, sigr := g.undo.sigr,
                            unchecked := g.undo.unchecked, finished := g.undo.finished, cpc := target }
  let s := s.onCur fun g => { g with regs := regs.mixSig (takenEvent target), region := g.defaultRegion, run := none,
                                     freads := g.freads.filter FRead.keep, latches := [], stall := false, lstall := false, squashes := 0,
                                     reserve := none, replays := 0, mism := 0, phase := g.phase.dropLoad }
  s.unreserve.newChunk

/-- What a save of the group waits for: its matrix operations (R311), and atomics of a committed chunk that have not answered (R275). -/
def State.matrixBusy (s : State) (k : Nat) : Bool :=
  (s.ops.any fun o => o.gkey == k && o.eng == .matrix && o.suspended.isNone) || ((s.group? k).map fun g => g.freads.any FRead.keep).getD false

/-- The faults that a live poison stands for (R337): that of the access itself; else those that its token names among the group's, of the open chunk
before older ones, or else among those of the context's groups whose token it carries on. Where no record is left there is none (log 87). -/
def State.faultsOf (s : State) (l : Live) : List FaultRec :=
  let of (g : Group) : List FaultRec := g.faultVa.filter fun f => f.token == l.token
  match l.fault with
  | some f => [f]
  | none =>
    match (of s.cur).filter FaultRec.own, of s.cur with
    | [], [] => (s.rest.filter fun g => g.sysr.asid == s.cur.sysr.asid).flatMap of
    | [], fs => fs
    | fs, _ => fs

/-- What service one live fault needs under REPLAY (R337): system software, a migration of a page, or the batches of the
operations that hold a lock. -/
def State.serviceOf (s : State) (f : FaultRec) : State × Bool × List (BitVec 64) × List Nat :=
  let g := s.cur
  if tokenCause f.token == Cause.rangeLocked then (s, false, [], f.ops)
  else match s.walk g.xl f.va.toNat with
    | (s, .miss true) => (s.askPromotion g.xl f.va.toNat, false, [f.va], [])
    | (s, .miss false) => ((s.emit (.service (tokenCause f.token) f.va g.key)), true, [], [])
    | (s, _) => (s, false, [], [])

/-- `REPLAY_SAVE` of R337 and R407: squash, a frame of REASON 2, the services. -/
def State.replaySave (s : State) : State :=
  let c := s.cur.chunk
  let first := c.firstLive
  let faults := dedup (c.live.flatMap s.faultsOf)
  let (s, sys, vas, ops) := faults.foldl (fun (r : State × Bool × List (BitVec 64) × List Nat) f =>
    let (s, b, v, o) := r.1.serviceOf f
    (s, r.2.1 || b, r.2.2.1 ++ v, r.2.2.2 ++ o)) (s, false, [], [])
  let s := s.squash.saveFrame 2 first
  s.onCur fun g => { g with replays := g.replays + 1, phase := .parked (.replay sys vas ops) }

/-- Live poison acts under the region's policy (R336 to R340). Under DROP the clean entries commit, and in checked mode only if no event is
unchecked: else SIG_GAP joins the live poison (R344, R346). -/
def State.takeStop (s : State) : CloseRes :=
  let gapIn (c : Chunk) : Bool := c.live.any fun l => tokenCause l.token == Cause.sigGap
  let s := if s.cur.region.pol == .drop && s.cur.anyUnchecked && !gapIn s.cur.chunk then s.sigGap else s
  let g := s.cur
  let c := g.chunk
  let tok := c.firstLive
  let gap := gapIn c
  if gap && g.region.pol != .recover then .stopped (s.endHere tsFault tok)
  else match g.region.pol with
    | .recover => .stopped s.recover
    | .drop => (s.onChunk fun c => { c with live := [], quar := c.quar.filter fun q => q.poison.isNone }).commitChunk
    | .replay =>
      if g.replays < 16 && c.live.all (fun l => tokenCause l.token == Cause.pageMiss || tokenCause l.token == Cause.rangeLocked) then
        (if s.matrixBusy g.key then .wait s else .stopped s.replaySave)
      else if g.region.label != noLabel then .stopped s.recover
      else .stopped (s.endHere tsFault tok)

/-- The open chunk of the current group closes at a run boundary. -/
def State.closeChunk (s : State) : CloseRes := if s.cur.chunk.live.isEmpty then s.commitChunk else s.takeStop

/-- A signature or shadow mismatch (R346): the first squashes the chunk, the second ends the context's teams. -/
def State.mismatch (s : State) (lpc : Nat) : State :=
  let g := s.cur
  if g.mism == 0 then s.squash.onCur fun g => { g with mism := 1 }
  else
    let s := s.emit (.note 2 (g.key + 2 ^ 64 * (g.cpcw + 2 ^ 32 * lpc)))
    (s.endContext s.team.asid tsSdc g.grp 0).endGroup g.key

/-! ## Limits (R324) -/

/-- Distinct lines written and read. -/
def Chunk.nw (c : Chunk) : Nat := c.quar.length
def Chunk.nr (c : Chunk) : Nat := c.reads.length

/-- A limit of R324 holds, or reservation mode asks for a close at the first run boundary (R332). -/
def State.atLimit (s : State) : Bool :=
  let g := s.cur
  let c := g.chunk
  40 ≤ c.nw || 232 ≤ c.nr || 512 ≤ c.nlane || 32 ≤ c.vw.length || (c.begun && decide (Config.chunkClocks ≤ s.clock - c.clock0)) ||
  (g.reserve.isSome && c.nlane != 0)

/-- The open chunk has done nothing: to close it would change nothing. -/
def Group.pristine (g : Group) : Bool := g.chunk.reads.isEmpty && g.chunk.quar.isEmpty && g.chunk.nlane == 0 && decide (g.regs = g.undo)

/-- Free quarantine entries of a core: a run holds what it has reserved, used or not, beside what its group's control stream makes meanwhile (R126). -/
def State.quarFree (s : State) (core : Nat) : Nat :=
  1024 - sumNat ((s.groups.filter fun g => g.core == core).map fun g => max g.chunk.quar.length ((g.run.map fun r => r.q0 + r.ctl + r.resv).getD 0))

end Sys2Proof.Machine
end

