-- ==== Sys2Proof/Machine/Ops.lean ====
section
/-! DEFINITION. Shared operations of the control stream (R188 to R192): uniforms, program counter, stalls, closing, TAKING
THE EXCEPTION of live poison at an instruction (`State.stopHere`, `State.takeStop`) and of an illegal one (`State.illegal`),
and THE RETURN from a saved frame (`State.resumeFrame`). -/

namespace Sys2Proof.Machine

/-! ## Registers and program counter -/

/-- A uniform of the current group. -/
def State.wreg (s : State) (r : BitVec 6) : UElem := (s.cur.regs.w[r.toNat]?).getD ⟨0, false⟩

/-- Write a uniform. -/
def State.setW (s : State) (r : BitVec 6) (e : UElem) : State := s.onRegs fun g => { g with w := g.w.set r.toNat e }

/-- A clean uniform value. -/
def State.setVal (s : State) (r : BitVec 6) (v : BitVec 64) : State := s.setW r ⟨v, false⟩

/-- A poisoned uniform holds its token in [31:0] (R130). -/
def tokElem (t : BitVec 32) : UElem := ⟨t.setWidth 64, true⟩

/-- Token of a poisoned uniform. -/
def UElem.token (e : UElem) : BitVec 32 := e.val.setWidth 32

/-- Write a uniform of group `k` in its registers and in its chunk-start copy: the answer of a command (R405). -/
def State.answerW (s : State) (k : Nat) (r : BitVec 6) (e : UElem) : State :=
  s.onGroup k fun g => { g with regs := { g.regs with w := g.regs.w.set r.toNat e }, undo := { g.undo with w := g.undo.w.set r.toNat e } }

/-- The command of group `k` is answered: the stream goes on, and `d` takes the answer, at once or, where the group stands in its frame, when that is
restored (R400, R405). -/
def State.answerCmd (s : State) (k : Nat) (d : BitVec 6) (e : UElem) : State :=
  if ((s.group? k).map fun g => g.frame.isSome).getD false then s.onGroup k fun g => { g with phase := .wait (.got d e) }
  else (s.answerW k d e).onGroup k fun g => { g with phase := .run }

/-- A control address: bits [56:2] (R141, R146, R193). -/
def pcOf (v : BitVec 64) : BitVec 64 := v &&& 0x01FFFFFFFFFFFFFC#64

/-- The control PC. -/
def State.pc (s : State) : BitVec 64 := s.cur.regs.cpc

/-- Continue at an address. -/
def State.goto (s : State) (a : BitVec 64) : State := s.onRegs fun r => { r with cpc := pcOf a }

/-- Continue at the next word. -/
def State.advance (s : State) : State := s.goto (s.pc + 4)

/-- pc + 4 × a sign-extended offset (R148). -/
def State.target {n : Nat} (s : State) (o : BitVec n) : BitVec 64 := pcOf (s.pc + (o.signExtend 64 <<< 2))

/-- The control stream waits and tries the same word again (R405). -/
def State.stalled (s : State) : State := s.onCur fun g => { g with stall := true }

/-- The same, and the lane stream begins no run meanwhile (R189). -/
def State.held (s : State) : State := s.stalled.onChunk fun c => { c with hold := true }

/-- The instruction is done; it leaves the chunk open. -/
def State.done (s : State) : Ans := .next s.advance

/-- The instruction is done after a commit: the next chunk starts at the next word. -/
def State.doneNew (s : State) : Ans := .next s.advance.newChunk

/-! ## Interlocks (R191) -/

/-- A queued or running lane instruction will write the uniform. -/
def Group.awaits (g : Group) (r : BitVec 6) : Bool := g.regs.laneq.any fun b => b.dests.contains r

/-- Run `f` unless a uniform it reads or writes awaits a lane write. -/
def State.interlock (s : State) (rs : List (BitVec 6)) (f : Ans) : Ans := if rs.any s.cur.awaits then .next s.stalled else f

/-! ## Live poison at a control instruction (R190, R335) -/

/-- The chunk closes for the instruction at hand, which is tried again and waits while it commits (R189). -/
def State.closesHere (s : State) : State := s.held.onChunk fun c => { c with closing := some .control }

/-- The chunk stops at this instruction with poison that `mk` makes live. Under DROP `dropped` says what the instruction then
does before the stream continues at the next word. The lane queue is not drained for it (R190, log 100). -/
def State.stopHere (s : State) (mk : State → State) (dropped : State → State) : Ans :=
  if s.cur.inRun then .next s.held
  else if s.cur.region.pol == .replay && s.matrixBusy s.cur.key then .next s.held
  else
    let s := if s.cur.chunk.stop then s else (mk s).onChunk fun c => { c with stop := true }
    match s.takeStop with
    | .ok t => (dropped t).doneNew
    | .wait t => .next t.closesHere
    | .stopped t => .next t

/-- A token becomes live in the control stream. -/
def State.liveControl (s : State) (t : BitVec 32) : State := s.goLive (carried .control none t)

/-- The uniform that the instruction would have written takes the live token (R190). -/
def State.poisonDest (s : State) (d : Option (BitVec 6)) (t : BitVec 32) : State :=
  match d with | some r => s.setW r (tokElem t) | none => s

/-- Decision operands (R190): the first poisoned one, in the order given, is live and the instruction has no other effect;
otherwise `f`. -/
def State.deciding (s : State) (rs : List (BitVec 6)) (dest : Option (BitVec 6)) (f : Ans) : Ans :=
  s.interlock (rs ++ dest.toList)
    (match rs.find? fun r => (s.wreg r).poison with
     | some r => let t := (s.wreg r).token; s.stopHere (fun s => s.liveControl t) (fun s => s.poisonDest dest t)
     | none => f)

/-- A closing instruction (R189): the run boundary or the drain, the folds of R342, the check of R344, the commit, then `act` in
the state after the commit. -/
def State.closing (s : State) (drain : Bool) (act : State → Ans) : Ans :=
  let g := s.cur
  let drain := drain || g.checked
  if g.inRun && !drain then .next s.held
  else if g.inRun || (drain && !g.regs.laneq.isEmpty) then .next s.stalled
  else
    let s := if drain then s.onRegs Regs.foldSigs else s
    if s.cur.anyUnchecked then s.stopHere State.sigGap id
    else match s.closeChunk with
      | .ok t => act t
      | .wait t => .next t.closesHere
      | .stopped t => .next t

/-- After the commit a poison is live at the instruction, and the policy acts; under DROP the uniform that it would have written takes the token (R190).
The chunk that stops is the next one, which holds nothing else. -/
def State.failWith (s : State) (l : Live) (dest : Option (BitVec 6)) : Ans :=
  match (s.goLive l).takeStop with
  | .ok u => (u.poisonDest dest l.token).doneNew
  | .wait u => .next u.held
  | .stopped u => .next u

/-- The same for the token of a source: the uniform `d` takes it before the policy acts (R77, R84). -/
def State.failToken (s : State) (t : BitVec 32) (d : BitVec 6) : Ans := (s.setW d (tokElem t)).failWith (carried .control none t) none

/-- After the commit the instruction found a failure that is live, with a fresh crumb (R209, R216, R218, R223). -/
def State.failLive (s : State) (c : Cause) (va : Nat) (dest : Option (BitVec 6)) : Ans :=
  let (s, t) := s.ctrlPoison c va
  s.failWith (s.failedAt .control none t) dest

/-! ## Returning (R143, R199, R407) -/

/-- The group returns from its saved frame and goes on. `full` when its team was inactive. A frame that does not match ends the
team (R143). -/
def State.resumeFrame (s : State) (full : Bool) : State :=
  let g := s.cur
  match g.frame with
  | none => s.onCur fun g => { g with phase := .run }
  | some a =>
    let (s, m, x) := s.readImage a g.frameSize
    match if x then none else s.cur.ofImage m full with
    | none => s.endHere tsFault 0
    | some h =>
      let s := (s.onCur fun _ => { h with frame := none, reason := 0 }).raisePts h.core (memNat m 0x18 8)
      (s.onCur fun g => { g with phase := .run }).newChunk

/-! ## Fetching (R44, R146) -/

/-- Bytes of one word of code at a virtual address: translation with kind execute, then the line at its home. -/
def State.fetchBytes (s : State) (va : BitVec 64) : State × Except Cause (List Byte) :=
  match s.translate s.cur.xl va.toNat .execute with
  | (s, .error c) => (s, .error c)
  | (s, .ok p) =>
    match s.peekBytes p.pa 4 (some p.vc) with
    | (s, _, some t) => (s, .error (tokenCause t))
    | (s, bs, none) => (s, .ok bs)

/-- The control word at an address. -/
def State.fetchControl (s : State) (va : BitVec 64) : State × Except Cause (BitVec 32) :=
  match s.fetchBytes va with
  | (s, .error c) => (s, .error c)
  | (s, .ok bs) => (s, .ok (BitVec.ofNat 32 (leNat bs)))

/-- Byte address of lane word `i` (R146). The index has 20 bits: word 0 follows word 2^20 - 1 (log 88). -/
def Group.laneAddr (g : Group) (i : Nat) : BitVec 64 := g.lbase + BitVec.ofNat 64 (4 * (i % 2 ^ 20))

/-- The three words of a lane instruction at lane word `i`, the first highest, and its modifier word if it has one
(R146, R153). -/
def State.fetchLane (s : State) (i : Nat) : State × Except Cause (BitVec 96 × BitVec 32) :=
  let word (s : State) (k : Nat) : State × Except Cause (BitVec 32) := s.fetchControl (s.cur.laneAddr (i + k))
  match word s 0 with
  | (s, .error c) => (s, .error c)
  | (s, .ok a) =>
    match word s 1 with
    | (s, .error c) => (s, .error c)
    | (s, .ok b) =>
      match word s 2 with
      | (s, .error c) => (s, .error c)
      | (s, .ok d) =>
        let w : BitVec 96 := a ++ b ++ d
        if laneHasMods w then
          match word s 3 with
          | (s, .error c) => (s, .error c)
          | (s, .ok m) => (s, .ok (w, m))
        else (s, .ok (w, 0))

/-- `INSTRUCTION_FETCH_FAULT` (R44): a page miss parks the group for its service, anything else ends the team with FAULT. -/
def State.fetchFault (s : State) (c : Cause) (va : BitVec 64) (lane : Bool) (lpc : Nat) : State :=
  let (s, t) := s.makePoison c va.toNat 0 (!lane) lpc
  if c == Cause.pageMiss then
    match s.walk s.cur.xl va.toNat with
    | (s, .miss true) => (s.askPromotion s.cur.xl va.toNat).onCur fun g => { g with phase := .parked (.fetch false va) }
    | (s, .miss false) => (s.emit (.service c va s.cur.key)).onCur fun g => { g with phase := .parked (.fetch true va) }
    | (s, _) => s.onCur fun g => { g with phase := .parked (.fetch false va) }
  else s.endHere tsFault t

end Sys2Proof.Machine
end

