-- ==== Sys2Proof/Machine/Flow.lean ====
section
/-! DEFINITION. Flow, lane blocks, ending, yielding, breaking and calling the system (R120, R160, R161, R193 to R199). -/

namespace Sys2Proof.Machine

/-! ## Flow (R193) -/

/-- A taken transfer enters `SIGR` and moves the control PC (R341). -/
def State.transfer (s : State) (t : BitVec 64) : State := (s.onRegs fun r => r.mixSig (takenEvent t)).goto t

/-- `nop`. -/
def execNop (s : State) : Ans := s.done

/-- `br`. -/
def execBr (o : BitVec 25) (s : State) : Ans := .next (s.transfer (s.target o))

/-- The conditions of `BRC` (R152). -/
def condHolds (c : Cond) (x y : BitVec 64) : Bool :=
  match c with
  | .eq => x == y | .ne => x != y | .lt => x.slt y | .ge => !x.slt y | .ltu => x.ult y | .geu => !x.ult y

/-- A conditional branch on clean operands. -/
def State.branchIf (s : State) (b : Bool) (t : BitVec 64) : Ans := if b then .next (s.transfer t) else s.done

/-- `brc`. -/
def execBrc (c : Cond) (a b : BitVec 6) (o : BitVec 10) (s : State) : Ans :=
  s.deciding [a, b] none (s.branchIf (condHolds c (s.wreg a).val (s.wreg b).val) (s.target o))

/-- `brz`. -/
def execBrz (a : BitVec 6) (o : BitVec 19) (s : State) : Ans := s.deciding [a] none (s.branchIf ((s.wreg a).val == 0) (s.target o))

/-- `brnz`. -/
def execBrnz (a : BitVec 6) (o : BitVec 19) (s : State) : Ans := s.deciding [a] none (s.branchIf ((s.wreg a).val != 0) (s.target o))

/-- The link register. -/
def linkReg : BitVec 6 := 63

/-- `call`. -/
def execCall (o : BitVec 25) (s : State) : Ans :=
  s.interlock [linkReg] (.next ((s.setVal linkReg (s.pc + 4)).transfer (s.target o)))

/-- `jmpr`. -/
def execJmpr (a : BitVec 6) (s : State) : Ans := s.deciding [a] none (.next (s.transfer (pcOf (s.wreg a).val)))

/-- `callr`: the target is read before the link is written. -/
def execCallr (d a : BitVec 6) (s : State) : Ans :=
  s.deciding [a] (some d) (.next ((s.setVal d (s.pc + 4)).transfer (pcOf (s.wreg a).val)))

/-! ## Lane blocks (R160, R161, R194) -/

/-- What the device collects from the words of a block when it is enqueued: uniforms its sources name in order of first
appearance, and uniforms its instructions write (R161, R191). -/
structure Scan where
  nums : List (BitVec 6)
  dests : List (BitVec 6)
  deriving DecidableEq, Repr

/-- Opcodes of the instructions that write memory (R126). -/
def writesMemory (op : Nat) : Bool := [0x081, 0x083, 0x086, 0x087, 0x088, 0x089, 0x08A].contains op

/-- Opcodes of `ATOM` and `ATOMS`. -/
def isAtomOp (op : Nat) : Bool := op == 0x087 || op == 0x089

/-- Opcode of `LSIG`, whose fields are a praline. -/
def isLsigOp (op : Nat) : Bool := op == 0x074

/-- Opcodes of the instructions that write a uniform (R232). -/
def writesUniform (op : Nat) : Bool := [0x044, 0x046, 0x063].contains op

/-- Uniform numbers that the source fields of a lane word name. -/
def namedUniforms (w : BitVec 96) : List (BitVec 6) :=
  if isLsigOp (laneOp w).toNat then []
  else [w.extractLsb' 55 12, w.extractLsb' 43 12, w.extractLsb' 31 12].filterMap fun f =>
    match parseSrc f with
    | some (.unif n) => some n
    | _ => none

/-- One lane word of a block. A word that is no instruction is read by its fields all the same: it counts where an instruction with those fields
would (R161, log 89). -/
def Scan.word (x : Scan) (w : BitVec 96) : Scan :=
  { nums := (namedUniforms w).foldl (fun l n => if l.contains n then l else l ++ [n]) x.nums,
    dests := if writesUniform (laneOp w).toNat then x.dests ++ [w.extractLsb' 67 6] else x.dests }

/-- Decode the words of a block from lane word `i`: `n` runs are left, `k` instructions of the run stand before it. A 25th instruction, where the group
will stop, ends the scan, and so does a word that no service can bring: both are met when their run issues (R161, R163, R194). The number of a word on a
page that a service can bring is answered: the block is decoded once it has come (R44, log 99). -/
def State.scanBlock (s : State) : Nat → Nat → Nat → Nat → Scan → State × Except Nat Scan
  | 0, _, _, _, x => (s, .ok x)
  | fuel + 1, i, n, k, x =>
    if n == 0 || decide (24 ≤ k) then (s, .ok x)
    else match s.fetchLane i with
      | (s, .error c) => (s, if c == Cause.pageMiss then .error i else .ok x)
      | (s, .ok (w, _)) =>
        let i := i + (if laneHasMods w then 4 else 3)
        if laneEndsRun w then s.scanBlock fuel i (n - 1) 0 (x.word w) else s.scanBlock fuel i n (k + 1) (x.word w)

/-- `f` once the lane queue has a free entry (R160, R194). -/
def State.withEntry (s : State) (f : Ans) : Ans := if 16 ≤ s.cur.regs.laneq.length then .next s.stalled else f

/-- Queue a lane block (R194): `f` is its runs field, 0 for 32. A block that names more than 8 uniforms stops the group here (R161). -/
def State.queueBlock (s : State) (f : BitVec 5) (i : BitVec 20) : Ans :=
  let n := if f == 0 then 32 else f.toNat
  match s.scanBlock (32 * 24 + 1) i.toNat n 0 ⟨[], []⟩ with
  | (s, .error w) => .next (s.fetchFault Cause.pageMiss (s.cur.laneAddr w) false 0)
  | (s, .ok x) =>
    if 8 < x.nums.length then .next (s.illegal tsIllegal 0 false)
    else s.interlock x.nums
      (let b : LBlock := { start := i, nruns := n, lpc := i, left := n, caps := x.nums.map (fun r => ⟨r, s.wreg r⟩), dests := x.dests,
                           sig := 0, unchecked := false }
       (s.onRegs fun r => { r with laneq := r.laneq ++ [b] }.mixSig (0x03#8 ++ 0#31 ++ f ++ i)).done)

/-- `lblk`. -/
def execLblk (n : BitVec 5) (i : BitVec 20) (s : State) : Ans := s.withEntry (s.queueBlock n i)

/-- `lblkr`. -/
def execLblkr (a : BitVec 6) (s : State) : Ans :=
  s.withEntry (s.deciding [a] none (s.queueBlock ((s.wreg a).val.extractLsb' 20 5) ((s.wreg a).val.extractLsb' 0 20)))

/-- `lwait` (R195, R342). -/
def execLwait (s : State) : Ans :=
  if s.cur.inRun || !s.cur.regs.laneq.isEmpty then .next s.stalled else (s.onRegs Regs.foldSigs).done

/-! ## Ending, yielding, breaking, calling (R196 to R199) -/

/-- The current group parks; its chunk has committed and the next one starts where it will go on (R405). -/
def State.park (s : State) (p : Park) : State := (s.onCur fun g => { g with phase := .parked p }).newChunk

/-- The core's `pts` as a wait for an engine leaves it (R120). -/
def State.sawEngine (s : State) (e : Engine) : State := s.raisePts s.cur.core (s.cur.engAt e).seen

/-- `yield`. -/
def execYield (e : Engine) (a : BitVec 6) (o : BitVec 16) (s : State) : Ans :=
  s.deciding [a] none (s.closing true fun s =>
    let n := (s.wreg a).val.setWidth 32
    let t := s.target o
    if (s.cur.engAt e).passed n then .next ((s.sawEngine e).goto t).newChunk
    else .next ((s.goto t).park (.batch e n t)))

/-- `end`: the group's last chunk commits and the group ends; the last one ends its team with OK (R197). -/
def execEndg (s : State) : Ans :=
  s.closing true fun s =>
    let tk := s.cur.teamKey
    let s := s.endGroup s.cur.key
    if (s.groupsOf tk).all (fun g => g.phase == .ended) then
      .next (s.onTeam tk fun t => if t.endSt.isSome then t else { t with endSt := some ⟨tsOk, 0, 0, s.pts t.core⟩ })
    else .next s

/-- Debugging is enabled for the group's context (R198). -/
def State.debugOn (s : State) : Bool := ((s.ctx? s.team.asid).map Ctx.debug).getD false

/-- `brk`: the report names the CPC that the frame holds (R141, R198). The group's matrix operations end before its frame is written (R143, R400). -/
def execBrk (k : BitVec 19) (s : State) : Ans :=
  if s.debugOn && s.matrixBusy s.cur.key then .next s.stalled
  else s.closing false fun s =>
    if s.debugOn then
      let s := (s.advance.park .brk).saveFrame 1 0
      .next (s.emit (.breakpoint k s.team.asid s.cur.lid s.cur.team s.cur.grp s.pc))
    else .next (s.endHere tsBreak 0)

/-- `sysc`. The group's matrix operations end before its frame is written (R143, R400). -/
def execSysc (k : BitVec 19) (s : State) : Ans :=
  if s.matrixBusy s.cur.key then .next s.stalled
  else s.closing false fun s =>
    let s := (s.advance.park .sysc).saveFrame 1 0
    .next (s.emit (.sysRequest k s.team.asid s.cur.key (s.cur.frame.getD 0)))

end Sys2Proof.Machine
end

