-- ==== Sys2Proof/Machine/Flags.lean ====
section
/-! DEFINITION. What a lane instruction does beside its results: lanes that act, guards and the stop they raise (R5, R230, R233),
signatures (R341), the end of a run (R163, R324, R342), predicates (R231). -/

namespace Sys2Proof.Machine

/-! ## Lanes (R5, R233) -/

/-- The lane-facing group width: 32 under shadow lanes (R233). -/
def Group.laneW (g : Group) : Nat := if g.shadow then 32 else g.width

/-- First lanes of the groups of lanes that a cross-lane instruction acts on apart (R233). -/
def Group.bases (g : Group) : List Nat := if g.shadow then [0, 32] else [0]

/-- Under shadow lanes lane 32 + i acts exactly when lane i does (R233). -/
def Group.spread (g : Group) (m : BitVec 64) : BitVec 64 :=
  if g.shadow then let l := m &&& 0xFFFFFFFF#64; l ||| l <<< 32 else m

/-- A predicate register. -/
def Regs.pred (r : Regs) (n : Nat) : PReg := (r.p[n]?).getD ⟨0, 0, 0⟩

/-- Lanes that a stop under DROP has left out of the instruction (R230, R256). -/
def Group.skipped (g : Group) : BitVec 64 := match g.run with | some r => r.skip | none => 0

/-- Lane word index of the instruction that executes. -/
def Group.lpc (g : Group) : Nat := match g.run with | some r => r.wi.toNat | none => 0

/-- Bits of a guard: lanes that pass it, whatever its poison (R5, R156). -/
def Group.guardBits (g : Group) : Option Guard → BitVec 64
  | none => 0xFFFFFFFFFFFFFFFF#64
  | some q => let b := (g.regs.pred q.p.toNat).bits; if q.inv then ~~~b else b

/-- `Active()` as a mask of lanes (R5, R233). -/
def Group.activeMask (g : Group) (q : Option Guard) : BitVec 64 :=
  g.spread (g.regs.exm &&& g.guardBits q &&& ~~~g.skipped)

/-- Lanes of `EXM` whose guard is poisoned (R230). -/
def Group.guardPoison (g : Group) : Option Guard → BitVec 64
  | none => 0
  | some q => g.regs.exm &&& (g.regs.pred q.p.toNat).pois &&& ~~~g.skipped

/-- The lanes of a mask, ascending. -/
def Group.lanesOf (g : Group) (m : BitVec 64) : List Nat := (List.range g.width).filter m.getLsbD

/-- `Active()`, ascending. -/
def Group.active (g : Group) (q : Option Guard) : List Nat := g.lanesOf (g.activeMask q)

/-! ## Signatures (R341) -/

/-- Enter a value in the block signature of the running block. -/
def Regs.mixBlock (r : Regs) (v : BitVec 64) : Regs :=
  match r.laneq with
  | b :: bs => { r with laneq := { b with sig := mix b.sig v, unchecked := true } :: bs }
  | [] => r

/-- The event of an instruction's opcode. -/
def opEvent (op : Nat) : BitVec 64 := 0x0100000000000000#64 ||| BitVec.ofNat 64 op

/-- An instruction enters its opcode. -/
def State.enterCode (s : State) (op : Nat) : State := s.onRegs fun r => r.mixBlock (opEvent op)

/-- A mask instruction enters the new depth. -/
def State.enterDepth (s : State) (op : Nat) : State :=
  s.onRegs fun r => r.mixBlock (0x0400000000000000#64 ||| BitVec.ofNat 64 (op <<< 8 + r.mask.length))

/-- A failed mask check perturbs the signature. -/
def State.enterCheck (s : State) (op : Nat) (ok : Bool) : State :=
  if ok then s else s.onRegs fun r => r.mixBlock (0x0F00000000000000#64 ||| BitVec.ofNat 64 op)

/-! ## Live poison at a lane instruction (R230, R256) -/

/-- Live poison stops the chunk at this instruction; under DROP it executes again without the lanes of `skip`. The lane stream
stands at the instruction's word. -/
def State.laneStop (s : State) (lives : List Live) (skip : BitVec 64) : State :=
  (s.onCur fun g =>
    let at? (b : LBlock) : LBlock := { b with lpc := BitVec.ofNat 20 g.lpc }
    { g with run := g.run.map fun r => { r with skip := r.skip ||| skip, stop := true },
             regs := { g.regs with laneq := g.regs.laneq.modify 0 at? } }).onChunk fun c => { c with live := c.live ++ lives }

/-- The live poisons of the lanes of a mask, with one token. -/
def Group.livesOf (g : Group) (m : BitVec 64) (t : BitVec 32) : List Live :=
  (g.lanesOf m).map fun i => carried .lane (some i) t

/-- Execute `f` unless the guard of a lane in `EXM` is poisoned. -/
def State.guarded (s : State) (q : Option Guard) (f : Ans) : Ans :=
  let bad := s.cur.guardPoison q
  if bad == 0 then f
  else .next (s.laneStop (s.cur.livesOf bad ((q.map fun q => (s.cur.regs.pred q.p.toNat).token).getD 0)) bad)

/-! ## After an instruction (R160, R163, R324) -/

/-- The end of a run: the running block has one run less; a block whose last run has finished leaves its signature to be folded;
latches become invalid; a limit closes the chunk, in checked mode only where nothing is unchecked. -/
def State.endRun (s : State) : State :=
  let w := BitVec.ofNat 20 s.cur.lpc
  let s := s.onCur fun g => { g with run := none, latches := [], regs :=
    match g.regs.laneq with
    | b :: bs =>
      if b.left ≤ 1 then { g.regs with laneq := bs, finished := g.regs.finished ++ [b.sig] }
      else { g.regs with laneq := { b with left := b.left - 1, lpc := w } :: bs }
    | [] => g.regs }
  let s := s.onCur fun g => { g with freads := g.freads.map fun f => { f with lat := false } }
  if s.atLimit && !s.cur.anyUnchecked then s.onChunk fun c => { c with closing := c.closing <|> some .limit } else s

/-- A lane instruction has executed: it counts, and the lane stream stands at the next word or at the end of the run. -/
def State.laneNext (s : State) (last mods : Bool) : State :=
  let s := (s.onCur fun g => { g with run := g.run.map fun r =>
    { r with wi := r.wi + (if mods then 4 else 3), n := r.n + 1, skip := 0, stop := false } }).onChunk fun c => { c with nlane := c.nlane + 1 }
  if last then s.endRun else s

/-- A lane instruction of fields `x` has executed. -/
def State.laneDone (s : State) (x : LOp) : Ans := .next (s.laneNext x.last x.mods.isSome)

end Sys2Proof.Machine
end

