-- ==== Sys2Proof/Machine/Operands.lean ====
section
/-! DEFINITION. Operands of lane instructions: every source kind and every destination (R5, R130, R139, R154 to R156, R161, R228, R229,
R231, R232, R244, R282). -/

namespace Sys2Proof.Machine

/-- A value with the token of its poison. -/
structure Opd where
  val : Nat
  tok : Option (BitVec 32)
  deriving DecidableEq, Repr, Inhabited

/-- A clean value. -/
def Opd.ok (v : Nat) : Opd := ⟨v, none⟩

/-- Poison. -/
def Opd.bad (t : BitVec 32) : Opd := ⟨t.toNat, some t⟩

/-- What a source reads as, before the crumb of an invalid latch is made. -/
inductive Rd where
  | ok (v : Nat)
  | tok (t : BitVec 32)
  | stale
  deriving DecidableEq, Repr

/-- A pair of halves: the low half's poison first (R228). -/
def Rd.pair : Rd → Rd → Rd
  | .ok a, .ok b => .ok (a + b * 2 ^ 32)
  | .ok _, r => r
  | r, _ => r

def VElem.rd (e : VElem) : Rd := if e.poison then .tok e.val else .ok e.val.toNat

def LatchElem.rd (e : LatchElem) : Rd := if !e.valid then .stale else if e.poison then .tok e.val else .ok e.val.toNat

/-- A captured uniform read by a 32-bit, packed or 64-bit operand (R154). -/
def UElem.rd (e : UElem) (wide : Bool) : Rd :=
  if e.poison then .tok e.token else .ok (if wide then e.val.toNat else e.val.toNat % 2 ^ 32)

/-- Element of a vector register. -/
def Regs.velem (r : Regs) (n i : Nat) : VElem := ((r.v[n]?).bind fun row => row[i]?).getD ⟨0, false⟩

/-- Element of a latch. -/
def Group.latch (g : Group) (n i : Nat) : LatchElem := ((g.latches[n]?).bind fun row => row[i]?).getD ⟨0, false, false⟩

/-- The value of a uniform captured when the running block was queued (R161). -/
def Regs.captured (r : Regs) (n : BitVec 6) : UElem :=
  match (r.laneq.head?.bind fun b => b.caps.find? fun c => c.num == n).map Cap.val with
  | some e => e
  | none => (r.w[n.toNat]?).getD ⟨0, false⟩

/-- An immediate read at an element width (R155, R229, R282). -/
def immVal (imm : BitVec 16) (high : Bool) (bits : Nat) : Nat :=
  match bits with
  | 64 => (imm.signExtend 64).toNat
  | 16 => imm.toNat * 0x10001
  | 8 => imm.toNat % 256 * 0x01010101
  | _ => if high then imm.toNat * 65536 else (imm.signExtend 32).toNat

/-- What a source field gives to lane `i` (R154). `bits` is the element width, `first` the first lane of `Active()`. Broadcasts stay
within the lanes of one shadow half (R233). -/
def Group.rd (g : Group) (x : LOp) (bits first i : Nat) : Src → Rd
  | .vec n bc =>
    let base := if g.shadow then i / 32 * 32 else 0
    let j := match bc with | .none => i | .lane => base + x.bl.toNat | .first => base + first
    if bits == 64 then (g.regs.velem n.toNat j).rd.pair (g.regs.velem (n.toNat + 1) j).rd else (g.regs.velem n.toNat j).rd
  | .lat n => if bits == 64 then (g.latch n.toNat i).rd.pair (g.latch (n.toNat + 1) i).rd else (g.latch n.toNat i).rd
  | .unif n => (g.regs.captured n).rd (bits == 64)
  | .imm high => .ok (immVal x.imm high bits)

/-- A predicate source of lane `i` (R244). -/
def Regs.rdPred (r : Regs) (n i : Nat) : Rd :=
  let p := r.pred n
  if p.pois.getLsbD i then .tok p.token else .ok (b2n (p.bits.getLsbD i))

/-- A source of lane `i`, before modifiers. -/
def Group.rdForm (g : Group) (x : LOp) (f : SForm) (src : Src) (first i : Nat) : Rd :=
  match f with
  | .gen _ _ _ _ b => g.rd x b first i src
  | .pred => match src with | .vec n _ => g.regs.rdPred n.toNat i | _ => .ok 0
  | .index => .ok 0
  | .none => .ok 0

/-- An invalid latch element gives LATCH_STALE poison with a crumb (R139). -/
def State.settleRd (s : State) (i : Nat) : Rd → State × Opd
  | .ok v => (s, .ok v)
  | .tok t => (s, .bad t)
  | .stale => let (s, t) := s.makePoison Cause.latchStale 0 i false s.cur.lpc; (s, .bad t)

/-- The operands of one lane. -/
structure LaneIn where
  lane : Nat
  a : Opd
  b : Opd
  c : Opd
  deriving DecidableEq, Repr

/-- Read the three sources of lane `i`. -/
def State.readLane (s : State) (x : LOp) (F : Form) (first i : Nat) : State × LaneIn :=
  let g := s.cur
  let (s, a) := s.settleRd i (g.rdForm x F.s0 x.s0 first i)
  let (s, b) := s.settleRd i (g.rdForm x F.s1 x.s1 first i)
  let (s, c) := s.settleRd i (g.rdForm x F.s2 x.s2 first i)
  (s, ⟨i, a, b, c⟩)

/-- Read the sources of lanes, ascending. -/
def State.gather (s : State) (x : LOp) (F : Form) (first : Nat) : List Nat → State × List LaneIn
  | [] => (s, [])
  | i :: is =>
    let (s, l) := s.readLane x F first i
    let (s, ls) := s.gather x F first is
    (s, l :: ls)

/-- Read the sources of every lane of `Active()`. -/
def State.operands (s : State) (x : LOp) (F : Form) : State × List LaneIn :=
  let act := s.cur.active x.guard
  s.gather x F (act.head?.getD 0) act

/-- The first poisoned operand in source order (R228). -/
def LaneIn.token (l : LaneIn) : Option (BitVec 32) := l.a.tok <|> l.b.tok <|> l.c.tok

/-- A result from values: the token of the first poisoned source, else the value (R228). -/
def LaneIn.map (l : LaneIn) (f : Nat → Nat → Nat → Nat) : Opd :=
  match l.token with
  | some t => .bad t
  | none => .ok (f l.a.val l.b.val l.c.val)

/-! ## Destinations -/

/-- The 32-bit element of a result, or the low half of a 64-bit one. Poison fills both halves with the token (R228). -/
def Opd.lo (o : Opd) : VElem := match o.tok with | some t => ⟨t, true⟩ | none => ⟨BitVec.ofNat 32 o.val, false⟩

/-- The high half. -/
def Opd.hi (o : Opd) : VElem := match o.tok with | some t => ⟨t, true⟩ | none => ⟨BitVec.ofNat 32 (o.val / 2 ^ 32), false⟩

/-- The result of lane `i` among results by lane. -/
def resultOf {α : Type} (res : List (Nat × α)) (i : Nat) : Option α := (res.find? fun p => p.1 == i).map Prod.snd

/-- Write elements of one vector register. -/
def Regs.writeV (r : Regs) (n : Nat) (res : List (Nat × VElem)) : Regs :=
  { r with v := r.v.modify n fun row => row.zipIdx.map fun e => (resultOf res e.2).getD e.1 }

/-- Capture elements in a latch (R139). -/
def Group.capture (g : Group) (n : Nat) (res : List (Nat × VElem)) : Group :=
  { g with latches := (padTo 4 [] g.latches).modify n fun row => (padTo g.width ⟨0, false, false⟩ row).zipIdx.map fun e =>
      match resultOf res e.2 with | some v => ⟨v.val, v.poison, true⟩ | none => e.1 }

/-- The vector registers an instruction writes. -/
def vdests (x : LOp) (wide : Bool) : List Nat :=
  if x.dst.ws then [] else if wide then [x.dst.num.toNat, x.dst.num.toNat + 1] else [x.dst.num.toNat]

/-- `WriteDst`: registers unless WS, latches always; the registers count as written by the chunk (R139, R156, R324). -/
def State.writeDst (s : State) (x : LOp) (wide : Bool) (res : List (Nat × Opd)) : State :=
  let lo := res.map fun r => (r.1, r.2.lo)
  let hi := res.map fun r => (r.1, r.2.hi)
  let n := x.dst.num.toNat
  let d := x.dst.dl.toNat
  let s := if x.dst.ws then s else s.onRegs fun r => let r := r.writeV n lo; if wide then r.writeV (n + 1) hi else r
  (s.onCur fun g => let g := g.capture d lo; if wide then g.capture (d + 1) hi else g).onChunk fun c =>
    { c with vw := dedup (c.vw ++ vdests x wide) }

/-- Write the active lanes of a predicate: bit and poison bit; the token becomes that of the lowest lane poisoned (R231). The bit of a lane that is
poisoned becomes 0 (log 109). -/
def Regs.writeP (r : Regs) (n : Nat) (res : List (Nat × Opd)) : Regs :=
  { r with p := r.p.modify n fun p => res.foldr (fun q p =>
      let m := BitVec.twoPow 64 q.1
      match q.2.tok with
      | some t => { bits := p.bits &&& ~~~m, pois := p.pois ||| m, token := t }
      | none => { p with bits := if q.2.val != 0 then p.bits ||| m else p.bits &&& ~~~m, pois := p.pois &&& ~~~m }) p }

/-- Write a uniform with its poison bit (R232). -/
def State.writeU (s : State) (x : LOp) (o : Opd) : State :=
  s.setW (BitVec.ofNat 6 x.dst.num.toNat) (match o.tok with | some t => tokElem t | none => ⟨BitVec.ofNat 64 o.val, false⟩)

/-- Write lane results where the form says. -/
def State.writeRes (s : State) (x : LOp) (F : Form) (res : List (Nat × Opd)) : State :=
  match F.res with
  | .vec wide => s.writeDst x wide res
  | .pred => s.onRegs fun r => r.writeP (x.dst.num.toNat % 16) res
  | .unif => s
  | .none => s

/-! ## The shapes of execution -/

/-- The form of a lane instruction. -/
def formOf (i : Instr) : Form := ((laneForm i).map Prod.snd).getD (Form.plain 0 true .none .none .none .none)

/-- An instruction whose result in each half of lanes depends on the operands of that half: guard, opcode, operands, results
(R228, R233, R234). -/
def State.laneGroup (s : State) (x : LOp) (F : Form) (f : Group → Nat → List LaneIn → List (Nat × Opd)) : Ans :=
  s.guarded x.guard
    (let s := s.enterCode F.op
     let (s, ins) := s.operands x F
     let g := s.cur
     (s.writeRes x F (g.bases.flatMap fun b => f g b (ins.filter fun l => l.lane / g.laneW == b / g.laneW))).laneDone x)

/-- An instruction that computes each lane on its own. -/
def State.laneEach (s : State) (x : LOp) (F : Form) (f : LaneIn → Opd) : Ans :=
  s.guarded x.guard
    (let s := s.enterCode F.op
     let (s, ins) := s.operands x F
     (s.writeRes x F (ins.map fun l => (l.lane, f l))).laneDone x)

/-- Each lane on its own, poisoned by its first poisoned source (R228). -/
def State.laneMap (s : State) (x : LOp) (F : Form) (f : Nat → Nat → Nat → Nat) : Ans := s.laneEach x F fun l => l.map f

/-- Two results that shadow lanes compare (R345): poisoned ones by cause. -/
def Opd.same (a b : Opd) : Bool :=
  match a.tok, b.tok with
  | some t, some u => tokenCause t == tokenCause u
  | none, none => a.val == b.val
  | _, _ => false

/-- An instruction that reduces the lanes to a uniform. Under shadow lanes both halves must agree (R233, R345). -/
def State.laneUni (s : State) (x : LOp) (F : Form) (f : Group → Nat → List LaneIn → Opd) : Ans :=
  s.guarded x.guard
    (let s := s.enterCode F.op
     let (s, ins) := s.operands x F
     let g := s.cur
     let half (b : Nat) : Opd := f g b (ins.filter fun l => l.lane / g.laneW == b / g.laneW)
     if g.shadow && !(half 0).same (half 32) then .next (s.mismatch g.lpc)
     else (s.writeU x (half 0)).laneDone x)

end Sys2Proof.Machine
end

