-- ==== Sys2Proof/Machine/Runs.lean ====
section
/-! DEFINITION. Runs and chunks as steps: the issue of a run with its whole check (R126, R131, R160, R162, R163, R325, R404), the close
of a chunk, its admissions, the resume after a replay, stops (R324, R329, R337, R344, R407, R408). -/

namespace Sys2Proof.Machine

/-! ## The check of a run -/

/-- Vector registers that a source names. -/
def srcRegs (x : LOp) (f : SForm) : Src → List Nat
  | .vec n _ =>
    match f with
    | .gen _ _ _ _ b => if b == 64 then [n.toNat, n.toNat + 1] else [n.toNat]
    | .index => (List.range (x.fn.toNat % 4 + 1)).map fun k => n.toNat + k
    | _ => []
  | _ => []

/-- Vector registers that an instruction of a form writes. -/
def destRegs (x : LOp) (F : Form) : List Nat := match F.res with | .vec wide => vdests x wide | _ => []

/-- Latches that a source reads (R154). -/
def srcLats (f : SForm) : Src → List Nat
  | .lat n => match f with
    | .gen _ _ _ _ b => if b == 64 then [n.toNat, n.toNat + 1] else [n.toNat]
    | _ => [n.toNat]
  | _ => []

/-- Latches that an instruction of a form captures into (R139). -/
def destLats (x : LOp) (F : Form) : List Nat :=
  match F.res with | .vec wide => if wide then [x.dst.dl.toNat, x.dst.dl.toNat + 1] else [x.dst.dl.toNat] | _ => []

/-- An instruction names the register or latch that a pending load or atomic will write, so it waits for the data (R138, R265, R275). -/
def FRead.hazard (f : FRead) (x : LOp) (F : Form) : Bool :=
  let two (n : Nat) : List Nat := if f.ty.wide then [n, n + 1] else [n]
  let regs := if f.ws then [] else two f.reg.toNat
  let lats := if f.lat then two f.dl.toNat else []
  (srcRegs x F.s0 x.s0 ++ srcRegs x F.s1 x.s1 ++ srcRegs x F.s2 x.s2 ++ destRegs x F).any regs.contains ||
  (srcLats F.s0 x.s0 ++ srcLats F.s1 x.s1 ++ srcLats F.s2 x.s2 ++ destLats x F).any lats.contains

/-- The checks of a lane instruction that depend on the group (R131, R154, R293, R298). -/
def Group.fits (g : Group) (x : LOp) (F : Form) : Bool :=
  (srcRegs x F.s0 x.s0 ++ srcRegs x F.s1 x.s1 ++ srcRegs x F.s2 x.s2 ++ destRegs x F).all (fun n => decide (n < g.regs.v.length)) &&
  (!(x.s0.usesBl || x.s1.usesBl || x.s2.usesBl) || decide (x.bl.toNat < g.laneW)) &&
  (!(F.op == 0x0D6 || (F.op == 0x0D3 && x.blk)) || decide (32 ≤ g.laneW))

/-- What the check of a run finds: its memory writers, the registers it writes, whether it is an atomic, the lane word after it; or the first word that
is no instruction; or a word that cannot be fetched. -/
inductive RunCheck where
  | ok (writers : Nat) (dests : List Nat) (atomic : Bool) (after : Nat)
  | illegal (at_ : Nat)
  | fault (c : Cause) (va : BitVec 64) (at_ : Nat)
  deriving DecidableEq, Repr

/-- Check a run from lane word `i` on: `k` instructions and `m` memory writers stand before it. `start` is the run's first word. A 25th instruction is
none of the run (R160, log 89). -/
def State.checkRun (s : State) (start : Nat) : Nat → Nat → Nat → Nat → List Nat → State × RunCheck
  | 0, i, _, _, _ => (s, .illegal i)
  | fuel + 1, i, k, m, ds =>
    match s.fetchLane i with
    | (s, .error c) => (s, .fault c (s.cur.laneAddr i) i)
    | (s, .ok (w, md)) =>
      match decodeLane w md with
      | none => (s, .illegal i)
      | some ins =>
        let op := (laneOp w).toNat
        let wr := writesMemory op
        let last := laneEndsRun w
        let bad := (match laneForm ins with | some (x, F) => !s.cur.fits x F | none => false) ||
          (isAtomOp op && (!last || k != 0)) || (wr && decide (16 ≤ m)) || decide (24 ≤ k)
        if bad then (s, .illegal i)
        else
          let ds := dedup (ds ++ match laneForm ins with | some (x, F) => destRegs x F | none => [])
          let m := if wr then m + 1 else m
          let i := i + (if laneHasMods w then 4 else 3)
          if last then (s, if 32 < ds.length then .illegal start else .ok m ds (isAtomOp op) i)
          else s.checkRun start fuel i (k + 1) m ds

/-- The check of the current group's next run. -/
def State.checkNext (s : State) : State × RunCheck :=
  match s.cur.regs.laneq with
  | b :: _ => s.checkRun b.lpc.toNat 25 b.lpc.toNat 0 0 []
  | [] => (s, .ok 0 [] false 0)

/-! ## The issue decision (R404) -/

/-- A group whose lane stream stands at a run boundary: active, not parked, its chunk open and not closing. -/
def State.atBoundary (s : State) (g : Group) : Bool :=
  (match g.phase with | .run | .wait _ => true | _ => false) && s.issuing g.teamKey && g.run.isNone && !g.chunk.committing && g.chunk.closing.isNone

/-- A group whose next run may be looked at: its lane queue holds a block, and no closing instruction waits for the boundary (R189). -/
def State.hasRun (s : State) (g : Group) : Bool := s.atBoundary g && !g.regs.laneq.isEmpty && !g.chunk.hold

/-- Registers that a run writes and the chunk has not written (R325). -/
def Chunk.fresh (c : Chunk) (ds : List Nat) : Nat := (ds.filter fun d => !c.vw.contains d).length

/-- Why the chunk of the current group closes where its lane stream stands: a limit, in checked mode only where nothing is unchecked (R324, R344), or
the run that stands next (R126, R275, R325). -/
def State.mustClose (s : State) : Option CloseReason :=
  let g := s.cur
  if !s.atBoundary g || g.pristine then none
  else if s.atLimit && !g.anyUnchecked then some .limit
  else if g.regs.laneq.isEmpty then none
  else match s.checkNext.2 with
    | .ok m ds a _ =>
      if a then some .atomic
      else if 32 < g.chunk.vw.length + g.chunk.fresh ds then some .registers
      else if s.quarFree g.core < g.width * m then some .shortfall
      else none
    | _ => none

/-- The current group's run is ready, or its check has something to do (R126, R325, R404). -/
def State.runReady (s : State) : Bool :=
  s.hasRun s.cur && s.mustClose.isNone &&
  match s.checkNext.2 with
  | .ok m _ _ _ => decide (s.cur.width * m ≤ s.quarFree s.cur.core)
  | _ => true

/-- Ready groups of a core. -/
def State.readyRuns (s : State) (core : Nat) : List Group :=
  s.groups.filter fun g => g.core == core && s.hasRun g && (s.focus g.key).runReady

/-- The order of an issue decision: a group passed over 64 times, then `PRIO`, then the least recent issue, then numbers. -/
def issueKey (g : Group) : Nat :=
  ((if 64 ≤ g.passed then 0 else 8 - g.regs.prio.toNat) * 2 ^ 64 + g.issued) * 2 ^ 24 + g.grp.toNat * 4096 + g.team.toNat

/-- The group that a decision chooses. -/
def State.choose (s : State) (core : Nat) : Option Group := (sortBy issueKey (s.readyRuns core)).head?

/-- The chosen group and those it passed over. -/
def State.decided (s : State) (core k : Nat) : State :=
  let rs := (s.readyRuns core).map Group.key
  let n := maxNat (s.groups.map Group.issued) + 1
  s.mapGroups fun g => if g.key == k then { g with passed := 0, issued := n } else if rs.contains g.key then { g with passed := g.passed + 1 } else g

/-- Check the current group's next run whole and start it, with its reservation (R126, R163). An atomic's chunk is its own. -/
def State.issueRun (s : State) : State :=
  match s.checkNext with
  | (s, .illegal i) => s.illegal tsIllegal i true
  | (s, .fault c va i) => s.fetchFault c va true i
  | (s, .ok m _ a after) =>
    s.onCur fun g => match g.regs.laneq with
      | b :: _ => { g with chunk := { g.chunk with forRun := a },
                           run := some { wi := b.lpc, n := 0, resv := g.width * m, q0 := g.chunk.quar.length, ctl := 0, skip := 0, stop := false,
                                         after := BitVec.ofNat 20 after } }
      | [] => g

/-- RUN_ISSUE: a slot of the current group's core chooses a ready run (R404). The four slots decide alike. -/
def execRunIssue (_slot : BitVec 2) (s : State) : Ans :=
  match s.choose s.cur.core with
  | none => .next s
  | some g => .next ((s.decided g.core g.key).focus g.key).issueRun

/-! ## Closing and committing (R324, R329, R344) -/

/-- What a close answers, for a step of its own. -/
def CloseRes.state : CloseRes → State
  | .ok s => s
  | .wait s => s
  | .stopped s => s

/-- A chunk without live poison starts its commit: its arbiters by ascending rank, and its place at the first. A chunk with no line commits at once
(R327, R329). -/
def State.startCommit (s : State) : State :=
  if (s.arbiters s.cur.chunk).isEmpty then s.commitNow.state else s.queueCommit

/-- The chunk of the current group closes for a reason, no load of it pending: an unchecked event keeps it open at a limit, and otherwise makes
SIG_GAP live (R344). -/
def State.closeFor (s : State) (r : CloseReason) : State :=
  let s := s.onChunk fun c => { c with closing := some r }
  if s.cur.anyUnchecked then (if r == .limit then s.onChunk fun c => { c with closing := none } else s.sigGap.takeStop.state)
  else if s.cur.chunk.live.isEmpty then s.startCommit
  else s.takeStop.state

/-- CHUNK_CLOSE of group `k` at a run boundary, or at the lane instruction that live poison stopped. Either waits for every load of the chunk (R265). -/
def execChunkClose (k : Nat) (s : State) : Ans :=
  match s.group? k with
  | none => .next s
  | some _ => .next (s.withGroup k fun s =>
    let g := s.cur
    let c := g.chunk
    if !g.freads.isEmpty || c.committing then s
    else match g.run with
      | some r =>
        if r.stop then s.takeStop.state else s
      | none =>
        match c.closing <|> s.mustClose with
        | some r => s.closeFor r
        | none => s)

/-- ARBITER_ADMIT: the next arbiter of group `k`'s chunk admits it, once it is first in the FIFO there and nothing that the arbiter has admitted stands
against it; the last admission commits (R329, R332). The chunk of an atomic is then applied by its instruction, which waits (R275). -/
def execArbiterAdmit (k : Nat) (s : State) : Ans :=
  match s.group? k with
  | none => .next s
  | some _ => .next (s.withGroup k fun s =>
    match s.cur.chunk.committing, s.cur.chunk.pend with
    | true, a :: as =>
      match s.blockedBy (some a) with
      | some t => match s.cur.reserve with
        | some mine => if t < s.cur.ageKey mine then s.squash else s
        | none => s
      | none =>
        if s.admittedClash (some a) || s.queuedBefore a s.cur.chunk.arrive then s
        else
          let s := s.onChunk fun c => { c with pend := as, got := c.got ++ [a] }
          if !as.isEmpty then s.arriveNext
          else if (s.cur.run.map fun r => !r.stop).getD false then s
          else s.commitNow.state
    | _, _ => s)

/-! ## Services, stops, gaps (R44, R162, R337, R344, R407) -/

/-- A migration of the page of an address is asked for or under way. -/
def State.migrating (s : State) (asid : BitVec 16) (va : BitVec 64) : Bool := s.movesPage asid va.toNat

/-- The operations that held a lock have ended, and the batches they belong to have completed (R114). An open batch of
the replaying group `k` itself, or of a group that has ended, can no longer be closed: it holds up the replay until its operations have ended (log 23). -/
def State.lockGone (s : State) (k : Nat) (ops : List Nat) : Bool :=
  !(s.ops.any fun o => ops.contains o.id) &&
  s.groups.all fun g => g.eng.all fun e =>
    e.closed.all (fun b => b.ents.all fun o => !ops.contains o.op) &&
    (!(e.ents.any fun o => ops.contains o.op) || ((g.key == k || g.phase == .ended) && e.ents.all OpEnt.done && e.closed.isEmpty))

/-- What a parked group asked the device for has been done (R337). -/
def State.serviced (s : State) (g : Group) : Bool :=
  match g.phase with
  | .parked (.replay _ vas ops) => vas.all (fun va => !s.migrating g.sysr.asid va) && s.lockGone g.key ops
  | .parked (.fetch _ va) => !s.migrating g.sysr.asid va
  | _ => false

/-- The group also waits for system software. -/
def Group.asked (g : Group) : Bool :=
  match g.phase with | .parked (.replay sys _ _) => sys | .parked (.fetch sys _) => sys | _ => false

/-- System software has answered the group's request. -/
def Group.answered (g : Group) : Group :=
  match g.phase with
  | .parked (.replay _ vas ops) => { g with phase := .parked (.replay false vas ops) }
  | .parked (.fetch _ va) => { g with phase := .parked (.fetch false va) }
  | _ => g

/-- REPLAY_RESUME: once every cause is serviced the frame is restored and the group executes from its chunk's start (R337, R407). A
group of an inactive team is restored when its team is activated. Where system software was asked, the step is its answer, which a group of an inactive
team keeps until then (R400). -/
def execReplayResume (k : Nat) (s : State) : Ans :=
  match s.group? k with
  | none => .next s
  | some g =>
    if s.serviced g && s.activeTeam g.teamKey then
      .next (s.withGroup k fun s => match g.phase with
        | .parked (.replay _ _ _) => s.resumeFrame false
        | _ => s.onCur fun g => { g with phase := .run })
    else if g.asked then .next (s.onGroup k Group.answered)
    else .next s

/-- SIG_GAP_TIMEOUT: 4,096 clocks past the clock limit without a checked boundary make SIG_GAP live there (R344). -/
def execSigGapTimeout (k : Nat) (s : State) : Ans :=
  match s.group? k with
  | none => .next s
  | some _ => .next (s.withGroup k fun s =>
    let g := s.cur
    if g.anyUnchecked && !g.inRun && !g.chunk.committing && g.chunk.begun && decide (Config.chunkClocks + 4096 ≤ s.clock - g.chunk.clock0) then
      s.sigGap.takeStop.state
    else s)

/-- GROUP_STOP: a group of an ended team stops at its run boundary or control instruction (R162). -/
def execGroupStop (k : Nat) (s : State) : Ans :=
  match s.group? k with
  | none => .next s
  | some g => if g.phase == .ending && (g.run.map RunSt.stop).getD true && !g.chunk.committing then .next (s.endGroup k) else .next s

/-- A control word that is no instruction (R149 to R152, R162). -/
def execIllegalControlWord (_w : BitVec 32) (s : State) : Ans := .next (s.illegal tsIllegal 0 false)

/-- A control word that cannot be fetched (R44). -/
def execControlWordFetchFault (cause : BitVec 8) (s : State) : Ans := .next (s.fetchFault cause s.pc false 0)

end Sys2Proof.Machine
end

