-- ==== Sys2Proof/Machine/UMem.lean ====
section
/-! DEFINITION. Uniform memory and state registers (R33, R62, R90, R133, R144, R145, R203, R204, R299, R333, R372, R402, R442). -/

namespace Sys2Proof.Machine

/-! ## What loads and stores of one word share with the lanes (R264 to R270) -/

/-- What a load of `n` bytes at a virtual address gives at once, or the remote request it needs (R264, R265). -/
inductive LoadRes where
  | bytes (bs : List Byte)
  | bad (c : Cause)
  | remote

/-- `n` bytes at an aligned virtual address, for the current group (R265). -/
def State.loadVa (s : State) (va n hint : Nat) : State × LoadRes :=
  if va % n != 0 then (s, .bad Cause.invalid)
  else if canonical va && isRemote va then (if s.routeTo (remChip va) then (s, .remote) else (s, .bad Cause.remoteUnreach))
  else match s.chunkLoad va n hint with
    | (s, .ok bs) => (s, .bytes bs)
    | (s, .error c) => (s, .bad c)

/-- A fabric read of `n` bytes for the current group leaves: its number is the key before (R55, R360). `hs` are the tensor handles that gave its address. -/
def State.fabricRead (s : State) (chip : BitVec 8) (win : BitVec 12) (byVa : Bool) (addr n : Nat) (hs : List (BitVec 16) := []) : State :=
  let g := s.cur
  s.sendReq (.load g.key) g.sysr.asid (s.gangKey g chip) chip win byVa addr (.read n) hs

/-- The line of a store whose checks failed, where it has one (R266): that of the write translation, or of the read translation where only
that gives a line. -/
def State.failedLine (s : State) (va : Nat) : State × Option (LineId × Nat) :=
  if canonical va && isRemote va then (s, some (.rem (remChip va) (remWin va) (remOff va / 128), 0))
  else match s.translate s.cur.xl va .write with
    | (s, .ok p) => (s, some (.mem (p.pa / 128), p.vc))
    | (s, .error _) => match s.translate s.cur.xl va .read with
      | (s, .ok p) => (s, some (.mem (p.pa / 128), p.vc))
      | (s, .error _) => (s, none)

/-- A poisoned store: its line's entry, where it has a line, is poisoned, and the poison is live (R266). -/
def State.poisonStore (s : State) (va : Nat) (t : BitVec 32) (live : Live) (lpc : Nat) : State :=
  let s := match s.failedLine va with
    | (s, some (id, vc)) => s.quarantine (mkEntry id va vc [] (some t) lpc)
    | (s, none) => s
  s.goLive live

/-- Where the clean bytes of an aligned store go, or the cause that poisons it (R112, R264, R266). -/
def State.storeVa (s : State) (va n : Nat) (k : AccKind) : State × Except Cause (LineId × Nat) :=
  if va % n != 0 then (s, .error Cause.invalid)
  else if canonical va && isRemote va then (s, .ok (.rem (remChip va) (remWin va) (remOff va / 128), 0))
  else match s.storeCheck va n k with
    | (s, .ok p) => (s, .ok (.mem (p.pa / 128), p.vc))
    | (s, .error c) => (s, .error c)

/-! ## Uniform memory (R203) -/

/-- The effective address of a uniform access. -/
def State.uniEa (s : State) (a : BitVec 6) (i : BitVec 13) : BitVec 64 := (s.wreg a).val + (i.signExtend 64 <<< 3)

/-- Entries that the chunk has now and had not in state `old` are the control stream's, beside those that the run in flight reserved (R126). -/
def State.chargeCtl (s old : State) : State :=
  s.onCur fun g => { g with run := g.run.map fun r => { r with ctl := r.ctl + (g.chunk.quar.length - old.cur.chunk.quar.length) } }

/-- A uniform store first needs a free quarantine entry: at a shortfall the chunk closes and commits, and the store waits (R126). -/
def State.reserveOne (s : State) (f : Ans) : Ans :=
  if s.quarFree s.cur.core != 0 then (match f with | .next t => .next (t.chargeCtl s) | r => r)
  else if s.cur.pristine then .next s.stalled
  else s.closing false fun s => .next s

/-- `ldw`. -/
def execLdw (d a : BitVec 6) (i : BitVec 13) (s : State) : Ans :=
  s.deciding [a] (some d)
    (let ea := (s.uniEa a i).toNat
     match s.loadVa ea 8 0 with
     | (s, .bytes bs) => (s.setVal d (BitVec.ofNat 64 (leNat bs))).done
     | (s, .bad c) => let (s, t) := s.ctrlPoison c ea; (s.setW d (tokElem t)).done
     | (s, .remote) =>
       let id := s.nextKey
       .next ((s.fabricRead (remChip ea) (remWin ea) false (remOff ea) 8).onCur fun g =>
         { g with phase := .wait (.rload id d (BitVec.ofNat 64 ea)) }))

/-- `stw`. -/
def execStw (r a : BitVec 6) (i : BitVec 13) (s : State) : Ans :=
  s.deciding [a, r] none (s.reserveOne
    (let ea := (s.uniEa a i).toNat
     match s.storeVa ea 8 .write with
     | (s, .ok (id, vc)) => (s.quarantine (mkEntry id ea vc [.st (cellsAt (ea % 128) (toBytes 8 (s.wreg r).val.toNat))] none 0)).done
     | (s, .error c) => let (s, t) := s.ctrlPoison c ea; (s.poisonStore ea t (s.failedAt .control none t) 0).done))

/-- `ldws`: poison held in a scratch word reaches the uniform with the word's token (R124, R203), and a new crumb names the access (R269, log 13). -/
def execLdws (d a : BitVec 6) (i : BitVec 13) (s : State) : Ans :=
  s.deciding [a] (some d)
    (let ea := (s.uniEa a i).toNat
     let bad (s : State) (c : Cause) : Ans := let (s, t) := s.ctrlPoison c ea; (s.setW d (tokElem t)).done
     if ea % 8 != 0 then bad s Cause.invalid
     else match s.scratchLoad ea 8 with
       | (s, .ok bs) => (s.setVal d (BitVec.ofNat 64 (leNat bs))).done
       | (s, .error (.word t)) => ((s.ctrlPoison (tokenCause t) ea).1.setW d (tokElem t)).done
       | (s, .error (.cause c)) => bad s c)

/-- A poisoned scratch store, also one outside the allocation, is quarantined as poison and is live (R121, R270). -/
def State.poisonScratch (s : State) (a : Nat) (t : BitVec 32) (live : Live) (lpc : Nat) : State :=
  (s.quarantine (mkEntry (.scr s.team.key (a / 128)) a 0 [] (some t) lpc)).goLive live

/-- `stws`. -/
def execStws (r a : BitVec 6) (i : BitVec 13) (s : State) : Ans :=
  s.deciding [a, r] none (s.reserveOne
    (let ea := (s.uniEa a i).toNat
     match if ea % 8 != 0 then Except.error Cause.invalid else s.scratchCheck ea 8 with
     | .ok _ => (s.quarantine (mkEntry (.scr s.team.key (ea / 128)) ea 0
         [.st (cellsAt (ea % 128) (toBytes 8 (s.wreg r).val.toNat))] none 0)).done
     | .error c => let (s, t) := s.ctrlPoison c ea; (s.poisonScratch ea t (s.failedAt .control none t) 0).done))

/-! ## State registers (R144) -/

/-- The numbers that R144 lists. -/
def sregKnown (n : Nat) : Bool := n < 0x12 || (0x20 ≤ n && n < 0x40) || (0x100 ≤ n && n < 0x108)

/-- System registers. -/
def sregSystem (n : Nat) : Bool := 0x100 ≤ n

/-- Registers with an RW field: `EXM`, `PRIO`, the shapes, and every system register but `VCTBASE`. -/
def sregWritable (n : Nat) : Bool := n == 0x009 || n == 0x011 || (0x20 ≤ n && n < 0x40) || (0x100 ≤ n && n < 0x108 && n != 0x104)

/-- What `MFS` reads. -/
def State.sreg (s : State) (n : Nat) : BitVec 64 :=
  let g := s.cur
  let r := g.regs
  match n with
  | 0x000 => g.grp.setWidth 64
  | 0x001 => g.team.setWidth 64
  | 0x002 => g.gang.setWidth 64
  | 0x003 => g.lid.setWidth 64
  | 0x004 => BitVec.ofNat 64 g.width
  | 0x005 => BitVec.ofNat 64 g.core
  | 0x006 => s.chip.setWidth 64
  | 0x007 => BitVec.ofNat 64 s.clock
  | 0x008 => BitVec.ofNat 64 (s.pts g.core)
  | 0x009 => r.exm
  | 0x00A => BitVec.ofNat 64 r.mask.length
  | 0x00B => r.sigr
  | 0x00C => BitVec.ofNat 64 g.region.image
  | 0x00D => g.crumbLast.setWidth 64
  | 0x00E => BitVec.ofNat 64 r.laneq.length
  | 0x00F => BitVec.ofNat 64 r.v.length
  | 0x010 => BitVec.ofNat 64 (s.poolFree g.core)
  | 0x011 => r.prio.setWidth 64
  | 0x100 => g.sysr.asid.setWidth 64
  | 0x101 => g.sysr.ptbase
  | 0x102 => g.sysr.crumbbase
  | 0x103 => g.sysr.stbase
  | 0x104 => s.vctbase
  | 0x105 => s.wcbage.setWidth 64
  | 0x106 => s.lease.setWidth 64
  | 0x107 => s.placeb.setWidth 64
  | n => ((r.tsh[n - 0x20]?).getD 0).setWidth 64

/-- `mfs`: `EXM`, `MSDEPTH` and `SIGR` wait for an empty lane queue and the folds (R191, R342). -/
def execMfs (d : BitVec 6) (r : BitVec 13) (s : State) : Ans :=
  let n := r.toNat
  if !sregKnown n then .next (s.illegal tsIllegal 0 false)
  else if sregSystem n && n != 0x106 && s.cur.user then .next (s.illegal tsPriv 0 false)
  else s.interlock [d]
    (if n == 0x009 || n == 0x00A || n == 0x00B then
      (if s.cur.inRun || !s.cur.regs.laneq.isEmpty then .next s.stalled
       else let s := s.onRegs Regs.foldSigs; (s.setVal d (s.sreg n)).done)
     else (s.setVal d (s.sreg n)).done)

/-- Lanes that `EXM` can hold: those below the lane-facing width (R133, R233). -/
def Group.exmMask (g : Group) : BitVec 64 :=
  if g.shadow then 0xFFFFFFFF#64 else match g.width with | 16 => 0xFFFF#64 | 32 => 0xFFFFFFFF#64 | _ => 0xFFFFFFFFFFFFFFFF#64

/-- A write of `EXM` takes effect for lane blocks queued after it: it waits for those already queued (R133). -/
def State.writeExm (s : State) (v : BitVec 64) (f : State → Ans) : Ans :=
  if s.cur.inRun || !s.cur.regs.laneq.isEmpty then .next s.stalled
  else f (s.onRegs fun r => { r with exm := v &&& s.cur.exmMask })

/-- A write of `PRIO`, clamped to the launch priority (R144). -/
def State.writePrio (s : State) (v : BitVec 64) : State :=
  let p := v.setWidth 3
  s.onRegs fun r => { r with prio := if p.ult s.cur.launchPrio then p else s.cur.launchPrio }

/-- A write of a tile shape (R299). -/
def State.writeTsh (s : State) (n : Nat) (v : BitVec 64) : State := s.onRegs fun r => { r with tsh := r.tsh.set n (v.setWidth 20) }

/-- A write of `ASID` changes `ASID` alone (R442). -/
def State.writeAsid (s : State) (v : BitVec 64) : State := s.onCur fun g => { g with sysr := { g.sysr with asid := v.setWidth 16 } }

/-- A write of `LEASE` (R90). -/
def State.writeLease (s : State) (v : BitVec 64) : State := { s with lease := v.setWidth 24 }

/-- A write of a system register's RW fields. ASID, PTBASE, STBASE and CRUMBBASE are a set of the group that writes them (log 91). -/
def State.writeSys (s : State) (n : Nat) (v : BitVec 64) : State :=
  match n with
  | 0x100 => s.writeAsid v
  | 0x101 => s.onCur fun g => { g with sysr := { g.sysr with ptbase := v &&& 0xFFFFFFFE00000#64 } }
  | 0x102 => s.onCur fun g => { g with sysr := { g.sysr with crumbbase := v &&& 0xFFFFFFFFFF01F#64 } }
  | 0x103 => s.onCur fun g => { g with sysr := { g.sysr with stbase := v &&& 0xFFFFFFFFFFFFF#64 } }
  | 0x105 => { s with wcbage := v.setWidth 8 }
  | 0x106 => s.writeLease v
  | 0x107 => { s with placeb := v.setWidth 5 }
  | _ => s

/-- `mts` (R145, R204). -/
def execMts (a : BitVec 6) (r : BitVec 13) (s : State) : Ans :=
  let n := r.toNat
  let v := (s.wreg a).val
  if !sregKnown n then .next (s.illegal tsIllegal 0 false)
  else if sregSystem n && s.cur.user then .next (s.illegal tsPriv 0 false)
  else if !sregWritable n then .next (s.illegal tsIllegal 0 false)
  else s.deciding [a] none
    (if sregSystem n then s.closing false fun s => (s.writeSys n v).doneNew
     else if n == 0x009 then s.writeExm v State.done
     else if n == 0x011 then (s.writePrio v).done
     else (s.writeTsh (n - 0x20) v).done)

/-! ## The writes as steps of their own (spec 95) -/

/-- EXM_WRITE. -/
def execExmWrite (v : BitVec 64) (s : State) : Ans := s.writeExm v .next

/-- PRIO_WRITE. -/
def execPrioWrite (v : BitVec 64) (s : State) : Ans := .next (s.writePrio v)

/-- TSH_WRITE. -/
def execTshWrite (n : BitVec 5) (v : BitVec 64) (s : State) : Ans := .next (s.writeTsh n.toNat v)

/-- ASID_WRITE. -/
def execAsidWrite (v : BitVec 64) (s : State) : Ans := .next (s.writeAsid v)

/-- LEASE_WRITE. -/
def execLeaseWrite (v : BitVec 64) (s : State) : Ans := .next (s.writeLease v)

end Sys2Proof.Machine
end

