-- ==== Sys2Proof/Machine/Sync.lean ====
section
/-! DEFINITION. Fences, regions, barriers, watches, register claims, checks, batches and counters (R101, R102, R120, R136,
R205 to R211, R213 to R218). -/

namespace Sys2Proof.Machine

/-! ## Fences (R205, R357) -/

/-- An engine operation of the group has not ended. -/
def State.engineBusy (s : State) (k : Nat) : Bool := s.ops.any fun o => o.gkey == k

/-- A remote write of the group has not been acknowledged or still stands in a buffer, or one of its RMA writes is open. -/
def State.remoteBusy (s : State) (k : Nat) : Bool :=
  (s.outReqs.any fun r => match r.owner with | .write ks _ _ => ks.contains k | .red h _ _ _ _ _ => h == k | _ => false) ||
  (s.cores.any fun c => c.wcb.any fun e => e.gkeys.contains k) ||
  (s.netPend.any fun p => p.gkey == k && p.kind == 3)

/-- What a fence of a scope still waits for. -/
def State.fenceWaits (s : State) (k : Nat) (sc : Scope) : Bool :=
  match sc with
  | .pkg => s.engineBusy k
  | .sys => s.engineBusy k || s.remoteBusy k
  | _ => false

/-- Largest commit time among the ended operations of a group (R357). -/
def Group.engineTime (g : Group) : Nat :=
  maxNat (g.eng.flatMap fun e => [e.ctime] ++ e.ents.map OpEnt.ctime ++ e.closed.flatMap fun b => b.ents.map OpEnt.ctime)

/-- `fence`. -/
def execFence (sc : Scope) (s : State) : Ans :=
  s.closing true fun s =>
    let s := if sc == .sys then s.drainAll s.cur.core else s
    if s.fenceWaits s.cur.key sc then .next (s.advance.onCur fun g => { g with phase := .wait (.fence sc) }).newChunk
    else match sc with
      | .pkg | .sys => (s.raisePts s.cur.core s.cur.engineTime).doneNew
      | _ => s.doneNew

/-! ## Regions (R206, R207) -/

/-- Control word index of an address from the section base. -/
def Group.wordIndex (g : Group) (a : BitVec 64) : BitVec 32 := ((a - g.cbase) >>> 2).setWidth 32

/-- `rgn`. -/
def execRgn (p : Policy) (o : BitVec 23) (s : State) : Ans :=
  s.closing true fun s =>
    let l := if o == 0 then noLabel else s.cur.wordIndex (s.target o)
    (s.onCur fun g => { g with region := ⟨p, true, l⟩ }).doneNew

/-- Poisoned elements of the registers that a live set covers, in ascending register and lane order (R207, R445). -/
def Group.liveSet (g : Group) (m : BitVec 64) : List Live :=
  g.regs.v.zipIdx.flatMap fun x =>
    if m.getLsbD (x.2 / 4) then
      x.1.zipIdx.filterMap fun e => if e.1.poison && g.regs.exm.getLsbD e.2 then some (carried .cmt (some e.2) e.1.val) else none
    else []

/-- `cmt`. -/
def execCmt (a : BitVec 6) (s : State) : Ans :=
  s.deciding [a] none
    (if s.cur.inRun || !s.cur.regs.laneq.isEmpty then .next s.stalled
     else
      let s := s.onChunk fun c => { c with live := (c.live.filter fun l => l.src != .cmt) ++ s.cur.liveSet (s.wreg a).val }
      s.closing true fun s => (s.onCur fun g => { g with region := g.defaultRegion }).doneNew)

/-! ## Barriers (R208 to R210) -/

/-- The fields of a barrier word. -/
structure Bar where
  expect : Nat
  arrived : Nat
  phase : Nat
  ovf : Bool
  deriving DecidableEq, Repr

def Bar.ofWord (v : Nat) : Bar := ⟨bits v 0 16, bits v 16 16, bits v 32 31, bit v 63⟩
def Bar.word (b : Bar) : Nat := b.expect + b.arrived <<< 16 + (b.phase % 2 ^ 31) <<< 32 + b2n b.ovf <<< 63

/-- Phase `p` has completed (R208). -/
def Bar.completed (b : Bar) (p : Nat) : Bool :=
  let d := (b.phase + 2 ^ 31 - p % 2 ^ 31) % 2 ^ 31
  1 ≤ d && d ≤ 2 ^ 30

/-- The scratch address that a uniform gives: bits [18:0]. -/
def scratchAddr (v : BitVec 64) : Nat := v.toNat % 2 ^ 19

/-- The barrier word at a scratch address, or the cause that is live (R209, R210). -/
def State.barrier (s : State) (a : Nat) : Except Cause Bar :=
  let t := s.team
  if a % 8 != 0 || !t.inside a 8 then .error Cause.bounds
  else match t.wordToken (a / 8) with
    | some k => .error (Miss.word k).toCause
    | none => .ok (Bar.ofWord (memNat t.scratch a 8))

/-- The word after `n` arrivals: the phase joined and the new word (R209). -/
def Bar.arrive (b : Bar) (n : Nat) : Bar :=
  let x := b.arrived + n
  if b.expect ≤ x then
    { b with phase := (b.phase + 1) % 2 ^ 31, ovf := b.ovf || decide (b.expect < x), arrived := min (x - b.expect) 65535 }
  else { b with arrived := min x 65535 }

/-- A group waits at the barrier word of its team for a phase. -/
def Group.waitsAt (g : Group) (tk a p : Nat) : Bool :=
  g.teamKey == tk && match g.phase with | .parked (.barrier b q) => b == a && q.toNat == p | _ => false

/-- One barrier update: an engine commit of the scratch line, and the waiters of the phase wake (R208, R209). -/
def State.arriveAt (s : State) (a n : Nat) (b : Bar) : State :=
  let g := s.cur
  let b' := b.arrive n
  let (s, t) := s.scratchBytes g.teamKey g.core a (toBytes 8 b'.word)
  if b'.phase == b.phase then s
  else
    let ws := s.groups.filter fun h => h.waitsAt g.teamKey a b.phase
    ws.foldl (fun s h => (s.raisePts h.core t).onGroup h.key fun h => { h with phase := .run }) s

/-- Park at a barrier word; the team may now be in claim deadlock (R137, R210). -/
def State.parkBarrier (s : State) (a p : Nat) : State :=
  let tk := s.cur.teamKey
  (s.advance.park (.barrier a (BitVec.ofNat 31 p))).checkDeadlock tk

/-- Wait for a phase of a barrier word, or go on where it has completed (R210). -/
def State.waitPhase (s : State) (a p : Nat) (b : Bar) : Ans :=
  if b.completed p then (s.raisePts s.cur.core (s.team.lineTimes (a / 128)).1).doneNew else .next (s.parkBarrier a p)

/-- `arrive`. -/
def execArrive (d a : BitVec 6) (n : BitVec 7) (s : State) : Ans :=
  s.deciding [a] (some d) (s.closing true fun s =>
    let x := scratchAddr (s.wreg a).val
    match s.barrier x with
    | .error c => s.failLive c x (some d)
    | .ok b =>
      if b.expect == 0 then s.failLive Cause.invalid x (some d)
      else ((s.arriveAt x (n.toNat + 1) b).setVal d (BitVec.ofNat 64 b.phase)).doneNew)

/-- `waitb`. -/
def execWaitb (a b : BitVec 6) (s : State) : Ans :=
  s.deciding [a, b] none (s.closing false fun s =>
    let x := scratchAddr (s.wreg a).val
    match s.barrier x with
    | .error c => s.failLive c x none
    | .ok w => s.waitPhase x ((s.wreg b).val.toNat % 2 ^ 31) w)

/-- `bars`. -/
def execBars (a : BitVec 6) (n : BitVec 7) (s : State) : Ans :=
  s.deciding [a] none (s.closing true fun s =>
    let x := scratchAddr (s.wreg a).val
    match s.barrier x with
    | .error c => s.failLive c x none
    | .ok b =>
      if b.expect == 0 then s.failLive Cause.invalid x none
      else (s.arriveAt x (n.toNat + 1) b).waitPhase x b.phase (b.arrive (n.toNat + 1)))

/-! ## Watches (R101, R102, R211) -/

/-- `watch`. -/
def execWatch (a : BitVec 6) (s : State) : Ans :=
  s.deciding [a] none (s.closing false fun s =>
    let va := (s.wreg a).val.toNat
    match s.translate s.cur.xl va .read with
    | (s, .error c) => s.failLive c va none
    | (s, .ok p) =>
      let l := p.pa / 128
      let s := s.fold l
      if s.pts s.cur.core < (s.times l).1 then s.doneNew
      else
        let d := s.home l
        let e : WatchEnt := ⟨d, l, s.cur.key, decide (s.tableCount d < 64)⟩
        .next ({ s with watches := s.watches ++ [e] }.advance.park (.watch l)))

/-! ## Register claims (R136, R137, R213, R214) -/

/-- `vclaim`. -/
def execVclaim (n : BitVec 7) (s : State) : Ans :=
  s.closing false fun s =>
    if 256 < s.cur.regs.v.length + 8 * n.toNat then .next (s.illegal tsIllegal 0 false)
    else
      let k := s.cur.key
      let tk := s.cur.teamKey
      let s := s.advance.park (.claim n.toNat)
      let s : State := { s with claims := s.claims ++ [(s.cur.core, ⟨k, n.toNat, 0⟩)] }
      .next ((s.freedBlocks s.cur.core).checkDeadlock tk)

/-- `vrel`. -/
def execVrel (n : BitVec 7) (s : State) : Ans :=
  s.closing true fun s =>
    if s.cur.granules ≤ n.toNat then .next (s.illegal tsIllegal 0 false)
    else
      let s := (s.onRegs fun r => { r with v := r.v.take (r.v.length - 8 * n.toNat) }).advance.newChunk
      .next (s.freedBlocks s.cur.core)

/-! ## The control-side check (R215, R343, R346) -/

/-- `sigchk`. -/
def execSigchk (p : BitVec 24) (s : State) : Ans :=
  if !s.cur.checked then s.done
  else if s.cur.regs.sigr.extractLsb' 0 24 == p then (s.onRegs fun r => { r with unchecked := false }).done
  else .next (s.mismatch 0)

/-! ## Batches and counters (R120, R216 to R218) -/

/-- `efen`. -/
def execEfen (e : Engine) (d r : BitVec 6) (s : State) : Ans :=
  s.deciding [r] (some d) (s.closing false fun s =>
    let a := scratchAddr (s.wreg r).val
    if a % 8 != 0 || !s.team.inside a 256 then s.failLive Cause.bounds a (some d)
    else
      let n := (s.cur.engAt e).openNum
      let s := (s.onEng s.cur.key e fun st => { st with cursor := some (a + 256) }).closeBatch s.cur.key e (some a)
      (s.setVal d (n.setWidth 64)).doneNew)

/-- `ewait`. -/
def execEwait (e : Engine) (a : BitVec 6) (s : State) : Ans :=
  s.deciding [a] none
    (if (s.cur.engAt e).passed ((s.wreg a).val.setWidth 32) then (s.sawEngine e).done else .next s.stalled)

/-- `cwait`. -/
def execCwait (a b d : BitVec 6) (s : State) : Ans :=
  s.deciding [a, b] (some d) (s.closing false fun s =>
    let name := (s.wreg a).val.setWidth 16
    let thr := (s.wreg b).val
    match s.counter? s.cur.sysr.asid name with
    | none => s.failLive Cause.bounds 0 (some d)
    | some (v, t) =>
      if thr.ule v then ((s.raisePts s.cur.core t).setVal d v).doneNew
      else .next (s.advance.park (.counter name thr d)))

end Sys2Proof.Machine
end

