-- ==== Sys2Proof/Machine/Launch.lean ====
section
/-! DEFINITION. Launch records and the launch front (R212, R387, R389 to R391, R393 to R396, R401). -/

namespace Sys2Proof.Machine

/-! ## Statuses -/

/-- Answers of LAUNCH and of host messages (R212, R387, R389). -/
def ansOk : BitVec 8 := 0
def ansFull : BitVec 8 := 1
def ansBadrec : BitVec 8 := 2
def ansFault : BitVec 8 := 3
def ansBadctx : BitVec 8 := 4
def ansSafe : BitVec 8 := 5
/-- BUSY and BADARG of R389. -/
def ansBusy : BitVec 8 := 1
def ansBadarg : BitVec 8 := 2

/-! ## Records (R393, R394) -/

/-- The 8-byte word at an offset of listed bytes. -/
def word8 (bs : List Byte) (o : Nat) : Nat := leNat ((bs.drop o).take 8)

/-- Fields that R393 gives, word by word: every other bit is reserved. -/
def recordMasks : List (Nat × Nat) :=
  [(0x00, 0x1FFF7F7F7FFF), (0x08, 0x0F3F01FFFFFFFFFF), (0x10, 0xFFFFF), (0x30, 0xFFFFFFFF), (0x38, 0), (0x40, 0x1FFFF), (0x50, 0x1FFFF),
   (0x60, 0x1FFFF), (0x70, 0x1FFFF), (0x80, 0x1FFFF), (0x98, 0x7F1F), (0xA0, 0), (0xA8, 0), (0xB0, 0), (0xB8, 0)]

/-- The record that 256 bytes hold, its range list apart. -/
def LaunchRec.ofBytes (bs : List Byte) : LaunchRec :=
  let q := word8 bs
  let dep (d : Nat) : List (BitVec 16 × BitVec 64) :=
    if bit (q (0x40 + 16 * d)) 16 then [(BitVec.ofNat 16 (q (0x40 + 16 * d)), BitVec.ofNat 64 (q (0x48 + 16 * d)))] else []
  { width := bits (q 0) 8 7, shadow := bit (q 0) 16, checked := bit (q 0) 17, policy := if bits (q 0) 18 2 == 2 then .drop else .replay,
    prio := BitVec.ofNat 3 (bits (q 0) 20 3), teamg := bits (q 0) 24 7, teams := bits (q 0) 32 13, gangs := bits (q 8) 0 32,
    vregs := bits (q 8) 32 9, tiles := bits (q 8) 48 6, accs := bits (q 8) 56 4, scratch := bits (q 0x10) 0 20,
    cbase := BitVec.ofNat 64 (q 0x18), lbase := BitVec.ofNat 64 (q 0x20), args := BitVec.ofNat 64 (q 0x28),
    entry := BitVec.ofNat 32 (q 0x30), deps := dep 0 ++ dep 1 ++ dep 2 ++ dep 3,
    ccntr := if bit (q 0x80) 16 then some (BitVec.ofNat 16 (q 0x80)) else none, crec := BitVec.ofNat 64 (q 0x88), ranges := [],
    chips := (bs.drop 0xC0).take (bits (q 0x98) 8 7) }

/-- Groups of a team on its even core (R392). -/
def evenGroups (teamg : Nat) : Nat := min teamg 32

/-- A section base of R393. -/
def sectionOk (v : Nat) : Bool := decide (v < 2 ^ 56) && v % 4096 == 0

/-- The checks of fields and fit of R394. -/
def recordOk (bs : List Byte) : Bool :=
  let q := word8 bs
  let r := LaunchRec.ofBytes bs
  let n := evenGroups r.teamg
  bs.length == 256 && recordMasks.all (fun m => q m.1 == q m.1 &&& m.2) &&
  bits (q 0) 0 8 == 1 && (r.width == 16 || r.width == 32 || r.width == 64) && (!r.shadow || r.width == 64) &&
  bits (q 0) 18 2 % 2 == 0 && 1 ≤ r.teamg && r.teamg ≤ 64 && 1 ≤ r.teams && r.teams ≤ 4096 && 1 ≤ r.gangs &&
  8 ≤ r.vregs && r.vregs ≤ 256 && r.vregs % 8 == 0 && r.tiles % 2 == 0 && r.tiles ≤ 32 && r.accs ≤ 8 && r.scratch ≤ 524288 &&
  sectionOk (q 0x18) && sectionOk (q 0x20) && r.entry.toNat % 4 == 0 && q 0x88 % 16 == 0 && q 0x90 % 16 == 0 &&
  bits (q 0x98) 0 5 ≤ 16 && bits (q 0x98) 8 7 ≤ 64 &&
  n * (136 * r.width + 1024) ≤ 262144 && n * (r.vregs / 8) * (r.width / 16) ≤ 1024 && n * r.tiles ≤ 32 && n * r.accs ≤ 8

/-- The chip list is one that R394 allows here. -/
def chipsOk (me : BitVec 8) (r : LaunchRec) : Bool :=
  r.chips.isEmpty || (decide (r.chips.length ≤ r.teams) && (dedup r.chips).length == r.chips.length && r.chips.contains me)

/-- Every counter in use is one that `CWAIT` would take in the context (R394). -/
def State.countersOk (s : State) (a : BitVec 16) (r : LaunchRec) : Bool :=
  (r.deps.map Prod.fst ++ r.ccntr.toList).all fun c => (s.counter? a c).isSome

/-- An entry of the range list (R393). -/
def rangeOf (bs : List Byte) : Option LRange :=
  let b := word8 bs 0
  let l := word8 bs 8
  let r : LRange := { base := BitVec.ofNat 64 b, len := bits l 0 40, hint := bits l 40 4 }
  if b % 65536 == 0 && r.len != 0 && r.len % 65536 == 0 && l < 2 ^ 44 then some r else none

/-- Read `n` bytes at an aligned virtual address, none of them across a page, coherently at their home. -/
def State.readVa (s : State) (x : Xl) (va n : Nat) : State × Except Cause (List Byte) :=
  match s.translate x va .read with
  | (s, .error c) => (s, .error c)
  | (s, .ok p) =>
    match s.peekBytes p.pa n (some p.vc) with
    | (s, _, some t) => (s, .error (tokenCause t))
    | (s, bs, none) => (s, .ok bs)

/-- Read a range list of `n` entries. -/
def State.readRanges (s : State) (x : Xl) (va : Nat) : Nat → State × Except (Option Cause) (List LRange)
  | 0 => (s, .ok [])
  | n + 1 =>
    match s.readVa x va 16 with
    | (s, .error c) => (s, .error (some c))
    | (s, .ok bs) =>
      match rangeOf bs with
      | none => (s, .error none)
      | some r =>
        match s.readRanges x (va + 16) n with
        | (s, .ok rs) => (s, .ok (r :: rs))
        | (s, .error e) => (s, .error e)

/-- The launch front's check of a record: the record, or the cause of a failed read, or nothing for BADREC (R394). -/
def State.checkRecord (s : State) (x : Xl) (bs : List Byte) : State × Except (Option (Cause × Nat)) LaunchRec :=
  let r := LaunchRec.ofBytes bs
  if !recordOk bs || !chipsOk s.chip r || !s.countersOk x.asid r then (s, .error none)
  else
    match s.readRanges x (word8 bs 0x90) (bits (word8 bs 0x98) 0 5) with
    | (s, .ok rs) => (s, .ok { r with ranges := rs })
    | (s, .error (some c)) => (s, .error (some (c, word8 bs 0x90)))
    | (s, .error none) => (s, .error none)

/-! ## Queues (R396) -/

/-- The translator of the launch front in an address space; ASID 0 needs no context. -/
def State.frontXl (s : State) (a : BitVec 16) : Xl :=
  match s.ctx? a with
  | some c => { c.xl with user := a != 0 }
  | none => { asid := a, ptbase := 0, user := a != 0, core := none, promote := true, die := 0 }

/-- A context that takes launches. -/
def State.liveCtx (s : State) (a : BitVec 16) : Bool := ((s.ctx? a).map fun c => !c.killed).getD false

/-- The queue of a context at a priority is full. -/
def State.queueFull (s : State) (a : BitVec 16) (p : BitVec 3) : Bool :=
  decide (256 ≤ (s.launches.filter fun l => l.asid == a && l.prio == p).length)

/-- Queue a checked record. `key` is the gang key of another origin, `time` the logical time of the command (R352). -/
def State.queueLaunch (s : State) (a : BitVec 16) (r : LaunchRec) (p : BitVec 3) (key : Option (BitVec 8 × BitVec 32)) (time : Nat) : State :=
  let lid := s.nextLid
  let (o, ol) := key.getD (s.chip, lid)
  let l : Launch := { lid := lid, asid := a, lrec := r, prio := p, arrival := s.nextKey, nextGang := 0, passed := 0, started := false,
                      counted := 0, origin := o, olid := ol, stop := none, staged := 0, time := time }
  { s with nextLid := lid + 1, nextKey := s.nextKey + 1, launches := s.launches ++ [l] }

/-- The origin of a gang sends the launch to the other chips of the list (R390). -/
def State.startGang (s : State) (lid : BitVec 32) (a : BitVec 16) (chips : List (BitVec 8)) (bs : List Byte) : State :=
  let others := chips.filter fun c => c != s.chip
  if others.isEmpty then s
  else others.foldl (fun s c => s.toChip .request c a (.gangLaunch lid bs)) { s with gangs := s.gangs ++ [⟨lid, a, others, others, false⟩] }

/-- Check, queue and send one record (R394, R396, R390). Answers the status, the `LAUNCHID`, and where a read failed. -/
def State.submit (s : State) (x : Xl) (cap : BitVec 3) (bs : List Byte) : State × BitVec 8 × BitVec 32 × Option (Cause × Nat) :=
  match s.checkRecord x bs with
  | (s, .error none) => (s, ansBadrec, 0, none)
  | (s, .error (some c)) => (s, ansFault, 0, some c)
  | (s, .ok r) =>
    let p := if cap.ult r.prio then cap else r.prio
    if s.queueFull x.asid p then (s, ansFull, 0, none)
    else
      let lid := s.nextLid
      ((s.queueLaunch x.asid r p none ((x.core.map s.pts).getD 0)).startGang lid x.asid r.chips bs, ansOk, lid, none)

/-- `launch` (R212). -/
def execLaunch (d a : BitVec 6) (s : State) : Ans :=
  s.deciding [a] (some d) (s.closing false fun s =>
    let va := (s.wreg a).val.toNat
    let ans (s : State) (st : BitVec 8) (hi : BitVec 32) : Ans := (s.setVal d (hi ++ 0#24 ++ st)).doneNew
    let fault (s : State) (c : Cause) (at_ : Nat) : Ans := let (s, t) := s.ctrlPoison c at_; ans s ansFault t
    if va % 256 != 0 then ans s ansBadrec 0
    else match s.readVa s.cur.xl va 256 with
      | (s, .error c) => fault s c va
      | (s, .ok bs) =>
        match s.submit s.cur.xl s.cur.regs.prio bs with
        | (s, _, _, some (c, at_)) => fault s c at_
        | (s, st, lid, none) => ans s st lid)

/-- A host launch's status: a range list that cannot be read is BADREC. -/
def hostStatus (st : BitVec 8) : BitVec 8 := if st == ansFault then ansBadrec else st

/-- HOST_LAUNCH_MESSAGE (R387). -/
def execHostLaunchMessage (hdr bs : List Byte) (s : State) : Ans :=
  let cookie := BitVec.ofNat 64 (word8 hdr 8)
  let asid := BitVec.ofNat 16 (word8 hdr 0 >>> 32)
  let formed := hdr.length == 64 && word8 hdr 0 == 1 + asid.toNat <<< 32 && (hdr.drop 16).all fun b => b == 0
  if s.dev != .running then .next (s.emit (.launchReply cookie ansSafe 0))
  else if !formed then .next (s.emit (.launchReply cookie ansBadrec 0))
  else if asid == 0 || !s.liveCtx asid then .next (s.emit (.launchReply cookie ansBadctx 0))
  else
    let (s, st, lid, _) := s.submit (s.frontXl asid) 7 bs
    .next (s.emit (.launchReply cookie (hostStatus st) lid))

/-- SYSLAUNCH (R389). -/
def execSyslaunch (asid : BitVec 16) (bs : List Byte) (s : State) : Ans :=
  if s.dev != .running then .next (s.emit (.answer 13 ansSafe 0))
  else if asid != 0 then .next (s.emit (.answer 13 ansBadctx 0))
  else
    let (s, st, lid, _) := s.submit (s.frontXl 0) 7 bs
    .next (s.emit (.answer 13 (hostStatus st) (lid.setWidth 64)))

/-! ## Teams of a launch -/

/-- Teams of one gang that run on this chip (R395). -/
def LaunchRec.here (r : LaunchRec) (me : BitVec 8) : List Nat :=
  (List.range r.teams).filter fun t => r.chips.isEmpty || r.chips[t * r.chips.length / r.teams]? == some me

/-- Teams of a launch on this chip. -/
def State.teamsHere (s : State) (l : Launch) : Nat := l.lrec.gangs * (l.lrec.here s.chip).length

/-! ## Held requests (R401) -/

/-- What a request that carries a gang key meets: it proceeds, it fails, or it is held. -/
inductive HoldRes where
  | proceed | fail | hold
  deriving DecidableEq, Repr

/-- The state of a gang on this chip. -/
def State.gangHere (s : State) (k : BitVec 8 × BitVec 32) : HoldRes :=
  if s.abortKeys.contains k then .fail
  else if s.endedKeys.contains k then .proceed
  else match s.launches.find? fun l => (l.origin, l.olid) == k with
    | some l => if l.stop == some tsAborted then .fail else if l.started then .proceed else .hold
    | none => .hold

/-- Held requests of a gang whose state has changed proceed or fail. -/
def State.releaseHeld (s : State) (k : BitVec 8 × BitVec 32) : State :=
  match s.gangHere k with
  | .hold => s
  | .proceed => (s.holds.filter fun q => q.gang == some k).foldl (fun s q => s.later (arrivalOf q))
      { s with holds := s.holds.filter fun q => q.gang != some k }
  | .fail => (s.holds.filter fun q => q.gang == some k).foldl (fun s q => s.reply q Cause.remoteUnreach false [])
      { s with holds := s.holds.filter fun q => q.gang != some k }

/-! ## Gangs across chips (R390, R391) -/

/-- End a launch here: queued teams will be recorded with the status, started ones end with it. -/
def State.stopLaunch (s : State) (l : Launch) (status : BitVec 8) : State :=
  let s := s.onLaunch l.lid fun l => { l with stop := l.stop <|> some status }
  (s.teams.filter fun t => t.lid == l.lid && t.endSt.isNone).foldl (fun s t => s.endTeam t.key status 0 0) s

/-- The abort of a gang key on this chip. -/
def State.abortHere (s : State) (k : BitVec 8 × BitVec 32) : State :=
  let s : State := { s with abortKeys := if s.abortKeys.contains k then s.abortKeys else s.abortKeys ++ [k] }
  let s := (s.launches.filter fun l => (l.origin, l.olid) == k).foldl (fun s l => s.stopLaunch l tsAborted) s
  s.releaseHeld k

/-- The origin aborts a gang: every other chip of the list is told, and the launch ends here. -/
def State.abortGang (s : State) (lid : BitVec 32) : State :=
  match s.gangs.find? fun g => g.lid == lid && !g.aborted with
  | none => s
  | some g =>
    let s : State := { s with gangs := s.gangs.map fun h => if h.lid == lid then { h with left := h.chips, aborted := true } else h }
    (g.chips.foldl (fun s c => s.toChip .request c g.asid (.gangAbort lid)) s).abortHere (s.chip, lid)

/-- GANG_LAUNCH_RECEIVE: check as a local launch in the header's context, queue and acknowledge, or refuse with the status (R390, R391). -/
def execGangLaunchReceive (h : Hdr) (lid : BitVec 32) (asid : BitVec 16) (bs : List Byte) (s : State) : Ans :=
  let origin := h.src
  let ack (s : State) (st : BitVec 8) : State := s.toChip .response origin asid (.gangAck lid st)
  .next (s.here h (.gangLaunch lid bs) fun s =>
  if s.dev != .running then ack s ansSafe
  else if s.abortKeys.contains (origin, lid) then ack s tsAborted
  else if asid != 0 && !s.liveCtx asid then ack s ansBadctx
  else match s.checkRecord (s.frontXl asid) bs with
    | (s, .error _) => ack s ansBadrec
    | (s, .ok r) =>
      if s.queueFull asid r.prio then ack s ansFull else ack (s.queueLaunch asid r r.prio (some (origin, lid)) 0) ansOk)

/-- GANG_ACK_RECEIVE: an acknowledgement, a refusal, or the acknowledgement of an abort (R390, R391). -/
def execGangAckReceive (lid : BitVec 32) (h : Hdr) (status : BitVec 8) (s : State) : Ans :=
  .next (s.here h (.gangAck lid status) fun s =>
    match s.gangs.find? fun g => g.lid == lid with
    | none => s
    | some g =>
      let got : State := { s with gangs := (s.gangs.map fun x => if x.lid == lid then { x with left := x.left.filter fun c => c != h.src } else x).filter
                                    fun x => x.lid != lid || !x.left.isEmpty }
      if g.aborted then if status == tsAborted then got else s
      else if status == ansOk then got
      else s.abortGang lid)

/-- GANG_TIMEOUT: acknowledgements are missing when the timeout ends (R390). -/
def execGangTimeout (lid : BitVec 32) (s : State) : Ans := .next (s.abortGang lid)

/-- GANG_ABORT_RECEIVE (R391). -/
def execGangAbortReceive (h : Hdr) (lid : BitVec 32) (s : State) : Ans :=
  .next (s.here h (.gangAbort lid) fun s => (s.abortHere (h.src, lid)).toChip .response h.src h.asid (.gangAck lid tsAborted))

/-- GANG_ABORT_RESEND: to each chip that has not acknowledged the abort (R391). -/
def execGangAbortResend (lid : BitVec 32) (s : State) : Ans :=
  match s.gangs.find? fun g => g.lid == lid && g.aborted with
  | none => .next s
  | some g => .next (g.left.foldl (fun s c => s.toChip .request c g.asid (.gangAbort lid)) s)

/-- GANG_KEY_EXPIRY: 1 s has passed since the abort (R391). -/
def execGangKeyExpiry (origin : BitVec 8) (lid : BitVec 32) (s : State) : Ans :=
  .next { s with abortKeys := s.abortKeys.filter fun k => k != (origin, lid),
                 gangs := if origin == s.chip then s.gangs.filter fun g => !(g.lid == lid && g.aborted) else s.gangs }

end Sys2Proof.Machine
end

