-- ==== Sys2Proof/Machine/Teams.lean ====
section
/-! DEFINITION. The dispatcher: admission and placement (R397, R398, R403), activation (R399), deactivation and pre-emption (R400, R406),
completion (R408, R409), and the messages RESUME and WITHDRAW (R389). -/

namespace Sys2Proof.Machine

/-! ## Admission and placement -/

/-- The core of a group of a team that lies on a pair when it has more than 32 groups (R392). -/
def Team.coreOf (t : Team) (grp : Nat) : Nat := if 32 ≤ grp then t.core + 1 else t.core

/-- Cores that a team uses. -/
def Team.cores (t : Team) : List Nat := if 32 < t.ngroups then [t.core, t.core + 1] else [t.core]

/-- Groups of a team on a core. -/
def Team.groupsOn (t : Team) (core : Nat) : Nat :=
  if core == t.core then min t.ngroups 32 else if core == t.core + 1 then t.ngroups - 32 else 0

/-- Two teams share a core. -/
def Team.meets (t u : Team) : Bool := t.placed && u.placed && t.cores.any fun c => u.cores.contains c

/-- Admitted groups of a core (R398). -/
def State.admittedOn (s : State) (core : Nat) : Nat := sumNat (s.admittedTeams.map fun t => t.groupsOn core)

/-- Scratch bytes of a core that active teams hold (R121). -/
def State.scratchUsed (s : State) (core : Nat) : Nat := sumNat ((s.teams.filter fun t => t.active && t.core == core).map Team.scrSize)

/-- First address at or above `a` where a slot of `n` bytes meets no other (R398). The frame area is searched in slots' own order. -/
def firstFit (n : Nat) : Nat → List Team → Nat
  | a, [] => a
  | a, t :: ts => if a + n ≤ t.frameAt then a else firstFit n (max a (t.frameAt + t.slotSize)) ts

/-- A frame slot of `n` bytes in the management core's frame area. -/
def State.findSlot (s : State) (n : Nat) : Option Nat :=
  let a := firstFit n Config.frameAreaBase (sortBy Team.frameAt s.admittedTeams)
  if a + n ≤ 0x3000000000 then some a else none

/-- Bytes of a team's frame slot (R398). -/
def LaunchRec.slotBytes (r : LaunchRec) : Nat := r.teamg * Machine.frameSize r.width 256 r.tiles r.accs + roundUp r.scratch 4096

/-- Core of ring position `k`, even core of a pair (R403). -/
def unitCore (pair : Bool) (k : Nat) : Nat := k % 4 * 64 + (if pair then 2 * (k / 4) else k / 4)

/-- The cores of a unit are in the ring. -/
def State.unitGood (s : State) (pair : Bool) (c : Nat) : Bool :=
  !s.lostDies.contains (c / 64) && !s.badCores.contains c && (!pair || !s.badCores.contains (c + 1))

/-- The ring positions in order after the cursor. -/
def State.ringFrom (s : State) (pair : Bool) : List Nat :=
  let n := if pair then 128 else 256
  let cur := if pair then s.cursor2 else s.cursor1
  ((List.range n).map fun i => (cur + 1 + i) % n).filter fun k => s.unitGood pair (unitCore pair k)

/-- Skip counts are kept by core, or by 256 + even core for a pair. -/
def skipKey (pair : Bool) (c : Nat) : Nat := if pair then 256 + c else c

/-- Headroom of a unit: the lesser of temperature and droop, of both cores of a pair (R403). What a sensor reports now is a free value (log 77). -/
def State.score (s : State) (pair : Bool) (c : Nat) : Nat :=
  let one (k : Nat) : Nat := min (Config.headroom 0 k s.clock % 16) (Config.headroom 1 k s.clock % 16)
  if pair then min (one c) (one (c + 1)) else one c

/-- R398 holds on a unit for a team of a record. -/
def State.canAdmit (s : State) (r : LaunchRec) (c : Nat) : Bool :=
  decide (s.admittedOn c + min r.teamg 32 ≤ 256) && (decide (r.teamg ≤ 32) || decide (s.admittedOn (c + 1) + (r.teamg - 32) ≤ 256)) &&
  decide (s.scratchUsed c + roundUp r.scratch 4096 ≤ 524288) && (s.findSlot r.slotBytes).isSome

/-- The first of the highest score. -/
def State.bestUnit (s : State) (pair : Bool) : List Nat → Option Nat
  | [] => none
  | k :: ks => some (ks.foldl (fun a b => if s.score pair (unitCore pair a) < s.score pair (unitCore pair b) then b else a) k)

/-- `Place` of R403: the ring position chosen, with the cursor and the skip counts after it. -/
def State.place (s : State) (r : LaunchRec) : Option (State × Nat) :=
  let pair := decide (32 < r.teamg)
  let F := ((s.ringFrom pair).take 8).filter fun k => s.canAdmit r (unitCore pair k)
  let B := if s.placeb.toNat % 16 == 0 then 3 else s.placeb.toNat % 16
  let skip (k : Nat) : Nat := assocD 0 s.skips (skipKey pair (unitCore pair k))
  let pick := (F.find? fun k => decide (B ≤ skip k)) <|> (if bit s.placeb.toNat 4 then s.bestUnit pair F else F.head?)
  match pick with
  | none => none
  | some k =>
    let skips := F.foldl (fun l j => assocSet l (skipKey pair (unitCore pair j)) (if j == k then 0 else skip j + 1)) s.skips
    let s : State := { s with skips := skips }
    some (if pair then { s with cursor2 := k } else { s with cursor1 := k }, unitCore pair k)

/-- A team record before it is placed. -/
def newTeam (key : Nat) (l : Launch) (gang num : Nat) : Team :=
  { key := key, lid := l.lid, gang := BitVec.ofNat 32 gang, num := BitVec.ofNat 12 num, asid := l.asid, core := 0, ngroups := l.lrec.teamg,
    prio := l.prio, scrSize := roundUp l.lrec.scratch 4096, scratch := [], scrPois := [], scrTs := [], placed := false, active := false,
    started := false, leaving := false, admitted := key, activated := 0, since := none, quantum := false, frameAt := 0,
    slotSize := l.lrec.slotBytes, endSt := none, recorded := false }

/-- Admit the teams of a gang one by one, each placed on what the others leave. -/
def State.admitTeams (s : State) (l : Launch) (gang : Nat) : List Nat → Option State
  | [] => some s
  | n :: ns =>
    match s.place l.lrec with
    | none => none
    | some (s, c) =>
      let t := newTeam s.nextKey l gang n
      let t := { t with core := c, placed := true, frameAt := (s.findSlot t.slotSize).getD 0, since := some s.nextKey }
      let s : State := { s with nextKey := s.nextKey + 1, teams := s.teams ++ [t] }
      s.admitTeams l gang ns

/-- Every dependence of a launch has reached its target (R396). -/
def State.eligible (s : State) (l : Launch) : Bool :=
  l.lrec.deps.all fun d => match s.counter? l.asid d.1 with | some (v, _) => d.2.ule v | none => false

/-- Launches with a gang to admit, in queue order (R25). -/
def State.queueOrder (s : State) : List Launch :=
  sortBy (fun l => (7 - l.prio.toNat) * 2 ^ 64 + l.arrival) (s.launches.filter fun l => decide (l.nextGang < l.lrec.gangs))

/-- The next gang that can be admitted, among launches in queue order; `before` are those passed (R397). -/
def State.admitNext (s : State) (before : List (BitVec 32)) : List Launch → Option State
  | [] => none
  | l :: ls =>
    match s.admitTeams l l.nextGang (l.lrec.here s.chip) with
    | some t =>
      some { t with launches := t.launches.map fun m =>
        if m.lid == l.lid then { m with nextGang := m.nextGang + 1, passed := 0 }
        else if before.contains m.lid then { m with passed := m.passed + 1 } else m }
    | none => if 16 ≤ l.passed then none else s.admitNext (before ++ [l.lid]) ls

/-- The teams of a stopped launch's next gang end without a place (R389, R391). -/
def State.dropGang (s : State) (l : Launch) (status : BitVec 8) : State :=
  let s := (l.lrec.here s.chip).foldl (fun s n =>
    let t := newTeam s.nextKey l l.nextGang n
    ({ s with nextKey := s.nextKey + 1, teams := s.teams ++ [{ t with endSt := some ⟨status, 0, 0, 0⟩ }] } : State).countTeamFault status) s
  s.onLaunch l.lid fun l => { l with nextGang := l.nextGang + 1 }

/-- The device runs teams: not in the safe state, in a P state (R426, R428). -/
def State.working (s : State) : Bool :=
  s.dev == .running && match s.power with | .p0 | .p1 | .p2 | .p3 => true | _ => false

/-- What a GANG_ADMIT would do, if anything. -/
def State.admitGang (s : State) : Option State :=
  match s.launches.find? fun l => l.stop.isSome && decide (l.nextGang < l.lrec.gangs) with
  | some l => some (s.dropGang l (l.stop.getD 0))
  | none => if s.working then s.admitNext [] ((s.queueOrder).filter s.eligible) else none

/-- GANG_ADMIT (R397). -/
def execGangAdmit (s : State) : Ans := .next (s.admitGang.getD s)

/-! ## Activation (R399) -/

/-- What wakes a group of an inactive team: it is ready, or what it waits for has come about (R400). -/
def State.groupReady (s : State) (g : Group) : Bool :=
  match g.phase with
  | .run => true
  | .wait _ => true
  | .parked (.replay _ _ _) => !g.asked && s.serviced g
  | .parked (.fetch _ _) => !g.asked && s.serviced g
  | .parked (.batch e n _) => (g.engAt e).passed n
  | .parked (.counter name thr _) => match s.counter? g.sysr.asid name with | some (v, _) => thr.ule v | none => true
  | _ => false

/-- A team waits for room (R400). -/
def State.teamWaits (s : State) (t : Team) : Bool :=
  t.placed && !t.active && t.endSt.isNone && (!t.started || (s.groupsOf t.key).any s.groupReady)

/-- Number of the moment at which a team began to wait for room. -/
def Team.waitsFrom (t : Team) : Nat := t.since.getD t.admitted

/-- `u` goes before `t` on a core they share (R399, R400). -/
def goesBefore (u t : Team) : Bool :=
  if u.quantum && decide (u.waitsFrom < t.admitted) then true
  else if t.quantum && decide (t.waitsFrom < u.admitted) then false
  else t.prio.ult u.prio || (u.prio == t.prio && decide (u.admitted < t.admitted))

/-- No waiting team that shares a core goes before. -/
def State.firstInLine (s : State) (t : Team) : Bool := !(s.teams.any fun u => u.key != t.key && u.meets t && s.teamWaits u && goesBefore u t)

/-- What a group of a record needs, or a group that exists: undo bytes, vector blocks, tiles, accumulators, groups. -/
def need (w v t a : Nat) : List Nat := [136 * w + 1024, v / 8 * (w / 16), t, a, 1]

def Group.need (g : Group) : List Nat := Machine.need g.width g.regs.v.length g.tiles.length g.accs.length

/-- Sums, entry by entry. -/
def addNeed (a b : List Nat) : List Nat := List.zipWith (· + ·) a b

/-- What the active groups of a core hold. -/
def State.heldOn (s : State) (core : Nat) : List Nat :=
  ((s.groups.filter fun g => g.alive && g.core == core && s.activeTeam g.teamKey).map Group.need).foldl addNeed [0, 0, 0, 0, 0]

/-- What a team needs on a core. -/
def State.needOn (s : State) (t : Team) (core : Nat) : List Nat :=
  if t.started then (((s.groupsOf t.key).filter fun g => g.alive && g.core == core).map Group.need).foldl addNeed [0, 0, 0, 0, 0]
  else match s.launch? t.lid with
    | some l => (Machine.need l.lrec.width l.lrec.vregs l.lrec.tiles l.lrec.accs).map fun n => n * t.groupsOn core
    | none => [0, 0, 0, 0, 0]

/-- What a core has. -/
def coreHas : List Nat := [262144, 1024, 32, 8, 64]

/-- Every resource of R399 is free at once. -/
def State.fitsNow (s : State) (t : Team) : Bool :=
  decide (s.scratchUsed t.core + t.scrSize ≤ 524288) &&
  t.cores.all fun c => (List.zipWith (fun a b => decide (a ≤ b)) (addNeed (s.heldOn c) (s.needOn t c)) coreHas).all id

/-- A group that starts (R131 to R133, R144, R399). -/
def State.newGroup (s : State) (t : Team) (l : Launch) (key grp : Nat) : Group :=
  let r := l.lrec
  let lanes : BitVec 64 := if r.shadow || r.width == 32 then 0xFFFFFFFF#64 else if r.width == 16 then 0xFFFF#64 else 0xFFFFFFFFFFFFFFFF#64
  let c := (s.ctx? t.asid).getD { (default : Ctx) with asid := t.asid }
  let regs : Regs := { Regs.blank with v := zeroGranules (r.vregs / 8) r.width, w := Regs.blank.w.set 0 ⟨r.args, false⟩, exm := lanes,
                                       cpc := pcOf (r.cbase + r.entry.setWidth 64), prio := l.prio }
  { Group.blank with
    key := key, teamKey := t.key, lid := t.lid, gang := t.gang, team := t.num, grp := BitVec.ofNat 6 grp, core := t.coreOf grp,
    width := r.width, user := t.asid != 0, shadow := r.shadow, checked := r.checked, launchPrio := l.prio, dflt := r.policy,
    region := ⟨r.policy, false, noLabel⟩, cbase := r.cbase, lbase := r.lbase, sysr := ⟨c.asid, c.pt, c.shard, c.crumb⟩,
    regs := regs, undo := regs, tiles := List.replicate r.tiles ⟨[], false, 0⟩, accs := List.replicate r.accs ⟨[], false, 0⟩,
    chunk := Chunk.empty s.clock s.nextKey, phase := .run }

/-- The groups of a team start. Their chunks follow what the issuing group had committed or observed before its command (R352). -/
def State.startTeam (s : State) (t : Team) (l : Launch) : State :=
  let s := t.cores.foldl (fun s c => s.raisePts c l.time) s
  let gs := (List.range t.ngroups).map fun i => s.newGroup t l (s.nextKey + i) i
  { s with rest := s.rest ++ gs, nextKey := s.nextKey + t.ngroups }

/-- The current group comes back with its team: its frame is restored whole (R143, R399). It goes on with what it did: a group that still waits for RESUME
or for the service of a replay keeps its frame, whose control state is loaded again then (R389, R407); one whose command was answered meanwhile takes the
answer (R405). -/
def State.restoreGroup (s : State) : State :=
  let g := s.cur
  if g.frame.isNone then s
  else
    let s := s.resumeFrame true
    if s.cur.phase != .run then s
    else match g.phase with
      | .wait (.got d e) => s.answerW g.key d e
      | ph =>
        let keep := ph != .run && (g.reason == 1 || g.reason == 2)
        s.onCur fun h => { h with phase := ph, frame := if keep then g.frame else none, reason := if keep then g.reason else 0 }

/-- A team that resumes takes its scratch image from its frame slot (R399). The words of a line that cannot be read take the line's poison; the words
that were poisoned at the save stay so (log 25). -/
def State.restoreScratch (s : State) (t : Team) : State :=
  let (s, cs) := (List.range (t.scrSize / 128)).foldl (fun (r : State × List (Nat × LineSt)) i =>
    let (s, c) := r.1.imageLine t i
    (s, (i, c) :: r.2)) (s, [])
  s.onTeam t.key fun u =>
    let clean := cs.reverse.filter fun p => p.2.x.isNone
    let u := { u with scratch := clean.flatMap fun p => p.2.data.map fun b => (p.1 * 128 + b.1, b.2) }
    (cs.reverse.filter fun p => p.2.x.isSome).foldl (fun u p => u.takeLine p.1 p.2) u

/-- A team becomes active: its groups start, or its scratch and its groups come back from its frame slot. -/
def State.activate (s : State) (t : Team) : State :=
  let s := s.onTeam t.key fun t => { t with active := true, started := true, activated := s.nextKey, since := none, quantum := false,
                                            leaving := false }
  let s : State := { s with nextKey := s.nextKey + 1 }
  if t.started then
    let s := s.restoreScratch t
    let s := (s.groupsOf t.key).foldl (fun s g => if g.alive then s.withGroup g.key State.restoreGroup else s) s
    t.cores.foldl (fun s c => s.freedBlocks c) s
  else match s.launch? t.lid with
    | none => s
    | some l =>
      let s := (s.startTeam t l).onLaunch t.lid fun l => { l with started := true }
      s.releaseHeld (l.origin, l.olid)

/-- A team may become active now. -/
def State.canActivate (s : State) (t : Team) : Bool := s.working && s.teamWaits t && s.firstInLine t && s.fitsNow t

/-- TEAM_ACTIVATE (R399). -/
def execTeamActivate (team : Nat) (s : State) : Ans :=
  match s.team? team with
  | none => .next s
  | some t => if s.canActivate t then .next (s.activate t) else .next s

/-! ## Deactivation and pre-emption (R400, R406) -/

/-- The current group is saved for its team's deactivation: a parked group at once, a running one, also one that waits for the answer of a command, at its
run boundary, its chunk squashed, and once its matrix operations have ended (R400, R406). -/
def State.leave (s : State) : State :=
  let g := s.cur
  if g.frame.isSome || !g.alive then s
  else match g.phase with
    | .parked (.fetch _ _) | .run | .wait _ =>
      if g.run.isSome || g.chunk.committing || s.matrixBusy g.key then s else s.squash.saveFrame 3 0
    | .parked _ => if s.matrixBusy g.key then s else s.saveFrame 4 0
    | _ => s

/-- Every group of a team has ended or stands in its frame. -/
def State.allSaved (s : State) (k : Nat) : Bool := (s.groupsOf k).all fun g => !g.alive || g.frame.isSome

/-- The last frame is written: the scratch image follows and the resources return. A team that WITHDRAW stops ends instead. -/
def State.finishLeave (s : State) (k : Nat) : State :=
  match s.team? k with
  | none => s
  | some t =>
    if !t.leaving || t.endSt.isSome || !s.allSaved k then s
    else if ((s.launch? t.lid).bind Launch.stop).isSome then
      let s := s.endTeam k (((s.launch? t.lid).bind Launch.stop).getD 0) 0 0
      (s.groupsOf k).foldl (fun s g => s.endGroup g.key) s
    else
      let s := s.writeImage t.imageAt t.scrSize t.scratch
      let s := s.onTeam k fun t => { t with active := false, leaving := false, since := none }
      t.cores.foldl (fun s c => s.freedBlocks c) s

/-- PREEMPT of group `k` of a team that is being deactivated (R406). -/
def execPreempt (k : Nat) (s : State) : Ans :=
  match s.group? k with
  | none => .next s
  | some g =>
    if ((s.team? g.teamKey).map fun t => t.leaving && t.endSt.isNone).getD false then .next ((s.withGroup k State.leave).finishLeave g.teamKey)
    else .next s

/-- Deactivate: what can be saved at once is, the rest follows step by step. -/
def State.deactivate (s : State) (k : Nat) : State :=
  let s := s.onTeam k fun t => { t with leaving := true }
  ((s.groupsOf k).foldl (fun s g => s.withGroup g.key State.leave) s).finishLeave k

/-- A group that counts as parked in the parked case of R400. -/
def Group.longParked (g : Group) : Bool :=
  match g.phase with
  | .parked (.barrier _ _) | .parked (.watch _) | .parked (.counter _ _ _) | .parked (.batch _ _ _) | .parked (.replay _ _ _)
  | .parked (.fetch _ _) | .ended => true
  | _ => false

/-- PARKED_TEAM_TIMEOUT: every group parked for 100 µs while another team waits for room there (R400). -/
def execParkedTeamTimeout (team : Nat) (s : State) : Ans :=
  match s.team? team with
  | none => .next s
  | some t =>
    if t.active && !t.leaving && t.endSt.isNone && (s.groupsOf team).all Group.longParked && s.teams.any (fun u => u.key != team && u.meets t && s.teamWaits u)
    then .next (s.deactivate team) else .next s

/-- QUANTUM_EXPIRY: team `team` has waited 2 ms; the active team of lowest priority, then earliest activated, leaves for it (R400). -/
def execQuantumExpiry (team : Nat) (s : State) : Ans :=
  match s.team? team with
  | none => .next s
  | some t =>
    let vs := s.teams.filter fun u => u.active && !u.leaving && u.endSt.isNone && u.meets t && u.prio.ule t.prio
    if s.teamWaits t then
      match (sortBy (fun u => u.prio.toNat * 2 ^ 64 + u.activated) vs).head? with
      | none => .next s
      | some v => .next ((s.onTeam team fun t => { t with quantum := true, since := t.since <|> some t.admitted }).deactivate v.key)
    else .next s

/-! ## Completion (R408, R409) -/

/-- The 16 bytes of a completion record. -/
def EndSt.bytes (e : EndSt) : List Byte :=
  toBytes 4 (e.status.toNat + 2 ^ 8 + e.grp.toNat <<< 16) ++ toBytes 4 e.token.toNat ++ toBytes 8 (e.ltime % 2 ^ 64)

/-- A team has ended, its groups have stopped and its engine operations have ended. -/
def State.teamDone (s : State) (t : Team) : Bool :=
  s.hasEnded t && !(s.ops.any fun o => o.teamKey == t.key)

/-- Forget a team: its slot, its admission count and its groups' records return. -/
def State.dropTeam (s : State) (t : Team) : State :=
  { s with teams := s.teams.filter fun u => u.key != t.key, rest := s.rest.filter fun g => g.teamKey != t.key,
           cur := if s.cur.teamKey == t.key then Group.blank else s.cur,
           cores := s.cores.map fun c => { c with boxes := c.boxes.filter fun b => b.team != t.key } }

/-- Answer the withdrawals whose launches have gone (R389). -/
def State.answerWithdrawals (s : State) : State :=
  let gone (w : Withdrawal) : Bool := w.lids.all fun l => (s.launch? l).isNone
  (s.withdrawals.filter gone).foldl (fun s w => s.emit (.answer 15 ansOk (BitVec.ofNat 64 w.total)))
    { s with withdrawals := s.withdrawals.filter fun w => !gone w }

/-- A team is counted in its launch; after the last one the launch leaves its queue (R396, R401, R409). -/
def State.countTeam (s : State) (l : Launch) : State :=
  let s := s.onLaunch l.lid fun l => { l with counted := l.counted + 1 }
  if s.teamsHere l ≤ l.counted + 1 then
    let s : State := { s with launches := s.launches.filter fun m => m.lid != l.lid,
                              endedKeys := if l.lrec.chips.isEmpty then s.endedKeys else s.endedKeys ++ [(l.origin, l.olid)] }
    (s.releaseHeld (l.origin, l.olid)).answerWithdrawals
  else s

/-- Write a team's completion record. Answers the time of the commit, or the cause that makes it unwritable: no translation, a lost line, or a line
that stays X after the write. -/
def State.putRecord (s : State) (a : BitVec 16) (va : Nat) (bs : List Byte) : State × Except Cause Nat :=
  match s.translate (s.frontXl a) va .write with
  | (s, .error c) => (s, .error c)
  | (s, .ok p) =>
    if s.lostDies.contains (s.home (p.pa / 128)) then (s, .error Cause.dieLost)
    else
      let (s, t) := s.putAt none p bs
      match s.lineX (p.pa / 128) with
      | some k => (s, .error (lineCause k))
      | none => (s, .ok t)

/-- Count a team's end in the completion counter. -/
def State.countEnd (s : State) (l : Launch) (err : Bool) (t : Nat) : State :=
  match l.lrec.ccntr with | some c => s.countNamed l.asid c err t | none => s

/-- The record of an ended team, or what stands for it; then its count. A killed team whose record cannot be written is not counted in
the completion counter (R408, R409, R413). -/
def State.completeTeam (s : State) (t : Team) (e : EndSt) : State :=
  match s.launch? t.lid with
  | none => s.dropTeam t
  | some l =>
    let va := (l.lrec.crec.toNat + 16 * (t.gang.toNat * l.lrec.teams + t.num.toNat)) % 2 ^ 64
    let s := match s.putRecord t.asid va e.bytes with
      | (s, .ok time) => s.countEnd l (e.status != tsOk) time
      | (s, .error c) =>
        if e.status == tsKilled then s
        else
          let x := (s.ctx? t.asid).getD default
          let (s, tok) := s.makeCrumb x.crumb none none { cause := c, lane := 0, ctrl := true, grp := 0, team := t.num.toNat, lpc := 0,
                                                          gang := t.gang.toNat, cpcw := 0, va := va, ltime := s.pts t.core }
          (s.emit (.note 3 tok.toNat)).countEnd l true 0
    (s.dropTeam t).countTeam l

/-- TEAM_COMPLETE (R408). -/
def execTeamComplete (team : Nat) (s : State) : Ans :=
  match s.team? team with
  | none => .next s
  | some t => if s.teamDone t then .next (s.completeTeam t (t.endSt.getD default)) else .next s

/-! ## RESUME and WITHDRAW (R389) -/

/-- RESUME: the group goes on after its `BRK` or `SYSC` with what its frame holds; in an inactive team, at its activation. -/
def execResume (asid : BitVec 16) (lid gang : BitVec 32) (team : BitVec 12) (grp : BitVec 6) (s : State) : Ans :=
  if s.dev != .running then .next (s.emit (.answer 14 ansSafe 0))
  else if asid != 0 && (s.ctx? asid).isNone then .next (s.emit (.answer 14 ansBadctx 0))
  else
    let hit (g : Group) : Bool :=
      (match g.phase with | .parked .brk | .parked .sysc => true | _ => false) && g.lid == lid && g.gang == gang && g.team == team && g.grp == grp &&
      ((s.team? g.teamKey).map Team.asid) == some asid
    match s.groups.find? hit with
    | none => .next (s.emit (.answer 14 ansBadarg 0))
    | some g =>
      let s := if s.activeTeam g.teamKey then s.withGroup g.key (fun s => s.resumeFrame false)
        else s.onGroup g.key fun g => { g with phase := .run }
      .next (s.emit (.answer 14 ansOk 0))

/-- Withdraw one launch: running groups leave by the pre-emption flow, queued and inactive teams end at once. -/
def State.withdrawLaunch (s : State) (l : Launch) : State :=
  let s := s.onLaunch l.lid fun l => { l with stop := l.stop <|> some tsWithdrawn }
  (s.teams.filter fun t => t.lid == l.lid && t.endSt.isNone).foldl (fun s t =>
    if t.active then s.deactivate t.key
    else (s.groupsOf t.key).foldl (fun s g => s.endGroup g.key) (s.endTeam t.key tsWithdrawn 0 0)) s

/-- WITHDRAW. -/
def execWithdraw (asid : BitVec 16) (lid : BitVec 32) (all : Bool) (s : State) : Ans :=
  if s.dev != .running then .next (s.emit (.answer 15 ansSafe 0))
  else if asid != 0 && (s.ctx? asid).isNone then .next (s.emit (.answer 15 ansBadctx 0))
  else
    let ls := s.launches.filter fun l => l.asid == asid && (all || l.lid == lid)
    if ls.isEmpty && !all then .next (s.emit (.answer 15 ansBadarg 0))
    else
      let open_ := sumNat (ls.map fun l => (l.lrec.gangs - l.nextGang) * (l.lrec.here s.chip).length +
        (s.teams.filter fun t => t.lid == l.lid && t.endSt.isNone).length)
      let s : State := { s with withdrawals := s.withdrawals ++ [⟨ls.map Launch.lid, open_⟩] }
      .next (ls.foldl State.withdrawLaunch s).answerWithdrawals

end Sys2Proof.Machine
end

