-- ==== Sys2Proof/Machine/Engines.lean ====
section
/-! DEFINITION. What the four engines share (R104, R105, R114 to R118, R306, R311, R400): making an operation, reading its source, writing its
destination, suspending, ending. -/

namespace Sys2Proof.Machine

/-- A new operation of the current group. -/
def State.newOp (s : State) (e : Engine) (i : Instr) (args : List (BitVec 64)) : EngOp :=
  let g := s.cur
  { id := s.nextKey, core := g.core, gkey := g.key, teamKey := g.teamKey, eng := e, instr := i, args := args, img := [], imgPois := [],
    shapes := g.regs.tsh, src := none, dst := none, sysr := g.sysr, user := g.user, active := false, suspended := none, pos := 0, status := 0,
    token := 0, count := 0, failed := [], seen := [], out := 0, parts := [], hdr := [], ctime := 0, cpcw := BitVec.ofNat 24 g.cpcw, grp := g.grp, team := g.team,
    gang := g.gang }

/-- Enter an operation in its queue and in the group's open batch (R105, R306). -/
def State.startOp (s : State) (o : EngOp) (kind : Nat) : State :=
  ({ s with nextKey := s.nextKey + 1, ops := s.ops ++ [o] } : State).enterOp o.gkey o.eng o.id kind

/-- An operation that a check ends at issue still occupies its batch entry (R110). -/
def State.deadOp (s : State) (o : EngOp) (kind : Nat) (status : BitVec 8) (token : BitVec 32) : State :=
  (s.startOp o kind).endOp o status 0 token true

/-- Boxes enter a core's range-lock table (R111). -/
def State.lockBoxes (s : State) (core : Nat) (bs : List Box) : State := s.onCore core fun c => { c with boxes := c.boxes ++ bs }

/-- Operations of an engine queued on a core. -/
def State.queued (s : State) (core : Nat) (e : Engine) : List EngOp := s.ops.filter fun o => o.core == core && o.eng == e

/-- The queue and the range-lock table of a core take one operation with `n` boxes (R105, R306). -/
def State.roomFor (s : State) (core : Nat) (e : Engine) (cap n : Nat) : Bool :=
  decide ((s.queued core e).length < cap) && decide ((s.coreAt core).boxes.length + n ≤ 256)

/-- The control stream waits for an answer: its command's chunk has committed and the next chunk starts after the command. -/
def State.await (s : State) (w : Wait) : State := (s.advance.onCur fun g => { g with phase := .wait w }).newChunk

/-- A command either issues, and the stream goes on, or is held with the chunk committed (R105, R306). -/
def State.issueOrHold (s : State) (i : Instr) (f : State → Option State) : Ans :=
  match f s with
  | some t => t.doneNew
  | none => .next (s.await (.issue i s.pc))

/-- A held command of group `k` tries again; one whose group stands in its frame waits for the team (R400). -/
def State.retryIssue (s : State) (k : Nat) (f : Instr → State → Option State) : State :=
  match ((s.group? k).filter fun g => g.frame.isNone).map Group.phase with
  | some (.wait (.issue i pc)) =>
    s.withGroup k fun s =>
      let back := s.pc
      match f i (s.goto pc) with
      | some t => (t.goto back).onCur fun g => { g with phase := match g.phase with | .wait _ => .run | p => p }
      | none => s
  | _ => s

/-- A page miss that the migration engine serves (R21, R29, R117). -/
def State.movable (s : State) (x : Xl) (va : Nat) : Bool := match s.walk x va with | (_, .miss m) => m | _ => false

/-- The operation's group stands in the frame of a team that leaves: in one of REASON 3 its copies and its suspended matrix operations wait for the team,
in one of REASON 4 its matrix operations (R117, R311, R400, R406). -/
def State.opHeld (s : State) (o : EngOp) : Bool :=
  ((s.group? o.gkey).map fun g => g.frame.isSome && (g.reason == 3 || (g.reason == 4 && o.eng == .matrix))).getD false

/-- The first event of an operation keeps its token (R117, R119). -/
def EngOp.note (o : EngOp) (token : BitVec 32) : EngOp := if o.token == 0 then { o with token := token } else o

/-- Commit times are collected for the batch (R119). -/
def EngOp.time (o : EngOp) (t : Nat) : EngOp := { o with ctime := max o.ctime t }

/-- Poison was carried: the status unless a later one replaces it (R116). -/
def EngOp.poisoned (o : EngOp) (token : BitVec 32) : EngOp := { o.note token with status := if o.status == 0 then stPoisoned else o.status }

/-- The crumb of a poisoned source line or word, made once (R116). -/
def State.sourceCrumb (s : State) (o : EngOp) (key : Nat) (c : Cause) (va : Nat) : State × EngOp × BitVec 32 :=
  match o.seen.find? fun p => p.1 == key with
  | some p => (s, o, p.2)
  | none =>
    let (s, t) := s.enginePoison o c va
    (s, { o.poisoned t with seen := o.seen ++ [(key, t)] }, t)

/-- What an engine reads: bytes, and the token that poisons the destination. -/
structure Fetched where
  bytes : List Byte
  tok : Option (BitVec 32)
  deriving DecidableEq, Repr

/-- Read `n` bytes within one memory line for an operation (R115, R116). -/
def State.engRead (s : State) (o : EngOp) (va n hint : Nat) : State × EngOp × Except Cause Fetched :=
  match s.translate o.xl va .read with
  | (s, .error c) => (s, o, .error c)
  | (s, .ok p) =>
    let (s, c) := s.readPlace (p.pa / 128) p.vc (some (hintLevel hint p.hint))
    match c.x with
    | none => (s, o, .ok ⟨memBytes c.data (p.pa % 128) n, none⟩)
    | some t =>
      let (s, o, k) := s.sourceCrumb o (p.pa / 128 * 4 + 1) (lineCause t) va
      (s, o, .ok ⟨List.replicate n 0, some k⟩)

/-- Write bytes, by offset, in the memory line that holds an address, for an operation (R96, R115). A partial write that leaves an X line X makes the
status POISONED (R116). -/
def State.engCells (s : State) (o : EngOp) (va : Nat) (cells : Mem) (tok : Option (BitVec 32)) : State × EngOp × Option Cause :=
  match s.translate o.xl va .write with
  | (s, .error c) => (s, o, some c)
  | (s, .ok p) =>
    let (s, t) := s.engineWrite (some o.core) (p.pa / 128) p.vc cells tok
    let o := o.time t
    (s, match s.lineX (p.pa / 128) with
      | some k => o.poisoned k
      | none => o, none)

/-- Write bytes within one memory line from an address on. -/
def State.engWrite (s : State) (o : EngOp) (va : Nat) (f : Fetched) : State × EngOp × Option Cause :=
  s.engCells o va (cellsAt (va % 128) f.bytes) f.tok

/-- Poisoned words among `n` scratch bytes. -/
def Team.poisonedWords (t : Team) (a n : Nat) : List (Nat × BitVec 32) :=
  if t.scrPois.isEmpty then [] else (wordsOf a n).filterMap fun w => (t.wordToken w).map fun k => (w, k)

/-- Read `n` scratch bytes for an operation: one crumb for each poisoned word (R116). -/
def State.engScrRead (s : State) (o : EngOp) (a n : Nat) : State × EngOp × Fetched :=
  let t := (s.team? o.teamKey).getD default
  let (s, o, tok) := (t.poisonedWords a n).foldl (fun (r : State × EngOp × Option (BitVec 32)) w =>
    let (s, o, k) := r.1.sourceCrumb r.2.1 (w.1 * 4) (lineCause w.2) (max (8 * w.1) a)
    (s, o, r.2.2 <|> some k)) (s, o, none)
  (s, o, ⟨memBytes t.scratch a n, tok⟩)

/-- Write scratch bytes by address for an operation, a line at a time; poison marks the words (R116, R124). -/
def State.engScrCells (s : State) (o : EngOp) (cells : Mem) (tok : Option (BitVec 32)) : State × EngOp :=
  (splitLines cells).foldl (fun r q =>
    let cs := q.2.map fun c => (q.1 * 128 + c.1, c.2)
    let (s, t) := r.1.scratchCommit o.teamKey o.core q.1 fun t =>
      match tok with
      | some k => (dedup (cs.map fun c => c.1 / 8)).foldl (fun t w => t.poisonWord w k) t
      | none => t.putBytes cs
    (s, r.2.time t)) (s, o)

/-- Write scratch bytes from an address on. -/
def State.engScrWrite (s : State) (o : EngOp) (a : Nat) (f : Fetched) : State × EngOp := s.engScrCells o (cellsAt a f.bytes) f.tok

/-- Put an operation's new record in place of the old one. -/
def State.keepOp (s : State) (o : EngOp) : State := s.onOp o.id fun _ => o

/-- Suspend an operation at an address until its page's migration ends (R117). -/
def State.suspendOp (s : State) (o : EngOp) (va : Nat) : State :=
  (s.askPromotion o.xl va).keepOp { o with suspended := some (BitVec.ofNat 64 va) }

/-- A suspended operation may go on: its page has moved, and its team is active or has ended (R117, R311, R400, log 94). -/
def State.mayResume (s : State) (o : EngOp) : Bool :=
  match o.suspended with
  | none => true
  | some va => !s.migrating o.sysr.asid va && !s.opHeld o && !((s.team? o.teamKey).map fun t => !t.active && t.endSt.isNone).getD false

/-- An operation resumes where it stopped (R117). -/
def State.resumeOp (s : State) (o : EngOp) : State := if s.mayResume o then s.keepOp { o with suspended := none } else s

end Sys2Proof.Machine
end

