-- ==== Sys2Proof/Machine/Shard.lean ====
section
/-! DEFINITION. The sharding table (R49 to R53, R59). -/

namespace Sys2Proof.Machine

/-- Bytes of an element (R49). -/
def Shard.elemBytes (e : Shard) : Nat := 2 ^ e.esz

/-- Chips of one replica's grid (R50). -/
def Shard.gridSize (e : Shard) : Nat := (e.grid.take e.rank).foldl (· * ·) 1

/-- The five values of a field, 1 for dimensions at and above RANK (R50). -/
def Shard.dim (e : Shard) (f : List Nat) (j : Nat) : Nat := if j < e.rank then f.getD j 1 else 1

/-- The entry that 128 bytes hold (R49). -/
def Shard.ofBytes (bs : List Byte) : Shard :=
  let n (o k : Nat) := leNat ((bs.drop o).take k)
  let h := n 0 4
  { rank := bits h 0 3, esz := bits h 4 2, valid := bit h 7, repl := bits h 8 8,
    order := (List.range 5).map (fun k => bits h (16 + 3 * k) 3), gen := BitVec.ofNat 16 (n 4 2), win := BitVec.ofNat 12 (n 6 2),
    base := BitVec.ofNat 64 (n 8 8), gdim := (List.range 5).map (fun j => n (0x10 + 4 * j) 4),
    shape := (List.range 5).map (fun j => n (0x24 + 4 * j) 4), grid := (List.range 5).map (fun j => n (0x38 + j) 1),
    chips := (List.range 64).map (fun k => BitVec.ofNat 8 (n (0x40 + k) 1)) }

/-- The checks of R50. -/
def Shard.legal (e : Shard) : Bool :=
  let js := List.range e.rank
  1 ≤ e.rank && e.rank ≤ 5 && 1 ≤ e.repl && e.repl ≤ 64 &&
  (js.all fun j => 1 ≤ e.gdim.getD j 0 && 1 ≤ e.shape.getD j 0 && 1 ≤ e.grid.getD j 0 &&
    (e.grid.getD j 0 - 1) * e.shape.getD j 0 < e.gdim.getD j 0 && e.gdim.getD j 0 ≤ e.grid.getD j 0 * e.shape.getD j 0) &&
  decide (e.gridSize * e.repl ≤ 64) &&
  (js.all fun k => decide (e.order.getD k 0 < e.rank) && js.all fun l => k == l || e.order.getD k 0 != e.order.getD l 0) &&
  ((List.range 5).all fun k => k < e.rank || e.order.getD k 0 == 0) &&
  decide ((js.foldl (fun n j => n * e.shape.getD j 1) 1) * e.elemBytes < 2 ^ 40)

/-- Entries of the table that STBASE locates (R33). -/
def shardCount (stbase : BitVec 64) : Nat := 16 * (stbase.toNat % 4096 + 1)

/-- Physical address of the entry of a handle (R59). -/
def shardAt (stbase : BitVec 64) (h : Nat) : Nat := bits stbase.toNat 12 40 * 4096 + 128 * h

/-- Keep an entry in a cluster's cache of 256 (R59). -/
def State.shardKeep (s : State) (cl : Nat) (x : ShardE) : State :=
  s.onCluster cl fun k => { k with shards := (x :: k.shards.filter fun y => !(y.asid == x.asid && y.h == x.h)).take 256 }

/-- `ShardEntry(h)`: from the cluster's cache, else from the table through VC 0 (R52, R59). What the core does under the entry follows the commit
that wrote it (R352). -/
def State.shardEntry (s : State) (core : Nat) (asid : BitVec 16) (stbase : BitVec 64) (h : BitVec 16) : State × Except Cause Shard :=
  if shardCount stbase ≤ h.toNat then (s, .error Cause.bounds)
  else
    let ok (e : Shard) : Except Cause Shard := if e.valid then .ok e else .error Cause.bounds
    match (s.clusterAt (clusterOf core)).shards.find? fun y => y.asid == asid && y.h == h with
    | some y => (s.raisePts core y.time, ok y.e)
    | none =>
      let (s, c) := s.readPlace (shardAt stbase h.toNat / 128) 0 none
      match c.x with
      | some t => (s, .error (tokenCause t))
      | none =>
        let e := Shard.ofBytes (memBytes c.data 0 128)
        let t := (s.times (shardAt stbase h.toNat / 128)).1
        ((s.shardKeep (clusterOf core) ⟨asid, h, e, t⟩).raisePts core t, ok e)

/-- The chips that own an element and its address there: `none` where an index is out of range (R52). -/
def Shard.resolve (e : Shard) (idx : List Nat) : Option (List (BitVec 8) × Nat) :=
  let js := List.range 5
  if js.any fun j => e.dim e.gdim j ≤ idx.getD j 0 then none
  else
    let g := (js.foldl (fun (a : Nat × Nat) j => (a.1 + idx.getD j 0 / e.dim e.shape j * a.2, a.2 * e.dim e.grid j)) (0, 1)).1
    let off := ((List.range e.rank).foldl (fun (a : Nat × Nat) k =>
      let j := e.order.getD k 0
      (a.1 + idx.getD j 0 % e.dim e.shape j * a.2, a.2 * e.dim e.shape j)) (0, 1)).1
    some ((List.range e.repl).map (fun k => e.chips.getD (k * e.gridSize + g) 0), (e.base.toNat + off * e.elemBytes) % 2 ^ 64)

/-- The owner that a read goes to: this chip, else the fewest hops, else the lowest replica (R53). -/
def State.nearest (s : State) (owners : List (BitVec 8)) : BitVec 8 :=
  if owners.contains s.chip then s.chip
  else match owners with
    | [] => s.chip
    | o :: os => os.foldl (fun a b => if hops s.chip b < hops s.chip a then b else a) o

end Sys2Proof.Machine
end

