-- ==== Sys2Proof/Machine/Copy.lean ====
section
/-! DEFINITION. The copy engine (R56, R104 to R117, R444). -/

namespace Sys2Proof.Machine

/-! ## What a copy moves -/

/-- Where bytes lie: memory, scratch, or another chip's window at a virtual address. -/
inductive CLoc where
  | mem (va : Nat)
  | scr (a : Nat)
  | rem (chip : BitVec 8) (win : BitVec 12) (va : Nat)
  deriving DecidableEq, Repr

/-- One transfer within one line of every memory side: `n` bytes, the position after it, its piece, and the token of a poisoned index. -/
structure CSeg where
  src : CLoc
  dsts : List CLoc
  n : Nat
  adv : Nat
  piece : Nat
  tok : Option (BitVec 32)
  deriving DecidableEq, Repr

/-- Bytes left in the line of an address. -/
def toLine (a : Nat) : Nat := 128 - a % 128

/-- An address modulo 2^64. -/
def wrap64 (i : Int) : Nat := wrapInt i 64

/-- Signed value of `n` bits of a uniform at `lo`. -/
def sfield (v : BitVec 64) (lo n : Nat) : Int := sextInt (bits v.toNat lo n) n

/-- The fields of a `CPY` descriptor (R107): rows, addresses, strides. -/
structure CpyDesc where
  n0 : Nat
  n1 : Nat
  n2 : Nat
  ms1 : Int
  ms2 : Int
  ss1 : Int
  ss2 : Int
  m : Nat
  s : Nat
  deriving DecidableEq, Repr

/-- Operand uniforms w[a] to w[a+3], w[b], w[c]. -/
def CpyDesc.ofArgs (l : List (BitVec 64)) : CpyDesc :=
  let u (i : Nat) : BitVec 64 := l.getD i 0
  { n0 := bits (u 0).toNat 0 24, n1 := bits (u 0).toNat 24 20, n2 := bits (u 0).toNat 44 20, ms1 := sfield (u 1) 0 64, ms2 := sfield (u 2) 0 64,
    ss1 := sfield (u 3) 0 32, ss2 := sfield (u 3) 32 32, m := (u 4).toNat, s := (u 5).toNat % 2 ^ 19 }

/-- The fields of a `CPYG` descriptor (R108). -/
structure CpygDesc where
  n0 : Nat
  ni : Nat
  iw : Nat
  unit : Int
  idx : Nat
  ss1 : Int
  m : Nat
  s : Nat
  mbz : Bool
  deriving DecidableEq, Repr

def CpygDesc.ofArgs (l : List (BitVec 64)) : CpygDesc :=
  let u (i : Nat) : BitVec 64 := l.getD i 0
  { n0 := bits (u 0).toNat 0 24, ni := bits (u 0).toNat 24 20, iw := if bit (u 0).toNat 44 then 8 else 4, unit := sfield (u 1) 0 64,
    idx := (u 2).toNat % 2 ^ 19, ss1 := sfield (u 3) 0 32, m := (u 4).toNat, s := (u 5).toNat % 2 ^ 19,
    mbz := bits (u 0).toNat 45 19 == 0 && (u 2).toNat < 2 ^ 19 && (u 3).toNat < 2 ^ 32 }

/-- Index `i` of a `CPYG` list: its value, or the token of a poisoned word. -/
def EngOp.index (o : EngOp) (d : CpygDesc) (i : Nat) : Except (BitVec 32) Nat :=
  let a := d.idx + i * d.iw
  match (wordsOf a d.iw).findSome? fun w => (o.imgPois.find? fun p => p.1 == w).map Prod.snd with
  | some t => .error t
  | none => .ok (memNat o.img (i * d.iw) d.iw)

/-- Start of row `r` in memory and in scratch. -/
def CpyDesc.row (d : CpyDesc) (r : Nat) : Int × Int :=
  let j : Int := (r % d.n1 : Nat)
  let k : Int := (r / d.n1 : Nat)
  (d.m + k * d.ms2 + j * d.ms1, d.s + k * d.ss2 + j * d.ss1)

/-- A transfer of bytes `i` on of a row. -/
def rowSeg (store : Bool) (mem scr : Nat) (n0 pos i : Nat) (tok : Option (BitVec 32)) (skip : Bool) : CSeg :=
  let n := if skip then n0 - i else min (n0 - i) (if tok.isSome then toLine scr else toLine mem)
  { src := if store then .scr scr else .mem mem, dsts := if skip then [] else [if store then .mem mem else .scr scr], n := n, adv := pos + n,
    piece := 0, tok := tok }

/-- The transfer of a `CPY` at byte position `pos`, none after the last. -/
def CpyDesc.seg (d : CpyDesc) (store : Bool) (pos : Nat) : Option CSeg :=
  if d.n0 * d.n1 * d.n2 ≤ pos then none
  else
    let (m, s) := d.row (pos / d.n0)
    let i := pos % d.n0
    some (rowSeg store (wrap64 (m + i)) (wrap64 (s + i)) d.n0 pos i none false)

/-- The transfer of a `CPYG` at byte position `pos`. -/
def EngOp.gatherSeg (o : EngOp) (d : CpygDesc) (store : Bool) (pos : Nat) : Option CSeg :=
  if d.n0 * d.ni ≤ pos then none
  else
    let r := pos / d.n0
    let i := pos % d.n0
    let s := wrap64 (d.s + r * d.ss1 + i)
    match o.index d r with
    | .ok x => some (rowSeg store (wrap64 (d.m + x * d.unit + i)) s d.n0 pos i none false)
    | .error t => some (rowSeg store 0 s d.n0 pos i (some t) store)

/-! ## Sharded boxes (R56, R109) -/

/-- The fields of a box record. -/
def boxField (img : Mem) (o : Nat) : List Nat := (List.range 5).map fun j => memNat img (o + 4 * j) 4

/-- Grid position of an element. -/
def Shard.cell (e : Shard) (idx : List Nat) : Nat :=
  ((List.range 5).foldl (fun (a : Nat × Nat) j => (a.1 + idx.getD j 0 / e.dim e.shape j * a.2, a.2 * e.dim e.grid j)) (0, 1)).1

/-- Relative coordinates of element `p` of a box with extents `ext`, in the order of a tensor. -/
def Shard.coords (e : Shard) (ext : List Nat) (p : Nat) : List Nat :=
  let ord := e.order.take e.rank
  let r := ord.foldl (fun (a : List (Nat × Nat) × Nat) j => (a.1 ++ [(j, a.2 % ext.getD j 1)], a.2 / ext.getD j 1)) (([] : List (Nat × Nat)), p)
  (List.range 5).map fun j => assocD 0 r.1 j

/-- Elementwise sum. -/
def addIdx (a b : List Nat) : List Nat := List.zipWith (· + ·) a b

/-- Elements of a run along a tensor's fastest dimension `j` before its shard ends. -/
def Shard.leftIn (e : Shard) (idx : List Nat) (j : Nat) : Nat := e.dim e.shape j - idx.getD j 0 % e.dim e.shape j

/-- The sides of a tensor element: where it is read, or every replica it is written to (R53, R54). -/
def State.shardSides (s : State) (e : Shard) (idx : List Nat) (write : Bool) : List CLoc × Nat :=
  match e.resolve idx with
  | none => ([], 0)
  | some (owners, va) =>
    let loc (c : BitVec 8) : CLoc := if c == s.chip then .mem va else .rem c e.win va
    (if write then owners.map loc else [loc (s.nearest owners)], va)

/-- The transfer of a `CPYX` at element `pos`. `mode` is 0 tensor to scratch, 1 scratch to tensor, 2 tensor to tensor. -/
def State.boxSeg (s : State) (o : EngOp) (mode scr : Nat) (pos : Nat) : Option CSeg :=
  let e := o.src.getD default
  let ext := boxField o.img 0x14
  let total := (List.range e.rank).foldl (fun n j => n * ext.getD j 1) 1
  if total ≤ pos then none
  else
    let j0 := e.order.getD 0 0
    let rel := e.coords ext pos
    let idx := addIdx (boxField o.img 0) rel
    let run := min (ext.getD j0 1 - rel.getD j0 0) (e.leftIn idx j0)
    let (near, va) := s.shardSides e idx (mode == 1)
    let byLine (a n : Nat) : Nat := min n (max 1 (toLine a / e.elemBytes))
    let c := e.cell idx
    if mode == 2 then
      let f := o.dst.getD default
      let jdx := addIdx (boxField o.img 0x28) rel
      let (far, vd) := s.shardSides f jdx true
      let run := if f.order.getD 0 0 == j0 then min run (f.leftIn jdx j0) else 1
      let n := byLine vd (byLine va run)
      some { src := near.headD (.mem va), dsts := far, n := n * e.elemBytes, adv := pos + n, piece := c * 64 + f.cell jdx, tok := none }
    else
      let n := byLine va run
      let a := scr + pos * e.elemBytes
      some { src := if mode == 1 then .scr a else near.headD (.mem va), dsts := if mode == 1 then near else [.scr a], n := n * e.elemBytes,
             adv := pos + n, piece := c, tok := none }

/-- The next transfer of an operation. -/
def State.copySeg (s : State) (o : EngOp) : Option CSeg :=
  match o.instr with
  | .cpy st _ _ _ _ => (CpyDesc.ofArgs o.args).seg st o.pos
  | .cpyg st _ _ _ _ => o.gatherSeg (CpygDesc.ofArgs o.args) st o.pos
  | .cpyx st _ _ _ _ => s.boxSeg o (if st then 1 else 0) ((o.args.getD 2 0).toNat % 2 ^ 19) o.pos
  | .cpyxTt _ _ _ => s.boxSeg o 2 0 o.pos
  | _ => none

/-- HINT of a copy. -/
def copyHint : Instr → Nat
  | .cpy _ h _ _ _ | .cpyg _ h _ _ _ | .cpyx _ h _ _ _ | .cpyxTt h _ _ => h.toNat
  | _ => 0

/-- A `CPYX`: its pieces fail one by one (R56). -/
def byPiece : Instr → Bool
  | .cpyx _ _ _ _ _ | .cpyxTt _ _ _ => true
  | _ => false

/-! ## Issue (R105, R110, R111) -/

/-- Hull of an affine range: least and greatest of `a + k * d` for `k` to `n - 1`. -/
def hull (a : Int × Int) (n : Nat) (d : Int) : Int × Int :=
  let e := ((n - 1 : Nat) : Int) * d
  (min a.1 (a.1 + e), max a.2 (a.2 + e))

/-- A hull lies in scratch. -/
def inScratch (h : Int × Int) (size : Nat) : Bool := decide (0 ≤ h.1) && decide (h.2 < (size : Int))

/-- A box of an operation. A hull that leaves 0 to 2^64 − 1 stands for the whole space. -/
def mkBox (o : EngOp) (matrix : Bool) (space : Nat) (h : Int × Int) (dest : Bool) : Box :=
  let w := decide (h.1 < 0) || decide ((2 : Int) ^ 64 ≤ h.2)
  { op := o.id, team := o.teamKey, gkey := o.gkey, matrix := matrix, space := space, lo := if w then 0 else h.1.toNat,
    hi := if w then 2 ^ 64 - 1 else h.2.toNat, dest := dest }

/-- The hull of rows of `n` bytes at addresses modulo 2^64; a row that passes the top touches both ends. -/
def rowHull (rows : List Int) (n : Nat) : Option (Int × Int) :=
  match rows.map fun a => (a % (2 : Int) ^ 64) with
  | [] => none
  | x :: xs => some (xs.foldl min x, xs.foldl max x + n - 1)

/-- What the issue of a copy gives: the operation with its boxes, or the status and token that end it. -/
abbrev CopyPlan := Except (BitVec 8 × BitVec 32) (EngOp × List Box)

/-- `CPY` (R107, R110). -/
def planCpy (o : EngOp) (store : Bool) (size : Nat) : CopyPlan :=
  let d := CpyDesc.ofArgs o.args
  if d.n0 == 0 || d.n1 == 0 || d.n2 == 0 then .error (stBadShape, 0)
  else
    let h (a : Nat) (x y : Int) := hull (hull ((a : Int), (a : Int) + d.n0 - 1) d.n1 x) d.n2 y
    let m := h d.m d.ms1 d.ms2
    let mem := if decide (0 ≤ m.1) && decide (m.2 < (2 : Int) ^ 64) then m
      else (rowHull ((List.range (d.n1 * d.n2)).map fun r => (d.row r).1) d.n0).getD m
    if !inScratch (h d.s d.ss1 d.ss2) size then .error (Cause.bounds, 0)
    else .ok (o, [mkBox o false 1 mem store, mkBox o false 0 (h d.s d.ss1 d.ss2) (!store)])

/-- `CPYG` (R108, R110). A store does not touch the scratch rows that it skips (R111). -/
def planCpyg (o : EngOp) (t : Team) (store : Bool) : CopyPlan :=
  let d := CpygDesc.ofArgs o.args
  if d.n0 == 0 || d.ni == 0 || !d.mbz then .error (stBadShape, 0)
  else
    let rows := hull ((d.s : Int), (d.s : Int) + d.n0 - 1) d.ni d.ss1
    if !inScratch rows t.scrSize || t.scrSize < d.idx + d.ni * d.iw then .error (Cause.bounds, 0)
    else
      let o := { o with img := memSlice t.scratch d.idx (d.ni * d.iw), imgPois := t.poisonedWords d.idx (d.ni * d.iw) }
      let good := (List.range d.ni).filterMap fun i => match o.index d i with
        | .ok x => some (d.m + (x : Int) * d.unit, (d.s : Int) + i * d.ss1)
        | .error _ => none
      let mem := rowHull (good.map Prod.fst) d.n0
      let scr := if store then rowHull (good.map Prod.snd) d.n0 else some rows
      .ok (o, [mkBox o false 0 ((d.idx : Int), (d.idx + d.ni * d.iw : Nat) - 1) false] ++ (mem.toList.map fun h => mkBox o false 1 h store) ++
        scr.toList.map fun h => mkBox o false 0 h (!store))

/-- A box of a tensor lies inside its global extents. -/
def Shard.holds (e : Shard) (st ext : List Nat) : Bool := (List.range 5).all fun j => decide (st.getD j 0 + ext.getD j 0 ≤ e.dim e.gdim j)

/-- Lowest and highest address of the part of a box that lies in a grid cell held here. -/
def State.cellHull (s : State) (e : Shard) (st ext : List Nat) (c : Nat) : Option (Int × Int) :=
  let pos := ((List.range 5).foldl (fun (a : List Nat × Nat) j => (a.1 ++ [a.2 % e.dim e.grid j], a.2 / e.dim e.grid j)) (([] : List Nat), c)).1
  let lo := (List.range 5).map fun j => max (st.getD j 0) (pos.getD j 0 * e.dim e.shape j)
  let hi := (List.range 5).map fun j => min (st.getD j 0 + ext.getD j 0) ((pos.getD j 0 + 1) * e.dim e.shape j)
  if (List.range 5).all fun j => decide (lo.getD j 0 < hi.getD j 0) then
    match e.resolve lo, e.resolve (hi.map fun x => x - 1) with
    | some (os, a), some (_, b) => if os.contains s.chip then some ((a : Int), (b : Int) + e.elemBytes - 1) else none
    | _, _ => none
  else none

/-- One hull of all local pieces of a box, if there are any. -/
def State.boxHull (s : State) (e : Shard) (st ext : List Nat) : Option (Int × Int) :=
  match (List.range e.gridSize).filterMap fun c => s.cellHull e st ext c with
  | [] => none
  | h :: hs => some (hs.foldl (fun a b => (min a.1 b.1, max a.2 b.2)) h)

/-- `CPYX` (R109, R110). The scratch image has a size where the extents are clean and the source handle is valid. -/
def State.planCpyx (s : State) (o : EngOp) (t : Team) (mode : Nat) : State × CopyPlan :=
  let rec_ := (o.args.getD 0 0).toNat % 2 ^ 19
  let hs := o.args.getD 1 0
  let scr := (o.args.getD 2 0).toNat % 2 ^ 19
  if !t.inside rec_ 64 then (s, .error (Cause.bounds, 0))
  else
    let o := { o with img := memSlice t.scratch rec_ 64 }
    let st := boxField o.img 0
    let ext := boxField o.img 0x14
    let (s, entry) := s.shardEntry o.core o.sysr.asid o.sysr.stbase (hs.setWidth 16)
    let total : Nat := match entry with
      | .ok e => (List.range e.rank).foldl (fun n j => n * ext.getD j 1) 1 * e.elemBytes
      | .error _ => 0
    if mode != 2 && (t.firstPoison (rec_ + 0x14) 0x14).isNone && 0 < total && t.scrSize < scr + total then (s, .error (Cause.bounds, 0))
    else match t.firstPoison rec_ 64 with
      | some k => (s, .error (stPoisoned, k))
      | none =>
        if ext.any fun n => n == 0 then (s, .error (stBadShape, 0))
        else match entry with
          | .error c => (s, .error (c, 0))
          | .ok e =>
            let o := { o with src := some e }
            if !e.holds st ext then (s, .error (Cause.bounds, 0))
            else if mode == 2 then
              match s.shardEntry o.core o.sysr.asid o.sysr.stbase (hs.extractLsb' 16 16) with
              | (s, .error c) => (s, .error (c, 0))
              | (s, .ok f) =>
                let dt := boxField o.img 0x28
                if f.esz != e.esz || !f.holds dt ext then (s, .error (Cause.bounds, 0))
                else (s, .ok ({ o with dst := some f },
                  ((s.boxHull e st ext).toList.map fun h => mkBox o false 1 h false) ++ (s.boxHull f dt ext).toList.map fun h => mkBox o false 1 h true))
            else (s, .ok (o, [mkBox o false 0 ((scr : Int), (scr + total : Nat) - 1) (mode == 0)] ++
              (s.boxHull e st ext).toList.map fun h => mkBox o false 1 h (mode == 1)))

/-- Operand uniforms of a copy, in the order of R106. -/
def copyRegs : Instr → List (BitVec 6)
  | .cpy _ _ a b c | .cpyg _ _ a b c => [a, a + 1, a + 2, a + 3, b, c]
  | .cpyx _ _ a b c => [a, b, c]
  | .cpyxTt _ a b => [a, b]
  | _ => []

/-- KIND of a copy (R119). -/
def copyKind : Instr → Nat
  | .cpy _ _ _ _ _ => 1
  | .cpyg _ _ _ _ _ => 2
  | _ => 3

/-- Issue a copy for the current group, if the queue and the table have room. -/
def State.issueCopy (i : Instr) (s : State) : Option State :=
  let o := s.newOp .copy i ((copyRegs i).map fun r => (s.wreg r).val)
  let t := s.team
  let (s, plan) : State × CopyPlan := match i with
    | .cpy st _ _ _ _ => (s, planCpy o st t.scrSize)
    | .cpyg st _ _ _ _ => (s, planCpyg o t st)
    | .cpyx st _ _ _ _ => s.planCpyx o t (if st then 1 else 0)
    | _ => s.planCpyx o t 2
  match plan with
  | .error (st, k) => if s.roomFor o.core .copy 32 0 then some (s.deadOp o (copyKind i) st k) else none
  | .ok (o, bs) => if s.roomFor o.core .copy 32 bs.length then some ((s.lockBoxes o.core bs).startOp o (copyKind i)) else none

/-- A copy command (R105, R219). -/
def State.copyCommand (s : State) (i : Instr) : Ans :=
  s.deciding (copyRegs i) none (s.closing false fun s => s.issueOrHold i (State.issueCopy i))

/-- `cpy`. -/
def execCpy (store : Bool) (h : BitVec 2) (a b c : BitVec 6) (s : State) : Ans := s.copyCommand (.cpy store h a b c)

/-- `cpyg`. -/
def execCpyg (store : Bool) (h : BitVec 2) (a b c : BitVec 6) (s : State) : Ans := s.copyCommand (.cpyg store h a b c)

/-- `cpyx` between a tensor and scratch. -/
def execCpyx (store : Bool) (h : BitVec 2) (a b c : BitVec 6) (s : State) : Ans := s.copyCommand (.cpyx store h a b c)

/-- `cpyx` between two tensors. -/
def execCpyxTt (h : BitVec 2) (a b : BitVec 6) (s : State) : Ans := s.copyCommand (.cpyxTt h a b)

/-- COPY_ISSUE of a command of group `k` that waited for room. -/
def execCopyIssue (k : Nat) (s : State) : Ans :=
  match (s.group? k).map Group.phase with
  | some (.wait (.issue i _)) => if copyRegs i == [] then .next s else .next (s.retryIssue k State.issueCopy)
  | _ => .next s

/-! ## Lines (R104, R115 to R117) -/

/-- Copies of a core that may move a line: the first four that are not suspended (R104). -/
def State.movingCopies (s : State) (core : Nat) : List EngOp :=
  ((s.queued core .copy).filter fun o => o.suspended.isNone && !s.opHeld o).take 4

/-- A copy ends: PARTIAL for failed pieces, else what it carried (R117, R119). -/
def State.endCopy (s : State) (o : EngOp) (status : Option (BitVec 8)) : State :=
  let st := status.getD (if o.failed.isEmpty then o.status else stPartial)
  s.endOp o st o.tally o.token true

/-- A side failed: a piece of a `CPYX` ends, any other copy ends with the cause. The cause stands in a crumb. -/
def State.failCopy (s : State) (o : EngOp) (seg : CSeg) (c : Cause) (va : Nat) (id : Nat) : State × EngOp × Bool :=
  let (s, t) := s.enginePoison o c va
  let o := o.note t
  if byPiece o.instr then (s, { o with failed := if o.failed.contains id then o.failed else o.failed ++ [id], pos := max o.pos seg.adv }, true)
  else ((s.keepOp o).endCopy o (some c), o, false)

/-- Number of a whole piece, and of its transfer to replica `k`. -/
def pieceId (p : Nat) : Nat := p * 65
def replicaId (p k : Nat) : Nat := p * 65 + 1 + k

/-- Write one destination of a transfer. Answers whether the operation still goes on, and where it must wait for a migration. -/
def State.copyPut (s : State) (o : EngOp) (seg : CSeg) (f : Fetched) (k : Nat) (d : CLoc) : State × EngOp × Option Nat × Bool :=
  let id := if seg.dsts.length == 1 then pieceId seg.piece else replicaId seg.piece k
  if o.failed.contains id then (s, o, none, true)
  else match d with
    | .scr a => let (s, o) := s.engScrWrite o a f; (s, o, none, true)
    | .mem va =>
      match s.engWrite o va f with
      | (s, o, none) => (s, o, none, true)
      | (s, o, some c) =>
        if c == Cause.pageMiss && s.movable o.xl va then (s, o, some va, true)
        else let (s, o, ok) := s.failCopy o seg c va id; (s, o, none, ok)
    | .rem chip win va =>
      if s.routeTo chip then
        let g := (s.group? o.gkey).getD Group.blank
        let s := s.sendReq (.copy o.id id) o.sysr.asid (s.gangKey g chip) chip win true (va / 128 * 128)
          (.put (cellsAt (va % 128) f.bytes) (f.tok.map tokenCause))
        (s, { o with out := o.out + 1 }, none, true)
      else
        let s := s.countOrigin win o.sysr.asid true
        let (s, o, ok) := s.failCopy o seg Cause.remoteUnreach va id
        (s, o, none, ok)

/-- Destinations of a transfer with their replica numbers, those of this chip first: a local one that waits for a migration stops the transfer before
a put has left, so no put leaves twice (R56, R117). -/
def CSeg.inTurn (seg : CSeg) : List (CLoc × Nat) :=
  let far (d : CLoc × Nat) : Bool := match d.1 with | .rem _ _ _ => true | .mem _ | .scr _ => false
  (seg.dsts.zipIdx.filter fun d => !far d) ++ seg.dsts.zipIdx.filter far

/-- Write every destination of a transfer; one that waits for a migration stops it there. -/
def State.copyPuts (s : State) (o : EngOp) (seg : CSeg) (f : Fetched) : List (CLoc × Nat) → State × EngOp × Option Nat × Bool
  | [] => (s, o, none, true)
  | d :: ds =>
    match s.copyPut o seg f d.2 d.1 with
    | (s, o, some va, ok) => (s, o, some va, ok)
    | (s, o, none, false) => (s, o, none, false)
    | (s, o, none, true) => s.copyPuts o seg f ds

/-- Data of a transfer have arrived: write them and go past the transfer; after the last one the operation ends. -/
def State.copyLand (s : State) (o : EngOp) (seg : CSeg) (f : Fetched) : State :=
  let o := match f.tok with | some t => o.poisoned t | none => o
  match s.copyPuts o seg f seg.inTurn with
  | (s, o, some va, _) => s.suspendOp o va
  | (s, _, none, false) => s
  | (s, o, none, true) => s.keepOp { o with pos := max o.pos seg.adv }

/-- The next transfer of an operation, pieces that have failed skipped one transfer at a time. -/
def State.copyStep (s : State) (o : EngOp) : State :=
  match s.copySeg o with
  | none => s.endCopy o none
  | some seg =>
    if o.failed.contains (pieceId seg.piece) then s.keepOp { o with pos := seg.adv }
    else match seg.tok, seg.src with
      | some t, _ => s.copyLand o seg ⟨List.replicate seg.n 0, some t⟩
      | none, .scr a => let (s, o, f) := s.engScrRead o a seg.n; s.copyLand o seg f
      | none, .mem va =>
        match s.engRead o va seg.n (copyHint o.instr) with
        | (s, o, .ok f) => s.copyLand o seg f
        | (s, o, .error c) =>
          if c == Cause.pageMiss && s.movable o.xl va then s.suspendOp o va
          else match s.failCopy o seg c va (pieceId seg.piece) with
            | (s, o, true) => s.keepOp o
            | (s, _, false) => s
      | none, .rem chip win va =>
        if s.routeTo chip then
          let g := (s.group? o.gkey).getD Group.blank
          (s.keepOp { o with out := 1 }).sendReq (.copy o.id (pieceId seg.piece)) o.sysr.asid (s.gangKey g chip) chip win true va (.read seg.n)
        else match s.failCopy o seg Cause.remoteUnreach va (pieceId seg.piece) with
          | (s, o, true) => s.keepOp o
          | (s, _, false) => s

/-- COPY_LINE_COMPLETE of operation `op`. -/
def execCopyLineComplete (op : Nat) (s : State) : Ans :=
  match s.op? op with
  | none => .next s
  | some o =>
    if o.eng == .copy && o.out == 0 && (s.movingCopies o.core).any (fun p => p.id == op) then .next (s.copyStep o) else .next s

/-- COPY_RESUME: the migration that a suspended operation waits for has ended (R117). -/
def execCopyResume (op : Nat) (s : State) : Ans :=
  match s.op? op with
  | none => .next s
  | some o => .next (s.resumeOp o)

/-- What the answer to a remote read or put brings a copy (R55, R56). A poisoned line has its own crumb; a refusal fails the piece. -/
def State.copyTakes (s : State) (o : EngOp) (id : Nat) (q : Req) (r : Resp) : State :=
  let o := { o with out := o.out - 1 }
  let va := q.addr.toNat
  match q.body, s.copySeg o with
  | .read _, some seg =>
    if r.x then
      let (s, o, k) := s.sourceCrumb o ((va / 128 * 256 + q.dst.toNat) * 4 + 2) r.cause va
      s.copyLand o seg ⟨List.replicate seg.n 0, some k⟩
    else if r.cause != 0 then let (s, o, _) := s.failCopy o seg r.cause va id; s.keepOp o
    else s.copyLand o seg ⟨r.data, none⟩
  | _, _ =>
    if r.x then s.keepOp (o.poisoned (bareToken r.cause))
    else if r.cause != 0 then
      let (s, t) := s.enginePoison o r.cause va
      s.keepOp { o.note t with failed := if o.failed.contains id then o.failed else o.failed ++ [id] }
    else s.keepOp o

/-- The answer to a remote read or put of a copy. A copy whose team has ended ends once nothing of it is in flight (R117). -/
def State.copyAnswer (s : State) (o : EngOp) (id : Nat) (q : Req) (r : Resp) : State :=
  let s := s.copyTakes o id q r
  match s.op? o.id with
  | some p => if p.status == stAborted && (p.out == 0 || p.suspended.isSome) then s.endOp p stAborted p.tally p.token true else s
  | none => s

end Sys2Proof.Machine
end

