-- ==== Sys2Proof/Machine/LaneInt.lean ====
section
/-! DEFINITION. Lane integer, byte and predicate instructions, poison inspection (R236 to R245, R257 to R259). -/

namespace Sys2Proof.Machine

/-- The modifier word, all zero where there is none (R157). -/
def modsOf (x : LOp) : Mods := x.mods.getD ⟨.none, 0, 0, 0, .rne⟩

/-- `f` on the elements of three operands (R171). -/
def elems3 (t : Ty) (f : Nat → Nat → Nat → Nat) (a b c : Nat) : Nat :=
  Num.packElems t ((List.range t.count).map fun e => f (Num.elem t a e) (Num.elem t b e) (Num.elem t c e))

/-! ## Integer arithmetic (R236) -/

/-- Exact arithmetic on the integer elements: ABS, NEG, `f`, SCALE, SAT, wrap. -/
def intArith (t : Ty) (m : Mods) (f : Int → Int → Int → Int) : Nat → Nat → Nat → Nat :=
  elems3 t fun a b c => Num.finishInt t m
    (f (Num.applyNaInt m 0 (Num.intVal t a)) (Num.applyNaInt m 1 (Num.intVal t b)) (Num.applyNaInt m 2 (Num.intVal t c)))

/-- An integer instruction computing `f` on each element. -/
def State.laneArith (s : State) (x : LOp) (F : Form) (f : Int → Int → Int → Int) : Ans := s.laneMap x F (intArith x.ty (modsOf x) f)

/-- `iadd` (R236). -/
def execIadd (x : LOp) (s : State) : Ans := s.laneArith x (formOf (.iadd x)) fun a b _ => a + b

/-- `isub` (R236). -/
def execIsub (x : LOp) (s : State) : Ans := s.laneArith x (formOf (.isub x)) fun a b _ => a - b

/-- `imul` (R236). -/
def execImul (x : LOp) (s : State) : Ans := s.laneArith x (formOf (.imul x)) fun a b _ => a * b

/-- `imulh` (R236): the high half of the product. -/
def execImulh (x : LOp) (s : State) : Ans := s.laneArith x (formOf (.imulh x)) fun a b _ => a * b / (2 ^ x.ty.bits : Nat)

/-- `imad` (R236). -/
def execImad (x : LOp) (s : State) : Ans := s.laneArith x (formOf (.imad x)) fun a b c => a * b + c

/-- `imin` (R236). -/
def execImin (x : LOp) (s : State) : Ans := s.laneArith x (formOf (.imin x)) fun a b _ => min a b

/-- `imax` (R236). -/
def execImax (x : LOp) (s : State) : Ans := s.laneArith x (formOf (.imax x)) fun a b _ => max a b

/-- `iabs` (R236). -/
def execIabs (x : LOp) (s : State) : Ans := s.laneArith x (formOf (.iabs x)) fun a _ _ => (a.natAbs : Int)

/-! ## Logic, shifts, counts, fields (R237 to R240) -/

/-- `and` (R237). -/
def execAnd (x : LOp) (s : State) : Ans := s.laneMap x (formOf (.and x)) fun a b _ => a &&& b

/-- `or` (R237). -/
def execOr (x : LOp) (s : State) : Ans := s.laneMap x (formOf (.or x)) fun a b _ => a ||| b

/-- `xor` (R237). -/
def execXor (x : LOp) (s : State) : Ans := s.laneMap x (formOf (.xor x)) fun a b _ => a ^^^ b

/-- The three-input function of `LUT3` on `w` bits (R237). -/
def lut3 (lut w a b c : Nat) : Nat := maskOf ((List.range w).filter fun k => bit lut (b2n (bit a k) * 4 + b2n (bit b k) * 2 + b2n (bit c k)))

/-- `lut3` (R237). -/
def execLut3 (x : LOp) (s : State) : Ans := s.laneMap x (formOf (.lut3 x)) (lut3 x.imm.toNat x.ty.width)

/-- Shift left of a `w`-bit element (R238). -/
def shlElem (w a c : Nat) : Nat := if w ≤ c then 0 else a <<< c % 2 ^ w

/-- Shift right with zeros. -/
def shrElem (w a c : Nat) : Nat := if w ≤ c then 0 else a >>> c

/-- Shift right with copies of the sign bit. -/
def sarElem (w a c : Nat) : Nat := wrapInt (sextInt a w / (2 ^ min c (w - 1) : Nat)) w

/-- `shl` (R238). -/
def execShl (x : LOp) (s : State) : Ans := s.laneMap x (formOf (.shl x)) (elems3 x.ty fun a c _ => shlElem x.ty.bits a c)

/-- `shr` (R238). -/
def execShr (x : LOp) (s : State) : Ans := s.laneMap x (formOf (.shr x)) (elems3 x.ty fun a c _ => shrElem x.ty.bits a c)

/-- `sar` (R238). -/
def execSar (x : LOp) (s : State) : Ans := s.laneMap x (formOf (.sar x)) (elems3 x.ty fun a c _ => sarElem x.ty.bits a c)

/-- Leading zeros of `w` bits (R239). -/
def clz (w a : Nat) : Nat := if a % 2 ^ w == 0 then w else w - 1 - log2 (a % 2 ^ w)

/-- The low `w` bits in reverse order (R239). -/
def brev (w a : Nat) : Nat := maskOf ((List.range w).filter fun k => bit a (w - 1 - k))

/-- `popc` (R239). -/
def execPopc (x : LOp) (s : State) : Ans := s.laneMap x (formOf (.popc x)) fun a _ _ => popCount x.ty.width a

/-- `clz` (R239). -/
def execClz (x : LOp) (s : State) : Ans := s.laneMap x (formOf (.clz x)) fun a _ _ => clz x.ty.width a

/-- `brev` (R239). -/
def execBrev (x : LOp) (s : State) : Ans := s.laneMap x (formOf (.brev x)) fun a _ _ => brev x.ty.width a

/-- Field extraction (R240). -/
def bfe (t : Ty) (a c : Nat) : Nat :=
  let w := t.width
  let len := bits c 8 8
  let f := bits (a >>> (c % 256)) 0 (min len w)
  if t.signed && 0 < len && len < w then wrapInt (sextInt f len) w else f

/-- Field insertion (R240). -/
def bfi (w a b c : Nat) : Nat :=
  let pos := c % 256
  let m := ((2 ^ bits c 8 8 - 1) <<< pos) % 2 ^ w
  maskOf ((List.range w).filter fun k => if bit m k then bit (b <<< pos) k else bit a k)

/-- `bfe` (R240). -/
def execBfe (x : LOp) (s : State) : Ans := s.laneMap x (formOf (.bfe x)) fun a c _ => bfe x.ty a c

/-- `bfi` (R240). -/
def execBfi (x : LOp) (s : State) : Ans := s.laneMap x (formOf (.bfi x)) (bfi x.ty.width)

/-! ## Comparison, selection, moves (R241) -/

/-- The integer conditions (R241). -/
def intCond (fn : Nat) (a b : Int) : Bool :=
  match fn with
  | 0 => a == b | 1 => a != b | 2 => a < b | 3 => a ≤ b | 4 => b < a | _ => b ≤ a

/-- `iset` (R241). -/
def execIset (x : LOp) (s : State) : Ans :=
  s.laneMap x (formOf (.iset x)) fun a b _ => b2n (intCond x.fn.toNat (Num.intVal x.ty a) (Num.intVal x.ty b))

/-- `sel` (R241): the predicate's poison first, else the selected source's. -/
def execSel (x : LOp) (s : State) : Ans :=
  let r := s.cur.regs
  s.laneEach x (formOf (.sel x)) fun l =>
    match r.rdPred x.fn.toNat l.lane with
    | .ok v => if v != 0 then l.a else l.b
    | .tok t => .bad t
    | .stale => l.a

/-- `mov` (R241). -/
def execMov (x : LOp) (s : State) : Ans := s.laneEach x (formOf (.mov x)) fun l => l.a

/-! ## Bytes and predicates (R242 to R245) -/

/-- `alignb` (R242). -/
def execAlignb (x : LOp) (s : State) : Ans :=
  s.laneMap x (formOf (.alignb x)) fun a b c => (a * 2 ^ 32 + b) >>> (8 * (c % 4)) % 2 ^ 32

/-- A byte of the 16-byte table of `BLUT` (R243). -/
def blutByte (lo hi k : Nat) : Nat := if k < 8 then bits lo (8 * k) 8 else bits hi (8 * (k - 8)) 8

/-- `blut` (R243). -/
def execBlut (x : LOp) (s : State) : Ans :=
  s.laneMap x (formOf (.blut x)) fun a lo hi =>
    Num.packElems .n8x4 ((List.range 4).map fun j => blutByte lo hi (bits a (8 * j + (if x.fn == 1 then 4 else 0)) 4))

/-- `plog` (R244). -/
def execPlog (x : LOp) (s : State) : Ans := s.laneMap x (formOf (.plog x)) fun a b c => b2n (bit x.imm.toNat (a * 4 + b * 2 + c))

/-- `movp` (R245): the lane number of a shadow lane is that of its pair. -/
def execMovp (x : LOp) (s : State) : Ans :=
  let w := s.cur.laneW
  s.laneEach x (formOf (.movp x)) fun l =>
    match x.fn.toNat with
    | 0 => l.map fun a _ _ => b2n (a != 0)
    | 1 => l.map fun a _ _ => a
    | _ => l.map fun a _ _ => b2n (bit a (l.lane % w))

/-! ## Poison inspection (R257 to R259) -/

/-- `sread` (R257). -/
def execSread (x : LOp) (s : State) : Ans :=
  let g := s.cur
  s.laneEach x (formOf (.sread x)) fun l => .ok
    (match x.fn.toNat with
     | 0 => l.lane % g.laneW
     | 1 => g.laneW
     | 2 => g.grp.toNat
     | 3 => g.team.toNat
     | 4 => g.core
     | 5 => s.chip.toNat
     | 6 => s.clock % 2 ^ 32
     | _ => s.pts g.core % 2 ^ 32)

/-- `ptst` (R258). -/
def execPtst (x : LOp) (s : State) : Ans := s.laneEach x (formOf (.ptst x)) fun l => .ok (b2n l.a.tok.isSome)

/-- `pclr` (R258). -/
def execPclr (x : LOp) (s : State) : Ans := s.laneEach x (formOf (.pclr x)) fun l => if l.a.tok.isSome then l.b else l.a

/-- `crumb` (R259). -/
def execCrumb (x : LOp) (s : State) : Ans :=
  s.laneEach x (formOf (.crumb x)) fun l => .ok (match l.a.tok with | some t => t.toNat | none => 0)

/-- `lsig` (R260, R343): the comparison precedes its own opcode. -/
def execLsig (last : Bool) (p : BitVec 24) (s : State) : Ans :=
  let g := s.cur
  let sg : BitVec 64 := match g.regs.laneq with | b :: _ => b.sig | [] => 0
  if g.checked && sg.extractLsb' 0 24 != p then .next (s.mismatch g.lpc)
  else
    let s := if g.checked then s.onRegs fun r => { r with laneq := r.laneq.modify 0 fun b => { b with unchecked := false } } else s
    .next ((s.enterCode 0x074).laneNext last false)

end Sys2Proof.Machine
end

