-- ==== Sys2Proof/Machine/LaneMem.lean ====
section
/-! DEFINITION. Lane memory instructions (R52 to R55, R261 to R280). -/

namespace Sys2Proof.Machine

/-! ## Lanes one after another -/

/-- Read the sources of lanes and let each act, ascending: the results of those that have one. -/
def State.eachLane (s : State) (x : LOp) (F : Form) (first : Nat) (body : State → LaneIn → State × Option Opd) :
    List Nat → State × List (Nat × Opd)
  | [] => (s, [])
  | i :: is =>
    let (s, l) := s.readLane x F first i
    let (s, o) := body s l
    let (s, rs) := s.eachLane x F first body is
    (s, match o with | some v => (i, v) :: rs | none => rs)

/-- The guard, the opcode, each lane of `Active()` in turn, then the results: the shape of a load. -/
def State.laneLoad (s : State) (x : LOp) (F : Form) (body : State → LaneIn → State × Option Opd) : Ans :=
  s.guarded x.guard
    (let act := s.cur.active x.guard
     let (s, res) := (s.enterCode F.op).eachLane x F (act.head?.getD 0) body act
     (s.writeRes x F res).laneDone x)

/-- The cause of a poisoned reading. -/
def Rd.cause? : Rd → Option Cause
  | .ok _ => none
  | .tok t => some (tokenCause t)
  | .stale => some Cause.latchStale

/-- The value of a reading. -/
def Rd.value : Rd → Nat
  | .ok v => v
  | _ => 0

/-- The readings of a lane and of its shadow agree (R345): of two poisoned lanes the causes of their tokens, else what `vals` makes of the values. -/
def Rd.agree (vals : List Nat → List Nat) (xs ys : List Rd) : Bool :=
  match xs.findSome? Rd.cause?, ys.findSome? Rd.cause? with
  | some c, some d => c == d
  | none, none => vals (xs.map Rd.value) == vals (ys.map Rd.value)
  | _, _ => false

/-- Some active lane below 32 and its shadow disagree in the readings that `rds` gives (R345). -/
def Group.pairsDiffer (g : Group) (x : LOp) (vals : List Nat → List Nat) (rds : Nat → List Rd) : Bool :=
  g.shadow && ((g.active x.guard).filter fun i => decide (i < 32)).any fun i => !Rd.agree vals (rds i) (rds (32 + i))

/-- The effective address of a 64-bit form (R263). -/
def ea64 (a o : Nat) : Nat := (a + wrapInt (sextInt o 32) 64) % 2 ^ 64

/-- The effective address of a scratch form (R263). -/
def ea32 (a o : Nat) : Nat := (a + o) % 2 ^ 32

/-- The values of three sources that shadow lanes compare: `off` makes an address of the first two; without it each stands for itself (R280). -/
def pairVals (off : Option (Nat → Nat → Nat)) (vs : List Nat) : List Nat :=
  match off, vs with
  | some f, a :: o :: ds => f a o :: ds
  | _, vs => vs

/-- Addresses and data of a lane and of its shadow differ in a store, atomic or reduction (R280, R345). `off` gives the address from S0 and the offset
S1; without it S0 is the address and S1 is data. -/
def Group.pairDiffers (g : Group) (x : LOp) (F : Form) (off : Option (Nat → Nat → Nat)) : Bool :=
  let first := (g.active x.guard).head?.getD 0
  g.pairsDiffer x (pairVals off) fun i => [g.rdForm x F.s0 x.s0 first i, g.rdForm x F.s1 x.s1 first i, g.rdForm x F.s2 x.s2 first i]

/-- The shape of a store or reduction: under shadow lanes the comparison first, then lanes below the lane-facing width. -/
def State.laneStore (s : State) (x : LOp) (F : Form) (differs : Bool) (body : State → LaneIn → State) : Ans :=
  s.guarded x.guard
    (if differs then .next (s.mismatch s.cur.lpc)
     else
       let act := s.cur.active x.guard
       let w := s.cur.laneW
       ((s.enterCode F.op).eachLane x F (act.head?.getD 0) (fun s l => (body s l, none)) (act.filter fun i => decide (i < w))).1.laneDone x)

/-- A lane makes poison with a fresh crumb. -/
def State.lanePoison (s : State) (c : Cause) (va i : Nat) : State × BitVec 32 := s.makePoison c va i false s.cur.lpc

/-- The lane that the poison of a source is in: none where the source is a uniform (R338). -/
def srcLane (src : Src) (i : Nat) : Option Nat := match src with | .unif _ => none | _ => some i

/-- The poison of a source becomes live at lane `i` (R335). -/
def State.liveLane (s : State) (src : Src) (i : Nat) (t : BitVec 32) : State := s.goLive (carried .lane (srcLane src i) t)

/-- A loaded value of `n` bytes at the width of its type: signed types extend by sign (R265, R273). -/
def extendTo (t : Ty) (n v : Nat) : Nat := if t.signed then wrapInt (sextInt v (8 * n)) t.width else v

/-! ## Loads and stores (R265, R266) -/

/-- Bytes and hint that FN gives (R261). -/
def sizeOf (x : LOp) : Nat := 2 ^ (x.fn.toNat % 4)
def hintOf (x : LOp) : Nat := x.fn.toNat / 4

/-- A remote load leaves; its lane's result comes with the response (R138, R265). -/
def State.pendLoad (s : State) (x : LOp) (i ea n : Nat) (chip : BitVec 8) (win : BitVec 12) (byVa : Bool) (addr : Nat) (hs : List (BitVec 16)) : State :=
  let f : FRead := { id := s.nextKey, keep := false, both := false, lat := true, lpc := BitVec.ofNat 20 s.cur.lpc, reg := x.dst.num, ws := x.dst.ws, dl := x.dst.dl, lane := i, ty := x.ty, size := n,
                     va := BitVec.ofNat 64 ea }
  (s.fabricRead chip win byVa addr n hs).onCur fun g => { g with freads := g.freads ++ [f] }

/-- One lane of `LD`. -/
def State.ldLane (x : LOp) (s : State) (l : LaneIn) : State × Option Opd :=
  match l.token with
  | some t => (s, some (.bad t))
  | none =>
    let ea := ea64 l.a.val l.b.val
    let n := sizeOf x
    match s.loadVa ea n (hintOf x) with
    | (s, .bytes bs) => (s, some (.ok (extendTo x.ty n (leNat bs))))
    | (s, .bad c) => let (s, t) := s.lanePoison c ea l.lane; (s, some (.bad t))
    | (s, .remote) => (s.pendLoad x l.lane ea n (remChip ea) (remWin ea) false (remOff ea) [], none)

/-- `ld` (R265). -/
def execLd (x : LOp) (s : State) : Ans := s.laneLoad x (formOf (.ld x)) (State.ldLane x)

/-- Token of the first poisoned one of S0 and S1, with that source. -/
def LaneIn.addrToken (l : LaneIn) (x : LOp) : Option (BitVec 32 × Src) := l.a.tok.map (·, x.s0) <|> l.b.tok.map (·, x.s1)

/-- One lane of `ST`. -/
def State.stLane (x : LOp) (s : State) (l : LaneIn) : State :=
  match l.addrToken x with
  | some (t, src) => s.liveLane src l.lane t
  | none =>
    let ea := ea64 l.a.val l.b.val
    let n := sizeOf x
    match l.c.tok with
    | some t => s.poisonStore ea t (carried .lane (srcLane x.s2 l.lane) t) s.cur.lpc
    | none =>
      match s.storeVa ea n .write with
      | (s, .ok (id, vc)) => s.quarantine (mkEntry id ea vc [.st (cellsAt (ea % 128) (toBytes n l.c.val))] none s.cur.lpc)
      | (s, .error c) => let (s, t) := s.lanePoison c ea l.lane; s.poisonStore ea t (s.failedAt .lane (some l.lane) t) s.cur.lpc

/-- `st` (R266). -/
def execSt (x : LOp) (s : State) : Ans := s.laneStore x (formOf (.st x)) (s.cur.pairDiffers x (formOf (.st x)) (some ea64)) (State.stLane x)

/-! ## Scratch (R270, R271) -/

/-- The result of a scratch load that gives poison: a cause with a fresh crumb; or the token of a poisoned word, and a new crumb that names the access
(R124, R269 to R271, log 13). -/
def State.scratchMiss (s : State) (m : Miss) (sa i : Nat) : State × BitVec 32 :=
  match m with
  | .cause c => s.lanePoison c sa i
  | .word t => ((s.lanePoison (tokenCause t) sa i).1, t)

/-- One lane of `LDS`. -/
def State.ldsLane (x : LOp) (s : State) (l : LaneIn) : State × Option Opd :=
  match l.token with
  | some t => (s, some (.bad t))
  | none =>
    let sa := ea32 l.a.val l.b.val
    let n := sizeOf x
    match if sa % n != 0 then (s, .error (.cause Cause.invalid)) else s.scratchLoad sa n with
    | (s, .ok bs) => (s, some (.ok (extendTo x.ty n (leNat bs))))
    | (s, .error m) => let (s, t) := s.scratchMiss m sa l.lane; (s, some (.bad t))

/-- `lds` (R270). -/
def execLds (x : LOp) (s : State) : Ans := s.laneLoad x (formOf (.lds x)) (State.ldsLane x)

/-- One lane of `STS`. -/
def State.stsLane (x : LOp) (s : State) (l : LaneIn) : State :=
  match l.addrToken x with
  | some (t, src) => s.liveLane src l.lane t
  | none =>
    let sa := ea32 l.a.val l.b.val
    let n := sizeOf x
    match l.c.tok with
    | some t => s.poisonScratch sa t (carried .lane (srcLane x.s2 l.lane) t) s.cur.lpc
    | none =>
      match if sa % n != 0 then Except.error Cause.invalid else s.scratchCheck sa n with
      | .ok _ => s.quarantine (mkEntry (.scr s.team.key (sa / 128)) sa 0 [.st (cellsAt (sa % 128) (toBytes n l.c.val))] none s.cur.lpc)
      | .error c => let (s, t) := s.lanePoison c sa l.lane; s.poisonScratch sa t (s.failedAt .lane (some l.lane) t) s.cur.lpc

/-- `sts` (R270). -/
def execSts (x : LOp) (s : State) : Ans := s.laneStore x (formOf (.sts x)) (s.cur.pairDiffers x (formOf (.sts x)) (some ea32)) (State.stsLane x)

/-- The elements of a transposing fragment, one from each of `k` rows from row `j` on. Every row is read, also past one that gives poison, which the
first such row decides (R268, R271). -/
def State.fragRows (s : State) (sa w j : Nat) : Nat → State × Except Miss (List Nat)
  | 0 => (s, .ok [])
  | k + 1 =>
    let (s, r) := s.scratchLoad (sa + 128 * j) (w / 8)
    let (s, rs) := s.fragRows sa w (j + 1) k
    (s, match r, rs with
      | .error m, _ => .error m
      | .ok _, .error m => .error m
      | .ok bs, .ok vs => .ok (leNat bs :: vs))

/-- One lane of `LDSX`. -/
def State.ldsxLane (x : LOp) (s : State) (l : LaneIn) : State × Option Opd :=
  match l.token with
  | some t => (s, some (.bad t))
  | none =>
    let sa := ea32 l.a.val l.b.val
    let w := x.ty.bits
    let k := 32 / w
    match if w == 16 && sa % 2 != 0 then (s, .error (.cause Cause.invalid))
        else if s.team.scrSize < sa + 128 * (k - 1) + w / 8 then (s, .error (.cause Cause.bounds))
        else s.fragRows sa w 0 k with
    | (s, .ok vs) => (s, some (.ok (Num.packElems x.ty vs)))
    | (s, .error m) => let (s, t) := s.scratchMiss m sa l.lane; (s, some (.bad t))

/-- `ldsx` (R271). -/
def execLdsx (x : LOp) (s : State) : Ans := s.laneLoad x (formOf (.ldsx x)) (State.ldsxLane x)

/-! ## Sharded loads and stores (R272, R273) -/

/-- The indices that S0 supplies to a lane, five with the immediate, or the token of the lowest-numbered poisoned one (R272). -/
def State.indices (s : State) (x : LOp) (first i : Nat) : State × Except (BitVec 32) (List Nat) :=
  let g := s.cur
  let m := x.fn.toNat % 4 + 1
  let rds : List Rd := match x.s0 with
    | .vec n _ => if m == 1 then [g.rd x 32 first i x.s0] else (List.range m).map fun k => (g.regs.velem (n.toNat + k) i).rd
    | .unif n => match (g.regs.captured n).rd true with
      | .ok v => if m == 1 then [.ok (v % 2 ^ 32)] else [.ok (v % 2 ^ 32), .ok (v / 2 ^ 32)]
      | r => [r]
    | src => [g.rd x 32 first i src]
  let (s, os) := rds.foldl (fun (r : State × List Opd) d => let (s, o) := r.1.settleRd i d; (s, r.2 ++ [o])) (s, [])
  (s, match os.findSome? Opd.tok with
    | some t => .error t
    | none => .ok (padTo 4 0 (os.map Opd.val) ++ [x.imm.toNat]))

/-- What an `LDX` or `STX` lane resolves to: the token of a poisoned source, a cause, or the owners, the address and the entry. -/
inductive ShardRes where
  | token (t : BitVec 32) (src : Src)
  | cause (c : Cause)
  | at (owners : List (BitVec 8)) (va : Nat) (e : Shard)

/-- `ShardResolve` of one lane (R52, R273). -/
def State.shardLane (s : State) (x : LOp) (first : Nat) (l : LaneIn) : State × ShardRes :=
  let g := s.cur
  match s.indices x first l.lane with
  | (s, .error t) => (s, .token t x.s0)
  | (s, .ok idx) =>
    match l.b.tok with
    | some t => (s, .token t x.s1)
    | none =>
      match s.shardEntry g.core g.sysr.asid g.sysr.stbase (BitVec.ofNat 16 l.b.val) with
      | (s, .error c) => (s, .cause c)
      | (s, .ok e) => match e.resolve idx with
        | none => (s, .cause Cause.bounds)
        | some (os, va) => (s, .at os va e)

/-- An element that no lane of the type takes, or that stands off its alignment: INVALID (R265, R266, R273, log 101). -/
def shardMisfit (x : LOp) (va : Nat) (e : Shard) : Bool := (e.esz == 3 && !x.ty.wide) || va % e.elemBytes != 0

/-- One lane of `LDX`. -/
def State.ldxLane (x : LOp) (first : Nat) (s : State) (l : LaneIn) : State × Option Opd :=
  let bad (s : State) (c : Cause) (va : Nat) : State × Option Opd := let (s, t) := s.lanePoison c va l.lane; (s, some (.bad t))
  match s.shardLane x first l with
  | (s, .token t _) => (s, some (.bad t))
  | (s, .cause c) => bad s c 0
  | (s, .at os va e) =>
    let n := e.elemBytes
    let o := s.nearest os
    if shardMisfit x va e then bad s Cause.invalid va
    else if o == s.chip then
      match s.chunkLoad va n (hintOf x) with
      | (s, .ok bs) => (s, some (.ok (extendTo x.ty n (leNat bs))))
      | (s, .error c) => bad s c va
    else if s.routeTo o then (s.pendLoad x l.lane va n o e.win true va [BitVec.ofNat 16 l.b.val], none)
    else bad s Cause.remoteUnreach va

/-- `ldx` (R273). -/
def execLdx (x : LOp) (s : State) : Ans :=
  s.laneLoad x (formOf (.ldx x)) (State.ldxLane x ((s.cur.active x.guard).head?.getD 0))

/-- A poisoned `STX` store: the element's entry is poisoned, that of the local replica's line or, where there is none, of the remote owners' line, and
the poison is live (R266, R273). -/
def State.poisonShard (s : State) (here : Bool) (away : LineId) (va : Nat) (t : BitVec 32) (live : Live) : State :=
  if here then s.poisonStore va t live s.cur.lpc else (s.quarantine (mkEntry away va 0 [] (some t) s.cur.lpc)).goLive live

/-- One lane of `STX`: one operation that serves the local replica and every remote one (R54). Where there is no local replica its entry is that of the
element's line on the remote owners. -/
def State.stxLane (x : LOp) (first : Nat) (s : State) (l : LaneIn) : State :=
  match s.shardLane x first l with
  | (s, .token t src) => s.liveLane src l.lane t
  | (s, .cause c) => let (s, t) := s.lanePoison c 0 l.lane; s.goLive (s.failedAt .lane (some l.lane) t)
  | (s, .at os va e) =>
    let n := e.elemBytes
    let far := os.filter fun o => o != s.chip
    let here := os.contains s.chip
    let away : LineId := .shd far e.win (va / 128)
    let fails (s : State) (c : Cause) : State :=
      let (s, t) := s.lanePoison c va l.lane
      s.poisonShard here away va t (s.failedAt .lane (some l.lane) t)
    match l.c.tok with
    | some t => s.poisonShard here away va t (carried .lane (srcLane x.s2 l.lane) t)
    | none =>
      let op : QOp := .stx (cellsAt (va % 128) (toBytes n l.c.val)) (BitVec.ofNat 16 l.b.val) e.win (va / 128) far
      if shardMisfit x va e then fails s Cause.invalid
      else if here then
        match s.storeCheck va n .write with
        | (s, .ok p) => s.quarantine (mkEntry (.mem (p.pa / 128)) va p.vc [op] none s.cur.lpc)
        | (s, .error c) => fails s c
      else s.quarantine (mkEntry away va 0 [op] none s.cur.lpc)

/-- The indices, handle and data of an `STX` lane and of its shadow differ (R345). -/
def Group.stxDiffers (g : Group) (x : LOp) : Bool :=
  let m := x.fn.toNat % 4 + 1
  let first := (g.active x.guard).head?.getD 0
  g.pairsDiffer x id fun i =>
    (match x.s0 with
     | .vec n _ => if m == 1 then [g.rd x 32 first i x.s0] else (List.range m).map fun k => (g.regs.velem (n.toNat + k) i).rd
     | src => [g.rd x 32 first i src]) ++ [g.rd x 32 first i x.s1, g.rd x (if x.ty.wide then 64 else 32) first i x.s2]

/-- `stx` (R273). -/
def execStx (x : LOp) (s : State) : Ans :=
  s.laneStore x (formOf (.stx x)) (s.cur.stxDiffers x) (State.stxLane x ((s.cur.active x.guard).head?.getD 0))

/-! ## Reductions (R277, R278) -/

/-- Where a reduction of `n` bytes goes: a merge needs write permission, the bank ALU of a pool read and write (R37). -/
def State.redVa (s : State) (va n : Nat) : State × Except Cause (LineId × Nat) :=
  match s.storeVa va n .write with
  | (s, .ok (.mem l, vc)) => if isPool l then s.storeVa va n .atomic else (s, .ok (.mem l, vc))
  | r => r

/-- One lane of `RED`, at an address already judged against its line (R278). A lane that fails is live and never merges (R277). -/
def State.redLane (x : LOp) (misfit : Nat → Nat → Bool) (s : State) (l : LaneIn) : State :=
  match l.addrToken x with
  | some (t, src) => s.liveLane src l.lane t
  | none =>
    let ea := l.a.val
    let n := tyBytes x.ty
    match if misfit l.lane ea then (s, .error Cause.invalid) else s.redVa ea n with
    | (s, .ok (id, vc)) => s.quarantine (mkEntry id ea vc
        [.red x.fn x.ty (ea % 128) (BitVec.ofNat 64 l.b.val) l.lane (BitVec.ofNat 64 ea) s.cur.chunk.nlane] none s.cur.lpc)
    | (s, .error c) => let (s, t) := s.lanePoison c ea l.lane; s.goLive (s.failedAt .lane (some l.lane) t)

/-- A lane of a line form stands off its place: L is fixed by the lowest active lane of its half whose address is clean (R278). -/
def lineMisfit (addrs : List (Nat × Nat)) (i ea : Nat) : Bool :=
  match addrs.find? fun p => p.1 / 32 == i / 32 with
  | some (j, a) =>
    let L := (a + 2 ^ 64 - 4 * (j % 32)) % 2 ^ 64
    L % 128 != 0 || ea != (L + 4 * (i % 32)) % 2 ^ 64
  | none => false

/-- Clean addresses of the active lanes. -/
def Group.cleanAddrs (g : Group) (x : LOp) (F : Form) : List (Nat × Nat) :=
  let act := g.active x.guard
  act.filterMap fun i => match g.rdForm x F.s0 x.s0 (act.head?.getD 0) i with | .ok a => some (i, a) | _ => none

/-- `red` (R277, R278). -/
def execRed (x : LOp) (s : State) : Ans :=
  let F := formOf (.red x)
  let addrs := s.cur.cleanAddrs x F
  s.laneStore x F (s.cur.pairDiffers x F none) (State.redLane x (if 8 ≤ x.fn.toNat then lineMisfit addrs else fun _ _ => false))

/-- One lane of `REDS`. -/
def State.redsLane (x : LOp) (s : State) (l : LaneIn) : State :=
  match l.addrToken x with
  | some (t, src) => s.liveLane src l.lane t
  | none =>
    let sa := l.a.val
    let n := tyBytes x.ty
    match if sa % n != 0 then Except.error Cause.invalid else s.scratchCheck sa n with
    | .ok _ => s.quarantine (mkEntry (.scr s.team.key (sa / 128)) sa 0
        [.red x.fn x.ty (sa % 128) (BitVec.ofNat 64 l.b.val) l.lane (BitVec.ofNat 64 sa) s.cur.chunk.nlane] none s.cur.lpc)
    | .error c => let (s, t) := s.lanePoison c sa l.lane; s.goLive (s.failedAt .lane (some l.lane) t)

/-- `reds` (R277). -/
def execReds (x : LOp) (s : State) : Ans := s.laneStore x (formOf (.reds x)) (s.cur.pairDiffers x (formOf (.reds x)) none) (State.redsLane x)

/-! ## Atomics (R275, R276) -/

/-- A lane whose checks passed: where its word is. -/
structure AtomLane where
  lane : Nat
  line : LineId
  vc : Nat
  ea : Nat
  s1 : Nat
  s2 : Nat
  deriving DecidableEq, Repr

/-- The checks of one lane: the entry it makes, clean or poisoned, and its place where it passed. -/
def State.atomCheck (s : State) (x : LOp) (scratch : Bool) (l : LaneIn) : State × Option AtomLane :=
  let n := tyBytes x.ty
  match l.addrToken x <|> l.c.tok.map (·, x.s2) with
  | some (t, src) => (s.liveLane src l.lane t, none)
  | none =>
    let ea := l.a.val
    let r : State × Except Cause (LineId × Nat) :=
      if ea % n != 0 then (s, .error Cause.invalid)
      else if scratch then (s, match s.scratchCheck ea n with | .ok _ => .ok (.scr s.team.key (ea / 128), 0) | .error c => .error c)
      else s.storeVa ea n .atomic
    match r with
    | (s, .ok (id, vc)) => (s.quarantine (mkEntry id ea vc [] none s.cur.lpc), some ⟨l.lane, id, vc, ea, l.b.val, l.c.val⟩)
    | (s, .error c) =>
      let (s, t) := s.lanePoison c ea l.lane
      let live := s.failedAt .lane (some l.lane) t
      (if scratch then s.poisonScratch ea t live s.cur.lpc else s.poisonStore ea t live s.cur.lpc, none)

/-- The checks of every lane. -/
def State.atomChecks (s : State) (x : LOp) (F : Form) (scratch : Bool) (first : Nat) : List Nat → State × List AtomLane
  | [] => (s, [])
  | i :: is =>
    let (s, l) := s.readLane x F first i
    let (s, a) := s.atomCheck x scratch l
    let (s, as) := s.atomChecks x F scratch first is
    (s, a.toList ++ as)

/-- Apply one lane at commit time `t`: its old value, or none while a remote target has not answered. A target that no route reaches fails at once, and the
origin counter counts that (R275, R367, R377). -/
def State.atomApply (s : State) (x : LOp) (a : AtomLane) (t : Nat) : State × Option Opd :=
  let n := tyBytes x.ty
  let new (old : Nat) : List Byte := toBytes n (atomOp x.fn.toNat x.ty old a.s1 a.s2)
  let bad (s : State) (c : Cause) : State × Option Opd := let (s, t) := s.lanePoison c a.ea a.lane; (s, some (.bad t))
  match a.line with
  | .mem l =>
    let (s, c) := (s.countRmw l a.vc).rmwRead l a.vc
    match c.x with
    | some k => bad s (tokenCause k)
    | none =>
      let old := memNat c.data (a.ea % 128) n
      let s := s.writePlace l a.vc (cellsAt (a.ea % 128) (new old)) none t
      (match s.cur.chunk.entry? a.line with | some q => s.ownCopy q l t | none => s, some (.ok old))
  | .scr k l =>
    match s.team? k with
    | none => (s, none)
    | some m =>
      match m.wordToken (a.ea / 8) with
      | some w => bad s (Miss.word w).toCause
      | none =>
        let old := memNat m.scratch a.ea n
        (s.onTeam k fun m => (m.putBytes (cellsAt a.ea (new old))).setTimes l t t, some (.ok old))
  | .rem chip win line =>
    let s := s.drainKey s.cur.core s.cur.sysr.asid chip win line
    if s.routeTo chip then
      let f : FRead := { id := s.nextKey, keep := true, both := s.cur.shadow, lat := true, lpc := BitVec.ofNat 20 s.cur.lpc, reg := x.dst.num, ws := x.dst.ws, dl := x.dst.dl, lane := a.lane, ty := x.ty, size := n,
                         va := BitVec.ofNat 64 a.ea }
      let g := s.cur
      ((s.sendReq (.load g.key) g.sysr.asid (s.gangKey g chip) chip win false (remOff a.ea)
        (.atomic x.fn x.ty (BitVec.ofNat 64 a.s1) (BitVec.ofNat 64 a.s2))).onCur fun g => { g with freads := g.freads ++ [f] }, none)
    else bad (s.countOrigin win s.cur.sysr.asid true) Cause.remoteUnreach
  | .shd _ _ _ => (s, none)

/-- Apply the lanes, ascending. -/
def State.atomAll (s : State) (x : LOp) (t : Nat) : List AtomLane → State × List (Nat × Opd)
  | [] => (s, [])
  | a :: as =>
    let (s, o) := s.atomApply x a t
    let (s, rs) := s.atomAll x t as
    (s, match o with | some v => (a.lane, v) :: rs | none => rs)

/-- The lane stream waits at this instruction and tries it again. -/
def State.laneWaits (s : State) : State := s.onCur fun g => { g with lstall := true }

/-- The chunk at the arbiters is given up: what it had entered goes, and so do its places (R275, R329). -/
def State.retract (s : State) : State := s.onChunk fun c => { c with quar := [], committing := false, got := [] }

/-- Every arbiter of the current group's chunk has admitted it. -/
def State.admitted (s : State) (old : Chunk) : Bool := old.committing && (s.arbiters s.cur.chunk).all fun a => old.got.contains a

/-- `ATOM` and `ATOMS`: a chunk of one instruction (R275). An unchecked event makes SIG_GAP live (R344). Live poison stops it under the policy; under DROP the
lanes with a clean entry are applied. Where something stands against the chunk at its arbiters it takes its place in their FIFOs, and the instruction is
tried again once they have admitted it (R329). The lines are folded before the commit time is taken (R100). -/
def State.atomic (s : State) (x : LOp) (F : Form) (scratch : Bool) : Ans :=
  s.guarded x.guard
    (if s.cur.pairDiffers x F none then .next (s.mismatch s.cur.lpc)
     else if s.cur.anyUnchecked then .next (s.sigGap.laneStop [] 0)
     else
       let act := s.cur.active x.guard
       let w := s.cur.laneW
       let old := s.cur.chunk
       let (c, as) := s.retract.atomChecks x F scratch (act.head?.getD 0) (act.filter fun i => decide (i < w))
       if !c.cur.chunk.live.isEmpty && c.cur.region.pol != .drop then .next (c.laneStop [] 0)
       else
         let bad := (c.cur.chunk.quar.filter fun q => q.poison.isSome).map QEntry.line
         let as := as.filter fun a => !bad.contains a.line
         let c := c.onChunk fun k => { k with live := [], quar := k.quar.filter fun q => q.poison.isNone }
         if !c.admitted old && c.mustWait then .next (s.onChunk fun k => { k with quar := c.cur.chunk.quar }).queueCommit.laneWaits
         else
           let c := c.settleChunk
           let core := c.cur.core
           let t := maxNat ([c.pts core + 1] ++ c.cur.chunk.quar.map fun q => (c.idTimes q.line).2 + 1)
           let (c, res) := c.atomAll x t as
           let res := if c.cur.shadow then res ++ res.map (fun r => (32 + r.1, r.2)) else res
           let c := if as.isEmpty then c else c.raisePts core t
           .next ((((c.writeDst x x.ty.wide res).enterCode F.op).laneNext x.last x.mods.isSome).committed))

/-- `atom`. -/
def execAtom (x : LOp) (s : State) : Ans := s.atomic x (formOf (.atom x)) false

/-- `atoms`. -/
def execAtoms (x : LOp) (s : State) : Ans := s.atomic x (formOf (.atoms x)) true

/-! ## Prefetch (R279) -/

/-- One lane of `PREF`: it changes the bank store, or asks for a fill of the L1; everything else is ignored. -/
def State.prefLane (x : LOp) (s : State) (l : LaneIn) : State :=
  let ea := ea64 l.a.val l.b.val
  if l.token.isSome || (canonical ea && isRemote ea) then s
  else
    let g := s.cur
    match s.translate { g.xl with promote := false } ea .read with
    | (s, .error _) => s
    | (s, .ok p) =>
      let ln := p.pa / 128
      let other := match s.bank? ln with | some b => b.vc != p.vc || b.st == .x | none => false
      if p.vc == 255 || other || s.teamLocked true 1 ea 1 || s.ue.contains ln || s.synd.contains ln then s
      else
        let h := hintLevel (hintOf x) p.hint
        if x.fn.toNat % 4 == 0 then s.bringIn ln p.vc (some h)
        else if 1024 ≤ (s.coreAt g.core).outstanding then s
        else s.onCore g.core fun c => { c with reqs := c.reqs ++ [⟨g.sysr.asid, ea % 2 ^ 57 / 128, p.r, p.w, p.u, ln, p.vc, p.hint, h⟩] }

/-- The lanes of `PREF`; an invalid latch leaves no crumb here. -/
def State.prefLanes (s : State) (x : LOp) (F : Form) (first : Nat) : List Nat → State
  | [] => s
  | i :: is =>
    let g := s.cur
    let opd (r : Rd) : Opd := match r with | .ok v => .ok v | .tok t => .bad t | .stale => .bad (bareToken Cause.latchStale)
    (s.prefLane x ⟨i, opd (g.rdForm x F.s0 x.s0 first i), opd (g.rdForm x F.s1 x.s1 first i), .ok 0⟩).prefLanes x F first is

/-- `pref` (R279). -/
def execPref (x : LOp) (s : State) : Ans :=
  let F := formOf (.pref x)
  s.guarded x.guard
    (let act := s.cur.active x.guard
     ((s.enterCode F.op).prefLanes x F (act.head?.getD 0) act).laneDone x)

end Sys2Proof.Machine
end

