-- ==== Sys2Proof/Machine/Fabric.lean ====
section
/-! DEFINITION. The Worrad fabric at both ends: requests that arrive (R55, R366, R370, R371, R374, R377, R401), responses (R265, R275, R277, R367),
write combining by age (R373), reduction slots (R222, R223, R378 to R380). -/

namespace Sys2Proof.Machine

/-! ## A request at its target (R55, R370) -/

/-- Bytes that a request covers. -/
def reqLen (q : Req) : Nat :=
  match q.body with | .read n => n | .atomic _ ty _ _ => tyBytes ty | _ => 128

/-- R, W or A of a window allows a request. -/
def winAllows (w : Window) : ReqBody → Bool
  | .read _ => w.r
  | .put _ _ => w.w
  | _ => w.a

/-- Kind of the access (R37): a bank ALU operation is an atomic. -/
def remoteKind (pool : Bool) : ReqBody → AccKind
  | .read _ => .remoteRead
  | .put _ _ => .remoteWrite
  | .atomic _ _ _ _ => .remoteAtomic
  | _ => if pool then .remoteAtomic else .remoteWrite

/-- The virtual address that a request reaches through a window, or nothing for PERM (R53, R370). -/
def windowVa (w : Window) (q : Req) : Option Nat :=
  let off : Int := if q.byVa then (q.addr.toNat : Int) - w.base.toNat else (q.addr.toNat : Int)
  if w.peers.getLsbD q.src.toNat && winAllows w q.body && decide (0 ≤ off) && decide (off.toNat + reqLen q ≤ w.size) &&
      (!q.byVa || w.asid == q.asid) then some ((w.base.toNat + off.toNat) % 2 ^ 64) else none

/-- The translator of a window's context: the access is of kind remote, whoever made it. -/
def State.windowXl (s : State) (w : Window) : Xl := { s.frontXl w.asid with user := false }

/-- Translate an access through a window; on a pool line a reduction needs what an atomic needs (R37). -/
def State.remoteXlate (s : State) (w : Window) (va : Nat) (b : ReqBody) : State × Except Cause Phys :=
  match s.translate (s.windowXl w) va (remoteKind false b) with
  | (s, .ok p) => if isPool (p.pa / 128) then s.translate (s.windowXl w) va (remoteKind true b) else (s, .ok p)
  | r => r

/-- Commit time of an engine commit of a line on behalf of no core (R115). -/
def State.nextTime (s : State) (l v : Nat) : Nat := ((s.settleLine l v).times l).2 + 1

/-- A request acts at its line and is answered. A unit counts at the target once it has committed there (R359, R377). A reduction or an atomic is an
engine commit too, which waits for its arbiter (R115, R329). The acknowledgement of a part of an X line's bytes carries the line's cause (log 93). -/
def State.applyReq (s : State) (q : Req) (p : Phys) : State :=
  let l := p.pa / 128
  let reads : Bool := match q.body with | .read _ => true | _ => false
  if !reads && s.lineHeld none (.mem l) then { s with engHeld := true }
  else match q.body with
  | .read n =>
    match s.peekBytes p.pa n (some p.vc) with
    | (s, _, some t) => s.reply q (lineCause t) true []
    | (s, bs, none) => s.reply q 0 false bs
  | .put bs x =>
    let (s, t) := s.engineWrite none l p.vc bs (x.map bareToken)
    match if x.isSome then none else s.lineX l with
    | some k => (s.countTarget q.win t).reply q (lineCause k) true []
    | none => (s.countTarget q.win t).reply q 0 false []
  | .atomic fn ty a b =>
    let t := s.nextTime l p.vc
    match (s.countRmw l p.vc).rmwRead l p.vc with
    | (s, ⟨_, some k⟩) => s.reply q (lineCause k) true []
    | (s, ⟨d, none⟩) =>
      let n := tyBytes ty
      let old := memNat d (p.pa % 128) n
      let s := s.writePlace l p.vc (cellsAt (p.pa % 128) (toBytes n (atomOp fn.toNat ty old a.toNat b.toNat))) none t
      (s.countTarget q.win t).reply q 0 false (toBytes n old)
  | .red fn ty els =>
    let t := s.nextTime l p.vc
    match (s.countRmw l p.vc).reduceAt l p.vc fn ty (els.map fun e => (e.1, e.2.toNat)) t with
    | (s, some k) => s.reply q (lineCause k) true []
    | (s, none) => (s.countTarget q.win t).reply q 0 false []
  | _ => s

/-- Serve a request admitted under a window's descriptor. A page that migration can serve is waited for (R55). -/
def State.serveAt (s : State) (q : Req) (w : Window) : State :=
  match windowVa w q with
  | none => s.reply q Cause.perm false []
  | some va =>
    if !s.liveCtx w.asid then s.reply q Cause.remoteUnreach false []
    else match s.remoteXlate w va q.body with
      | (s, .ok p) => s.applyReq q p
      | (s, .error c) =>
        if c == Cause.pageMiss && s.movable (s.windowXl w) va then { s with missed := s.missed ++ [⟨q, w⟩] }
        else s.reply q c false []

/-- A request enters the hold table, or is answered with a retry response where the table is full (R401). -/
def State.holdReq (s : State) (q : Req) : State :=
  if s.holds.length < 256 then
    ({ s with holds := s.holds ++ [q] } : State).respond q.src q.asid q.id .holdResponseReceive (.hold q.id)
  else s.respond q.src q.asid q.id .retryResponseReceive (.retry q.id)

/-- A request proceeds, fails or is held as the state of its gang here says (R401). -/
def State.gated (s : State) (q : Req) (f : State → State) : State :=
  match q.gang.map s.gangHere with
  | some .hold => s.holdReq q
  | some .fail => s.reply q Cause.remoteUnreach false []
  | _ => f s

/-- A memory request arrives; one for another chip is passed on. -/
def State.arrive (s : State) (q : Req) : State :=
  s.here (reqHdr q) (.req q) fun s => s.gated q fun s => match s.window? q.win with
    | some w => s.serveAt q w
    | none => s.reply q Cause.perm false []

/-- The requests that wait for a migration are tried again; a WINSET whose old accesses have all ended is answered (R55, R371). -/
def State.releaseMissed (s : State) : State :=
  let s := s.missed.foldl (fun s m => s.serveAt m.q m.w) { s with missed := [] }
  let due := s.winAnswers.filter fun n => !s.missed.any fun m => m.q.win == n
  due.foldl (fun s _ => s.emit (.answer 3 ansOk 0)) { s with winAnswers := s.winAnswers.filter fun n => !due.contains n }

/-- FABRIC_READ_REQUEST (R53, R55, R351). -/
def execFabricReadRequest (q : Req) (s : State) : Ans := match q.body with | .read _ => .next (s.arrive q) | _ => .next s

/-- PUT_RECEIVE (R374). -/
def execPutReceive (q : Req) (s : State) : Ans := match q.body with | .put _ _ => .next (s.arrive q) | _ => .next s

/-- REMOTE_ATOMIC_RECEIVE (R275, R354). -/
def execRemoteAtomicReceive (q : Req) (s : State) : Ans := match q.body with | .atomic _ _ _ _ => .next (s.arrive q) | _ => .next s

/-- REMOTE_RED_RECEIVE (R277). -/
def execRemoteRedReceive (q : Req) (s : State) : Ans := match q.body with | .red _ _ _ => .next (s.arrive q) | _ => .next s

/-- HOLD_RESPONSE_TIMER: every 5 ms a held request is answered with a hold response (R401). -/
def execHoldResponseTimer (id : Nat) (s : State) : Ans :=
  .next ((s.holds.filter fun q => q.id == id).foldl (fun s q => s.respond q.src q.asid q.id .holdResponseReceive (.hold q.id)) s)

/-! ## A response at the origin -/

/-- The elements that a remote lane result writes. -/
def FRead.lanes (f : FRead) (v : VElem) : List (Nat × VElem) := if f.both then [(f.lane, v), (f.lane + 32, v)] else [(f.lane, v)]

/-- The result of a remote load or atomic lane of the current group (R138, R265, R269, R275). -/
def State.landLane (s : State) (f : FRead) (r : Resp) : State :=
  let (s, o) : State × Opd :=
    if r.cause == 0 then (s, .ok (extendTo f.ty f.size (leNat r.data)))
    else let (s, t) := s.makePoison r.cause f.va.toNat f.lane false f.lpc.toNat; (s, .bad t)
  let wide := f.ty.width == 64
  let n := f.reg.toNat
  let put (x : Regs) : Regs :=
    if f.ws then x else let x := x.writeV n (f.lanes o.lo); if wide then x.writeV (n + 1) (f.lanes o.hi) else x
  s.onCur fun g =>
    let g := { g with regs := put g.regs, undo := if f.keep then put g.undo else g.undo, freads := g.freads.filter fun h => h.id != f.id }
    if f.lat && g.run.isSome then
      let g := g.capture f.dl.toNat (f.lanes o.lo)
      if wide then g.capture (f.dl.toNat + 1) (f.lanes o.hi) else g
    else g

/-- The answer to a load or an atomic of the current group. An answer that nothing waits for any more is dropped. -/
def State.landLoad (s : State) (r : Resp) : State :=
  match s.cur.freads.find? fun f => f.id == r.id with
  | some f => s.landLane f r
  | none => match s.cur.phase with
    | .wait (.rload id d va) =>
      if id == r.id then
        let s := if r.cause == 0 then s.setVal d (BitVec.ofNat 64 (leNat r.data))
          else let (s, t) := s.ctrlPoison r.cause va.toNat; s.setW d (tokElem t)
        s.advance.onCur fun g => { g with phase := .run }
      else s
    | _ => s

/-- The crumb of a reduction that its target discarded at an X line (R277). -/
def State.redRefused (s : State) (k : Nat) (c : Cause) (va : BitVec 64) (lane : Nat) (lpc : BitVec 20) : State :=
  match s.group? k with
  | none => s
  | some _ => s.withGroup k fun s => (s.makePoison c va.toNat lane false lpc.toNat).1

/-- A request whose response has come is outstanding no longer; a slot's answer takes its own away (R366). -/
def State.tookResult (s : State) (id : Nat) : Owner → State
  | .slot _ => s
  | _ => { s with outReqs := s.outReqs.filter fun p => p.q.id != id }

/-- A response reaches the owner of its request (R366, R377): COUNT for an acknowledgement, ERR for a refusal. -/
def State.answered (s : State) (r : Resp) : State :=
  match s.outReqs.find? fun o => o.q.id == r.id with
  | none => s
  | some o =>
    let s := s.tookResult r.id o.owner
    let err := r.cause != 0 && !r.x
    match o.owner with
    | .load k =>
      let s := match o.q.body with | .atomic _ _ _ _ => s.countOrigin o.q.win o.q.asid err | _ => s
      (match s.group? k with | some _ => s.withGroup k fun s => s.landLoad r | none => s)
    | .write _ win asid => s.countOrigin win asid err
    | .red k win asid lane va lpc =>
      let s := s.countOrigin win asid err
      if r.x then s.redRefused k r.cause va lane lpc else s
    | .copy op id =>
      let s := match o.q.body with | .put _ _ => s.countOrigin o.q.win o.q.asid err | _ => s
      (match s.op? op with | some e => s.copyAnswer e id o.q r | none => s)
    | .slot _ => s.later (answerTo o.q r)

/-- A response arrives; one for another chip is passed on (R364). -/
def State.responded (s : State) (r : Resp) : State := s.here (respHdr r) (.resp r) fun s => s.answered r

/-- FABRIC_READ_RESPONSE (R55, R360). -/
def execFabricReadResponse (r : Resp) (s : State) : Ans := .next (s.responded r)

/-- PUT_ACK_RECEIVE (R359, R377). -/
def execPutAckReceive (r : Resp) (s : State) : Ans := .next (s.responded r)

/-- ATOMIC_RESPONSE (R275). -/
def execAtomicResponse (r : Resp) (s : State) : Ans := .next (s.responded r)

/-- Change an outstanding request. -/
def State.onReq (s : State) (id : Nat) (f : OutReq → OutReq) : State :=
  { s with outReqs := s.outReqs.map fun o => if o.q.id == id then f o else o }

/-- REQUEST_TIMEOUT: no response in 10 ms is a failure with REMOTE_UNREACH (R366, R367). A limit that a hold response began again starts over (R401). -/
def execRequestTimeout (id : Nat) (s : State) : Ans :=
  if s.outReqs.any fun o => o.q.id == id && o.held then .next (s.onReq id fun o => { o with held := false })
  else .next (s.answered { id := id, cause := Cause.remoteUnreach, x := false, data := [] })

/-- HOLD_RESPONSE_RECEIVE: the 10 ms limit starts again (R366, R401). -/
def execHoldResponseReceive (m : RespTo) (s : State) : Ans :=
  .next (s.here m.h (.hold m.id) fun s => s.onReq m.id fun o => { o with held := true })

/-- RETRY_RESPONSE_RECEIVE: the request waits 10 µs before it is sent again (R401). -/
def execRetryResponseReceive (m : RespTo) (s : State) : Ans :=
  .next (s.here m.h (.retry m.id) fun s => s.onReq m.id fun o => { o with waiting := true, held := false })

/-- RETRY_RESEND (R401). -/
def execRetryResend (id : Nat) (s : State) : Ans :=
  match s.outReqs.find? fun o => o.q.id == id && o.waiting with
  | none => .next s
  | some o =>
    .next ((s.onReq id fun p => { p with waiting := false }).depart o.q)

/-- WCB_AGE_EXPIRY: the `n`-th entry of a core's buffer, oldest first, has reached its age (R373). -/
def execWcbAgeExpiry (core n : Nat) (s : State) : Ans :=
  match (s.coreAt core).wcb[n]? with
  | some e => .next (s.drainWcb core e)
  | none => .next s

/-! ## Reduction slots (R222, R223, R378 to R380) -/

/-- A field of a slot description is out of range (R222). -/
def slotBad (d : BitVec 64) : Bool :=
  let n := d.toNat
  let ty := bits n 24 2
  bits n 8 9 == 0 || decide (256 < bits n 8 9) || bits n 17 3 != 0 || decide (3 < bits n 20 3) || (bit n 23 && ty != 0) || bits n 26 6 != 0 ||
  bits n 48 16 != 0 || (bits n 20 3 == 3 && ty != 0)

/-- Send a request of the current group that belongs to a slot; its number is the key before. Without a route the I/O die answers UNREACH itself
(R222, R367, R378). -/
def State.sendSlot (s : State) (root : BitVec 8) (body : ReqBody) : State :=
  let q : Req := { id := s.nextKey, src := s.chip, dst := root, asid := s.cur.sysr.asid, gang := s.gangKey s.cur root, win := 0, byVa := false, addr := 0,
                   body := body }
  let s : State := { s with nextKey := s.nextKey + 1, outReqs := s.outReqs ++ [⟨q, .slot s.cur.key, false, [], false⟩] }
  if s.routeTo root then s.depart q
  else s.later (answerTo q { id := q.id, cause := Cause.remoteUnreach, x := false, data := [], src := s.chip, dst := s.chip, asid := q.asid })

/-- `sropen` (R222). -/
def execSropen (a d : BitVec 6) (s : State) : Ans :=
  s.deciding [a] (some d) (s.closing false fun s =>
    let desc := (s.wreg a).val
    .next ((s.await (.slot d)).sendSlot (desc.extractLsb' 0 8) (.slotOpen desc)))

/-- `srjoin` (R223, R378, R444). -/
def execSrjoin (h v r : BitVec 6) (s : State) : Ans :=
  s.deciding [h, v, r] none (s.closing false fun s =>
    let hd := (s.wreg h).val
    let va := (s.wreg r).val.toNat
    let root := hd.extractLsb' 16 8
    if va % 16 != 0 then s.failLive Cause.invalid va none
    else match s.translate s.cur.xl va .write with
      | (s, .error c) => s.failLive c va none
      | (s, .ok _) =>
        let g := s.cur
        let q : SlotJoin := { id := s.nextKey, src := s.chip, asid := g.sysr.asid, core := g.core, grp := g.grp.toNat,
                              slot := hd.extractLsb' 0 9, gen := hd.extractLsb' 32 16, value := (s.wreg v).val, recVa := BitVec.ofNat 64 va }
        (s.sendSlot root (.slotJoin q)).doneNew)

/-- The slot with a number; one that was never opened is closed and has no last generation. -/
def State.slot? (s : State) (n : BitVec 9) : Option Slot := s.slots.find? fun x => x.n == n

/-- Put a slot's new record in place of the old one. -/
def State.putSlot (s : State) (x : Slot) : State :=
  { s with slots := if s.slots.any fun y => y.n == x.n then s.slots.map fun y => if y.n == x.n then x else y
      else insertBy (fun y => y.n.toNat) x s.slots }

/-- The lowest free slot. -/
def State.freeSlot (s : State) : Option (BitVec 9) :=
  ((List.range 512).map (BitVec.ofNat 9)).find? fun n => !((s.slot? n).map Slot.isOpen).getD false

/-- SLOT_OPEN_REQUEST at the root (R222, R378). -/
def execSlotOpenRequest (q : Req) (s : State) : Ans :=
  match q.body with
  | .slotOpen desc =>
    .next (s.here (reqHdr q) (.req q) fun s => s.gated q fun s =>
      if slotBad desc then s.sendSlotAnswer q (slotHandle s.chip 0 0 2)
      else match s.freeSlot with
        | none => s.sendSlotAnswer q (slotHandle s.chip 0 0 1)
        | some n =>
          let gen := ((s.slot? n).map Slot.gen).getD 0 + 1
          (s.putSlot ⟨n, gen, true, desc, []⟩).sendSlotAnswer q (slotHandle s.chip n gen 0))
  | _ => .next s

/-- An outstanding request leaves the table. -/
def State.takeReq (s : State) (id : Nat) : State := { s with outReqs := s.outReqs.filter fun o => o.q.id != id }

/-- SLOT_ANSWER: w[d] takes the handle and the control stream goes on (R222). An answer that nothing waits for is dropped (log 75). -/
def execSlotAnswer (m : RespTo) (ans : BitVec 64) (s : State) : Ans :=
  .next (s.here m.h (.slotAns m.id ans) fun s =>
    match (s.outReqs.find? fun o => o.q.id == m.id).map OutReq.owner with
    | some (.slot k) =>
      let s := s.takeReq m.id
      (match (s.group? k).map Group.phase with
      | some (.wait (.slot d)) => s.answerCmd k d ⟨ans, false⟩
      | _ => s)
    | _ => s)

/-- The pairwise tree of R187 over positions; an absent leaf is neutral. -/
def combineTree (f : Nat → Nat → Nat) (vs : List (Option Nat)) : Option Nat :=
  let level (vs : List (Option Nat)) (k : Nat) : List (Option Nat) :=
    vs.zipIdx.map fun e =>
      if e.2 % (2 * k) == 0 then
        match e.1, (vs[e.2 + k]?).join with
        | some a, some b => some (f a b)
        | some a, none => some a
        | none, b => b
      else e.1
  (([1, 2, 4, 8, 16, 32, 64, 128].foldl (fun vs k => if k < vs.length then level vs k else vs) vs).head?).join

/-- Combine `f32` contributions (R380). -/
def combineF32 (op : Nat) (nanp : Bool) (vs : List Nat) : Nat :=
  let isNan (v : Nat) : Bool := Num.isNan (Num.decode Num.f32 v)
  if (nanp && vs.any isNan) || vs.all isNan then Num.nanCode Num.f32
  else
    let leaf (v : Nat) : Option Nat := if isNan v then none else some (if op == 3 then v % 2 ^ 31 else v)
    (combineTree (if op == 0 then addElem .f32 else minMaxElem (op != 2) .f32) (vs.map leaf)).getD 0

/-- Combine the contributions of a slot in the order of R380, chip, `CORE`, `GRPID`, ties as they came. -/
def slotValue (desc : BitVec 64) (js : List SlotJoin) : BitVec 64 :=
  let d := desc.toNat
  let op := bits d 20 3
  let vs := (sortBy (fun j => (j.src.toNat * 256 + j.core) * 64 + j.grp) js).map fun j => j.value.toNat
  let v := match bits d 24 2 with
    | 0 => combineF32 op (bit d 23) (vs.map fun v => v % 2 ^ 32)
    | n =>
      let ty : Ty := if n == 1 then .i32 else if n == 2 then .n32 else .i64
      let f := if op == 0 then addElem ty else minMaxElem (op == 1) ty
      (combineTree f (vs.map fun v => some (v % 2 ^ ty.width))).getD 0
  BitVec.ofNat 64 v

/-- A slot combines, sends its result to every contributor and frees (R378, R379). -/
def State.combineSlot (s : State) (x : Slot) (status : BitVec 8) : State :=
  let v := slotValue x.desc x.joins
  x.joins.foldl (fun s j => s.sendSlotResult j v status) (s.putSlot { x with isOpen := false, joins := [] })

/-- SLOT_CONTRIBUTION at the root (R378). -/
def execSlotContribution (q : Req) (s : State) : Ans :=
  match q.body with
  | .slotJoin j =>
    .next (s.here (reqHdr q) (.req q) fun s => s.gated q fun s =>
      match s.slot? j.slot with
      | none => s.sendSlotResult j 0 3
      | some x =>
        if x.isOpen && x.gen == j.gen then
          let x := { x with joins := x.joins ++ [j] }
          if bits x.desc.toNat 8 9 ≤ x.joins.length then s.combineSlot x 0 else s.putSlot x
        else if !x.isOpen && x.gen == j.gen then s.sendSlotResult j 0 2
        else s.sendSlotResult j 0 3)
  | _ => .next s

/-- SLOT_TIMEOUT (R379). -/
def execSlotTimeout (slot : BitVec 9) (s : State) : Ans :=
  match s.slot? slot with
  | none => .next s
  | some x => if x.isOpen then .next (s.combineSlot x 1) else .next s

/-- SLOT_RESULT_LAND: the record of the contribution that the result answers is written as an engine commit (R223). A result that no outstanding
contribution waits for is dropped: its record has its outcome, or its context is gone (R416, log 75). -/
def execSlotResultLand (h : Hdr) (id : Nat) (value : BitVec 64) (status : BitVec 8) (s : State) : Ans :=
  .next (s.here h (.slotRes id value status) fun s =>
    match (s.outReqs.find? fun o => o.q.id == id).map OutReq.q with
    | some q => match q.body with
      | .slotJoin j =>
        let s := s.takeReq id
        (match s.translate (s.frontXl q.asid) j.recVa.toNat .write with
        | (s, .error c) => s.emit (.note 4 c.toNat)
        | (s, .ok p) => (s.putAt none p (toBytes 8 value.toNat ++ [status] ++ List.replicate 7 0)).1)
      | _ => s
    | none => s)

end Sys2Proof.Machine
end

