-- ==== Sys2Proof/Machine/Shoot.lean ====
section
/-! DEFINITION. Shootdowns (R45 to R48, R225) and the replacement of sharding entries (R50, R57, R226). -/

namespace Sys2Proof.Machine

/-! ## Shootdowns -/

/-- An address of an address space lies in a shootdown's range. -/
def Shoot.covers (t : Shoot) (asid : BitVec 16) (va n : Nat) : Bool :=
  t.asid == asid && (t.whole || (decide (t.lo < t.hi) && decide (va % 2 ^ 57 < t.hi) && decide (t.lo < va % 2 ^ 57 + n)))

/-- Broadcast a shootdown; its number is the key before (R46). -/
def State.broadcast (s : State) (asid : BitVec 16) (whole : Bool) (lo hi : Nat) : State :=
  { s with nextKey := s.nextKey + 1,
           shoots := s.shoots ++ [{ id := s.nextKey, asid := asid, whole := whole, lo := lo, hi := hi, removed := [], acked := [] }] }

/-- `shoot` (R225): the range is rounded outward to 64 KiB; a length of 0 covers nothing. Poison in a source whose value is ignored is live too (log 107). -/
def execShoot (a b c : BitVec 6) (s : State) : Ans :=
  if s.cur.user then .next (s.illegal tsPriv 0 false)
  else s.deciding [a, b, c] none (s.closing false fun s =>
    let lo := (s.wreg b).val.toNat % 2 ^ 57
    let n := (s.wreg c).val.toNat
    let id := s.nextKey
    .next ((s.await (.shoot id)).broadcast ((s.wreg a).val.setWidth 16) ((s.wreg a).val.getLsbD 16) (lo / 65536 * 65536)
      (if n == 0 then lo / 65536 * 65536 else roundUp (lo + n) 65536)))

/-- The open chunk of a group holds a line that it named, through whichever address, by a removed entry. -/
def Group.heldBy (g : Group) (t : Shoot) : Bool := g.chunk.vlines.any fun v => t.covers v.1 (v.2 * 128) 128

/-- A cached pointer entry maps addresses in a shootdown's range. -/
def PtrE.shotBy (e : PtrE) (t : Shoot) : Bool := t.covers e.asid (e.idx <<< regionShift e.lvl) (2 ^ regionShift e.lvl)

/-- A cluster loses the entries that a shootdown removes, leaves and pointers (R45, R47). -/
def Cluster.shot (c : Cluster) (t : Shoot) : Cluster :=
  { c with tlb := c.tlb.filter fun e => !(t.covers e.asid e.vbase e.size), ptrs := c.ptrs.filter fun e => !e.shotBy t,
           shards := c.shards.filter fun x => !(t.whole && x.asid == t.asid), epoch := c.epoch + 1 }

/-- A core loses the virtual tags that a shootdown removes, and the data of misses through them is dropped (R45, R46). -/
def Core.shot (c : Core) (t : Shoot) : Core :=
  let hit (asid : BitVec 16) (vline : Nat) : Bool := t.covers asid (vline * 128) 128
  { c with l1 := c.l1.filter fun x => !(hit x.asid x.vline), reqs := c.reqs.filter fun r => !(hit r.asid r.vline),
           replies := c.replies.filter fun r => !(hit r.req.asid r.req.vline) }

/-- SHOOTDOWN_REMOVE at one recipient: removal (recipient 4 is the network engine's cache), and the squash of open chunks that hold a removed translation (R46). -/
def execShootdownRemove (id rcpt : Nat) (s : State) : Ans :=
  match s.shoots.find? fun t => t.id == id && !t.removed.contains rcpt with
  | none => .next s
  | some t =>
    let s : State := { s with shoots := s.shoots.map fun u => if u.id == id then { u with removed := u.removed ++ [rcpt] } else u }
    if 4 ≤ rcpt then .next { s with ioTlb := s.ioTlb.filter fun e => !(t.covers e.asid e.vbase e.size) }
    else
      let us := (s.cores.filter fun c => c.id / 64 == rcpt).flatMap fun c =>
        (c.l1.filter fun x => x.st == .u && t.covers x.asid (x.vline * 128) 128).map L1Line.line
      let s := (dedup us).foldl (fun s l => s.fold l) s
      let s : State := { s with clusters := s.clusters.map fun c => if c.id / 16 == rcpt then c.shot t else c,
                                cores := s.cores.map fun c => if c.id / 64 == rcpt then c.shot t else c }
      .next ((s.groups.filter fun g => g.alive && g.core / 64 == rcpt && !g.chunk.committing && g.heldBy t).foldl
        (fun s g => s.withGroup g.key State.squash) s)

/-- What a recipient's drain still waits for: chunks in commit finish. -/
def State.draining (s : State) (t : Shoot) (rcpt : Nat) : Bool := s.groups.any fun g => g.core / 64 == rcpt && g.chunk.committing && g.heldBy t

/-- A recipient may acknowledge. -/
def State.canAck (s : State) (t : Shoot) (rcpt : Nat) : Bool := t.removed.contains rcpt && !t.acked.contains rcpt && !s.draining t rcpt

/-- SHOOTDOWN_ACK; the last of the five completes the shootdown and its group goes on (R46). -/
def execShootdownAck (id rcpt : Nat) (s : State) : Ans :=
  match s.shoots.find? fun t => t.id == id && s.canAck t rcpt with
  | none => .next s
  | some t =>
    if t.acked.length < 4 then
      .next { s with shoots := s.shoots.map fun u => if u.id == id then { u with acked := u.acked ++ [rcpt] } else u }
    else
      .next (({ s with shoots := s.shoots.filter fun u => u.id != id } : State).mapGroups fun g =>
        if g.phase == .wait (.shoot id) then { g with phase := .run } else g)

/-! ## STSET -/

/-- The 128 bytes that `STSET` writes: VALID where the rules of R50 hold, GEN from the old entry, reserved bits zero (R3, R49). -/
def shardImage (bs : List Byte) (gen : BitVec 16) (valid : Bool) : List Byte :=
  let b (i : Nat) : Byte := bs.getD i 0
  [(if valid then 0x80 else 0) ||| (b 0 &&& 0x37), b 1, b 2, b 3 &&& 0x7F] ++ toBytes 2 gen.toNat ++ [b 6, b 7 &&& 0x0F] ++
  (bs.drop 8).take 0x35 ++ [0, 0, 0] ++ bs.drop 0x40

/-- Install an image at a handle: the new GEN follows the old, an engine commit writes the entry, every cache of it is invalid. An old
entry whose line is poisoned has no GEN to follow (a free value). -/
def State.installShard (s : State) (core : Nat) (asid : BitVec 16) (stbase : BitVec 64) (h : BitVec 16) (bs : List Byte) (valid : Bool) :
    State × BitVec 16 :=
  let l := shardAt stbase h.toNat / 128
  let (s, c) := s.readPlace l 0 none
  let (s, gen) : State × BitVec 16 := match c.x with
    | none => (s, (Shard.ofBytes (memBytes c.data 0 128)).gen + 1)
    | some _ => (s.used, s.free64.setWidth 16)
  let s := (s.engineWrite (some core) l 0 (cellsAt 0 (shardImage bs gen valid)) none).1
  ({ s with clusters := s.clusters.map fun k => { k with shards := k.shards.filter fun y => !(y.asid == asid && y.h == h) } }, gen)

/-- The answer of `STSET` (R226). -/
def stsetAnswer (status gen : Nat) : BitVec 64 := BitVec.ofNat 64 (status + gen <<< 16)

/-- An access resolved through a handle before moment `key`, under whatever generation, has not completed (R57): an operation that holds the entry, a
request, a store in a chunk that was open then. -/
def State.shardBusy (s : State) (asid h : BitVec 16) (key : Nat) : Bool :=
  (s.ops.any fun o => decide (o.id < key) && o.sysr.asid == asid &&
    ((o.src.isSome && (o.args.getD 1 0).setWidth 16 == h) || (o.dst.isSome && (o.args.getD 1 0).extractLsb' 16 16 == h))) ||
  (s.outReqs.any fun r => decide (r.q.id < key) && r.q.asid == asid && r.hs.contains h) ||
  (s.groups.any fun g => g.alive && g.sysr.asid == asid && decide (g.chunk.key0 ≤ key) && g.chunk.quar.any fun q =>
    q.poison.isNone && q.ops.any fun o => match o with | .stx _ k _ _ _ => k == h | .st _ | .red _ _ _ _ _ _ _ => false)

/-- `stset` (R226): the entry is replaced at commit and the stream waits for accesses through the old one. -/
def execStset (d h r : BitVec 6) (s : State) : Ans :=
  s.deciding [h, r] (some d) (s.closing false fun s =>
    let g := s.cur
    let hd : BitVec 16 := (s.wreg h).val.setWidth 16
    let a := scratchAddr (s.wreg r).val
    let t := s.team
    let ans (st gen : Nat) (s : State) : Ans := (s.setVal d (stsetAnswer st gen)).doneNew
    if a % 8 != 0 || !t.inside a 128 then ans 4 0 s
    else if shardCount g.sysr.stbase ≤ hd.toNat then ans 2 0 s
    else if (t.firstPoison a 128).isSome then ans 3 0 s
    else
      let bs := memBytes t.scratch a 128
      let e := Shard.ofBytes bs
      let ok := e.legal && e.valid
      let (s, gen) := s.installShard g.core g.sysr.asid g.sysr.stbase hd bs ok
      let val := stsetAnswer (if ok then 0 else 1) gen.toNat
      let key := s.nextKey
      .next (({ s with nextKey := key + 1 } : State).await (.stset d hd val key)))

/-- The accesses that `STSET` of group `k` waits for have completed. -/
def State.stsetReady (s : State) (g : Group) : Bool :=
  match g.phase with
  | .wait (.stset _ h _ key) => !s.shardBusy g.sysr.asid h key
  | _ => false

/-- STSET_COMPLETE (R57). -/
def execStsetComplete (k : Nat) (s : State) : Ans :=
  match s.group? k with
  | none => .next s
  | some g =>
    match g.phase with
    | .wait (.stset d _ val _) =>
      if s.stsetReady g then .next (s.answerCmd k d ⟨val, false⟩) else .next s
    | _ => .next s

end Sys2Proof.Machine
end

