-- ==== Sys2Proof/Machine/Migrate.lean ====
section
/-! DEFINITION. The migration engine (R19 to R31): pages of every context, free frames, victims, the three phases of a migration, staging. -/

namespace Sys2Proof.Machine

/-! ## Page tables as a whole -/

/-- A byte of memory as its home gives it: an update-only line as its fold will leave it (R98, R100, R351). -/
def State.byteAt (s : State) (pa : Nat) : Byte :=
  match s.bank? (pa / 128) with
  | some b => memGet (s.foldedData b) (pa % 128)
  | none => memGet s.dram pa

/-- A little-endian number of memory. -/
def State.natAt (s : State) (pa n : Nat) : Nat := leNat ((List.range n).map fun i => s.byteAt (pa + i))

/-- Entries of a table of `n` that are not zero: index and value, ascending. -/
def State.entries (s : State) (t n : Nat) : List (Nat × Nat) :=
  let inside (a : Nat) : Bool := decide (t ≤ a) && decide (a < t + 8 * n)
  let cells := (s.dram.map Prod.fst ++ s.bank.flatMap fun b => (s.foldedData b).map fun c => b.line * 128 + c.1).filter inside
  let is := sortBy id (dedup (cells.map fun a => (a - t) / 8))
  is.map fun i => (i, s.natAt (t + 8 * i) 8)

/-- A leaf of a page table: its page and where its entry stands. -/
structure Leaf where
  asid : BitVec 16
  va : Nat
  size : Nat
  at_ : Nat
  pte : Nat
  deriving DecidableEq, Repr

/-- The page is present. -/
def Leaf.present (f : Leaf) : Bool := bit f.pte 0

/-- The tier of the page (R21). -/
def Leaf.tier (f : Leaf) : Nat := bits f.pte 6 2

/-- The frame of the page (R35). -/
def Leaf.frame (f : Leaf) : Nat := bits f.pte 16 36 * 65536 / f.size * f.size

/-- The entry names a frame of DRAM. -/
def Leaf.backed (f : Leaf) : Bool := decide (f.tier < 2)

/-- The page's frame is there: one in a reserved or unpopulated range is not present (R19). -/
def State.frameThere (s : State) (f : Leaf) : Bool := f.backed && s.populated f.frame && s.populated (f.frame + f.size - 1)

/-- The next table that a pointer entry names (R36). -/
def nextTable (lvl pte : Nat) : Nat := if lvl == 2 then bits pte 8 44 * 256 else bits pte 8 44 * 256 / 4096 * 4096

/-- Bytes that an entry of a level maps (R34). -/
def levelSize : Nat → Nat
  | 1 => 2 ^ 16
  | 2 => 2 ^ 21
  | 3 => 2 ^ 30
  | _ => 2 ^ 39

/-- Entries of a table of a level (R34). -/
def levelEntries : Nat → Nat
  | 1 => 32
  | 4 => 262144
  | _ => 512

/-- Leaves below a table of a level that maps addresses from `va` on. -/
def State.leavesAt (s : State) (asid : BitVec 16) : Nat → Nat → Nat → List Leaf
  | 0, _, _ => []
  | n + 1, t, va =>
    (s.entries t (levelEntries (n + 1))).flatMap fun e =>
      let v := va + e.1 * levelSize (n + 1)
      if n + 1 == 1 || (n + 1 != 4 && bit e.2 5) then [⟨asid, v, levelSize (n + 1), t + 8 * e.1, e.2⟩]
      else if bit e.2 0 then s.leavesAt asid n (nextTable (n + 1) e.2) v
      else []

/-- Tables at and below one of a level: base and bytes. -/
def State.tablesAt (s : State) : Nat → Nat → List (Nat × Nat)
  | 0, _ => []
  | n + 1, t =>
    (t, 8 * levelEntries (n + 1)) ::
      (s.entries t (levelEntries (n + 1))).flatMap fun e =>
        if n + 1 == 1 || (n + 1 != 4 && bit e.2 5) || !bit e.2 0 then [] else s.tablesAt n (nextTable (n + 1) e.2)

/-- Top-level table of a context (R33). -/
def Ctx.l4 (c : Ctx) : Nat := bits c.pt.toNat 21 31 * 2 ^ 21

/-- Every leaf of every context. -/
def State.leaves (s : State) : List Leaf := s.ctxs.flatMap fun c => s.leavesAt c.asid 4 c.l4 0

/-- The leaf of an address of a context. -/
def State.leaf? (s : State) (asid : BitVec 16) (va : Nat) : Option Leaf :=
  (s.ctx? asid).bind fun c => (s.leavesAt asid 4 c.l4 0).find? fun f => decide (f.va ≤ va % 2 ^ 57) && decide (va % 2 ^ 57 < f.va + f.size)

/-! ## Frames -/

/-- Memory that the management core pins itself: page tables, crumb tables, sharding tables, the VC table, its own area (R26). -/
def State.corePinned (s : State) : List (Nat × Nat) :=
  s.devPinned ++ (bits s.vctbase.toNat 15 37 * 32768, 32768) ::
  s.ctxs.flatMap fun c => (crumbTable c.crumb, 32 * 2 ^ max 4 (min (c.crumb.toNat % 32) 24)) ::
    (bits c.shard.toNat 12 40 * 4096, 128 * shardCount c.shard) :: s.tablesAt 4 c.l4

/-- Two ranges of bases and lengths meet. -/
def meets (a b : Nat × Nat) : Bool := decide (a.1 < b.1 + b.2) && decide (b.1 < a.1 + a.2)

/-- A frame is on the pinned-frame list (R26). -/
def State.isPinned (s : State) (frame size : Nat) : Bool := (s.corePinned ++ s.pinned).any fun r => meets r (frame, size)

/-- Ranges of DRAM in use, rounded outward to 64 KiB, ascending. -/
def State.inUse (s : State) : List (Nat × Nat) :=
  let rs := ((s.leaves.filter Leaf.backed).map fun f => (f.frame, f.size)) ++ s.corePinned ++ s.pinned ++
    s.migrations.flatMap fun m => [(m.src, m.size), (m.dst, m.size)]
  sortBy Prod.fst (rs.map fun r => (r.1 / 65536 * 65536, roundUp (r.1 + r.2) 65536 - r.1 / 65536 * 65536))

/-- Parts of the free pool in the tier and, for HBM4E, on the die. -/
def State.pool (s : State) (tier : BitVec 2) (die : Nat) : List (Nat × Nat) :=
  if tier == 0 then (if s.lostDies.contains die then [] else s.free.filter fun r => decide (r.1 < 0x10000000000) && r.1 / 0x4000000000 == die)
  else s.free.filter fun r => decide (0x10000000000 ≤ r.1)

/-- The lowest free frame of a size in a tier and die; one larger free part serves any smaller size. -/
def State.freeFrame (s : State) (tier : BitVec 2) (die size : Nat) : Option Nat :=
  let us := s.inUse
  (s.pool tier die).findSome? fun r =>
    let a := us.foldl (fun a u => if meets (a, size) u then roundUp (u.1 + u.2) size else a) (roundUp r.1 size)
    if a + size ≤ r.1 + r.2 then some a else none

/-- Free 64 KiB frames of a die's HBM4E. -/
def State.freeCount (s : State) (die : Nat) : Nat :=
  let us := s.inUse
  sumNat ((s.pool 0 die).map fun r =>
    let q := us.foldl (fun (q : Nat × Nat) u =>
      let lo := max q.1 (min u.1 (r.1 + r.2))
      (max q.1 (min (u.1 + u.2) (r.1 + r.2)), q.2 + (lo - q.1))) (r.1, 0)
    (q.2 + (r.1 + r.2 - q.1)) / 65536)

/-- The die with the most free frames, the lowest number on a tie (R25). -/
def State.stageDie (s : State) : Nat :=
  ((List.range 4).foldl (fun (b : Nat × Nat) d => let n := s.freeCount d; if b.2 < n then (d, n) else b) (0, s.freeCount 0)).1

/-! ## Victims (R26, R27) -/

/-- A range of a launch covers a page: any part of it (log 90). -/
def LRange.covers (e : LRange) (f : Leaf) : Bool := meets (e.base.toNat % 2 ^ 57, e.len) (f.va, f.size)

/-- The page lies in a range of a running launch (R26). -/
def State.inRunning (s : State) (f : Leaf) : Bool :=
  s.launches.any fun l => l.started && l.asid == f.asid && l.lrec.ranges.any fun e => e.covers f

/-- The queued launches in queue order (R25). -/
def State.queuedLaunches (s : State) : List Launch :=
  sortBy (fun l => (7 - l.prio.toNat) * 2 ^ 64 + l.arrival) (s.launches.filter fun l => !l.started && l.stop.isNone)

/-- Order of keys. -/
def keyLt (a b : Nat × Nat) : Bool := decide (a.1 < b.1) || (a.1 == b.1 && decide (a.2 < b.2))

/-- The key of a page that no queued launch names (R27). -/
def keyInf : Nat × Nat := (2 ^ 64, 0)

/-- The earliest next use of a page by a queued launch. -/
def State.pageKey (s : State) (f : Leaf) : Nat × Nat :=
  (s.queuedLaunches.zipIdx).foldl (fun k q =>
    if q.1.asid == f.asid then
      q.1.lrec.ranges.foldl (fun k e => if e.covers f && keyLt (q.2 + 1, e.hint) k then (q.2 + 1, e.hint) else k) k
    else k) keyInf

/-- `LastUse`: the most recent bank-store fill from the frame. -/
def State.lastUseOf (s : State) (f : Leaf) : Nat :=
  maxNat ((s.lastUse.filter fun u => decide (f.frame ≤ u.1 * 65536) && decide (u.1 * 65536 < f.frame + f.size)).map Prod.snd)

/-- A frame of HBM4E lies on a lost die (R31). -/
def State.frameLost (s : State) (frame : Nat) : Bool := decide (frame < 0x10000000000) && s.lostDies.contains (frame / 0x4000000000)

/-- `ChooseVictim` of R27. A page on a lost die stays where it is (R31). -/
def State.victim (s : State) (d : Nat) (need : Nat × Nat) : Option Leaf :=
  let ps := s.leaves.filter fun f => f.present && s.frameThere f && f.tier == 0 && f.frame / 0x4000000000 == d && !s.frameLost f.frame &&
    !s.isPinned f.frame f.size && !s.inRunning f && !s.migrations.any fun m => m.covers f.asid f.va
  let best := ps.foldl (fun (b : Option (Leaf × (Nat × Nat) × Nat)) f =>
    let k := s.pageKey f
    let u := s.lastUseOf f
    match b with
    | none => some (f, k, u)
    | some (_, bk, bu) => if keyLt bk k || (k == bk && u < bu) then some (f, k, u) else b) none
  match best with
  | some (f, k, _) => if keyLt need k then some f else none
  | none => none

/-! ## Moving (R28, R30) -/

/-- Copy one line through its home; an X line and an uncorrectable error are stored with the poison syndrome (R30). -/
def State.moveLine (s : State) (src dst l : Nat) : State :=
  let s := if s.ue.contains l && (s.bank? l).isNone then s.faultEvent 6 3 l else s
  let (s, c) := s.lookAt l
  let m := dst / 128 + (l - src / 128)
  match c.x with
  | some _ => s.dramPoison m
  | none => s.dramPut m c.data

/-- Lines of a frame that hold anything: bytes, a copy, poison, an error. -/
def State.linesWithin (s : State) (frame size : Nat) : List Nat :=
  let inside (l : Nat) : Bool := decide (frame ≤ l * 128) && decide (l * 128 < frame + size)
  dedup ((s.dram.map (fun (c : Nat × Byte) => c.1 / 128) ++ s.bank.map BLine.line ++ s.synd ++ s.ue ++ s.soft).filter inside)

/-- A frame that nothing uses is cleared before it is written; copies of its lines leave the bank store (R89). -/
def State.clearFrame (s : State) (frame size : Nat) : State :=
  let out (l : Nat) : Bool := !(decide (frame ≤ l * 128) && decide (l * 128 < frame + size))
  let s := ((s.bank.map BLine.line).filter fun l => !out l).foldl State.takeOut s
  { s with dram := memPut s.dram frame size [], synd := s.synd.filter out, ue := s.ue.filter out, soft := s.soft.filter out,
           cores := s.cores.map fun c => { c with l1 := c.l1.filter fun x => out x.line } }

/-- Begin the copy phase of a page. -/
def State.beginMove (s : State) (q : MigReq) (f : Leaf) (dst : Nat) : State :=
  let s := s.clearFrame dst f.size
  let s := (s.linesWithin f.frame f.size).foldl (fun (s : State) l => s.moveLine f.frame dst l) s
  let m : Migration := { id := s.nextKey, q := q, pte := f.at_, size := f.size, src := f.frame, dst := dst, srcTier := BitVec.ofNat 2 f.tier,
                         switching := false, marked := [], shoot := none }
  { s with nextKey := s.nextKey + 1, migrations := s.migrations ++ [m] }

/-- Write a page-table entry: present, tier, frame; its other bits stay. -/
def State.setPte (s : State) (at_ : Nat) (present : Bool) (tier : BitVec 2) (frame : Option Nat) : State :=
  let v := s.natAt at_ 8
  let keep := v &&& (2 ^ 64 - 1 - 0xC1 - (if frame.isSome then 0xFFFFFFFFF0000 else 0))
  (s.engineBytes none at_ (toBytes 8 (keep ||| b2n present ||| tier.toNat * 64 ||| (frame.getD 0) % 2 ^ 52))).1

/-- A demand promotion without a frame maps the page in place (R27). -/
def State.mapInPlace (s : State) (q : MigReq) (f : Leaf) : State := if q.cause == .demand then s.setPte f.at_ true 1 none else s

/-- The MIGRATE messages all of whose migrations have started are answered (R389). -/
def State.payOwed (s : State) : State :=
  let open_ (q : MigReq) : Bool := s.migWait.contains q || s.agenda.any fun i => i == .migrationStart q
  let due := s.migOwed.filter fun qs => !qs.any open_
  due.foldl (fun s _ => s.emit (.answer 18 ansOk 0)) { s with migOwed := s.migOwed.filter fun qs => qs.any open_ }

/-- Start what a request asks (R25 to R27): a second request for a page under migration waits; a full window evicts victims first. Where DDR-5 has no
free frame for the victim, the engine stops as where there is none (log 90). A page on a lost die stays there (R31). -/
def State.startMove (s : State) (q : MigReq) : State :=
  match s.leaf? q.asid q.va.toNat with
  | none => s
  | some f =>
    let wants := s.frameThere f && !s.frameLost f.frame && (match q.cause with
      | .demand => f.tier == 1 && !f.present
      | .staging => f.tier == 1
      | .host => f.tier != q.tier.toNat || (q.tier == 0 && f.frame / 0x4000000000 != q.die)
      | .eviction => f.tier == 0)
    if s.migrations.any fun m => m.covers q.asid q.va.toNat then { s with migWait := s.migWait ++ [q] }
    else if !wants then s
    else if s.isPinned f.frame f.size || s.inRunning f then s.mapInPlace q f
    else match s.freeFrame q.tier q.die f.size with
      | some a => s.beginMove q f a
      | none =>
        if q.tier != 0 then s
        else if s.migrations.any fun m => m.q.cause == .eviction && m.src / 0x4000000000 == q.die then { s with migWait := s.migWait ++ [q] }
        else match s.victim q.die q.key with
          | none => s.mapInPlace q f
          | some v =>
            match s.freeFrame 1 0 v.size with
            | none => s.mapInPlace q f
            | some a =>
              let e : MigReq := { cause := .eviction, asid := v.asid, va := BitVec.ofNat 64 v.va, tier := 1, die := 0, key := keyInf }
              let s := s.beginMove e v a
              { s with migWait := s.migWait ++ [q] }

/-- MIGRATION_START (R25, R28). -/
def execMigrationStart (q : MigReq) (s : State) : Ans := .next (s.startMove q).payOwed

/-- The watches on a range of memory end; no other does (R30, R101). -/
def State.wakeRange (s : State) (lo n : Nat) : State :=
  let hit (w : WatchEnt) : Bool := decide (lo ≤ w.line * 128) && decide (w.line * 128 < lo + n)
  (s.watches.filter hit).foldl (fun s w => s.unwatch w.gkey) { s with watches := s.watches.filter fun w => !hit w }

/-- MIGRATION_SWITCH: the entry is no longer present, the shootdown goes out, the page's watchers wake (R28, R30). -/
def execMigrationSwitch (id : Nat) (s : State) : Ans :=
  match s.migrations.find? fun m => m.id == id && !m.switching with
  | none => .next s
  | some m =>
    let s := (s.setPte m.pte false 0 none).wakeRange m.src m.size
    let va := m.q.va.toNat % 2 ^ 57 / m.size * m.size
    let n := s.nextKey
    let s := s.broadcast m.q.asid false va (va + m.size)
    .next { s with migrations := s.migrations.map fun k => if k.id == id then { k with switching := true, shoot := some n } else k }

/-- The shootdown of a migration has completed. -/
def State.moveReady (s : State) (m : Migration) : Bool :=
  m.switching && match m.shoot with | some n => !s.shoots.any fun t => t.id == n | none => true

/-- A migration ends: its requests are evaluated again and the remote requests that waited are tried (R26, R31, R55). -/
def State.endMove (s : State) (id : Nat) : State :=
  let ws := s.migWait
  let s : State := { s with migrations := s.migrations.filter fun m => m.id != id, migWait := [] }
  (ws.foldl (fun s q => s.later (.migrationStart q)) s).releaseMissed

/-- MIGRATION_DONE: every copy of the page's lines leaves, marked lines are copied again, the entry names the new frame (R28). -/
def execMigrationDone (id : Nat) (s : State) : Ans :=
  match s.migrations.find? fun m => m.id == id && s.moveReady m with
  | none => .next s
  | some m =>
    let inside (l : Nat) : Bool := decide (m.src ≤ l * 128) && decide (l * 128 < m.src + m.size)
    let s := ((s.bank.map BLine.line).filter inside).foldl (fun s l => s.dropLine l) s
    let s : State := { s with cores := s.cores.map fun c => { c with l1 := c.l1.filter fun x => !inside x.line } }
    let marked := ((s.migrations.find? fun k => k.id == id).map Migration.marked).getD []
    let s := marked.foldl (fun s l => s.moveLine m.src m.dst l) s
    let inPlace := ((s.ctx? m.q.asid).map Ctx.inPlace).getD true
    let s := s.setPte m.pte (m.q.tier == 0 || inPlace) m.q.tier (some m.dst)
    let s : State := { s with lastUse := s.lastUse.filter fun u => !inside (u.1 * 512) }
    .next (s.endMove id).payOwed

/-- R31: migrations of a frame on a lost die are abandoned; the entry names the old frame, present. -/
def State.abandonMoves (s : State) (d : Nat) : State :=
  let onDie (a : Nat) : Bool := decide (a < 0x10000000000) && a / 0x4000000000 == d
  (s.migrations.filter fun m => onDie m.src || onDie m.dst).foldl (fun s m =>
    ((s.setPte m.pte true m.srcTier (some m.src)).endMove m.id).payOwed) s

/-! ## Staging (R25) -/

/-- 64 KiB pages that a range touches. -/
def LRange.pages (e : LRange) : Nat := if e.len == 0 then 0 else (e.base.toNat + e.len - 1) / 65536 + 1 - e.base.toNat / 65536

/-- Page `k` of a launch's ranges in the order of the hints: its address and hint. -/
def stagePage : List LRange → Nat → Option (Nat × Nat)
  | [], _ => none
  | e :: es, k => if k < e.pages then some ((e.base.toNat / 65536 + k) * 65536, e.hint) else stagePage es (k - e.pages)

/-- Pages of all ranges of a launch. -/
def Launch.pages (l : Launch) : Nat := sumNat (l.lrec.ranges.map LRange.pages)

/-- The first queued launch, in queue order, with a page that staging has not looked at: its position and itself. -/
def State.stageNext (s : State) : Option (Launch × Nat) := (s.queuedLaunches.zipIdx).find? fun q => decide (q.1.staged < q.1.pages)

/-- Look at the next page of a queued launch; a page in DDR-5 asks for its staging. -/
def State.stageStep (s : State) : State :=
  match s.stageNext with
  | none => s
  | some (l, i) =>
    let s := s.onLaunch l.lid fun l => { l with staged := l.staged + 1 }
    match stagePage (sortBy LRange.hint l.lrec.ranges) l.staged with
    | none => s
    | some (va, h) =>
      match s.leaf? l.asid va with
      | some f => if f.tier == 1 then
          s.later (.migrationStart { cause := .staging, asid := l.asid, va := BitVec.ofNat 64 va, tier := 0, die := s.stageDie, key := (i + 1, h) })
        else s
      | none => s

end Sys2Proof.Machine
end

