-- ==== Sys2Proof/Machine/Quant.lean ====
section
/-! DEFINITION. MX blocks: decoding (R179) and the block quantiser (R184). -/

namespace Sys2Proof.Machine.Num

/-- Decoded element of an MX block: code `c` of format `t`, scale byte `s`, extra value `xv` (R179). -/
def decodeMx (t : Ty) (c s xv : Nat) : FVal :=
  if s == 255 then .nan
  else
    let k : Int := s - 127
    if t == .x2m1x8 && c % 16 == 8 then scale (decode e4m3 (xv % 256)) k
    else scale (decode (fmtOf t) (c % 2 ^ t.bits)) k

/-- A quantised block: scale, codes, extra value and the outlier's index (R184, R296). -/
structure QBlock where
  s : Nat
  codes : List Nat
  xv : Nat
  outlier : Option Nat
  deriving DecidableEq, Repr

/-- `EMAX` of R184. -/
def emaxOf : Ty → Int
  | .e4m3x4 => 8 | .e5m2x4 => 15 | _ => 2

/-- Index of the first greatest magnitude among `xs` numbered from `i`, `b` being the best so far. -/
def argMax : List FVal → Nat → Nat → FVal → Nat
  | [], _, b, _ => b
  | x :: xs, i, b, v => if lt (abs v) (abs x) then argMax xs (i + 1) i x else argMax xs (i + 1) b v

/-- Greatest magnitude of the values but the one at `o`. -/
def maxMag (o : Option Nat) (xs : List FVal) : FVal :=
  (xs.zipIdx).foldl (fun m p => if some p.2 == o then m else maxNum m (abs p.1)) (.fin false 0 0)

/-- `⌊log₂⌋` of a finite nonzero value. -/
def floorLog2 : FVal → Int
  | .fin _ m e => exponent m e
  | _ => 0

/-- One try of R184 at scale `s`: the unbounded codes, the unbounded extra value and whether one overflows. -/
def quantTry (t : Ty) (xs : List FVal) (o : Option Nat) (s : Nat) : List FVal × FVal × Bool :=
  let f := fmtOf t
  let k : Int := 127 - s
  let cs := xs.map fun x =>
    let c := roundUnbounded f .rne (scale x k)
    if t == .x2m1x8 && isZero c then .fin false 0 0 else c
  let xv := match o with
    | some i => roundUnbounded e4m3 .rne (scale (xs.getD i (.fin false 0 0)) k)
    | none => .fin false 0 0
  let ov := (cs.zipIdx).any fun p => some p.2 != o && overflows f p.1
  (cs, xv, ov || overflows e4m3 xv)

/-- The tries: at most two retries, each one scale up (R184). -/
def quantLoop (t : Ty) (xs : List FVal) (o : Option Nat) : Nat → Nat → Nat × List FVal × FVal
  | 0, s => let (c, xv, _) := quantTry t xs o s; (s, c, xv)
  | n + 1, s =>
    let (c, xv, ov) := quantTry t xs o s
    if !ov || s == 254 then (s, c, xv) else quantLoop t xs o n (s + 1)

/-- ±MaxFinite for a value beyond it. -/
def cut (f : Fmt) (v : FVal) : FVal := if overflows f v then maxFinite f (isNeg v) else v

/-- `Quantise` of R184 on the exact reals `xs`. -/
def quantise (t : Ty) (xs : List FVal) : QBlock :=
  if xs.any fun x => isNan x || isInf x then
    ⟨255, xs.map fun _ => 0, if t == .x2m1x8 then 0x7F else 0, none⟩
  else
    let f := fmtOf t
    let o : Option Nat := if t == .x2m1x8 then
        match xs with
        | [] => none
        | x :: rest => some (argMax rest 1 0 x)
      else none
    let m0 := maxMag o xs
    let alone := isZero m0 && (match o with | some i => !isZero (xs.getD i (.fin false 0 0)) | none => false)
    let m := if alone then abs (xs.getD (o.getD 0) (.fin false 0 0)) else m0
    let emax := if alone then 8 else emaxOf t
    let s0 := if isZero m then 0 else (max 0 (min (floorLog2 m - emax + 127) 254)).toNat
    let (s, cs, xv) := quantLoop t xs o 2 s0
    ⟨s, (cs.zipIdx).map fun p => if some p.2 == o then 8 else encode f (cut f p.1),
      if t == .x2m1x8 then encode e4m3 (cut e4m3 xv) else 0, o⟩

end Sys2Proof.Machine.Num
end

