-- ==== Sys2Proof/Machine/Matrix.lean ====
section
/-! DEFINITION. The matrix engine (R185, R186, R299 to R323): tiles, shapes, format blocks, the commands, their units. -/

namespace Sys2Proof.Machine

/-! ## Shapes and blocks (R299 to R301) -/

/-- A tile shape: rows, columns, element width in bits. -/
structure Shape where
  rows : Nat
  cols : Nat
  width : Nat
  ok : Bool
  deriving DecidableEq, Repr

/-- Bytes of a row of `c` elements of `b` bits. -/
def rowBytes (c b : Nat) : Nat := (c * b + 7) / 8

/-- The shape that `TSH` holds. More than 128 rows are no shape of a tile. -/
def Shape.of (v : BitVec 20) : Shape :=
  let r := v.toNat % 256 + 1
  let c := v.toNat / 256 % 256 + 1
  let w := v.toNat / 65536
  { rows := r, cols := c, width := 4 * 2 ^ w, ok := decide (w ≤ 3) && decide (rowBytes c (4 * 2 ^ w) ≤ 128) && decide (r ≤ 128) }

/-- The shape of a tile as an operation takes it. -/
def EngOp.shape (o : EngOp) (t : BitVec 5) : Shape := Shape.of (o.shapes.getD t.toNat 0)

/-- Rows of `n` bytes at pitch `p`, as a canonical memory from 0. -/
def memOfRows (p : Nat) (rows : List (List Byte)) : Mem :=
  (rows.zipIdx.flatMap fun r => cellsAt (r.2 * p) r.1).filter fun c => c.2 != unlisted

/-- The number that `n` bytes of a memory from `a` hold. -/
def memRow (m : Mem) (a n : Nat) : Nat := leNat (memBytes (memSlice m a n) 0 n)

/-- Clear the high nibble of a last byte that a row of an odd number of four-bit elements does not use. -/
def trimRow (cols b : Nat) (bs : List Byte) : List Byte :=
  if b == 4 && cols % 2 == 1 then bs.dropLast ++ [bs.getLastD 0 &&& 0x0F] else bs

/-- The 128 × 128 words of an accumulator, row by row. -/
def accWords (m : Mem) : List (List Nat) :=
  (List.range 128).map fun i => let n := memRow m (512 * i) 512; (List.range 128).map fun j => bits n (32 * j) 32

/-- An accumulator of those words. -/
def accMem (ws : List (List Nat)) : Mem := memOfRows 512 (ws.map fun r => r.flatMap fun w => toBytes 4 w)

/-- A clean block. -/
def Block.clean (m : Mem) : Block := ⟨m, false, 0⟩

/-- A block is poisoned; its data stay (R301). -/
def Block.poisonedWith (b : Block) (t : BitVec 32) : Block := { b with poison := true, token := t }

/-- Tiles and accumulators of an operation's group. -/
def State.tileOf (s : State) (o : EngOp) (t : BitVec 5) : Block := (((s.group? o.gkey).bind fun g => g.tiles[t.toNat]?)).getD default

def State.accOf (s : State) (o : EngOp) (d : BitVec 3) : Block := (((s.group? o.gkey).bind fun g => g.accs[d.toNat]?)).getD default

def State.setTile (s : State) (o : EngOp) (t : BitVec 5) (b : Block) : State := s.onGroup o.gkey fun g => { g with tiles := g.tiles.set t.toNat b }

def State.setAcc (s : State) (o : EngOp) (d : BitVec 3) (b : Block) : State := s.onGroup o.gkey fun g => { g with accs := g.accs.set d.toNat b }

/-! ## What a command touches -/

/-- KIND of a batch entry (R310). -/
def matrixKind : Instr → Nat
  | .tld _ _ _ | .tldP _ _ _ _ => 1
  | .tst _ _ _ | .tstP _ _ _ _ => 2
  | .mma _ _ _ _ => 3
  | .mmas _ _ _ _ => 4
  | .drn _ _ _ _ _ _ => 5
  | .azr _ => 6
  | .ald _ _ | .aldMem _ _ => 7
  | _ => 0

/-- The unit that runs a command: 0 load, 1 array, 2 drain (R307). -/
def matrixUnit (i : Instr) : Nat := match matrixKind i with | 1 | 2 | 7 => 0 | 5 => 2 | _ => 1

/-- Operand uniforms of a command. -/
def matrixRegs : Instr → List (BitVec 6)
  | .tld _ r _ | .tst _ r _ | .ald _ r | .aldMem _ r => [r]
  | .tldP _ r p _ | .tstP _ r p _ => [r, p]
  | .mma _ _ f _ | .mmas _ _ f _ => [f]
  | .drn _ _ d r _ _ => [d, r]
  | _ => []

/-- Tiles that a command names in its word (R132), a `DRN` in its uniform. -/
def matrixTiles (o : EngOp) : List Nat :=
  match o.instr with
  | .tld x _ _ | .tldP x _ _ _ | .tst x _ _ | .tstP x _ _ _ => [x.toNat]
  | .mma x y _ _ | .mmas x y _ _ => [x.toNat, y.toNat]
  | .drn .tile _ _ _ _ _ => [(o.args.getD 0 0).toNat % 32]
  | _ => []

/-- Accumulators that a command names. -/
def matrixAccs : Instr → List Nat
  | .mma _ _ _ d | .mmas _ _ _ d | .azr d | .ald d _ | .aldMem d _ | .drn _ d _ _ _ _ => [d.toNat]
  | _ => []

/-- The command stays within the group's allocation (R132). -/
def Group.hasMatrix (g : Group) (i : Instr) : Bool :=
  (match i with
   | .tld x _ _ | .tldP x _ _ _ | .tst x _ _ | .tstP x _ _ _ => decide (x.toNat < g.tiles.length)
   | .mma x y _ _ | .mmas x y _ _ => decide (x.toNat < g.tiles.length) && decide (y.toNat < g.tiles.length)
   | _ => true) && (matrixAccs i).all fun d => decide (d < g.accs.length)

/-! ## Tile load and store: geometry (R314) -/

/-- The spans of a `TLD` or `TST`: scratch address and bytes of each row that is read or written. -/
structure TileGeo where
  s : Nat
  p : Nat
  t : Bool
  sh : Shape
  deriving DecidableEq, Repr

/-- The geometry of an operation. -/
def EngOp.geo (o : EngOp) : TileGeo :=
  let s := (o.args.getD 0 0).toNat % 2 ^ 19
  let p := (o.args.getD 1 0).toNat % 2 ^ 32
  match o.instr with
  | .tld x _ t | .tst x _ t => ⟨s, 128, t, o.shape x⟩
  | .tldP x _ _ t | .tstP x _ _ t => ⟨s, p, t, o.shape x⟩
  | _ => ⟨s, 128, false, Shape.of 0⟩

/-- Number of scratch rows, and their bytes. -/
def TileGeo.nrows (g : TileGeo) : Nat := if g.t then g.sh.cols else g.sh.rows
def TileGeo.len (g : TileGeo) : Nat := rowBytes (if g.t then g.sh.rows else g.sh.cols) g.sh.width

/-- Bytes of the span. -/
def TileGeo.span (g : TileGeo) : Nat := (g.nrows - 1) * g.p + g.len

/-- Scratch rows: address and bytes. -/
def TileGeo.segs (g : TileGeo) : List (Nat × Nat) := (List.range g.nrows).map fun r => (g.s + r * g.p, g.len)

/-- The cause that R314 finds at issue. -/
def TileGeo.cause (g : TileGeo) (size : Nat) : Cause :=
  if !g.sh.ok || (g.t && g.sh.width == 4) then Cause.invalid
  else if size < g.s + g.span then Cause.bounds
  else 0

/-- Element `k` of width `b` of a number. -/
def elemOf (n k b : Nat) : Nat := bits n (k * b) b

/-- Pack elements of width `b` into `n` bytes (R171). -/
def packRow (b n : Nat) (es : List Nat) : List Byte := toBytes n (es.zipIdx.foldl (fun a e => a ||| (e.1 % 2 ^ b) <<< (e.2 * b)) 0)

/-- The tile that scratch holds. -/
def TileGeo.load (g : TileGeo) (m : Mem) : Mem :=
  if g.t then
    let cols := g.segs.map fun q => memRow m q.1 q.2
    memOfRows 128 ((List.range g.sh.rows).map fun r => packRow g.sh.width (rowBytes g.sh.cols g.sh.width) (cols.map fun n => elemOf n r g.sh.width))
  else memOfRows 128 (g.segs.map fun q => trimRow g.sh.cols g.sh.width (memBytes (memSlice m q.1 q.2) 0 q.2))

/-- The scratch rows that a tile gives. -/
def TileGeo.rowsOf (g : TileGeo) (d : Mem) : List (List Byte) :=
  let rows := (List.range g.sh.rows).map fun r => memRow d (128 * r) (rowBytes g.sh.cols g.sh.width)
  if g.t then (List.range g.sh.cols).map fun c => packRow g.sh.width g.len (rows.map fun n => elemOf n c g.sh.width)
  else rows.map fun n => trimRow g.sh.cols g.sh.width (toBytes g.len n)

/-- Bytes that a `TST` writes, by scratch address. Where rows overlap, a byte takes the value of one of them (a free choice). -/
def TileGeo.store (g : TileGeo) (d : Mem) (free : Nat → Nat) : Mem :=
  let all := (g.rowsOf d).zipIdx.flatMap fun r => cellsAt (g.s + r.2 * g.p) r.1
  if g.len ≤ g.p || g.nrows == 1 then all
  else (dedup (all.map Prod.fst)).map fun a =>
    let c := all.filter fun x => x.1 == a
    (a, (c.getD (free a % c.length) (0, 0)).2)

/-! ## Format blocks and operands (R302 to R305, R316) -/

/-- Element type and width of a format code. -/
def mmaTy : Nat → Option (Ty × Nat)
  | 4 => some (.i8x4, 8) | 5 => some (.n8x4, 8) | 9 => some (.f16x2, 16) | 10 => some (.bf16x2, 16) | 11 => some (.e4m3x4, 8)
  | 12 => some (.e5m2x4, 8) | 13 => some (.e2m1x8, 4) | 14 => some (.x2m1x8, 4) | _ => none

/-- One side of a format block. -/
structure MmaSide where
  code : Nat
  sen : Bool
  blk : Nat
  scale : Nat
  xv : Nat
  deriving DecidableEq, Repr

/-- The format block at scratch address `f`. -/
def mmaSides (m : Mem) (f : Nat) : MmaSide × MmaSide × Nat :=
  let w := memNat m f 4
  let a (k : Nat) : Nat := memNat m (f + k) 4 % 2 ^ 19
  (⟨bits w 0 5, bit w 16, if bit w 17 then 16 else 32, a 4, a 8⟩, ⟨bits w 8 5, bit w 18, if bit w 19 then 16 else 32, a 0xC, a 0x10⟩, a 0x14)

/-- Length of a K-group for a pair of formats, 0 for integers; none for a pair that does not combine (R303). -/
def kGroup (a b : MmaSide) : Option Nat :=
  let int (s : MmaSide) : Bool := s.code == 4 || s.code == 5
  let f8 (s : MmaSide) : Bool := s.code == 11 || s.code == 12
  let f4 (s : MmaSide) : Bool := s.code == 13 || s.code == 14
  let scaled := (a.code != 14 || a.sen) && (b.code != 14 || b.sen)
  if int a && int b then (if a.sen || b.sen then none else some 0)
  else if (a.code == 9 && b.code == 9) || (a.code == 10 && b.code == 10) then (if a.sen || b.sen then none else some 16)
  else if !scaled then none
  else if (f8 a && (f8 b || f4 b)) || (f4 a && f8 b) then some 32
  else if f4 a && f4 b then some 64
  else none

/-- Blocks of a side along K. -/
def MmaSide.blocks (s : MmaSide) (k : Nat) : Nat := (k + s.blk - 1) / s.blk

/-- Scale and XV bytes of a side with `n` rows or columns (R304). -/
def MmaSide.ranges (s : MmaSide) (n k : Nat) : List (Nat × Nat) :=
  if s.sen then (s.scale, n * s.blocks k) :: (if s.code == 14 then [(s.xv, n * s.blocks k)] else []) else []

/-- Metadata bytes: those of each row (R305). -/
def metaRanges (a m k : Nat) : List (Nat × Nat) := (List.range m).map fun i => (a + 16 * i, (k / 2 + 3) / 4)

/-- Metadata code of kept element `p` of row `i`. -/
def metaCode (m : Mem) (a i p : Nat) : Nat := bits (memGet m (a + 16 * i + p / 4)).toNat (2 * (p % 4)) 2

/-- The checks of R316: the cause, or a poisoned word that ends them. Answers also the ranges that were read. A byte in a box that `locked` names is
poison of cause RANGE_LOCKED (R112, log 94). -/
def checkMma (t : Team) (locked : Nat × Nat → Bool) (sa sb : Shape) (sparse : Bool) (f : Nat) : Cause × List (Nat × Nat) :=
  if f % 32 != 0 || !t.inside f 32 then (Cause.bounds, [])
  else if locked (f, 32) then (Cause.rangeLocked, [])
  else if (t.firstPoison f 32).isSome then (0, [(f, 32)])
  else
    let (a, b, md) := mmaSides t.scratch f
    let k := sb.rows
    match mmaTy a.code, mmaTy b.code, kGroup a b with
    | some (_, wa), some (_, wb), some _ =>
      if !sa.ok || !sb.ok then (Cause.invalid, [])
      else if sa.width != wa || sb.width != wb then (Cause.invalid, [])
      else if (if sparse then k != 2 * sa.cols || k % 4 != 0 else sa.cols != k) then (Cause.invalid, [])
      else if 128 < sb.cols then (Cause.invalid, [])
      else
        let ms := if sparse then metaRanges md sa.rows k else []
        let rs := (f, 32) :: a.ranges sa.rows k ++ b.ranges sb.cols k ++ ms
        if rs.any fun r => !t.inside r.1 r.2 then (Cause.bounds, [])
        else if rs.any locked then (Cause.rangeLocked, [])
        else if ms.any fun r => (t.firstPoison r.1 r.2).isSome then (0, rs)
        else if sparse && (List.range sa.rows).any fun i => (List.range (k / 4)).any fun g =>
            decide (metaCode t.scratch md i (2 * g + 1) ≤ metaCode t.scratch md i (2 * g)) then (Cause.invalid, [])
        else (0, rs)
    | _, _, _ => (Cause.invalid, [])

/-- Codes of a row of the expanded A of `MMAS`: the kept elements in their places, else 0 (R305, R317). -/
def expandRow (m : Mem) (md i k : Nat) (kept : List Nat) : List Nat :=
  (List.range k).map fun x =>
    let g := x / 4
    if metaCode m md i (2 * g) == x % 4 then kept.getD (2 * g) 0
    else if metaCode m md i (2 * g + 1) == x % 4 then kept.getD (2 * g + 1) 0
    else 0

/-- Decode the elements of row or column `i` along K (R179, R304). -/
def MmaSide.decode (s : MmaSide) (m : Mem) (i k : Nat) (codes : List Nat) : List FVal :=
  match mmaTy s.code with
  | none => []
  | some (ty, _) =>
    codes.zipIdx.map fun c =>
      let b := s.blocks k * i + c.2 / s.blk
      if ty.isInt then Num.ofInt (Num.intVal ty c.1)
      else if s.sen then Num.decodeMx ty c.1 (memGet m (s.scale + b)).toNat (memGet m (s.xv + b)).toNat
      else Num.decode (Num.fmtOf ty) c.1

/-! ## Sums (R185) -/

/-- Cut `l` into pieces of `n`. -/
def pieces {α : Type} (n : Nat) : Nat → List α → List (List α)
  | 0, _ => []
  | f + 1, l => if l.isEmpty then [] else l.take n :: pieces n f (l.drop n)

/-- The exact sum of finite terms, each cut toward zero to a multiple of 2^`q` if `q` is given. -/
def sumTerms (q : Option Int) (ts : List FVal) : FVal :=
  let low := ts.foldl (fun m t => match t with | .fin _ _ e => min m e | _ => m) (0 : Int)
  let q := q.getD low
  let i := ts.foldl (fun (a : Int) t => match t with
    | .fin n m e => let k : Int := Num.roundAt .rz n m e q; if n then a - k else a + k
    | _ => a) 0
  .fin (decide (i < 0)) i.natAbs q

/-- The sum of one K-group. -/
def groupSum (short : Bool) (ts : List FVal) : FVal :=
  let pos := ts.any fun t => t == .inf false
  let neg := ts.any fun t => t == .inf true
  if ts.any Num.isNan || (pos && neg) then .nan
  else if pos then .inf false
  else if neg then .inf true
  else if short then
    match ts.filterMap fun t => match t with | .fin _ m e => if m == 0 then none else some (Num.exponent m e) | _ => none with
    | [] => .fin false 0 0
    | x :: xs => sumTerms (some (xs.foldl max x - 48)) ts
  else sumTerms none ts

/-- One accumulation. -/
def accStep (short : Bool) (acc : Nat) (ts : List FVal) : Nat :=
  let s := groupSum short ts
  if Num.isNan s then 0x7FC00000
  else if Num.isZero s then acc
  else Num.toF32 (Num.add .rne (Num.decode Num.f32 acc) (Num.roundTo Num.f32 .rne s))

/-- An accumulator element after the products of a row and a column. -/
def accElem (kg : Nat) (acc : Nat) (xs ys : List FVal) : Nat :=
  let ts := List.zipWith Num.mul xs ys
  if kg == 0 then
    wrapInt (ts.foldl (fun (a : Int) t => match t with | .fin n m e => if n then a - Num.shiftTo m e 0 else a + Num.shiftTo m e 0 | _ => a) acc) 32
  else (pieces kg (ts.length + 1) ts).foldl (accStep (kg == 16)) acc

/-- The new words of an accumulator (R317). -/
def mmaWords (o : EngOp) (sa sb : Shape) (sparse : Bool) (f : Nat) (ta tb acc : Mem) : List (List Nat) :=
  let (a, b, md) := mmaSides o.img f
  let k := sb.rows
  let arow (i : Nat) : List FVal :=
    let n := memRow ta (128 * i) 128
    let codes := (List.range sa.cols).map fun c => elemOf n c sa.width
    a.decode o.img i k (if sparse then expandRow o.img md i k codes else codes)
  let brows := (List.range k).map fun r => memRow tb (128 * r) 128
  let bcols := (List.range sb.cols).map fun j => b.decode o.img j k (brows.map fun n => elemOf n j sb.width)
  let kg := (kGroup a b).getD 0
  (accWords acc).zipIdx.map fun w =>
    if sa.rows ≤ w.2 then w.1
    else
      let x := arow w.2
      w.1.zipIdx.map fun e => match bcols[e.2]? with | some y => accElem kg e.1 x y | none => e.1

/-! ## Drain records (R319 to R321) -/

/-- The fields of a drain record. -/
structure DrainRec where
  rows : Nat
  cols : Nat
  mx : Bool
  blk : Nat
  rm : Nat
  sat : Bool
  row0 : Nat
  col0 : Nat
  pitch : Nat
  sdst : Nat
  xdst : Nat
  deriving DecidableEq, Repr

def DrainRec.of (m : Mem) (a : Nat) : DrainRec :=
  let w := memNat m a 4
  let v := memNat m (a + 4) 4
  { rows := bits w 0 8 + 1, cols := bits w 8 8 + 1, mx := bit w 16, blk := if bit w 17 then 16 else 32, rm := bits w 18 3, sat := bit w 21,
    row0 := bits v 0 8, col0 := bits v 8 8, pitch := memNat m (a + 8) 4, sdst := memNat m (a + 0x10) 8, xdst := memNat m (a + 0x18) 8 }

/-- Element type and width of a drain format; `W32` has none. -/
def drainTy : DrainFmt → Option Ty
  | .w32 => none | .bf16 => some .bf16x2 | .f16 => some .f16x2 | .e4m3 => some .e4m3x4 | .e5m2 => some .e5m2x4 | .e2m1 => some .e2m1x8
  | .x2m1 => some .x2m1x8

def drainBits : DrainFmt → Nat
  | .w32 => 32 | .bf16 | .f16 => 16 | .e4m3 | .e5m2 => 8 | .e2m1 | .x2m1 => 4

/-- The drain is block-scaled. -/
def DrainRec.scaled (r : DrainRec) (f : DrainFmt) : Bool := match f with | .e2m1 | .x2m1 => true | .e4m3 | .e5m2 => r.mx | _ => false

/-- The checks of R320. -/
def DrainRec.bad (r : DrainRec) (k : DrainKind) (f : DrainFmt) : Bool :=
  decide (128 < r.row0 + r.rows) || decide (128 < r.col0 + r.cols) || decide (4 < r.rm) ||
  ((r.rm != 0 || r.sat) && (f == .w32 || r.scaled f)) || (r.mx && (f == .w32 || f == .bf16 || f == .f16)) ||
  (k == .tile && decide (128 < rowBytes r.cols (drainBits f)))

/-- Blocks of a row. -/
def DrainRec.nb (r : DrainRec) : Nat := (r.cols + r.blk - 1) / r.blk

/-- Where the rows of elements, the scales and the extra values of a drain go, without the elements of a tile: address and bytes. -/
def DrainRec.dests (r : DrainRec) (k : DrainKind) (f : DrainFmt) (dest : Nat) : List (Nat × Nat) :=
  let cut (a : Nat) : Nat := if k == .mem then a else a % 2 ^ 19
  let els := if k == .tile then [] else (List.range r.rows).map fun i => (dest + i * r.pitch, rowBytes r.cols (drainBits f))
  els ++ (if r.scaled f then [(cut r.sdst, r.rows * r.nb)] else []) ++ (if f == .x2m1 then [(cut r.xdst, r.rows * r.nb)] else [])

/-- Rounding mode of a code. -/
def rmOf : Nat → Rm
  | 1 => .rz | 2 => .rd | 3 => .ru | 4 => .rna | _ => .rne

/-- What a drain gives: the rows of the elements, the scales, the extra values (R321). -/
def DrainRec.data (r : DrainRec) (f : DrainFmt) (acc : Mem) : List (List Byte) × List Byte × List Byte :=
  let words := ((accWords acc).drop r.row0).take r.rows |>.map fun w => (w.drop r.col0).take r.cols
  let n := rowBytes r.cols (drainBits f)
  match drainTy f with
  | none => (words.map fun w => w.flatMap fun x => toBytes 4 x, [], [])
  | some ty =>
    let vals := words.map fun w => w.map fun x => Num.decode Num.f32 x
    if r.scaled f then
      let qs := vals.map fun w => (pieces r.blk (w.length + 1) w).map fun p => Num.quantise ty p
      (qs.map fun q => packRow (drainBits f) n (q.flatMap Num.QBlock.codes), qs.flatMap fun q => q.map fun b => BitVec.ofNat 8 b.s,
       if f == .x2m1 then qs.flatMap fun q => q.map fun b => BitVec.ofNat 8 b.xv else [])
    else
      let m := Num.fmtOf ty
      let cv (v : FVal) : Nat := Num.encode m (Num.saturate m (if r.sat then .type else .none) v (Num.roundTo m (rmOf r.rm) v))
      (vals.map fun w => packRow (drainBits f) n (w.map cv), [], [])

/-! ## Boxes of others (R309, R112) -/

/-- Other boxes of the team that a matrix operation is checked against: all but those of matrix operations of its own group (R309). -/
def State.foreignBoxes (s : State) (o : EngOp) : List Box :=
  let t := (s.team? o.teamKey).getD default
  let bs := if 32 < t.ngroups then (s.coreAt t.core).boxes ++ (s.coreAt (t.core + 1)).boxes else (s.coreAt o.core).boxes
  bs.filter fun b => b.team == o.teamKey && b.op != o.id && !(b.matrix && b.gkey == o.gkey)

/-- Some segment of a space touches a foreign box: a destination box for a read, any box for a write. -/
def State.foreignLock (s : State) (o : EngOp) (space : Nat) (write : Bool) (segs : List (Nat × Nat)) : Bool :=
  (s.foreignBoxes o).any fun b => b.space == space && (write || b.dest) && segs.any fun q => b.touches q.1 q.2

/-! ## Issue (R306, R309) -/

/-- A box from an address and a length. -/
def spanBox (o : EngOp) (space a n : Nat) (dest : Bool) : Box := mkBox o true space ((a : Int), (a + n : Nat) - 1) dest

/-- What issue finds: the operation with its images and the cause it carries (in `status`), its boxes; none for a `DRN` to a tile beyond
the allocation. -/
def State.planMatrix (s : State) (o : EngOp) : Option (EngOp × List Box) :=
  let t := s.team
  match o.instr with
  | .tld _ _ _ | .tldP _ _ _ _ | .tst _ _ _ | .tstP _ _ _ _ =>
    let g := o.geo
    let c := g.cause t.scrSize
    some ({ o with status := c }, if c == 0 then [spanBox o 0 g.s g.span (matrixKind o.instr == 2)] else [])
  | .mma x y _ _ | .mmas x y _ _ =>
    let f := (o.args.getD 0 0).toNat % 2 ^ 19
    let (c, rs) := checkMma t (fun q => s.foreignLock o 0 false [q]) (o.shape x) (o.shape y) (matrixKind o.instr == 4) f
    let ps := sortBy Prod.fst (dedup (rs.flatMap fun r => t.poisonedWords r.1 r.2))
    some ({ o with status := c, imgPois := ps,
                   img := t.scratch.filter fun b => rs.any fun r => decide (r.1 ≤ b.1) && decide (b.1 < r.1 + r.2) }, [])
  | .drn k _ _ _ f _ =>
    let d := o.args.getD 0 0
    let a := (o.args.getD 1 0).toNat % 2 ^ 19
    if k == .tile && decide (s.cur.tiles.length ≤ d.toNat % 32) then none
    else if a % 8 != 0 || !t.inside a 32 then some ({ o with status := Cause.bounds }, [])
    else if s.foreignLock o 0 false [(a, 32)] then some ({ o with status := Cause.rangeLocked }, [])
    else
      let o := { o with img := t.scratch.filter fun b => decide (a ≤ b.1) && decide (b.1 < a + 32), imgPois := t.poisonedWords a 32 }
      if !o.imgPois.isEmpty then some (o, [])
      else
        let r := DrainRec.of o.img a
        let ds := r.dests k f (if k == .mem then d.toNat else d.toNat % 2 ^ 19)
        if r.bad k f then some ({ o with status := Cause.invalid }, [])
        else if k != .mem && ds.any (fun q => !t.inside q.1 q.2) then some ({ o with status := Cause.bounds }, [])
        else
          let sp := if k == .mem then 1 else 0
          let els := ds.take (if k == .tile then 0 else r.rows)
          let hull := match els, els.getLast? with
            | e :: _, some l => [spanBox o sp e.1 (l.1 + l.2 - e.1) true]
            | _, _ => []
          some (o, if k == .tile then [] else hull ++ (ds.drop r.rows).map fun q => spanBox o sp q.1 q.2 true)
  | .ald _ _ =>
    let a := (o.args.getD 0 0).toNat % 2 ^ 19
    let c := if a % 4 != 0 then Cause.invalid else if !t.inside a 65536 then Cause.bounds else 0
    some ({ o with status := c }, if c == 0 then [spanBox o 0 a 65536 false] else [])
  | .aldMem _ _ =>
    let a := (o.args.getD 0 0).toNat
    some ({ o with status := if a % 4 != 0 then Cause.invalid else 0 }, if a % 4 != 0 then [] else [spanBox o 1 a 65536 false])
  | _ => some (o, [])

/-- Issue a matrix command of the current group, if the queue and the lock table have room. -/
def State.issueMatrix (i : Instr) (s : State) : Option State :=
  let o := s.newOp .matrix i ((matrixRegs i).map fun r => (s.wreg r).val)
  match s.planMatrix o with
  | none =>
    let (s, t) := s.ctrlPoison Cause.illegalOp 0
    some (s.endTeam s.cur.teamKey tsIllegal s.cur.grp t)
  | some (o, bs) => if !s.roomFor o.core .matrix 32 bs.length then none else some ((s.startOp o (matrixKind i)).lockBoxes o.core bs)

/-- A matrix command (R306): its tiles and accumulators are checked before anything else, its uniforms are decision operands. -/
def State.matrixCommand (s : State) (i : Instr) : Ans :=
  if !s.cur.hasMatrix i then .next (s.illegal tsIllegal 0 false)
  else s.deciding (matrixRegs i) none (s.closing false fun s => s.issueOrHold i (State.issueMatrix i))

/-- `tld`. -/
def execTld (x : BitVec 5) (r : BitVec 6) (t : Bool) (s : State) : Ans := s.matrixCommand (.tld x r t)

/-- `tld.p`. -/
def execTldP (x : BitVec 5) (r p : BitVec 6) (t : Bool) (s : State) : Ans := s.matrixCommand (.tldP x r p t)

/-- `tst`. -/
def execTst (x : BitVec 5) (r : BitVec 6) (t : Bool) (s : State) : Ans := s.matrixCommand (.tst x r t)

/-- `tst.p`. -/
def execTstP (x : BitVec 5) (r p : BitVec 6) (t : Bool) (s : State) : Ans := s.matrixCommand (.tstP x r p t)

/-- `mma`. -/
def execMma (x y : BitVec 5) (f : BitVec 6) (d : BitVec 3) (s : State) : Ans := s.matrixCommand (.mma x y f d)

/-- `mmas`. -/
def execMmas (x y : BitVec 5) (f : BitVec 6) (d : BitVec 3) (s : State) : Ans := s.matrixCommand (.mmas x y f d)

/-- `drn`. -/
def execDrn (k : DrainKind) (acc : BitVec 3) (d r : BitVec 6) (f : DrainFmt) (z : Bool) (s : State) : Ans := s.matrixCommand (.drn k acc d r f z)

/-- `azr`. -/
def execAzr (d : BitVec 3) (s : State) : Ans := s.matrixCommand (.azr d)

/-- `ald`. -/
def execAld (d : BitVec 3) (r : BitVec 6) (s : State) : Ans := s.matrixCommand (.ald d r)

/-- `ald.mem`. -/
def execAldMem (d : BitVec 3) (r : BitVec 6) (s : State) : Ans := s.matrixCommand (.aldMem d r)

/-- MATRIX_ISSUE of a command of group `k` that waited for room. -/
def execMatrixIssue (k : Nat) (s : State) : Ans :=
  match (s.group? k).map Group.phase with
  | some (.wait (.issue i _)) => if matrixKind i == 0 then .next s else .next (s.retryIssue k State.issueMatrix)
  | _ => .next s

/-! ## Order of operations (R307) -/

/-- Two boxes meet and one of them is a destination; memory is compared whole, since two addresses may name one byte. -/
def Box.clash (a b : Box) : Bool := a.space == b.space && (a.dest || b.dest) && (a.space == 1 || (decide (a.lo ≤ b.hi) && decide (b.lo ≤ a.hi)))

/-- Boxes of an operation. -/
def State.boxesOf (s : State) (o : EngOp) : List Box := (s.coreAt o.core).boxes.filter fun b => b.op == o.id

/-- Scratch that a block-scaled drain to a tile writes beside the tile: its scales and extra values, for which it registers no box (R309, R320). -/
def EngOp.scaleDests (o : EngOp) : List (Nat × Nat) :=
  match o.instr with
  | .drn .tile _ _ _ f _ =>
    if o.status == 0 && o.imgPois.isEmpty then (DrainRec.of o.img ((o.args.getD 1 0).toNat % 2 ^ 19)).dests .tile f 0 else []
  | _ => []

/-- Bytes that an operation reads or writes when it runs: its boxes, and what it touches without one (R307). -/
def State.reach (s : State) (o : EngOp) : List Box := s.boxesOf o ++ o.scaleDests.map fun q => spanBox o 0 q.1 q.2 true

/-- An earlier operation `a` of the same group touches what `b` touches. -/
def State.orders (s : State) (a b : EngOp) : Bool :=
  (matrixTiles a).any (fun t => (matrixTiles b).contains t) || (matrixAccs a.instr).any (fun d => (matrixAccs b.instr).contains d) ||
  (s.reach a).any fun x => (s.reach b).any fun y => x.clash y

/-- An operation may start: every earlier one of its group that it depends on has ended. -/
def State.mayStart (s : State) (o : EngOp) : Bool :=
  !o.active && ((s.queued o.core .matrix).takeWhile fun p => p.id != o.id).all fun p => p.gkey != o.gkey || !s.orders p o

/-- Where a drain writes: scratch or memory, and its spans there (R309, R320, R321). -/
def EngOp.drainTo (o : EngOp) (k : DrainKind) (f : DrainFmt) : Nat × List (Nat × Nat) :=
  let v := o.args.getD 0 0
  (if k == .mem then 1 else 0, (DrainRec.of o.img ((o.args.getD 1 0).toNat % 2 ^ 19)).dests k f (if k == .mem then v.toNat else v.toNat % 2 ^ 19))

/-- A `TST` or `DRN` that would write a box of another group's operation, or of another engine's, waits (R309). -/
def State.boxWaits (s : State) (o : EngOp) : Bool :=
  o.status == 0 && o.imgPois.isEmpty && match o.instr with
    | .tst _ _ _ | .tstP _ _ _ _ => s.foreignLock o 0 true o.geo.segs
    | .drn k _ _ _ f _ => s.foreignLock o (o.drainTo k f).1 true (o.drainTo k f).2
    | _ => false

/-- The next operation of a unit of a core: the first in issue order that may start, if the unit is idle. One that a page miss has suspended has left its
unit, and starts again when it may resume; one that a box keeps waiting does not take the unit, which the holder of the box may need (R309, R311, log 94). -/
def State.nextMatrix (s : State) (core u : Nat) : Option EngOp :=
  let q := (s.queued core .matrix).filter fun o => matrixUnit o.instr == u
  if q.any EngOp.active then none else q.find? fun o => s.mayStart o && s.mayResume o && !s.boxWaits o

/-- A started operation that a box keeps waiting leaves its unit. -/
def State.waitForBox (s : State) (o : EngOp) : State := s.keepOp { o with active := false }

/-- MATRIX_OP_START: the operation occupies its unit. -/
def execMatrixOpStart (op : Nat) (s : State) : Ans :=
  match s.op? op with
  | none => .next s
  | some o =>
    if o.eng == .matrix && (s.nextMatrix o.core (matrixUnit o.instr)).any (fun p => p.id == op) then
      .next (s.keepOp { o with active := true, suspended := none })
    else .next s

/-! ## Execution -/

/-- The frame in which a group stands holds its tiles and accumulators as an operation that was suspended at the save leaves them (R143, R311). -/
def State.refreshFrame (s : State) (k : Nat) : State :=
  match (s.group? k).bind fun g => g.frame.map fun a => (g, a) with
  | some (g, a) =>
    let img := g.frameImage (s.pts g.core) g.reason 0
    let o := 0x1000 + vecArea g.regs.v.length g.width
    (s.writeImage (a + 0x700) 0x200 (memSlice img 0x700 0x200)).writeImage (a + o) (g.frameSize - o) (memSlice img o (g.frameSize - o))
  | none => s

/-- The operation ends with its status and token (R310). -/
def State.endMatrix (s : State) (o : EngOp) (status : BitVec 8) (token : BitVec 32) : State := (s.endOp o status 0 token true).refreshFrame o.gkey

/-- A fault found by the operation poisons its destination with a crumb of its own. -/
def State.matrixFault (s : State) (o : EngOp) (c : Cause) (va : Nat) (put : State → BitVec 32 → State) : State :=
  let (s, t) := s.enginePoison o c va
  (put s t).endMatrix o c t

/-- The first token among scratch segments, lowest address first. -/
def Team.lowestPoison (t : Team) (segs : List (Nat × Nat)) : Option (BitVec 32) :=
  ((sortBy Prod.fst (segs.flatMap fun q => t.poisonedWords q.1 q.2)).head?).map Prod.snd

/-- `TLD` (R314). -/
def State.runTld (s : State) (o : EngOp) (x : BitVec 5) : State :=
  let g := o.geo
  let put (s : State) (t : BitVec 32) : State := s.setTile o x ((s.tileOf o x).poisonedWith t)
  let t := (s.team? o.teamKey).getD default
  if o.status != 0 then s.matrixFault o o.status g.s put
  else if s.foreignLock o 0 false g.segs then s.matrixFault o Cause.rangeLocked g.s put
  else match t.lowestPoison g.segs with
    | some k => (put s k).endMatrix o stPoisoned k
    | none => (s.setTile o x (Block.clean (g.load t.scratch))).endMatrix o 0 0

/-- `TST` (R314); it waits, off its unit, while another box stands against it. -/
def State.runTst (s : State) (o : EngOp) (x : BitVec 5) : State :=
  let g := o.geo
  if o.status != 0 then s.endMatrix o o.status 0
  else if s.boxWaits o then s.waitForBox o
  else
    let b := s.tileOf o x
    let f := s.fresh
    let cells := g.store b.data fun a => (Config.freeValue (f + a)).toNat
    let s : State := if g.len ≤ g.p || g.nrows == 1 then s else { s with fresh := f + 2 ^ 19 }
    let (s, o) := s.engScrCells o cells (if b.poison then some b.token else none)
    if b.poison then s.endMatrix o stPoisoned b.token else s.endMatrix o 0 0

/-- `MMA` and `MMAS` (R317). -/
def State.runMma (s : State) (o : EngOp) (x y : BitVec 5) (d : BitVec 3) (sparse : Bool) : State :=
  let a := s.accOf o d
  let carry (t : BitVec 32) : State := (s.setAcc o d (a.poisonedWith t)).endMatrix o stPoisoned t
  if a.poison then s.endMatrix o stPoisoned a.token
  else if o.status != 0 then s.matrixFault o o.status 0 fun s t => s.setAcc o d (a.poisonedWith t)
  else match o.imgPois with
    | p :: _ => carry p.2
    | [] =>
      let ta := s.tileOf o x
      let tb := s.tileOf o y
      if ta.poison then carry ta.token
      else if tb.poison then carry tb.token
      else
        let ws := mmaWords o (o.shape x) (o.shape y) sparse ((o.args.getD 0 0).toNat % 2 ^ 19) ta.data tb.data a.data
        (s.setAcc o d (Block.clean (accMem ws))).endMatrix o 0 0

/-- `ALD` from scratch (R318). -/
def State.runAld (s : State) (o : EngOp) (d : BitVec 3) : State :=
  let a := (o.args.getD 0 0).toNat % 2 ^ 19
  let put (s : State) (t : BitVec 32) : State := s.setAcc o d ((s.accOf o d).poisonedWith t)
  let t := (s.team? o.teamKey).getD default
  if o.status != 0 then s.matrixFault o o.status a put
  else if s.foreignLock o 0 false [(a, 65536)] then s.matrixFault o Cause.rangeLocked a put
  else match t.firstPoison a 65536 with
    | some k => (put s k).endMatrix o stPoisoned k
    | none => (s.setAcc o d (Block.clean (memSlice t.scratch a 65536))).endMatrix o 0 0

/-- Parts of a virtual span that lie in one line each. -/
def vaSegs (va n : Nat) : List (Nat × Nat) :=
  if n == 0 then []
  else (List.range ((va % 128 + n + 127) / 128)).map fun i =>
    let lo := i * 128 - va % 128
    ((va + lo) % 2 ^ 64, min n ((i + 1) * 128 - va % 128) - lo)

/-- The first address of a span that waits for a migration (R117). -/
def State.firstMovable (s : State) (o : EngOp) (k : AccKind) : List (Nat × Nat) → Option Nat
  | [] => none
  | q :: qs => match s.translate o.xl q.1 k with
    | (_, .error c) => if c == Cause.pageMiss && s.movable o.xl q.1 then some q.1 else s.firstMovable o k qs
    | (_, .ok _) => s.firstMovable o k qs

/-- `ALD` from memory (R318): it reads lines as a copy does. -/
def State.runAldMem (s : State) (o : EngOp) (d : BitVec 3) : State :=
  let a := (o.args.getD 0 0).toNat
  let put (s : State) (t : BitVec 32) : State := s.setAcc o d ((s.accOf o d).poisonedWith t)
  let segs := vaSegs a 65536
  if o.status != 0 then s.matrixFault o o.status a put
  else if s.foreignLock o 1 false [(a, 65536)] then s.matrixFault o Cause.rangeLocked a put
  else match s.firstMovable o .read segs with
    | some va => s.suspendOp { o with active := false } va
    | none =>
      let r := segs.foldl (fun (r : State × List (List Byte) × Option (BitVec 8 × BitVec 32)) q =>
        match r.2.2 with
        | some _ => r
        | none => match r.1.engRead o q.1 q.2 0 with
          | (s, _, .ok ⟨bs, none⟩) => (s, bs :: r.2.1, none)
          | (s, _, .ok ⟨_, some t⟩) => (s, r.2.1, some (stPoisoned, t))
          | (s, _, .error c) => let (s, t) := s.enginePoison o c q.1; (s, r.2.1, some (c, t))) (s, [], none)
      match r.2.2 with
      | some (st, t) => (put r.1 t).endMatrix o st t
      | none => (r.1.setAcc o d (Block.clean ((cellsAt 0 r.2.1.reverse.flatten).filter fun c => c.2 != unlisted))).endMatrix o 0 0

/-- Write a drain's bytes to memory, one engine commit a line; a fault ends it there (R321). -/
def State.drainMem (s : State) (o : EngOp) (tok : Option (BitVec 32)) : List (Nat × Mem) → State × EngOp × Option Cause
  | [] => (s, o, none)
  | q :: r =>
    match s.engCells o (q.1 * 128) q.2 tok with
    | (s, o, some c) => (s, o, some c)
    | (s, o, none) => s.drainMem o tok r

/-- `DRN` (R321); it waits, off its unit, while another box stands against it. Bytes of one line that several rows give leave in one commit; of rows that overlap the
last stands (log 94). -/
def State.runDrn (s : State) (o : EngOp) (k : DrainKind) (d : BitVec 3) (f : DrainFmt) (z : Bool) : State :=
  let zero (s : State) : State := if z then s.setAcc o d (Block.clean []) else s
  let rec_ := (o.args.getD 1 0).toNat % 2 ^ 19
  match o.imgPois with
  | p :: _ => s.endMatrix o stPoisoned p.2
  | [] =>
    if o.status == Cause.rangeLocked then s.matrixFault o o.status rec_ fun s _ => s
    else if o.status != 0 then s.endMatrix o o.status 0
    else if s.boxWaits o then s.waitForBox o
    else
      let dv := o.args.getD 0 0
      let r := DrainRec.of o.img rec_
      let a := s.accOf o d
      let ds := (o.drainTo k f).2
      let tok := if a.poison then some a.token else none
      let (rows, sc, xv) := r.data f a.data
      let parts := (if k == .tile then [] else rows) ++ (if r.scaled f then [sc] else []) ++ (if f == .x2m1 then [xv] else [])
      let cells := ((ds.map Prod.fst).zip parts).flatMap fun q => cellsAt q.1 q.2
      let fin (s : State) (o : EngOp) : State := (zero s).endMatrix o (if a.poison then stPoisoned else 0) (tok.getD 0)
      if k == .mem then
        let lines := splitLines (cells.map fun c => (c.1 % 2 ^ 64, c.2))
        match s.firstMovable o .write (lines.map fun q => (q.1 * 128, 128)) with
          | some va => s.suspendOp { o with active := false } va
          | none =>
            match s.drainMem o tok lines with
            | (s, o, some c) => s.endMatrix o c (if o.ctime == 0 then 0 else tok.getD 0)
            | (s, o, none) => fin s o
      else
        let (s, o) := s.engScrCells o cells tok
        let s := if k == .tile then
            s.setTile o (dv.setWidth 5) (if a.poison then ⟨memOfRows 128 (rows.map fun b => b.map fun _ => 0), true, a.token⟩ else Block.clean (memOfRows 128 rows))
          else s
        fin s o

/-- What an operation does when its unit has run it. -/
def State.runMatrix (s : State) (o : EngOp) : State :=
  match o.instr with
  | .tld x _ _ | .tldP x _ _ _ => s.runTld o x
  | .tst x _ _ | .tstP x _ _ _ => s.runTst o x
  | .mma x y _ d => s.runMma o x y d false
  | .mmas x y _ d => s.runMma o x y d true
  | .azr d => (s.setAcc o d (Block.clean [])).endMatrix o 0 0
  | .ald d _ => s.runAld o d
  | .aldMem d _ => s.runAldMem o d
  | .drn k d _ _ f z => s.runDrn o k d f z
  | _ => s

/-- MATRIX_OP_END: a started operation takes effect and ends, or waits for a lock or a page. -/
def execMatrixOpEnd (op : Nat) (s : State) : Ans :=
  match s.op? op with
  | none => .next s
  | some o =>
    if o.eng == .matrix && o.active then .next (s.runMatrix o) else .next s

end Sys2Proof.Machine
end

