-- ==== Sys2Proof/Machine/Net.lean ====
section
/-! DEFINITION. The network engine (R217, R221, R381 to R386, R435, R436): work requests, packets, tagged matching, acknowledgement,
retransmission, RMA of other devices and of the host (R388). -/

namespace Sys2Proof.Machine

/-! ## Memory sides -/

/-- Parts of `n` bytes at an address that lie in one line each: offsets and lengths. -/
def lineSegs (va n : Nat) : List (Nat × Nat) :=
  if n == 0 then []
  else (List.range ((va % 128 + n + 127) / 128)).map fun i =>
    let lo := i * 128 - va % 128
    (lo, min n ((i + 1) * 128 - va % 128) - lo)

/-- Translate every line of a buffer; the first failure with its address. -/
def State.xlateSegs (s : State) (x : Xl) (k : AccKind) (va : Nat) : List (Nat × Nat) → State × Except (Cause × Nat) (List (Nat × Nat × Phys))
  | [] => (s, .ok [])
  | (o, n) :: r =>
    let a := (va + o) % 2 ^ 64
    match s.translate x a k with
    | (s, .error c) => (s, .error (c, a))
    | (s, .ok p) => match s.xlateSegs x k va r with
      | (s, .ok ps) => (s, .ok ((o, n, p) :: ps))
      | (s, .error e) => (s, .error e)

/-- A buffer cannot be used: the first cause that no migration serves. -/
def State.spanFault (s : State) (x : Xl) (k : AccKind) (va n : Nat) : State × Option Cause :=
  match s.xlateSegs x k va (lineSegs va n) with
  | (s, .ok _) => (s, none)
  | (s, .error (c, a)) => if c == Cause.pageMiss && s.movable x a then (s, none) else (s, some c)

/-- Engine commits of a packet's bytes, line by line; a line that arrives as X becomes X with the token that `tok` gives (R96, R383, R385). -/
def State.commitSegs (s : State) (ps : List (Nat × Nat × Phys)) (bytes : Mem) (tok : Nat → Nat → Option (BitVec 32)) : State × Nat :=
  ps.foldl (fun r p =>
    let (s, t) := r.1.engineWrite none (p.2.2.pa / 128) p.2.2.vc (cellsAt (p.2.2.pa % 128) (memBytes bytes p.1 p.2.1)) (tok p.1 p.2.1)
    (s, max r.2 t)) (s, 0)

/-- What a network read gives: bytes from offset 0, and the lines that were X with their tokens. -/
structure NetData where
  bytes : Mem
  bad : List (Nat × Nat × BitVec 32)
  deriving DecidableEq, Repr

/-- Read translated lines (R98, R351). -/
def State.readSegs (s : State) (ps : List (Nat × Nat × Phys)) : State × NetData :=
  ps.foldl (fun r p =>
    let (s, c) := r.1.peek (p.2.2.pa / 128) p.2.2.vc
    let d := r.2
    (s, match c.x with
      | some t => { d with bad := d.bad ++ [(p.1, p.2.1, t)] }
      | none => { d with bytes := memMerge d.bytes p.1 (memSlice c.data (p.2.2.pa % 128) p.2.1) })) (s, ⟨[], []⟩)

/-- The marked range that covers part of a line. -/
def markOf (xs : List (Nat × Nat × BitVec 8)) (o n : Nat) : Option (BitVec 8) :=
  (xs.find? fun x => decide (x.1 < o + n) && decide (o < x.1 + x.2.1)).map fun x => x.2.2

/-- The translator of a network operation: the I/O die has no cluster TLB. -/
def netXl (o : EngOp) : Xl := { o.xl with core := none }

/-! ## Work requests (R384) -/

/-- The fields of a work request. -/
structure WorkReq where
  kind : Nat
  ord : Bool
  cntr : BitVec 12
  peer : Nat
  laddr : Nat
  len : Nat
  tag : BitVec 64
  ign : BitVec 64
  roff : BitVec 64
  rkey : BitVec 64
  mbz : Bool
  deriving DecidableEq, Repr

def WorkReq.ofImage (m : Mem) : WorkReq :=
  let w0 := memNat m 0 8
  { kind := bits w0 0 4, ord := bit w0 4, cntr := BitVec.ofNat 12 (bits w0 16 12), peer := bits w0 32 16, laddr := memNat m 8 8,
    len := memNat m 0x10 4, tag := BitVec.ofNat 64 (memNat m 0x18 8), ign := BitVec.ofNat 64 (memNat m 0x20 8),
    roff := BitVec.ofNat 64 (memNat m 0x28 8), rkey := BitVec.ofNat 64 (memNat m 0x30 8),
    mbz := w0 &&& 0xFFFF0FFF001F == w0 && memNat m 0x14 4 == 0 && memNat m 0x38 8 == 0 }

/-- Kinds that a command accepts, and its operand (R221). -/
def netCommand : Instr → List Nat × BitVec 6
  | .nsend a => ([1, 2], a)
  | .nwrite a => ([3], a)
  | .nread a => ([4], a)
  | .npost a => ([5, 6], a)
  | _ => ([], 0)

/-- The counter belongs to the context. -/
def State.ownsNet (s : State) (a : BitVec 16) (n : BitVec 12) : Bool := ((s.netCnt? n).map fun c => c.owner == some a).getD false

/-- A peer-table entry of a context. -/
def State.peer? (s : State) (a : BitVec 16) (n : Nat) : Option PeerEnt := s.peers.find? fun p => p.asid == a && p.n.toNat == n && decide (n < 4096)

/-! ## Sending -/

/-- Send the packets of an operation's message through a peer-table entry: each takes the next sequence number (R435). -/
def State.sendPackets (s : State) (o : EngOp) (w : WorkReq) (e : PeerEnt) (pks : List (Nat × Nat)) (d : NetData) : State × List Nat :=
  let pkt (i : Nat) (k : Nat × Nat) : UetPkt :=
    { src := s.chip, dst := e.peer.chip, host := false, srcAsid := o.sysr.asid, res := e.peer.res, flow := ⟨w.peer, e.gen⟩, seq := e.nextSeq + i, opId := o.id,
      kind := BitVec.ofNat 4 w.kind, ord := w.ord, rod := if w.ord then e.nextRod + i else 0, tag := w.tag, rkey := w.rkey, roff := w.roff, total := w.len,
      off := k.1, len := k.2, bytes := memSlice d.bytes k.1 k.2,
      x := d.bad.filterMap fun b => if b.1 < k.1 + k.2 && k.1 < b.1 + b.2.1 then some (b.1 - k.1, min b.2.1 (k.1 + k.2 - b.1), lineCause b.2.2) else none,
      addr := e.peer.addr, job := e.peer.job, pid := e.peer.pid }
  let ps := pks.zipIdx.map fun k => pkt k.2 k.1
  let s : State := { s with peers := s.peers.map fun p => if p.asid == e.asid && p.n == e.n then
      { p with nextSeq := p.nextSeq + ps.length, nextRod := if w.ord then p.nextRod + ps.length else p.nextRod } else p }
  (ps.foldl (fun s p => s.emit (.uet p)) { s with utx := s.utx ++ ps.map fun p => ⟨o.sysr.asid, ⟨w.peer, e.gen⟩, p, 0, 0⟩ }, ps.map UetPkt.seq)

/-- A request waits for its remote completion (R385). -/
def State.pendNet (s : State) (o : EngOp) (w : WorkReq) (left : List Nat) : State :=
  { s with netPend := s.netPend ++ [⟨o.id, o.gkey, w.kind, o.sysr.asid, w.cntr, left, 0⟩] }

/-- Packets of a message: offsets and lengths. One empty packet stands for no bytes (R385). -/
def packetsOf (len payload : Nat) : List (Nat × Nat) :=
  if len == 0 || payload == 0 then [(0, 0)]
  else (List.range ((len + payload - 1) / payload)).map fun i => (i * payload, min payload (len - i * payload))

/-- Issue a network command of the current group, if the queue has room (R221, R386). -/
def State.issueNet (i : Instr) (s : State) : Option State :=
  let (kinds, r) := netCommand i
  let a := scratchAddr (s.wreg r).val
  let t := s.team
  let o := s.newOp .network i [(s.wreg r).val]
  if !s.roomFor o.core .network 64 0 then none
  else if a % 64 != 0 || !t.inside a 64 then some (s.deadOp o 0 Cause.bounds 0)
  else
    let o := { o with img := memSlice t.scratch a 64 }
    let w := WorkReq.ofImage o.img
    let asid := o.sysr.asid
    let owned := s.ownsNet asid w.cntr
    let fail (s : State) (st : BitVec 8) (tok : BitVec 32) (count : Bool) : State :=
      let s := s.deadOp o w.kind st tok
      if count then s.countNet w.cntr true 0 else s
    match t.firstPoison a 64 with
    | some k => some (fail s stPoisoned k (owned && (t.wordToken (a / 8)).isNone))
    | none =>
      if !w.mbz || !kinds.contains w.kind || 2 ^ 30 < w.len then some (fail s stBadWr 0 owned)
      else if !owned then some (fail s stBadCntr 0 false)
      else if 5 ≤ w.kind then
        match s.spanFault (netXl o) .write w.laddr w.len with
        | (s, some c) => some (fail s c 0 true)
        | (s, none) =>
          let v : PRecv := { asid := asid, op := o.id, tagged := w.kind == 6, tag := w.tag, ign := w.ign, laddr := BitVec.ofNat 64 w.laddr, len := w.len,
                             cntr := w.cntr }
          let s : State := { s with recvs := s.recvs ++ [v] }
          some ((s.deadOp o w.kind 0 0).pendNet o w [])
      else match s.peer? asid w.peer with
        | none => some (fail s stBadPeer 0 true)
        | some e =>
          if e.lost then some (fail s Cause.remoteUnreach 0 true)
          else if w.kind == 4 then
            match s.spanFault (netXl o) .write w.laddr w.len with
            | (s, some c) => some (fail s c 0 true)
            | (s, none) =>
              let x : URx := { src := e.peer.chip, srcAsid := asid, opId := o.id, kind := 15, asid := asid, laddr := BitVec.ofNat 64 w.laddr, room := w.len,
                               cntr := some w.cntr, win := none, op := some o.id, got := [], bytes := 0, ctime := 0, bad := false, done := false }
              let s := (s.startOp o w.kind).pendNet o w []
              some (({ s with urx := s.urx ++ [x] } : State).sendPackets o w e [(0, 0)] ⟨[], []⟩).1
          else some (s.startOp o w.kind)

/-- A network command (R221). -/
def State.netCommand (s : State) (i : Instr) : Ans :=
  s.deciding [(Machine.netCommand i).2] none (s.closing false fun s => s.issueOrHold i (State.issueNet i))

/-- `nsend`. -/
def execNsend (a : BitVec 6) (s : State) : Ans := s.netCommand (.nsend a)

/-- `nwrite`. -/
def execNwrite (a : BitVec 6) (s : State) : Ans := s.netCommand (.nwrite a)

/-- `nread`. -/
def execNread (a : BitVec 6) (s : State) : Ans := s.netCommand (.nread a)

/-- `npost`. -/
def execNpost (a : BitVec 6) (s : State) : Ans := s.netCommand (.npost a)

/-- NETWORK_ISSUE of a command of group `k` that waited for room. -/
def execNetworkIssue (k : Nat) (s : State) : Ans :=
  match (s.group? k).map Group.phase with
  | some (.wait (.issue i _)) => if (Machine.netCommand i).1 == [] then .next s else .next (s.retryIssue k State.issueNet)
  | _ => .next s

/-! ## Local parts and completion (R217, R385, R386) -/

/-- A crumb for each poisoned line of a source, the first token kept (R116). -/
def State.badLines (s : State) (o : EngOp) (va : Nat) (bad : List (Nat × Nat × BitVec 32)) : State × EngOp :=
  bad.foldl (fun r b => let (s, o, _) := r.1.sourceCrumb r.2 ((va + b.1) * 4 + 1) (lineCause b.2.2) ((va + b.1) % 2 ^ 64); (s, o)) (s, o)

/-- The local part of a send or a write: the source is read, the packets leave, the entry is written. -/
def State.sendLocal (s : State) (o : EngOp) : State :=
  let w := WorkReq.ofImage o.img
  let fail (s : State) (st : BitVec 8) : State := (s.endOp o st 0 0 true).countNet w.cntr true 0
  match s.xlateSegs (netXl o) .read w.laddr (lineSegs w.laddr w.len) with
  | (s, .error (c, a)) => if c == Cause.pageMiss && s.movable (netXl o) a then s.suspendOp o a else fail s c
  | (s, .ok ps) =>
    match s.peer? o.sysr.asid w.peer with
    | none => fail s stBadPeer
    | some e =>
      if e.lost then fail s Cause.remoteUnreach else
      let (s, d) := s.readSegs ps
      let (s, o) := s.badLines o w.laddr d.bad
      let (s, seqs) := s.sendPackets o w e (packetsOf w.len (e.peer.payload.getD 4096)) d
      (s.endOp o o.status 0 o.token true).pendNet o w seqs

/-- NETWORK_LOCAL_PART_END: a send or a write has read its source, a read has all its data (R217). -/
def execNetworkLocalPartEnd (op : Nat) (s : State) : Ans :=
  match s.op? op with
  | none => .next s
  | some o =>
    if o.eng != .network then .next s
    else match o.instr with
      | .nread _ => if o.pos == 1 then .next (s.endOp o o.status 0 o.token true) else .next s
      | _ =>
        let waits := match o.suspended with | some va => s.migrating o.sysr.asid va | none => false
        if waits then .next s else .next (s.sendLocal { o with suspended := none })

/-- Packets of an operation are kept no longer. -/
def State.dropTx (s : State) (op : Nat) : State := { s with utx := s.utx.filter fun u => u.pkt.opId != op }

/-- WORK_REQUEST_COMPLETE: the request counts COUNT or ERR in its counter (R377, R385). -/
def execWorkRequestComplete (op : Nat) (ok : Bool) (s : State) : Ans :=
  match s.netPend.find? fun p => p.op == op with
  | none => .next s
  | some p =>
    let s : State := ({ s with netPend := s.netPend.filter fun q => q.op != op }).dropTx op
    if s.ownsNet p.asid p.cntr then .next (s.countNet p.cntr (!ok) p.ctime) else .next s

/-- A read ends with a status; its local part ends with it (R217, R386). -/
def State.endRead (s : State) (o : EngOp) (st : BitVec 8) : State :=
  (((s.keepOp { o with status := st, pos := 1 }).dropTx o.id).later (.networkLocalPartEnd o.id)).later
    (.workRequestComplete o.id (st == 0 || st == stPoisoned))

/-- A request fails after its local part, or a read fails (R386). -/
def State.failNet (s : State) (op : Nat) (c : Cause) : State :=
  match s.op? op with
  | some o => s.endRead o c
  | none =>
    match s.ops.find? fun o => o.parts.any fun b => b.id == op with
    | some o => (o.parts.foldl (fun s b => s.dropTx b.id) s).endOp o c o.count o.token true
    | none => (s.dropTx op).later (.workRequestComplete op false)

/-! ## Packets that arrive (R383, R435) -/

/-- The message that a packet belongs to. -/
def URx.isFor (r : URx) (p : UetPkt) : Bool := r.src == p.src && r.srcAsid == p.srcAsid && r.opId == p.opId && r.kind == p.kind

def State.rx? (s : State) (p : UetPkt) : Option URx := s.urx.find? fun r => r.isFor p

/-- Put a message's new record in place of the old one. -/
def State.putRx (s : State) (p : UetPkt) (r : URx) : State :=
  { s with urx := if s.urx.any fun q => q.isFor p then s.urx.map fun q => if q.isFor p then r else q else s.urx ++ [r] }

/-- Acknowledge or refuse a packet. -/
def State.ackPkt (s : State) (p : UetPkt) (refused : Bool) : State := s.emit (.uetAck p.src p.srcAsid p.flow [p.seq] refused)

/-- A packet of a message has been placed. -/
def URx.placed (r : URx) (p : UetPkt) (t : Nat) (bad : Bool) : URx :=
  let n := r.bytes + p.len
  { r with got := r.got ++ [p.off], bytes := n, ctime := max r.ctime t, bad := r.bad || bad, done := n == p.total }

/-- A received message is whole: the receive completes, or its window counts it (R377, R385). -/
def State.wholeRx (s : State) (r : URx) : State :=
  if !r.done then s
  else match r.op, r.win with
    | some op, _ => ({ s with netPend := s.netPend.map fun q => if q.op == op then { q with ctime := max q.ctime r.ctime } else q } : State).later
        (.workRequestComplete op (!r.bad))
    | none, some n => s.countTarget n r.ctime
    | none, none => s

/-- Place a packet of a send in its receive's buffer; bytes past the buffer are cut off (R383). Answers whether it is acknowledged. -/
def State.placeSend (s : State) (p : UetPkt) (r : URx) : State × Bool :=
  if r.done || r.got.contains p.off then (s.ackPkt p false, true)
  else
    let n := min p.len (r.room - p.off)
    let x := s.frontXl r.asid
    let va := (r.laddr.toNat + p.off) % 2 ^ 64
    let fin (s : State) (t : Nat) (bad : Bool) : State × Bool :=
      let r := r.placed p t bad
      (((s.putRx p r).ackPkt p false).wholeRx r, true)
    match s.xlateSegs x .write va (lineSegs va n) with
    | (s, .error (c, a)) => if c == Cause.pageMiss && s.movable x a then (s.putRx p r, false) else fin s 0 true
    | (s, .ok ps) =>
      let (s, t) := s.commitSegs ps p.bytes fun o k => (markOf p.x o k).map bareToken
      fin s t (n < p.len)

/-- A posted receive takes a message (R384). -/
def PRecv.takes (v : PRecv) (a : BitVec 16) (p : UetPkt) : Bool :=
  v.asid == a && v.tagged == (p.kind == 2) && (!v.tagged || (v.tag ^^^ p.tag) &&& ~~~v.ign == 0)

/-- A packet of a send: its message's receive, or the oldest that matches. Without one it is refused, which the sender takes as a loss (R383). -/
def State.rxSend (s : State) (p : UetPkt) : State × Bool :=
  match s.rx? p with
  | some r => s.placeSend p r
  | none =>
    match s.ctxs.find? fun c => c.res == p.res && !c.killed with
    | none => (s.ackPkt p true, false)
    | some c =>
      match s.recvs.find? fun v => v.takes c.asid p with
      | none => (s.ackPkt p true, false)
      | some v =>
        let s : State := { s with recvs := s.recvs.filter fun u => u.op != v.op }
        s.placeSend p { src := p.src, srcAsid := p.srcAsid, opId := p.opId, kind := p.kind, asid := c.asid, laddr := v.laddr, room := v.len,
                        cntr := some v.cntr, win := none, op := some v.op, got := [], bytes := 0, ctime := 0, bad := false, done := false }

/-- The checks of R370 for RMA: the window's number is the key, whose other bits are zero (R384). -/
def State.rmaWindow (s : State) (p : UetPkt) (write : Bool) : Option Window :=
  match s.window? (p.rkey.setWidth 12) with
  | none => none
  | some w =>
    if p.rkey.ult 4096 && (if p.host then w.host else w.peers.getLsbD p.src.toNat) && (if write then w.w else w.r) &&
      decide (p.roff.toNat + p.total ≤ w.size) then some w else none

/-- A packet of an RMA write (R370, R383). One whose bytes have committed, or whose message is complete, is acknowledged again (R435). -/
def State.rxWrite (s : State) (p : UetPkt) : State × Bool :=
  if (s.rx? p).any fun r => r.done || r.got.contains p.off then (s.ackPkt p false, true)
  else match s.rmaWindow p true with
  | none => (s.ackPkt p true, true)
  | some w =>
    let r : URx := (s.rx? p).getD { src := p.src, srcAsid := p.srcAsid, opId := p.opId, kind := p.kind, asid := w.asid, laddr := w.base + p.roff, room := p.total,
                                    cntr := none, win := some w.n, op := none, got := [], bytes := 0, ctime := 0, bad := false, done := false }
    if !s.liveCtx w.asid then (s.ackPkt p true, true)
    else
      let va := (w.base.toNat + p.roff.toNat + p.off) % 2 ^ 64
      match s.xlateSegs (s.windowXl w) .remoteWrite va (lineSegs va p.len) with
      | (s, .error (c, a)) => if c == Cause.pageMiss && s.movable (s.windowXl w) a then (s, false) else (s.ackPkt p true, true)
      | (s, .ok ps) =>
        let (s, t) := s.commitSegs ps p.bytes fun o k => (markOf p.x o k).map bareToken
        let r := r.placed p t false
        (((s.putRx p r).ackPkt p false).wholeRx r, true)

/-- An RMA read request: its answer leaves in packets of the default payload (R381, R385). -/
def State.rxRead (s : State) (p : UetPkt) : State × Bool :=
  match s.rmaWindow p false with
  | none => (s.ackPkt p true, true)
  | some w =>
    if !s.liveCtx w.asid then (s.ackPkt p true, true)
    else
      let va := (w.base.toNat + p.roff.toNat) % 2 ^ 64
      match s.xlateSegs (s.windowXl w) .remoteRead va (lineSegs va p.total) with
      | (s, .error (c, a)) => if c == Cause.pageMiss && s.movable (s.windowXl w) a then (s, false) else (s.ackPkt p true, true)
      | (s, .ok ps) =>
        let (s, d) := s.readSegs ps
        let ans (k : Nat × Nat) : UetPkt :=
          { p with src := s.chip, dst := p.src, kind := 15, off := k.1, len := k.2, bytes := memSlice d.bytes k.1 k.2,
                   x := d.bad.filterMap fun b => if b.1 < k.1 + k.2 && k.1 < b.1 + b.2.1 then
                     some (b.1 - k.1, min b.2.1 (k.1 + k.2 - b.1), lineCause b.2.2) else none }
        ((packetsOf p.total 4096).foldl (fun s k => s.emit (.uet (ans k))) s, true)

/-- Data of an RMA read land (R385). Each line that arrives as X has a crumb and becomes X. -/
def State.rxAnswer (s : State) (p : UetPkt) : State :=
  match s.urx.find? fun r => r.srcAsid == p.srcAsid && r.opId == p.opId && r.kind == 15,
    s.op? p.opId <|> s.ops.find? fun o => o.parts.any fun b => b.id == p.opId with
  | some r, some o =>
    if r.done || r.got.contains p.off || r.room < p.off + p.len then s
    else if o.eng == .snapshot then
      let r' := r.placed p 0 false
      let o := { o with parts := o.parts.map fun b => if b.id != p.opId then b else
        { b with bytes := memMerge b.bytes p.off p.bytes, bad := b.bad || !p.x.isEmpty, done := r'.done } }
      let s : State := { s with urx := (s.urx.filter fun q => !(q.opId == r.opId && q.kind == 15 && q.srcAsid == r.srcAsid)) ++ (if r'.done then [] else [r']) }
      if r'.done then (s.dropTx p.opId).keepOp o else s.keepOp o
    else
      let va := (r.laddr.toNat + p.off) % 2 ^ 64
      match s.xlateSegs (netXl o) .write va (lineSegs va p.len) with
      | (s, .error (c, a)) => if c == Cause.pageMiss && s.movable (netXl o) a then s else s.failNet o.id c
      | (s, .ok ps) =>
        let (s, o, toks) := p.x.foldl (fun (q : State × EngOp × List (Nat × Nat × BitVec 32)) x =>
          let (s, o, t) := q.1.sourceCrumb q.2.1 ((va + x.1) * 4 + 3) x.2.2 ((va + x.1) % 2 ^ 64)
          (s, o, q.2.2 ++ [(x.1, x.2.1, t)])) (s, o, [])
        let (s, t) := s.commitSegs ps p.bytes fun a n => (toks.find? fun x => decide (x.1 < a + n) && decide (a < x.1 + x.2.1)).map fun x => x.2.2
        let r' := r.placed p t false
        let o := o.time t
        let s : State := { s with urx := s.urx.map fun q => if q.opId == r.opId && q.kind == 15 && q.srcAsid == r.srcAsid then r' else q,
                                  netPend := s.netPend.map fun q => if q.op == o.id then { q with ctime := max q.ctime t } else q }
        if r'.done then s.endRead o o.status else s.keepOp o
  | _, _ => s

/-- Number of the next ROD packet of a flow (R383). -/
def State.rodNext (s : State) (p : UetPkt) : Nat :=
  ((s.rod.find? fun f => f.src == p.src && f.srcAsid == p.srcAsid && f.flow == p.flow).map RodFlow.next).getD 0

/-- An ROD packet has been placed. -/
def State.rodDone (s : State) (p : UetPkt) : State :=
  let n := max (s.rodNext p) (p.rod + 1)
  { s with rod := ⟨p.src, p.srcAsid, p.flow, n⟩ :: s.rod.filter fun f => !(f.src == p.src && f.srcAsid == p.srcAsid && f.flow == p.flow) }

/-- UET_PACKET_RECEIVE (R383, R388, R435). No frame above 9,216 B is accepted, so no packet with more bytes (R381). -/
def execUetPacketReceive (p : UetPkt) (s : State) : Ans :=
  if 9216 < p.len then .next s
  else if p.kind == 15 then .next (s.rxAnswer p)
  else if p.ord && decide (s.rodNext p < p.rod) then .next s
  else if p.ord && decide (p.rod < s.rodNext p) && p.kind != 4 then .next (s.ackPkt p false)
  else
    let (s, ok) := match p.kind.toNat with
      | 1 | 2 => s.rxSend p
      | 3 => s.rxWrite p
      | 4 => s.rxRead p
      | _ => (s, false)
    .next (if ok && p.ord then s.rodDone p else s)

/-! ## Acknowledgement and retransmission (R382, R436) -/

/-- A peer is known to be unreachable: every send and write to it whose local part has not ended ends, and so do later requests (R386, log 92). -/
def State.failPeer (s : State) (asid : BitVec 16) (entry : Nat) : State :=
  let req (o : EngOp) : WorkReq := WorkReq.ofImage o.img
  let due (o : EngOp) : Bool := o.eng == .network && o.sysr.asid == asid && (req o).peer == entry && (req o).kind < 4
  let s : State := { s with peers := s.peers.map fun e => if e.asid == asid && e.n.toNat == entry then { e with lost := true } else e }
  (s.ops.filter due).foldl (fun s o => (s.endOp o Cause.remoteUnreach 0 o.token true).countNet (req o).cntr true 0) s

/-- The packet of a flow with a sequence number. -/
def UTx.isAt (u : UTx) (asid : BitVec 16) (flow : FlowId) (seq : Nat) : Bool := u.asid == asid && u.flow == flow && u.pkt.seq == seq

/-- Send a packet again; after 8 retries its operation fails. -/
def State.resendPkt (s : State) (u : UTx) : State :=
  if 8 ≤ u.retries then (s.failNet u.pkt.opId Cause.remoteUnreach).failPeer u.asid u.flow.entry
  else
    ({ s with utx := s.utx.map fun v => if v.isAt u.asid u.flow u.pkt.seq then { v with retries := v.retries + 1 } else v } : State).emit (.uet u.pkt)

/-- Packets that a list of sequence numbers names. -/
def State.txOf (s : State) (asid : BitVec 16) (flow : FlowId) (seqs : List Nat) : List UTx :=
  s.utx.filter fun u => u.asid == asid && u.flow == flow && seqs.contains u.pkt.seq

/-- A packet is acknowledged; the last one of a message completes its request (R385). A read waits for its data. -/
def State.ackedTx (s : State) (u : UTx) : State :=
  if u.pkt.kind == 4 then s
  else
    let s : State := { s with utx := s.utx.filter fun v => !v.isAt u.asid u.flow u.pkt.seq,
                              netPend := s.netPend.map fun q => if q.op == u.pkt.opId then { q with left := q.left.filter fun n => n != u.pkt.seq } else q }
    if s.netPend.any fun q => q.op == u.pkt.opId && q.left.isEmpty then s.later (.workRequestComplete u.pkt.opId true) else s

/-- Packets acknowledged now count for every packet of the flow below them; the third sends that packet again at once (R436, log 102). -/
def State.passTx (s : State) (asid : BitVec 16) (flow : FlowId) (seqs : List Nat) : State :=
  let now (u : UTx) : Nat := if u.asid == asid && u.flow == flow then u.above + (seqs.filter fun n => decide (u.pkt.seq < n)).length else u.above
  let behind := s.utx.filter fun u => decide (u.above < 3) && decide (3 ≤ now u)
  behind.foldl State.resendPkt { s with utx := s.utx.map fun u => { u with above := now u } }

/-- UET_ACK_RECEIVE: a selective acknowledgement (R436), or a refusal. A send that its target refuses stays, as a lost packet (R383); an RMA packet
that R370 refuses fails its request. What comes back shows that the peer is there. -/
def execUetAckReceive (asid : BitVec 16) (flow : FlowId) (acked : List Nat) (refused : Bool) (s : State) : Ans :=
  let us := s.txOf asid flow acked
  let s : State := { s with peers := s.peers.map fun e => if e.asid == asid && e.n.toNat == flow.entry && e.gen == flow.gen then { e with lost := false } else e }
  if refused then
    let rma := us.filter fun u => u.pkt.kind != 1 && u.pkt.kind != 2
    .next ((dedup (rma.map fun u => u.pkt.opId)).foldl (fun s op => s.failNet op Cause.perm) s)
  else .next ((us.foldl State.ackedTx s).passTx asid flow (us.map fun u => u.pkt.seq))

/-- UET_RETRANSMIT_TIMEOUT of a packet; under ROD every unacknowledged one after it follows (R382, R383). -/
def execUetRetransmitTimeout (asid : BitVec 16) (flow : FlowId) (seq : Nat) (s : State) : Ans :=
  match s.utx.find? fun u => u.isAt asid flow seq with
  | none => .next s
  | some u =>
    let more := s.utx.filter fun v => u.pkt.ord && v.asid == asid && v.flow == flow && v.pkt.ord && decide (seq < v.pkt.seq)
    .next ((u :: more).foldl State.resendPkt s)

end Sys2Proof.Machine
end

