-- ==== Sys2Proof/Machine/Sha.lean ====
section
/-! DEFINITION. SHA-256 of FIPS 180-4 (R419, R425). Its constants are computed from what the standard takes them to be: 32 bits of the fractional parts
of roots of the first primes. -/

namespace Sys2Proof.Machine.Sha

/-- Words are numbers below this. -/
def wide : Nat := 2 ^ 32

/-- The largest `x` of `b` bits, starting from `x`, with `x ^ k` at most `n`. -/
def rootFrom (k n : Nat) : Nat → Nat → Nat
  | 0, x => x
  | b + 1, x => rootFrom k n b (if (x + 2 ^ b) ^ k ≤ n then x + 2 ^ b else x)

/-- The first 32 bits of the fractional part of the `k`-th root of `p`. -/
def rootBits (k p : Nat) : Nat := rootFrom k (p * wide ^ k) 37 0 % wide

/-- The first 64 primes: none of them reaches 19 squared. -/
def primes : List Nat := (List.range 312).filter fun n => decide (1 < n) && [2, 3, 5, 7, 11, 13, 17].all fun d => n == d || n % d != 0

/-- Constants of the 64 rounds: cube roots. -/
def keys : List Nat := primes.map (rootBits 3)

/-- The hash value before the first block: square roots of the first eight primes. -/
def start : List Nat := (primes.take 8).map (rootBits 2)

/-- A word turned right by `n` places. -/
def turn (n x : Nat) : Nat := x * 2 ^ (32 - n) % wide + x / 2 ^ n

/-- Exclusive or of three turns of a word. -/
def turns (a b c x : Nat) : Nat := turn a x ^^^ turn b x ^^^ turn c x

/-- Exclusive or of two turns and a shift of a word. -/
def fades (a b c x : Nat) : Nat := turn a x ^^^ turn b x ^^^ x / 2 ^ c

/-- Bit by bit, `y` where `x` has a one and `z` where it has a zero. -/
def pick (x y z : Nat) : Nat := z ^^^ (x &&& (y ^^^ z))

/-- Bit by bit, what two of three have. -/
def most (x y z : Nat) : Nat := (x &&& y) ||| (z &&& (x ||| y))

/-- The 16 words of the message schedule that follow after the first of `w` has been used. -/
def slide (w : List Nat) : List Nat :=
  match w with
  | [] => []
  | x :: r => r ++ [(x + fades 7 18 3 (r.getD 0 0) + r.getD 8 0 + fades 17 19 10 (r.getD 13 0)) % wide]

/-- The rounds that a list of constants stands for, on the schedule's window and the eight working words. -/
def rounds : List Nat → List Nat → List Nat → List Nat
  | c :: cs, w, [p, q, r, s, t, u, v, x] =>
    let sum := x + turns 6 11 25 t + pick t u v + c + w.headD 0
    rounds cs (slide w) [(sum + turns 2 13 22 p + most p q r) % wide, p, q, r, (s + sum) % wide, t, u, v]
  | _, _, h => h

/-- A big-endian number. -/
def wordOf (bs : List Byte) : Nat := leNat bs.reverse

/-- Fold `n` blocks of a padded message into a hash value. -/
def absorb : Nat → List Byte → List Nat → List Nat
  | 0, _, h => h
  | n + 1, m, h =>
    let w := (List.range 16).map fun i => wordOf ((m.drop (4 * i)).take 4)
    absorb n (m.drop 64) ((h.zip (rounds keys w h)).map fun x => (x.1 + x.2) % wide)

/-- Zeros that fill a message of `n` bytes, its end mark and its length up to whole blocks. -/
def fill (n : Nat) : Nat := (119 - n % 64) % 64

/-- The digest as the standard's 32-byte string: the end mark is a one bit, the length counts bits, words and length are big-endian. -/
def sha256 (bs : List Byte) : List Byte :=
  let n := bs.length
  let tail := 0x80 :: (List.replicate (fill n) 0 ++ (toBytes 8 (n * 8)).reverse)
  (absorb ((n + 9 + fill n) / 64) (bs ++ tail) start).flatMap fun x => (toBytes 4 x).reverse

end Sys2Proof.Machine.Sha
end

