-- ==== Sys2Proof/Machine/Snapshot.lean ====
section
/-! DEFINITION. The snapshot engine (R224, R417 to R424): saving, manifests, restoring. -/

namespace Sys2Proof.Machine

/-- Statuses of R421 beyond the causes. -/
def stNoSpace : BitVec 8 := 0x24
def stBadDesc : BitVec 8 := 0x25
def stBadManif : BitVec 8 := 0x26
def stDigest : BitVec 8 := 0x27
def stMixedStep : BitVec 8 := 0x28
def stMismatch : BitVec 8 := 0x29

/-! ## Records -/

/-- A location record (R418). -/
structure Loc where
  addr : Nat
  rkey : BitVec 64
  peer : Nat
  remote : Bool
  len : Nat
  deriving DecidableEq, Repr

def Loc.of (bs : List Byte) : Loc :=
  let n (o k : Nat) : Nat := leNat ((bs.drop o).take k)
  { addr := n 0 8, rkey := BitVec.ofNat 64 (n 8 8), peer := n 0x10 2, remote := bit (n 0x10 4) 16, len := n 0x18 8 }

/-- The descriptor of R417. -/
structure SnapDesc where
  handle : BitVec 16
  stage : BitVec 16
  fmt : Nat
  vsh : Bool
  verify : Bool
  step : Nat
  name : Nat
  loc : Loc
  list : Nat
  nloc : Nat
  deriving DecidableEq, Repr

def SnapDesc.of (bs : List Byte) : SnapDesc :=
  let n (o k : Nat) : Nat := leNat ((bs.drop o).take k)
  { handle := BitVec.ofNat 16 (n 0 2), stage := BitVec.ofNat 16 (n 2 2), fmt := n 4 1 % 32, vsh := bit (n 5 1) 0, verify := bit (n 5 1) 1,
    step := n 8 8, name := n 0x10 8, loc := Loc.of ((bs.drop 0x18).take 32), list := n 0x38 4 % 2 ^ 19, nloc := n 0x3C 2 }

/-- A box of a tensor: origin and extent in each dimension. -/
structure TBox where
  start : List Nat
  ext : List Nat
  deriving DecidableEq, Repr

/-- Elements of a box. -/
def TBox.count (b : TBox) : Nat := b.ext.foldl (· * ·) 1

/-- The five 32-bit values at an offset. -/
def five (bs : List Byte) (o : Nat) : List Nat := (List.range 5).map fun j => leNat ((bs.drop (o + 4 * j)).take 4)

/-- The header of a saved shard (R419). -/
structure ShardHdr where
  magic : Nat
  version : Nat
  rank : Nat
  esz : Nat
  fmt : Nat
  name : Nat
  step : Nat
  box : TBox
  plen : Nat
  digest : List Byte
  deriving DecidableEq, Repr

def ShardHdr.of (bs : List Byte) : ShardHdr :=
  let n (o k : Nat) : Nat := leNat ((bs.drop o).take k)
  let w := n 4 4
  { magic := n 0 4, version := bits w 0 8, rank := bits w 8 3, esz := bits w 12 2, fmt := bits w 16 5, name := n 8 8, step := n 0x10 8,
    box := ⟨five bs 0x18, five bs 0x2C⟩, plen := n 0x40 8, digest := (bs.drop 0x60).take 32 }

def ShardHdr.bytes (h : ShardHdr) : List Byte :=
  toBytes 4 h.magic ++ toBytes 4 (h.version + h.rank <<< 8 + h.esz <<< 12 + h.fmt <<< 16) ++ toBytes 8 h.name ++ toBytes 8 h.step ++
  h.box.start.flatMap (toBytes 4) ++ h.box.ext.flatMap (toBytes 4) ++ toBytes 8 h.plen ++ List.replicate 24 0 ++ h.digest

/-- A manifest: its header and its entries (R420). -/
structure Manif where
  magic : Nat
  version : Nat
  rank : Nat
  fmt : Nat
  name : Nat
  step : Nat
  gdim : List Nat
  digest : List Byte
  ents : List (TBox × Loc)
  deriving DecidableEq, Repr

def manifEntry (bs : List Byte) : TBox × Loc := (⟨five bs 0, five bs 0x14⟩, Loc.of ((bs.drop 0x30).take 32))

def Manif.of (bs : List Byte) : Manif :=
  let n (o k : Nat) : Nat := leNat ((bs.drop o).take k)
  let w := n 4 4
  { magic := n 0 4, version := bits w 0 8, rank := bits w 8 3, fmt := bits w 16 5, name := n 8 8, step := n 0x10 8, gdim := five bs 0x18,
    digest := (bs.drop 0x60).take 32, ents := (List.range (n 0x2C 2)).map fun i => manifEntry ((bs.drop (128 + 80 * i)).take 80) }

/-- The bytes of a location record. -/
def Loc.bytes (l : Loc) : List Byte :=
  toBytes 8 l.addr ++ toBytes 8 l.rkey.toNat ++ toBytes 8 (l.peer + b2n l.remote <<< 16) ++ toBytes 8 l.len

def Manif.bytes (m : Manif) : List Byte :=
  toBytes 4 m.magic ++ toBytes 4 (m.version + m.rank <<< 8 + m.fmt <<< 16) ++ toBytes 8 m.name ++ toBytes 8 m.step ++ m.gdim.flatMap (toBytes 4) ++
  toBytes 4 m.ents.length ++ List.replicate 48 0 ++ m.digest ++
  m.ents.flatMap fun e => e.1.start.flatMap (toBytes 4) ++ e.1.ext.flatMap (toBytes 4) ++ List.replicate 8 0 ++ e.2.bytes

def shardMagic : Nat := 0x44524853
def manifMagic : Nat := 0x464E414D

/-- The extent of a dimension counts below RANK alone. -/
def dimOf (rank : Nat) (l : List Nat) (j : Nat) : Nat := if j < rank then l.getD j 1 else 1

/-- A box lies inside global dims. -/
def TBox.inside (b : TBox) (rank : Nat) (g : List Nat) : Bool :=
  (List.range 5).all fun j => decide (b.start.getD j 0 + b.ext.getD j 1 ≤ dimOf rank g j)

/-- The part that two boxes share. -/
def TBox.meet (a b : TBox) : Option TBox :=
  let st := List.zipWith max a.start b.start
  let en := (List.range 5).map fun j => min (a.start.getD j 0 + a.ext.getD j 0) (b.start.getD j 0 + b.ext.getD j 0)
  if (List.range 5).all fun j => decide (st.getD j 0 < en.getD j 0) then some ⟨st, List.zipWith (· - ·) en st⟩ else none

/-- A manifest tiles its tensor (R420). -/
def tiles (rank : Nat) (g : List Nat) (bs : List TBox) : Bool :=
  bs.all (fun b => b.inside rank g) &&
  (bs.zipIdx.all fun b => (bs.drop (b.2 + 1)).all fun c => (b.1.meet c).isNone) &&
  sumNat (bs.map TBox.count) == (List.range 5).foldl (fun n j => n * dimOf rank g j) 1

/-- Digest, magic and tiling of a manifest (R423). -/
def Manif.good (m : Manif) (bs : List Byte) : Bool :=
  m.magic == manifMagic && m.digest == Sha.sha256 (bs.take 0x60 ++ List.replicate 32 0 ++ bs.drop 0x80) && 1 ≤ m.ents.length && m.ents.length ≤ 4096 &&
  tiles m.rank m.gdim (m.ents.map Prod.fst)

/-! ## Shards of an entry -/

/-- The box of a grid position, clipped to the global dims. -/
def Shard.boxAt (e : Shard) (g : Nat) : TBox :=
  let pos := ((List.range 5).foldl (fun (a : List Nat × Nat) j => (a.1 ++ [a.2 % e.dim e.grid j], a.2 / e.dim e.grid j)) (([] : List Nat), g)).1
  let st := (List.range 5).map fun j => if j < e.rank then pos.getD j 0 * e.dim e.shape j else 0
  ⟨st, (List.range 5).map fun j => min (e.dim e.shape j) (e.dim e.gdim j - st.getD j 0)⟩

/-- Grid positions for which a chip is replica 0, and those of which it holds a replica. -/
def Shard.mine (e : Shard) (c : BitVec 8) : List Nat := (List.range e.gridSize).filter fun g => e.chips.getD g 0 == c
def Shard.held (e : Shard) (c : BitVec 8) : List Nat :=
  (List.range e.gridSize).filter fun g => (List.range e.repl).any fun k => e.chips.getD (k * e.gridSize + g) 0 == c

/-- Coordinates of element `p` of a box, dimension 0 fastest. -/
def TBox.coords (b : TBox) (p : Nat) : List Nat :=
  ((List.range 5).foldl (fun (a : List Nat × Nat) j => (a.1 ++ [b.start.getD j 0 + a.2 % b.ext.getD j 1], a.2 / b.ext.getD j 1)) (([] : List Nat), p)).1

/-- Position of an element in a box, dimension 0 fastest. -/
def TBox.posOf (b : TBox) (idx : List Nat) : Nat :=
  ((List.range 5).foldl (fun (a : Nat × Nat) j => (a.1 + (idx.getD j 0 - b.start.getD j 0) * a.2, a.2 * b.ext.getD j 1)) (0, 1)).1

/-- Local address of an element (R52). -/
def Shard.vaOf (e : Shard) (idx : List Nat) : Nat := ((e.resolve idx).map Prod.snd).getD 0

/-- Rows of a box along dimension 0: the first element's coordinates, and where its elements lie together in the shard. -/
def Shard.rows (e : Shard) (b : TBox) : List (List Nat × Nat) :=
  let n := b.ext.getD 0 1
  if e.order.getD 0 0 == 0 then (List.range (b.count / max n 1)).map fun r => (b.coords (r * n), n)
  else (List.range b.count).map fun p => (b.coords p, 1)

/-- Payload bytes of a box. -/
def Shard.plen (e : Shard) (b : TBox) : Nat := b.count * e.elemBytes

/-- Bytes of a saved shard. -/
def fileLen (plen : Nat) : Nat := 128 + roundUp plen 128

/-- The format fits the entry's element size (R417). -/
def fmtFits (e : Shard) (fmt : Nat) : Bool :=
  match Ty.ofCode? fmt with
  | some t => t.bits == 8 * e.elemBytes || (t.bits == 4 && e.esz == 0)
  | none => false

/-! ## Storage -/

/-- Why an operation stops where it is: it ends, waits for a page, or needs remote bytes. -/
inductive SnapStop where
  | fail (st : BitVec 8) (tok : BitVec 32)
  | wait (va : Nat)
  | fetch (loc : Loc) (off len : Nat)
  deriving DecidableEq, Repr

/-- What a step of an operation gives. -/
abbrev SnapRes (α : Type) := State × EngOp × Except SnapStop α

/-- A local fault: the page may come, else a crumb is made and the operation ends. -/
def State.snapFault (s : State) (o : EngOp) (c : Cause) (va : Nat) {α : Type} : SnapRes α :=
  if c == Cause.pageMiss && s.movable o.xl va then (s, o, .error (.wait va))
  else let (s, t) := s.enginePoison o c va; (s, o, .error (.fail c t))

/-- Read local spans as a copy source; an X line ends the operation (R422). -/
def State.snapLocal (s : State) (o : EngOp) : List (Nat × Nat) → List (List Byte) → SnapRes (List Byte)
  | [], acc => (s, o, .ok acc.reverse.flatten)
  | q :: qs, acc =>
    match s.engRead o q.1 q.2 0 with
    | (s, o, .error c) => s.snapFault o c q.1
    | (s, o, .ok ⟨_, some t⟩) => (s, o, .error (.fail stPoisoned t))
    | (s, o, .ok ⟨bs, none⟩) => s.snapLocal o qs (bs :: acc)

/-- Read `n` bytes of a location from `off` on. Bytes outside the record are out of bounds. -/
def State.snapRead (s : State) (o : EngOp) (l : Loc) (off n : Nat) : SnapRes (List Byte) :=
  if l.len < off + n then s.snapFault o Cause.bounds (l.addr + off)
  else if !l.remote then s.snapLocal o (vaSegs ((l.addr + off) % 2 ^ 64) n) []
  else match o.parts.find? fun b => !b.write && b.peer == l.peer && b.rkey == l.rkey && b.off == l.addr + off && b.len == n with
    | none => (s, o, .error (.fetch l off n))
    | some b =>
      if !b.done then (s, o, .error (.fetch l off n))
      else if b.bad then let (s, t) := s.enginePoison o Cause.poisonLine (l.addr + off); (s, o, .error (.fail stPoisoned t))
      else (s, o, .ok (memBytes b.bytes 0 n))

/-- Snapshot lines are written on behalf of no core (R115). A line that a partial write leaves X ends the operation (R116, log 67). -/
def State.snapPut (s : State) (o : EngOp) : Nat → List Byte → List (Nat × Nat) → SnapRes Unit
  | _, _, [] => (s, o, .ok ())
  | i, bs, q :: qs =>
    match s.translate o.xl q.1 .write with
    | (s, .error c) => s.snapFault o c q.1
    | (s, .ok p) =>
      let (s, t) := s.engineWrite none (p.pa / 128) p.vc (cellsAt (p.pa % 128) ((bs.drop i).take q.2)) none
      match s.lineX (p.pa / 128) with
      | some k => (s, o.time t, .error (.fail stPoisoned k))
      | none => s.snapPut (o.time t) (i + q.2) bs qs

/-- The work request of a message to remote storage. -/
def rmaWork (kind : Nat) (l : Loc) (off n : Nat) : WorkReq :=
  { kind := kind, ord := false, cntr := 0, peer := l.peer, laddr := 0, len := n, tag := 0, ign := 0, roff := BitVec.ofNat 64 (l.addr + off),
    rkey := l.rkey, mbz := true }

/-- Send a message to remote storage through the peer table; storage without a peer, or with one known to be unreachable, cannot be reached
(R421, R386). -/
def State.snapSend (s : State) (o : EngOp) (kind : Nat) (l : Loc) (off n : Nat) (bs : List Byte) : SnapRes Unit :=
  match (s.peer? o.sysr.asid l.peer).filter fun e => !e.lost with
  | none => s.snapFault o Cause.remoteUnreach (l.addr + off)
  | some e =>
    let m := s.nextKey
    let part : RmaPart := { id := m, write := kind == 3, peer := l.peer, rkey := l.rkey, off := l.addr + off, len := n, bytes := [], bad := false, done := false }
    let x : URx := { src := e.peer.chip, srcAsid := o.sysr.asid, opId := m, kind := 15, asid := o.sysr.asid, laddr := 0, room := n, cntr := none, win := none,
                     op := some m, got := [], bytes := 0, ctime := 0, bad := false, done := false }
    let s : State := { s with nextKey := m + 1, urx := if kind == 4 then s.urx ++ [x] else s.urx }
    let pks := if kind == 4 then [(0, 0)] else packetsOf n (e.peer.payload.getD 4096)
    ((s.sendPackets { o with id := m } (rmaWork kind l off n) e pks ⟨(cellsAt 0 bs).filter fun c => c.2 != unlisted, []⟩).1, { o with parts := o.parts ++ [part] }, .ok ())

/-- Write bytes of a location from `off` on. -/
def State.snapWrite (s : State) (o : EngOp) (l : Loc) (off : Nat) (bs : List Byte) : SnapRes Unit :=
  if l.remote then s.snapSend o 3 l off bs.length bs
  else s.snapPut o 0 bs (vaSegs ((l.addr + off) % 2 ^ 64) bs.length)

/-- Go on with a result. -/
def SnapRes.bind {α β : Type} (r : SnapRes α) (f : State → EngOp → α → SnapRes β) : SnapRes β :=
  match r with
  | (s, o, .ok a) => f s o a
  | (s, o, .error e) => (s, o, .error e)

/-- End with a status. -/
def snapFail {α : Type} (s : State) (o : EngOp) (st : BitVec 8) : SnapRes α := (s, o, .error (.fail st 0))

/-- Messages that write and are not acknowledged yet. -/
def State.snapUnacked (s : State) (o : EngOp) : Bool := o.parts.any fun b => b.write && s.utx.any fun u => u.pkt.opId == b.id

/-! ## `SNAP` (R422) -/

/-- The descriptor that an operation read at issue. -/
def EngOp.desc (o : EngOp) : SnapDesc := SnapDesc.of (memBytes o.img 0 64)

/-- Offsets of the shards that are saved: grid position, box, offset from LOC.ADDR. -/
def saveList (e : Shard) (c : BitVec 8) : List (TBox × Nat) :=
  ((e.mine c).foldl (fun (a : List (TBox × Nat) × Nat) g => (a.1 ++ [(e.boxAt g, a.2)], a.2 + fileLen (e.plen (e.boxAt g)))) (([] : List (TBox × Nat)), 0)).1

/-- Spans of a box's elements in payload order, a line at a time. -/
def Shard.spans (e : Shard) (b : TBox) : List (Nat × Nat) := (e.rows b).flatMap fun r => vaSegs (e.vaOf r.1) (r.2 * e.elemBytes)

/-- One step of `SNAP`: the next shard, its header last. True when nothing is left. -/
def State.snapStep (s : State) (o : EngOp) : SnapRes Bool :=
  let d := o.desc
  let e := o.src.getD default
  match (saveList e s.chip)[o.pos]? with
  | none => (s, o, .ok (!s.snapUnacked o))
  | some (b, off) =>
    if !o.hdr.isEmpty then
      if s.snapUnacked o then (s, o, .ok false)
      else SnapRes.bind (s.snapWrite o d.loc off o.hdr) fun s o _ => (s, { o with hdr := [], pos := o.pos + 1, count := o.count + 1 }, .ok false)
    else
      SnapRes.bind (s.snapLocal o (e.spans b) []) fun s o bs =>
        let h : ShardHdr := { magic := shardMagic, version := 1, rank := e.rank, esz := e.esz, fmt := d.fmt, name := d.name, step := d.step, box := b,
                              plen := bs.length, digest := Sha.sha256 bs }
        SnapRes.bind (s.snapWrite o d.loc (off + 128) (bs ++ List.replicate (roundUp bs.length 128 - bs.length) 0)) fun s o _ =>
          (s, { o with hdr := h.bytes }, .ok false)

/-! ## `MANIF` (R423) -/

/-- The first failure of a header against what it must hold: a STEP that differs alone is MIXED_STEP. -/
def hdrFault (magic name rest step : Bool) : Option (BitVec 8) :=
  if !magic || !name || !rest then some stMismatch else if !step then some stMixedStep else none

/-- The location records that an operation read at issue. -/
def EngOp.locs (o : EngOp) : List Loc := (List.range o.desc.nloc).map fun i => Loc.of (memBytes o.img (64 + 32 * i) 32)

/-- Read and check the listed headers in order; COUNT is those checked (R421). -/
def State.manifHeaders (s : State) (o : EngOp) (e : Shard) (d : SnapDesc) : List Loc → List (ShardHdr × Loc) → SnapRes (List (ShardHdr × Loc))
  | [], acc => (s, o, .ok acc.reverse)
  | l :: ls, acc =>
    SnapRes.bind (s.snapRead o l 0 128) fun s o bs =>
      let h := ShardHdr.of bs
      let fmt := match acc.getLast? with | some f => h.fmt == f.1.fmt | none => true
      match hdrFault (h.magic == shardMagic) (h.name == d.name) (h.rank == e.rank && h.box.inside e.rank e.gdim && fmt) (h.step == d.step) with
      | some st => snapFail s o st
      | none => s.manifHeaders { o with count := acc.length + 1 } e d ls ((h, l) :: acc)

/-- `MANIF` write. -/
def State.manifWrite (s : State) (o : EngOp) : SnapRes Bool :=
  let d := o.desc
  let e := o.src.getD default
  if o.pos == 1 then (s, o, .ok (!s.snapUnacked o))
  else SnapRes.bind (s.manifHeaders o e d o.locs []) fun s o hs =>
    if !tiles e.rank e.gdim (hs.map fun h => h.1.box) then snapFail s o stBadManif
    else if d.loc.len < 128 + 80 * hs.length then snapFail s o stNoSpace
    else
      let m : Manif := { magic := manifMagic, version := 1, rank := e.rank, fmt := ((hs.head?).map fun h => h.1.fmt).getD 0, name := d.name, step := d.step,
                         gdim := (List.range 5).map (e.dim e.gdim), digest := List.replicate 32 0, ents := hs.map fun h => (h.1.box, h.2) }
      let m := { m with digest := Sha.sha256 m.bytes }
      SnapRes.bind (s.snapWrite o d.loc 0 m.bytes) fun s o _ => (s, { o with pos := 1 }, .ok false)

/-- The manifest at LOC, verified once and kept. -/
def State.manifRead (s : State) (o : EngOp) : SnapRes Manif :=
  if !o.hdr.isEmpty then (s, o, .ok (Manif.of o.hdr))
  else
    let l := o.desc.loc
    SnapRes.bind (s.snapRead o l 0 128) fun s o h =>
      let m := Manif.of h
      if m.magic != manifMagic then snapFail s o stBadManif
      else SnapRes.bind (s.snapRead o l 0 (128 + 80 * m.ents.length)) fun s o bs =>
        let m := Manif.of bs
        if m.good bs then (s, { o with hdr := bs }, .ok m) else snapFail s o stBadManif

/-- The remote bytes read so far are let go. -/
def EngOp.forget (o : EngOp) : EngOp := { o with parts := o.parts.filter RmaPart.write }

/-- One step of `MANIF` verify: the manifest, then one shard a step. -/
def State.manifVerify (s : State) (o : EngOp) : SnapRes Bool :=
  SnapRes.bind (s.manifRead o) fun s o m =>
    if !o.desc.vsh then (s, o, .ok true)
    else match m.ents[o.pos]? with
      | none => (s, o, .ok true)
      | some (b, l) =>
        SnapRes.bind (s.snapRead o l 0 128) fun s o hb =>
          let h := ShardHdr.of hb
          match hdrFault (h.magic == shardMagic) (h.name == m.name) (h.rank == m.rank && h.fmt == m.fmt && h.box == b) (h.step == m.step) with
          | some st => snapFail s o st
          | none => SnapRes.bind (s.snapRead o l 128 h.plen) fun s o bs =>
            if Sha.sha256 bs != h.digest then snapFail s o stDigest
            else (s, { o.forget with pos := o.pos + 1, count := o.count + 1 }, .ok false)

/-! ## `SLOAD` (R424) -/

/-- Write the rows of a piece into the staging storage; `n` bytes a row. -/
def State.gatherRows (s : State) (o : EngOp) (t : Shard) (src : TBox) (pay : List Byte) : List (List Nat × Nat) → SnapRes Unit
  | [] => (s, o, .ok ())
  | r :: rs =>
    let n := r.2 * t.elemBytes
    let bs := (pay.drop (src.posOf r.1 * t.elemBytes)).take n
    SnapRes.bind (s.snapPut o 0 bs (vaSegs (t.vaOf r.1) n)) fun s o _ => s.gatherRows o t src pay rs

/-- Copy a saved shard into every shard of the staging tensor held here. -/
def State.gatherPieces (s : State) (o : EngOp) (t : Shard) (src : TBox) (pay : List Byte) : List TBox → SnapRes Unit
  | [] => (s, o, .ok ())
  | b :: bs => SnapRes.bind (s.gatherRows o t src pay (t.rows b)) fun s o _ => s.gatherPieces { o with count := o.count + 1 } t src pay bs

/-- The image of the staging entry that an operation read at issue. -/
def EngOp.stageImage (o : EngOp) : List Byte := memBytes o.img 0x100000 128

/-- Install the staging image at the handle and wait, as `STSET` does, for accesses through the old entry (R57). -/
def State.sloadInstall (s : State) (o : EngOp) : SnapRes Bool :=
  let d := o.desc
  match o.failed with
  | _ :: _ => (s, o, .ok true)
  | [] =>
    let (s, _) := s.installShard o.core o.sysr.asid o.sysr.stbase d.handle o.stageImage true
    let k := s.nextKey
    ({ s with nextKey := k + 1 }, { o with failed := [k] }, .ok false)

/-- One step of `SLOAD`: the manifest, one saved shard a step, the install. A payload whose length does not fit its box ends it last (log 103). -/
def State.sloadStep (s : State) (o : EngOp) : SnapRes Bool :=
  let d := o.desc
  let e := o.src.getD default
  let t := o.dst.getD default
  SnapRes.bind (s.manifRead o) fun s o m =>
    let dims (g : Shard) : List Nat := (List.range 5).map (g.dim g.gdim)
    if m.step != d.step || m.name != d.name then snapFail s o stMismatch
    else if m.rank != e.rank || (List.range 5).map (dimOf m.rank m.gdim) != dims e || t.rank != e.rank || t.esz != e.esz || dims t != dims e then
      snapFail s o stMismatch
    else match m.ents[o.pos]? with
      | none => s.sloadInstall o
      | some (b, l) =>
        let ps := (t.held s.chip).filterMap fun g => b.meet (t.boxAt g)
        if ps.isEmpty then (s, { o with pos := o.pos + 1 }, .ok false)
        else SnapRes.bind (s.snapRead o l 0 128) fun s o hb =>
          let h := ShardHdr.of hb
          if h.step != m.step then snapFail s o stMixedStep
          else if h.fmt != m.fmt || h.box != b then snapFail s o stMismatch
          else SnapRes.bind (s.snapRead o l 128 h.plen) fun s o pay =>
            if Sha.sha256 pay != h.digest then snapFail s o stDigest
            else if h.plen != e.plen b then snapFail s o stMismatch
            else SnapRes.bind (s.gatherPieces o t b pay ps) fun s o _ => (s, { o.forget with pos := o.pos + 1 }, .ok false)

/-! ## Commands and events -/

/-- KIND of an entry, and the operand (R421, R224). -/
def snapCommand : Instr → Nat × BitVec 6
  | .snap a => (1, a)
  | .sload a => (2, a)
  | .manif a => (3, a)
  | _ => (0, 0)

/-- An entry of the table that an operation names; a handle that names no entry is a bad descriptor. -/
def State.snapEntry (s : State) (o : EngOp) (h : BitVec 16) : State × Except (BitVec 8) Shard :=
  match s.shardEntry o.core o.sysr.asid o.sysr.stbase h with
  | (s, .ok e) => (s, .ok e)
  | (s, .error c) => (s, .error (if c == Cause.bounds then stBadDesc else c))

/-- What issue finds: the operation to start, or the status and token that end it. -/
def State.planSnap (s : State) (o : EngOp) (kind : Nat) : State × Except (BitVec 8 × BitVec 32) EngOp :=
  let t := s.team
  let a := (o.args.getD 0 0).toNat % 2 ^ 19
  if a % 64 != 0 || !t.inside a 64 then (s, .error (Cause.bounds, 0))
  else match t.firstPoison a 64 with
    | some k => (s, .error (stPoisoned, k))
    | none =>
      let o := { o with img := memSlice t.scratch a 64 }
      let d := o.desc
      let needsEntry := kind != 3 || !d.verify
      let (s, r) : State × Except (BitVec 8) Shard := if needsEntry then s.snapEntry o d.handle else (s, .ok default)
      match r with
      | .error st => (s, .error (st, 0))
      | .ok e =>
        let o := { o with src := if needsEntry then some e else none, args := o.args ++ [d.handle.setWidth 64 ||| d.stage.setWidth 64 <<< 16] }
        if kind == 1 then
          if !fmtFits e d.fmt then (s, .error (stBadDesc, 0))
          else if d.loc.len < sumNat ((saveList e s.chip).map fun b => fileLen (e.plen b.1)) then (s, .error (stNoSpace, 0))
          else (s, .ok o)
        else if kind == 2 then
          match s.snapEntry o d.stage with
          | (s, .error st) => (s, .error (st, 0))
          | (s, .ok f) =>
            let (s, c) := s.readPlace (shardAt o.sysr.stbase d.stage.toNat / 128) 0 none
            (s, .ok { o with dst := some f, img := o.img ++ c.data.map fun b => (0x100000 + b.1, b.2) })
        else if d.verify then (s, .ok o)
        else if d.nloc == 0 || 4096 < d.nloc then (s, .error (stBadDesc, 0))
        else if !t.inside d.list (32 * d.nloc) then (s, .error (Cause.bounds, 0))
        else match t.firstPoison d.list (32 * d.nloc) with
          | some k => (s, .error (stPoisoned, k))
          | none => (s, .ok { o with img := o.img ++ (memSlice t.scratch d.list (32 * d.nloc)).map fun b => (64 + b.1, b.2) })

/-- The snapshot engine reads the descriptor and starts the operation of the current group. -/
def State.issueSnap (i : Instr) (s : State) : Option State :=
  let (kind, r) := snapCommand i
  let o := s.newOp .snapshot i [(s.wreg r).val]
  match s.planSnap o kind with
  | (s, .error (st, k)) => some (s.deadOp o kind st k)
  | (s, .ok o) => some (s.startOp o kind)

/-- A snapshot command (R224): it closes the chunk; its issue is the next event of the engine. -/
def State.snapCommand (s : State) (i : Instr) : Ans :=
  s.deciding [(Machine.snapCommand i).2] none (s.closing false fun s => .next (s.await (.issue i s.pc)))

/-- `snap`. -/
def execSnap (a : BitVec 6) (s : State) : Ans := s.snapCommand (.snap a)

/-- `sload`. -/
def execSload (a : BitVec 6) (s : State) : Ans := s.snapCommand (.sload a)

/-- `manif`. -/
def execManif (a : BitVec 6) (s : State) : Ans := s.snapCommand (.manif a)

/-- SNAPSHOT_ISSUE of a command of group `k` (R224). -/
def execSnapshotIssue (k : Nat) (s : State) : Ans :=
  match (s.group? k).map Group.phase with
  | some (.wait (.issue i _)) => if (Machine.snapCommand i).1 == 0 then .next s else .next (s.retryIssue k State.issueSnap)
  | _ => .next s

/-- Remote bytes that an operation has asked for and that have not come. -/
def EngOp.fetching (o : EngOp) : Bool := o.parts.any fun b => !b.write && !b.done

/-- The operation may go on. -/
def State.snapReady (s : State) (o : EngOp) : Bool :=
  o.eng == .snapshot && !o.fetching && !s.snapUnacked o && (match o.suspended with | some va => !s.migrating o.sysr.asid va | none => true) &&
  match o.failed with
  | k :: _ => !({ s with ops := s.ops.filter fun p => p.id != o.id } : State).shardBusy o.sysr.asid o.desc.handle k
  | [] => true

/-- SNAPSHOT_OP_END: the operation takes its next step; after the last one, or at its first failure, it ends and its entry is written (R421). -/
def execSnapshotOpEnd (op : Nat) (s : State) : Ans :=
  match s.op? op with
  | none => .next s
  | some o =>
    if !s.snapReady o then .next s
    else
      let o := { o with suspended := none }
      let r : SnapRes Bool := match o.instr with
        | .snap _ => s.snapStep o
        | .sload _ => s.sloadStep o
        | _ => if o.desc.verify then s.manifVerify o else s.manifWrite o
      match r with
      | (s, o, .ok true) => .next (s.endOp o 0 o.count 0 true)
      | (s, o, .ok false) => .next (s.keepOp o)
      | (s, o, .error (.wait va)) => .next (s.suspendOp o va)
      | (s, o, .error (.fail st t)) => .next (s.endOp o st o.count t true)
      | (s, o, .error (.fetch l off n)) =>
        match s.snapSend o 4 l off n [] with
        | (s, o, .ok ()) => .next (s.keepOp o)
        | (s, o, .error (.fail st t)) => .next (s.endOp o st o.count t true)
        | (s, o, .error _) => .next (s.keepOp o)

end Sys2Proof.Machine
end

