-- ==== Sys2Proof/Machine/Traffic.lean ====
section
/-! DEFINITION. Requests and replies for lines, snoops, watches that time out, the patrol scrubber (R22, R23, R91, R97, R98, R101); Worrad links
(R367, R368). -/

namespace Sys2Proof.Machine

/-! ## Lines on their way (R91) -/

/-- The tag of a request (R39). -/
def LReq.tag (q : LReq) : L1Line :=
  { asid := q.asid, vline := q.vline, r := q.r, w := q.w, u := q.u, hint := q.phint, line := q.line, vc := q.vc, st := .v, data := [], token := 0, wts := 0,
    rts := 0, fn := 0, ty := .n32, parts := [] }

/-- LINE_REQUEST: the place of the oldest outstanding request of a core answers it. A request that the place refuses is dropped. -/
def execLineRequest (core : Nat) (s : State) : Ans :=
  match (s.coreAt core).reqs with
  | [] => .next s
  | q :: qs =>
    let s := s.onCore core fun c => { c with reqs := qs }
    match s.grant core q.asid q.line q.vc q.hint with
    | (s, .error _) => .next s
    | (s, .ok g) => .next (s.onCore core fun c => { c with replies := c.replies ++ [⟨q, g.view.x, g.view.data, g.wts, g.rts⟩] })

/-- FILL_REPLY: the oldest reply enters the L1 and `pts` rises. A core that has an update-only copy of the line keeps that. -/
def execFillReply (core : Nat) (s : State) : Ans :=
  match (s.coreAt core).replies with
  | [] => .next s
  | r :: rs =>
    let s := s.onCore core fun c => { c with replies := rs }
    if ((s.coreAt core).uCopy? r.req.line).isSome then .next (s.raisePts core r.wts)
    else .next (s.install core r.req.tag ⟨⟨r.data, r.x⟩, r.wts, r.rts⟩)

/-! ## Snoops (R97, R98) -/

/-- A peer answers a snoop: the update-only copies are folded, a modified copy at that peer is written back and stays as S, and its filter bit clears. -/
def State.snooped (s : State) (peer l : Nat) : State :=
  if !s.filters.any fun f => f.peer == peer && f.region == l / 32 && f.mask.getLsbD (l % 32) then s
  else ((s.fold l).cleanAt peer l).filterClearFor (fun p => p == peer) l

/-- SNOOP of a peer die for a line. -/
def execSnoop (peer line : Nat) (s : State) : Ans := .next (s.snooped peer line)

/-- A filter holds more than its 65,536 entries, which only recalls within recalls leave (`State.filterSetIn`): the peer and line that its home recalls
next (R97). -/
def State.recallDue (s : State) : Option (Nat × Nat) :=
  if s.filters.length ≤ 65536 then none
  else (s.filters.find? fun f => decide (65536 < (s.filters.filter fun e => e.home == f.home && e.peer == f.peer).length)).bind fun f =>
    ((bitList 32 f.mask.toNat).head?).map fun i => (f.peer, f.region * 32 + i)

/-! ## Watches (R101) -/

/-- WATCH_TIMEOUT: a watching group goes on 1 ms after it registered. Its entry, or its part of the overflow count, goes with it (log 83). -/
def execWatchTimeout (k : Nat) (s : State) : Ans :=
  .next (({ s with watches := s.watches.filter fun w => w.gkey != k } : State).unwatch k)

/-! ## The patrol scrubber (R22, R23) -/

/-- One line with an uncorrectable error: an S copy becomes M, any other copy stays and is written back later (an X copy too, log 82), and the error is
reported as corrected; without a copy the line is poisoned. -/
def State.scrubLine (s : State) (l : Nat) : State :=
  match s.bank? l with
  | some b => (if b.st == .s then let b : BLine := { b with st := .m, dirty := true }; (s.putBank b).refilter b else s).faultEvent 6 10 l
  | none => (s.dramPoison l).faultEvent 6 11 l

/-- PATROL_SCRUB reads the 64 KiB frame with a number: correctable errors are corrected and counted (R22). -/
def execPatrolScrub (frame : Nat) (s : State) : Ans :=
  let of (l : Nat) : Bool := l / 512 == frame
  .next ((s.ue.filter of).foldl State.scrubLine ((s.soft.filter fun l => of l && !s.ue.contains l).foldl State.correct s))

/-! ## Links (R367, R368) -/

/-- Change a Worrad port; one that is not listed is whole. -/
def State.onPort (s : State) (n : Nat) (f : Port → Port) : State :=
  if s.ports.any fun p => p.n == n then { s with ports := s.ports.map fun p => if p.n == n then f p else p }
  else { s with ports := s.ports ++ [f ⟨n, 0, false, 0, 0⟩] }

/-- LINK_LANE_FAILURE: the link falls one step and retrains; at the last step it is down (R368). -/
def execLinkLaneFailure (port : Nat) (s : State) : Ans :=
  if 30 ≤ port then .next s
  else .next ((s.onPort port fun p => { p with level := min 4 (p.level + 1), retraining := decide (p.level + 1 < 4) }).faultEvent 6 8 port)

/-- LINK_RETRAIN_COMPLETE: the link is up and the flits of its replay buffer have been sent again. Every LINK message that asked for it is answered
(R388): its code is 7, its status OK. -/
def execLinkRetrainComplete (port : Nat) (s : State) : Ans :=
  let owed := ((s.ports.find? fun p => p.n == port).map Port.owed).getD 0
  let s : State := { s with ports := s.ports.map fun p => if p.n == port then { p with retraining := false, owed := 0 } else p }
  .next ((List.range owed).foldl (fun s _ => s.emit (.answer 7 0 0)) s)

/-- FLIT_CRC_REPLAY: a flit is sent again from the replay buffer, and counted (R367, R410). -/
def execFlitCrcReplay (port : Nat) (s : State) : Ans :=
  if 30 ≤ port then .next s else .next ((s.onPort port fun p => { p with replays := p.replays + 1 }).faultEvent 6 9 port)

end Sys2Proof.Machine
end

