-- ==== Sys2Proof/Machine/VCache.lean ====
section
/-! DEFINITION. Virtual caches: `VCDEF`, the migration of shares, `VCFLUSH`, retirement of shares (R62 to R69, R77 to R85). -/

namespace Sys2Proof.Machine

/-! ## CDRs (R63, R64) -/

/-- The CDR that 64 bytes hold, with VALID, ASSOC and SHARES as written. -/
structure Cdr where
  valid : Bool
  pool : Bool
  lsz : Nat
  assoc : Nat
  wpol : Nat
  shared : Bool
  cen : Bool
  owner : BitVec 16
  shares : Nat
  lease : Nat
  groups : List (BitVec 64)
  near : List (BitVec 16)
  deriving DecidableEq, Repr

def Cdr.ofBytes (bs : List Byte) : Cdr :=
  let n (o k : Nat) := leNat ((bs.drop o).take k)
  let h := n 0 4
  { valid := bit h 0, pool := bit h 1, lsz := bits h 2 2, assoc := bits h 4 3, wpol := bits h 8 2, shared := bit h 10, cen := bit h 11,
    owner := BitVec.ofNat 16 (h / 65536), shares := n 4 4 % 2 ^ 17, lease := n 8 3,
    groups := (List.range 4).map fun d => BitVec.ofNat 64 (n (0x10 + 8 * d) 8), near := (List.range 4).map fun d => BitVec.ofNat 16 (n (0x30 + 2 * d) 2) }

/-- The rules of R64. -/
def Cdr.legal (c : Cdr) : Bool :=
  decide (c.assoc ≤ 4) && decide (1 ≤ c.shares) && (!c.pool || (c.lsz == 0 && c.assoc == 0 && c.wpol == 0)) &&
  c.groups.any (fun g => g != 0) && (!c.pool || decide (c.shares ≤ 65536))

/-! ## Placement (R67, R68) -/

/-- Candidate banks of a die, ascending. -/
def Cdr.cand (c : Cdr) (d : Nat) : List Nat :=
  let banks := (List.range 1024).filter fun b => (c.groups.getD d 0).getLsbD (b / 16)
  let near := banks.filter fun b => (c.near.getD d 0).getLsbD (b / 64)
  if near.isEmpty then banks else near

/-- VC 0's shares of each bank of a die, highest first. -/
def State.freeByBank (s : State) (d : Nat) : List (List Nat) :=
  (List.range 1024).map fun b => ((List.range 16).map fun i => d * 16384 + b * 16 + (15 - i)).filter s.in0

/-- Take `n` shares of a die from the candidate banks: for `i` from `i0` on, at the place of R68 or the next bank upward that has one. -/
def takeShares (cand : List Nat) (nd : Nat) : Nat → Nat → List (List Nat) → List Nat → Option (List Nat)
  | 0, _, _, acc => some acc
  | n + 1, i, free, acc =>
    let len := cand.length
    let pos := if nd ≤ len then i * len / nd else i % len
    match ((List.range len).map fun j => cand.getD ((pos + j) % len) 0).find? fun b => !(free.getD b []).isEmpty with
    | none => none
    | some b => match free.getD b [] with
      | g :: gs => takeShares cand nd n (i + 1) (free.set b gs) (g :: acc)
      | [] => none

/-- Shares per die: the floors, then the remainder one each to dies with candidates. -/
def perDie (lens : List Nat) (n : Nat) : List Nat :=
  let C := sumNat lens
  let base := lens.map fun l => if C == 0 then 0 else n * l / C
  ((lens.zip base).foldl (fun (r : List Nat × Nat) p =>
    if p.1 != 0 && r.2 != 0 then (r.1 ++ [p.2 + 1], r.2 - 1) else (r.1 ++ [p.2], r.2)) (([] : List Nat), n - sumNat base)).1

/-- `Place` of R68 with the floor of R67. -/
def State.placeShares (s : State) (c : Cdr) (n : Nat) : Option (List Nat) :=
  let cands := (List.range 4).map c.cand
  let nd := perDie (cands.map List.length) n
  (List.range 4).foldl (fun acc d =>
    match acc with
    | none => none
    | some l =>
      let k := nd.getD d 0
      if k == 0 then some l
      else if (s.vc0Shares d).length < 1024 + k then none
      else (takeShares (cands.getD d []) k k 0 (s.freeByBank d) []).map fun x => l ++ x) (some [])

/-- Old shares that a resize keeps, the lowest numbers first (R79). -/
def Cdr.kept (c : Cdr) (old : List Nat) : List Nat := ((sortBy id old).filter fun g => (c.cand (shareDie g)).contains (g % 16384 / 16)).take c.shares

/-! ## `VCDEF` (R77 to R79) -/

/-- Statuses of R78. -/
def vcOk : Nat := 0
def vcBusy : Nat := 1
def vcNospace : Nat := 2
def vcBadcdr : Nat := 3
def vcFixed : Nat := 4
def vcIncompat : Nat := 5
def vcNotpool : Nat := 6

/-- A live VC's MODE, LSZ, SHARED or OWNER would change. -/
def Vc.incompat (v : Vc) (c : Cdr) : Bool := v.pool != c.pool || v.lsz != c.lsz || v.shared != c.shared || v.owner != c.owner

/-- The CDR in force with `c` in place of the old fields. -/
def Vc.take (v : Vc) (c : Cdr) : Vc :=
  { v with pool := c.pool, lsz := c.lsz, assoc := c.assoc, wpol := c.wpol, shared := c.shared, cen := c.cen, owner := c.owner, lease := c.lease,
           groups := c.groups, near := c.near }

/-- Act on a CDR for VC `v`: the status and the target of MCOUNT. -/
def State.defineVc (s : State) (v : Nat) (c : Cdr) : State × Nat × BitVec 24 :=
  let old := (s.vcs.find? fun x => x.id == v).getD { Vc.fixed v 0 0 with phase := .undefined, cen := false }
  let target := old.mcount + 1
  if !c.valid then
    if old.phase == .undefined then ((s.putVc { old with mcount := target }).writeStatus v, vcOk, target)
    else ((s.putVc { old with phase := .removing, leaving := old.shares }).writeStatus v, vcOk, target)
  else if !c.legal then (s, vcBadcdr, 0)
  else if old.phase != .undefined && old.incompat c then (s, vcIncompat, 0)
  else
    let kept := if old.phase == .undefined then [] else c.kept old.shares
    match s.placeShares c (c.shares - kept.length) with
    | none => (s, vcNospace, 0)
    | some js =>
      let new : Vc := if old.phase == .undefined then { old.take c with hits := 0, misses := 0, evicts := 0, retired := 0, shares := [] } else old.take c
      let new : Vc := { new with phase := .claim, joining := sortBy id js, leaving := new.shares.filter fun g => !kept.contains g }
      (((s.putVc new).writeStatus v).writeStatus 0, vcOk, target)

/-- `VCDEF` and `VCFLUSH` once their chunk has committed: a poisoned w[V] goes to w[D] and is live, else `f` acts on the VC id (R77, R84). -/
def State.onVcOperand (s : State) (d v : BitVec 6) (f : State → Nat → Ans) : Ans :=
  s.interlock [v, d] (s.closing false fun s =>
    if (s.wreg v).poison then s.failToken (s.wreg v).token d else f s ((s.wreg v).val.toNat % 256))

/-- `vcdef` (R77). A CDR whose line is X or holds the poison syndrome gives the line's own cause, as one that meets the error gives UE (log 62). -/
def execVcdef (d v : BitVec 6) (s : State) : Ans :=
  if s.cur.user then .next (s.illegal tsPriv 0 false)
  else s.onVcOperand d v fun s n =>
    let ans (s : State) (st : Nat) (m : BitVec 24) : Ans := (s.setVal d (BitVec.ofNat 64 (st + m.toNat * 256))).doneNew
    if n == 0 || n == 254 || n == 255 then ans s vcFixed 0
    else if ((s.vcs.find? fun c => c.id == n).map fun c => c.phase != .stable && c.phase != .undefined).getD false then ans s vcBusy 0
    else match s.peekBytes (s.vcTable + 64 * n) 64 with
      | (s, _, some t) => let (s, k) := s.ctrlPoison (lineCause t) 0; s.failToken k d
      | (s, bs, none) => let (s, st, m) := s.defineVc n (Cdr.ofBytes bs); ans s st m

/-! ## The migration of shares (R79 to R82) -/

/-- A line leaves a share that is removed: folded, written back if dirty, or simply dropped; a pool line is dropped (R82). -/
def State.leaveShare (s : State) (l : Nat) : State := s.dropLine l

/-- A line of a VC under migration does not stand at its place: in another share or set, or past the pool's new size; a line of a removed cache share
stays until the release (R69, R79, R82). -/
def State.wantsMove (s : State) (c : Vc) (b : BLine) : Bool :=
  b.vc == c.id &&
  if c.pool then decide (c.poolSize ≤ poolLine b.line * 128) || s.shareFor c.id b.line != b.share
  else !c.leaving.contains b.share && (s.shareFor c.id b.line != b.share || b.ways != 2 ^ c.assoc)

/-- A line of a VC in its move phase goes where it belongs (R81, R82): it keeps its data, state, protection level and times, and evicts in a full set. A
pool line past the new size is dropped. -/
def State.moveVcLine (s : State) (vc line : Nat) : State :=
  match s.vc? vc, s.bank? line with
  | some c, some b =>
    if c.phase != .move || !s.wantsMove c b then s
    else if c.pool && decide (c.poolSize ≤ poolLine line * 128) then s.leaveShare line
    else
      let s := if c.pool then s else s.makeRoom vc line
      s.moveCopy b (s.shareFor vc line)
  | _, _ => s

/-- VC_LINE_MOVE: the read of a line that meets an error retires its share first (R81, R85). -/
def execVcLineMove (vc line : Nat) (s : State) : Ans :=
  if (s.vc? vc).any fun c => c.phase == .move && (s.bank? line).any (s.wantsMove c) then .next ((s.meetError line).moveVcLine vc line) else .next s

/-- Lines of a VC that still must move. -/
def State.vcMoves (s : State) (c : Vc) : List Nat := (s.bank.filter fun b => s.wantsMove c b).map BLine.line

/-- The flush of VC `v` in a mode, and its status (R84). Every line of a pool is present (R74). -/
def State.flushVc (s : State) (v : Nat) (m : FlushMode) : State × Nat :=
  let ls := (s.bank.filter fun b => b.vc == v).map BLine.line
  let pool := ((s.vc? v).map Vc.pool).getD false
  if (s.vc? v).isNone then (s, vcBadcdr)
  else match m with
    | .zero =>
      if !pool then (s, vcNotpool)
      else
        let n := ((s.vc? v).map Vc.poolSize).getD 0 / 128
        ((List.range n).foldl (fun s i => (s.engineWrite none (poolBase + v * 0x4000000 + i) v (cellsAt 0 (List.replicate 128 0)) none).1) s, vcOk)
    | .clean =>
      (if pool then s else ls.foldl (fun s l =>
        let s := s.fold l
        match s.bank? l with
        | some b => match b.st with
          | .m => ((s.dramPut l b.data).putBank { b with st := .s, dirty := false }).filterClear l
          | .x => (s.dramPoison l).putBank { b with dirty := false }
          | _ => s
        | none => s) s, vcOk)
    | .inval => (if pool then s else ls.foldl State.dropLine s, vcOk)

/-- The flushes that waited for a VC run now (R83). -/
def State.waitingFlushes (s : State) (v : Nat) : State :=
  s.groups.foldl (fun s g => match g.phase with
    | .wait (.flush d n m) =>
      if n == v then
        let (s, st) := s.flushVc v m
        s.answerCmd g.key d ⟨BitVec.ofNat 64 st, false⟩
      else s
    | _ => s) s

/-- VC_PHASE_ADVANCE: a VC whose phase has nothing left to do enters the next one (R79). -/
def execVcPhaseAdvance (vc : Nat) (s : State) : Ans :=
  match s.vc? vc with
  | none => .next s
  | some c =>
    match c.phase with
    | .claim =>
      let s := (s.linesIn 0 c.joining).foldl State.leaveShare s
      .next (s.putVc { c with phase := .move, shares := sortBy id ((c.shares.filter fun g => !c.leaving.contains g) ++ c.joining), joining := [] })
    | .move => if (s.vcMoves c).isEmpty then .next (s.putVc { c with phase := .release }) else .next s
    | .release =>
      let s := (s.linesIn vc c.leaving).foldl State.leaveShare s
      let c := (s.vc? vc).getD c
      let s := s.putVc { c with phase := .stable, leaving := [], mcount := c.mcount + 1, live := c.shares.length }
      .next (((s.writeStatus vc).writeStatus 0).waitingFlushes vc)
    | .removing =>
      let s := ((s.bank.filter fun b => b.vc == vc).map BLine.line).foldl State.leaveShare s
      let c := (s.vc? vc).getD c
      let s := s.putVc { c with phase := .undefined, shares := [], joining := [], leaving := [], mcount := c.mcount + 1, live := 0 }
      .next (((s.writeStatus vc).writeStatus 0).waitingFlushes vc)
    | _ => .next s

/-- A VC can leave its phase. -/
def State.vcDue (s : State) (c : Vc) : Bool :=
  match c.phase with
  | .claim | .release | .removing => true
  | .move => (s.vcMoves c).isEmpty
  | _ => false

/-! ## `VCFLUSH` (R84) -/

/-- `vcflush`: a VC under migration is waited for. -/
def execVcflush (d v : BitVec 6) (m : FlushMode) (s : State) : Ans :=
  if s.cur.user then .next (s.illegal tsPriv 0 false)
  else s.onVcOperand d v fun s n =>
    if ((s.vc? n).map fun c => c.phase != .stable).getD false then .next (s.await (.flush d n m))
    else
      let (s, st) := s.flushVc n m
      (s.setVal d (BitVec.ofNat 64 st)).doneNew

end Sys2Proof.Machine
end

