-- ==== Sys2Proof/Machine/Contain.lean ====
section
/-! DEFINITION. Containment of a compute die, over-temperature, bring-up and power (R31, R411 to R415, R425 to R429). -/

namespace Sys2Proof.Machine

/-! ## Killing contexts (R412, R413) -/

/-- Engine operations of teams vanish without a record. -/
def State.killOps (s : State) (hit : EngOp → Bool) : State := (s.ops.filter hit).foldl (fun s o => s.endOp o 0 0 0 false) s

/-- A context is killed on this chip: its teams end with KILLED, their chunks and operations vanish, its packets and requests are dropped. -/
def State.killContext (s : State) (a : BitVec 16) : State :=
  let s := s.onCtx a fun c => { c with killed := true }
  let keys := (s.teams.filter fun t => t.asid == a).map Team.key
  let s := s.killOps fun o => keys.contains o.teamKey
  let s := (s.launches.filter fun l => l.asid == a).foldl (fun s l => s.onLaunch l.lid fun l => { l with stop := l.stop <|> some tsKilled }) s
  let s := s.endContext a tsKilled 0 0
  let s := (s.groups.filter fun g => keys.contains g.teamKey && g.alive).foldl (fun s g => s.endGroup g.key) s
  let wired (w : Wire) : Bool := match w.body with | .req q => q.asid == a | _ => false
  { s with egress := s.egress.filter fun w => !(w.h.src == s.chip && wired w), utx := s.utx.filter fun u => u.asid != a, urx := s.urx.filter fun r => r.asid != a, recvs := s.recvs.filter fun v => v.asid != a,
           netPend := s.netPend.filter fun p => p.asid != a, outReqs := s.outReqs.filter fun r => r.q.asid != a,
           cores := s.cores.map fun c => { c with wcb := c.wcb.filter fun w => w.asid != a } }

/-- Contexts with a team admitted to a core of a die. -/
def State.contextsOn (s : State) (d : Nat) : List (BitVec 16) :=
  dedup ((s.admittedTeams.filter fun t => t.cores.any fun c => c / 64 == d).map Team.asid)

/-! ## Marking lines (R414) -/

/-- Lines homed on a surviving die that a filter says the lost die may hold. -/
def State.filteredBy (s : State) (d : Nat) : List Nat :=
  dedup ((s.filters.filter fun f => f.peer == d && f.home != d).flatMap fun f => (bitList 32 f.mask.toNat).map fun i => f.region * 32 + i)

/-- DDR-5 lines of 2 MiB regions in which the lost die's slices recorded a modified or update-only line: the regions. -/
def State.ddrRegions (s : State) (d : Nat) : List Nat :=
  dedup ((s.bank.filter fun b => (b.st == .m || b.st == .u) && !isPool b.line && decide (0x10000000000 ≤ b.line * 128) && s.home b.line == d).map
    fun b => b.line / 16384)

/-- Lines of a region whose coherence home is a die. -/
def State.regionLines (s : State) (d r : Nat) : List Nat := ((List.range 16384).map fun i => r * 16384 + i).filter fun l => s.home l == d

/-- A line becomes X with cause DIE_LOST at its home, in a share of its VC on the dies that are left; no core keeps an update-only copy of it (R95). A
filter bit stands only for a line with a bank-store copy; without one the line would be poisoned in DRAM. -/
def State.markLost (s : State) (l : Nat) : State :=
  match s.bank? l with
  | some b => s.poisonCopy b (s.shareFor b.vc l) Cause.dieLost
  | none => let t := (s.times l).2 + 1; (s.dramPoison l).raiseSlice l t t

/-- The share of a copy, and every copy of a line homed on the die, is gone. -/
def BLine.goneWith (b : BLine) (s : State) (d : Nat) : Bool := shareDie b.share == d || s.home b.line == d

/-- A VC loses its shares on a die; a pool keeps the rest under the numbering of R69 (R83, log 56). -/
def Vc.without (c : Vc) (d : Nat) : Vc :=
  let on (l : List Nat) : List Nat := l.filter fun g => shareDie g == d
  let off (l : List Nat) : List Nat := l.filter fun g => shareDie g != d
  { c with shares := off c.shares, joining := off c.joining, leaving := off c.leaving, stale := true,
           live := c.live - (on (c.shares ++ c.leaving)).length }

/-- The pools that lose lines with a die. -/
def State.poolsOn (s : State) (d : Nat) : List LostPool :=
  (s.vcs.filter fun c => c.pool && (c.shares ++ c.leaving).any fun g => shareDie g == d).map fun c =>
    let ls := s.bank.filter fun b => b.vc == c.id && isPool b.line
    ⟨c.id, d, c.shares, (ls.filter fun b => shareDie b.share == d).map BLine.line, (ls.filter fun b => shareDie b.share != d).map BLine.line⟩

/-- Once a pool that no migration moves has lost shares, its lines stand where the numbering of R69 places them; those past its end are dropped (R82). -/
def State.settlePools (s : State) : State :=
  (s.vcs.filter fun c => c.pool && c.phase == .stable).foldl (fun s c =>
    let past := (s.bank.filter fun b => b.vc == c.id && isPool b.line && decide (c.poolSize ≤ poolLine b.line * 128)).map BLine.line
    (past.foldl State.takeOut s).settlePool c) s

/-- Mark the lines that the loss of a die affects; `s` still has the die's homes. A copy that leaves hands its times to the slice of its home (R89). -/
def State.markLines (s : State) (d : Nat) : State :=
  let held := s.filteredBy d
  let regions := s.ddrRegions d
  let ddr := regions.flatMap fun r => s.regionLines d r
  let saved := (s.bank.filter fun b => ddr.contains b.line && b.st == .m && shareDie b.share != d).map fun b => (b.line, b.data)
  let dirty := (s.bank.filter fun b => b.dirty && shareDie b.share == d && s.home b.line != d).map BLine.line
  let gone := (s.bank.filter fun b => b.goneWith s d).map BLine.line
  let times := s.bank.map fun b => (b.line, s.times b.line)
  let s : State := { s with lostDies := s.lostDies ++ [d], lostPools := s.lostPools ++ s.poolsOn d, vcs := s.vcs.map fun c => c.without d }
  let s := (dedup (held ++ dirty)).foldl (fun s l => if s.lost l || ddr.contains l then s else s.markLost l) s
  let s := saved.foldl (fun s p => s.dramPut p.1 p.2) s
  let s := (ddr.filter fun l => !saved.any fun p => p.1 == l).foldl (fun s l => s.dramPoison l) s
  let drop (l : Nat) : Bool := ddr.contains l || (gone.contains l && !((s.bank? l).any fun b => b.st == .x && !s.lost l))
  let left := times.filter fun p => drop p.1 && !isPool p.1 && !s.lost p.1
  let s := left.foldl (fun s p => s.raiseSlice p.1 p.2.1 p.2.2) s
  ({ s with bank := s.bank.filter fun b => !drop b.line, bankErr := s.bankErr.filter fun l => !drop l,
            filters := s.filters.filter fun f => f.home != d && f.peer != d,
            cores := (s.cores.filter fun c => c.id / 64 != d).map fun c => { c with l1 := c.l1.filter fun x => x.st != .u || !drop x.line },
            clusters := s.clusters.filter fun c => c.id / 16 != d } : State).settlePools

/-! ## Containment (R412, R415) -/

/-- Chunks of surviving groups in commit that have an arbiter on the lost die squash (R415). -/
def State.squashCommits (s : State) (d : Nat) : State :=
  (s.groups.filter fun g => g.chunk.committing && (g.chunk.pend ++ g.chunk.got).any fun a => a % 256 / 64 == d).foldl
    (fun s g => s.withGroup g.key fun s => s.forgetLost.squash) s

/-- Contain a die for a cause. -/
def State.contain (s : State) (d cause : Nat) : State :=
  if s.lostDies.contains d || 4 ≤ d || s.dev != .running then s
  else
    let ks := s.contextsOn d
    let s := ks.foldl State.killContext s
    let ws := (s.watches.filter fun w => w.die == d).map WatchEnt.gkey
    let s := ws.foldl (fun s k => s.unwatch k) { s with watches := s.watches.filter fun w => w.die != d }
    let s := (s.markLines d).squashCommits d
    let s := s.abandonMoves d
    let mark (t : Shoot) : Shoot := if t.removed.contains d then t else { t with removed := t.removed ++ [d] }
    let due := s.shoots.filter fun t => !t.acked.contains d
    let s : State := due.foldl (fun (s : State) t => s.later (.shootdownAck t.id d)) { s with shoots := s.shoots.map mark }
    let s := (s.faultEvent 4 12 (d + 16 * cause)).emit (.note 6 (d + 16 * cause))
    (ks.foldl (fun s a => s.emit (.note 7 a.toNat)) s).releaseMissed

/-- DIE_HEARTBEAT_TIMEOUT (R411). -/
def execDieHeartbeatTimeout (d : Nat) (s : State) : Ans := .next (s.contain d 1)

/-- DIE_LINK_RETRAIN_TIMEOUT (R411). -/
def execDieLinkRetrainTimeout (d : Nat) (s : State) : Ans := .next (s.contain d 2)

/-- DIE_FAULT_DETECTED: supply, clock, or an error in arbiter, filter or watch state (R411). -/
def execDieFaultDetected (d : Nat) (s : State) : Ans := .next (s.contain d 3)

/-! ## Losing the compute dies -/

/-- What the host sends, and a power-on, reach the I/O die whatever the compute dies do. -/
def fromHost : Instr → Bool
  | .ctxcreate _ _ _ _ _ | .ctxdestroy _ | .winset _ _ | .peerset _ _ _ | .cntrset _ _ _ | .config _ | .link _ | .status | .report | .retest _ |
    .fwload _ _ | .power _ | .syslaunch _ _ | .resume _ _ _ _ _ | .withdraw _ _ _ | .pin _ _ | .unpin _ _ | .migrate _ _ _ _ _ |
    .hostLaunchMessage _ _ | .powerOn _ => true
  | _ => false

/-- Everything that lives on the compute dies is gone: groups, teams, launches, operations, caches, times. DRAM keeps what had reached it. -/
def State.diesOff (s : State) : State :=
  { s with cur := Group.blank, rest := [], teams := [], launches := [], claims := [], cores := [], clusters := [], migrations := [], migWait := [],
           migOwed := [], bank := [], slices := [], bases := [], filters := [], watches := [], reserved := [], shoots := [], ops := [], outReqs := [],
           holds := [], missed := [], winAnswers := [], slots := [], utx := [], urx := [], recvs := [], netPend := [], gangs := [], withdrawals := [],
           agenda := s.agenda.filter fromHost, ioTlb := [], egress := [], detours := [], bankErr := [] }

/-- OVERTEMP_TRIP: the clocks stop, every context is killed without a record, the device is in the safe state (R426, R429). -/
def execOvertempTrip (s : State) : Ans :=
  if s.dev == .off then .next s
  else
    let s := s.diesOff
    .next (({ s with ctxs := s.ctxs.map fun c => { c with killed := true }, dev := if s.dev == .closing then .closing else .safe, hot := true, etherGbps := 100,
                     etherAddr := s.flashAddr } : State).faultEvent 5 13 0)

/-! ## Bring-up (R425) -/

/-- The image that boots: the inactive bank's if FWLOAD has written it since the last bring-up and its digest matches (R427). -/
def bootFlash (new : Bool) (f : List (Bool × List Byte × List Byte)) : List (Bool × List Byte × List Byte) :=
  let ok (x : Bool × List Byte × List Byte) : Bool := Sha.sha256 x.2.1 == x.2.2
  if new && f.any fun x => !x.1 && ok x then f.map fun x => (!x.1, x.2) else f

/-- Rates of the Ethernet port in Gb/s, the highest first (R381). -/
def etherRates : List Nat := [1600, 800, 400, 100]

/-- DDR-5 capacity of 16 channels: usable only where all carry modules of equal capacity (R18). -/
def ddrUsable (channels : List Nat) : Option Nat :=
  match channels with
  | c :: cs => if cs.length == 15 && c != 0 && cs.all fun x => x == c then some (16 * c) else none
  | [] => none

/-- Free pool of a package whose DDR-5 tier holds `cap` bytes. -/
def freePool (cap : Nat) : List (Nat × Nat) := (State.reset.free.filter fun r => decide (r.1 < 0x10000000000)) ++ (if cap == 0 then [] else [(0x10000000000, cap)])

/-- Shares of VC 254 on each die: 1,024 where the host names no size from 256 to 4,096 (R66). -/
def framesOf (r : BringUp) : List Nat :=
  (List.range 4).map fun d => let n := r.frames.getD d 1024
    if 256 ≤ n && n ≤ 4096 then n else 1024

/-- The steps of bring-up on a package that keeps flash, event log and counts. What the host has sent and nothing has answered waits. -/
def State.bringUp (s : State) (r : BringUp) : State :=
  let flash := bootFlash s.fwNew s.flash
  let image := (flash.find? fun x => x.1).any fun x => Sha.sha256 x.2.1 == x.2.2
  let ok := image && r.selfTestOk && r.dieLinksOk && r.hbmOk
  let cap := min ((ddrUsable r.channels).getD 0) 0x40000000000
  let z := State.reset
  let z : State := { z with flash := flash, log := s.log, counts := s.counts, out := s.out, chip := r.chip, rows := min 16 (max 1 r.rows), cols := min 16 (max 1 r.cols),
                            channels := r.channels, ddrCap := cap, free := freePool cap, badShares := r.badShares, badCores := r.badCores, per254 := framesOf r,
                            ports := (r.ports.filter fun p => decide (p.1 < 30)).map fun p => ⟨p.1, min 4 p.2, false, 0, 0⟩,
                            etherAddr := if ok then r.etherAddr else s.flashAddr, flashAddr := s.flashAddr, agenda := s.agenda.filter fromHost,
                            etherGbps := if !ok then 100 else if etherRates.contains r.etherGbps then r.etherGbps else 1600,
                            dev := if ok then .running else .safe, dram := s.dram, synd := s.synd, ue := s.ue, soft := s.soft, nextKey := s.nextKey, fresh := s.fresh, clock := s.clock }
  let z := z.ports.foldl (fun z p => if p.level == 0 then z else z.faultEvent 6 8 p.n) z
  let z := if ok then z else z.faultEvent 5 14 0
  if (ddrUsable r.channels).isNone then z.faultEvent 5 15 0 else z

/-- OFF takes effect: flash alone is kept, and with it what the model counts (R428). -/
def State.cutPower (s : State) : State :=
  { State.reset with dev := .off, power := .off, flash := s.flash, flashAddr := s.flashAddr, fwNew := s.fwNew, agenda := s.agenda, out := s.out, nextKey := s.nextKey,
                     fresh := s.fresh, rr := s.rr, clock := s.clock }

/-- POWER_ON: bring-up from OFF. -/
def execPowerOn (r : BringUp) (s : State) : Ans := if s.dev == .off then .next (s.bringUp r) else .next s

end Sys2Proof.Machine
end

