-- ==== Sys2Proof/Machine/HostMsg.lean ====
section
/-! DEFINITION. Messages of the host to resource index 1 (R369, R371, R376, R382, R388, R389, R426 to R428). Each answers with its code: they
are numbered 1 to 18 in the order of R388. -/

namespace Sys2Proof.Machine

/-- Answer a message. -/
def State.answerMsg (s : State) (code : Nat) (st : BitVec 8) (v : BitVec 64) : State := s.emit (.answer code st v)

/-- Every message but four is answered SAFE in the safe state (R426), and while OFF is pending (log 104). -/
def State.unlessSafe (s : State) (code : Nat) (f : State → State) : Ans :=
  if s.dev != .running then .next (s.answerMsg code ansSafe 0) else .next (f s)

/-! ## Contexts (R388) -/

/-- CTXCREATE: ASID 0 and an ASID in use are no new context; indices 0 and 1 belong to the device. -/
def execCtxcreate (asid : BitVec 16) (pt crumb shard : BitVec 64) (res : BitVec 16) (s : State) : Ans :=
  s.unlessSafe 1 fun s =>
    if asid == 0 then s.answerMsg 1 ansBadctx 0
    else if (s.ctx? asid).isSome || res.toNat < 2 then s.answerMsg 1 ansBadarg 0
    else
      let c : Ctx := { asid := asid, pt := pt &&& 0xFFFFFFFE00000, crumb := crumb &&& 0xFFFFFFFFFF01F, shard := shard &&& 0xFFFFFFFFFFFFF, res := res, inPlace := true,
                       debug := false, killed := false }
      ({ s with ctxs := s.ctxs ++ [c] } : State).answerMsg 1 ansOk 0

/-- CTXDESTROY: a context with work on the device is busy. What the I/O die keeps for it goes with it. -/
def execCtxdestroy (asid : BitVec 16) (s : State) : Ans :=
  s.unlessSafe 2 fun s =>
    if (s.ctx? asid).isNone then s.answerMsg 2 ansBadctx 0
    else if s.launches.any (fun l => l.asid == asid) || s.teams.any fun t => t.asid == asid then s.answerMsg 2 ansBusy 0
    else
      ({ s with ctxs := s.ctxs.filter fun c => c.asid != asid, peers := s.peers.filter fun p => p.asid != asid,
                counters := s.counters.map fun c => if c.owner == some asid then { c with owner := none } else c,
                recvs := s.recvs.filter fun v => v.asid != asid, urx := s.urx.filter fun r => r.asid != asid,
                utx := s.utx.filter fun u => u.asid != asid, netPend := s.netPend.filter fun p => p.asid != asid } : State).answerMsg 2 ansOk 0

/-! ## Windows, peers, counters (R369, R371, R376, R382) -/

/-- The fields of a window descriptor over the counters of the window it replaces (R369). -/
def Window.of (n : BitVec 12) (bs : List Byte) (target origin : BitVec 64) (ctime : Nat) : Window :=
  let q (o k : Nat) : Nat := leNat ((bs.drop o).take k)
  let w := q 0 4
  let z := bit w 5
  { n := n, valid := bit w 0, r := bit w 1, w := bit w 2, a := bit w 3, host := bit w 4, asid := BitVec.ofNat 16 (bits w 16 16),
    base := BitVec.ofNat 64 (q 8 8), size := q 0x10 8 % 2 ^ 37, peers := BitVec.ofNat 256 (q 0x20 32), target := if z then 0 else target,
    origin := if z then 0 else origin, ctime := if z then 0 else ctime }

/-- What R369 asks of BASE and SIZE. -/
def Window.legal (w : Window) : Bool := decide (w.base.toNat < 2 ^ 56) && w.base.toNat % 128 == 0 && w.size % 128 == 0 && decide (w.size ≤ 2 ^ 36)

/-- WINSET: it applies to accesses that arrive after it; its answer waits for those admitted before (R371). -/
def execWinset (n : BitVec 12) (desc : List Byte) (s : State) : Ans :=
  s.unlessSafe 3 fun s =>
    let old := s.windows.find? fun w => w.n == n
    let w := Window.of n desc ((old.map Window.target).getD 0) ((old.map Window.origin).getD 0) ((old.map Window.ctime).getD 0)
    if w.valid && !w.legal then s.answerMsg 3 ansBadarg 0
    else
      let s : State := { s with windows := if old.isSome then s.windows.map fun x => if x.n == n then w else x else s.windows ++ [w] }
      if s.missed.any fun m => m.q.win == n then { s with winAnswers := s.winAnswers ++ [n] } else s.answerMsg 3 ansOk 0

/-- PEERSET: the entry is written, and its sequence counts start again (R435, log 102). A payload size that the host sets is one of R381. -/
def execPeerset (asid : BitVec 16) (n : BitVec 12) (p : Peer) (s : State) : Ans :=
  s.unlessSafe 4 fun s =>
    if (s.ctx? asid).isNone then s.answerMsg 4 ansBadctx 0
    else if !(p.payload.all fun n => [1024, 2048, 4096, 8192].contains n) then s.answerMsg 4 ansBadarg 0
    else
      let e : PeerEnt := { asid := asid, n := n, peer := p, gen := s.nextKey, nextSeq := 0, nextRod := 0, lost := false }
      ({ s with nextKey := s.nextKey + 1, peers := (s.peers.filter fun q => !(q.asid == asid && q.n == n)) ++ [e] } : State).answerMsg 4 ansOk 0

/-- CNTRSET: assign, release or set a network completion counter. -/
def execCntrset (n : BitVec 12) (owner : Option (BitVec 16)) (v : BitVec 64) (s : State) : Ans :=
  s.unlessSafe 5 fun s =>
    if (match owner with | some a => (s.ctx? a).isNone | none => false) then s.answerMsg 5 ansBadctx 0
    else ({ s with counters := (s.counters.filter fun c => c.n != n) ++ [⟨n, owner, v, 0⟩] } : State).answerMsg 5 ansOk 0

/-! ## Configuration and links (R368, R388) -/

/-- CONFIG. The Ethernet port takes the rates of R381. -/
def execConfig (c : ConfigItem) (s : State) : Ans :=
  s.unlessSafe 6 fun s =>
    let ok (s : State) : State := s.answerMsg 6 ansOk 0
    match c with
    | .wcbage v => ok { s with wcbage := v }
    | .lease v => ok (s.writeLease (v.setWidth 64))
    | .placeb v => ok { s with placeb := v }
    | .demotion a p => if (s.ctx? a).isSome then ok (s.onCtx a fun c => { c with inPlace := p }) else s.answerMsg 6 ansBadctx 0
    | .debug a b => if (s.ctx? a).isSome then ok (s.onCtx a fun c => { c with debug := b }) else s.answerMsg 6 ansBadctx 0
    | .gangTimeout ms => if 1 ≤ ms && ms ≤ 1000 then ok { s with gangMs := ms } else s.answerMsg 6 ansBadarg 0
    | .etherRate g => if etherRates.contains g then ok { s with etherGbps := g } else s.answerMsg 6 ansBadarg 0

/-- LINK: the link retrains upward to its first step; it comes up at LINK_RETRAIN_COMPLETE, which answers each such message (R368, R388). A port without a partner stays
down (R363). -/
def execLink (port : Nat) (s : State) : Ans :=
  s.unlessSafe 7 fun s =>
    if !s.hasPartner port then s.answerMsg 7 ansBadarg 0
    else s.onPort port fun p => { p with level := 0, retraining := true, owed := p.owed + 1 }

/-! ## STATUS, REPORT, RETEST, FWLOAD, POWER (R426 to R428) -/

/-- Codes of the device state and of the power state. -/
def Dev.code : Dev → Nat
  | .running => 0 | .safe => 1 | .closing => 2 | .off => 2

def powerCode : Power → Nat
  | .p0 => 0 | .p1 => 1 | .p2 => 2 | .p3 => 3 | .s1 => 4 | .s2 => 5 | .off => 6

/-- The temperatures of the 256 cores as their sensors read now. -/
def State.temperatures (s : State) : List (BitVec 8) := (List.range 256).map fun k => Config.temperature k s.clock

/-- STATUS: state, power state, temperature headroom, counts per class. -/
def execStatus (s : State) : Ans := .next (s.emit (.status s.dev.code (powerCode s.power) s.temperatures s.counts))

/-- REPORT: up to 64 events, oldest first, and they are cleared. -/
def execReport (s : State) : Ans := .next (({ s with log := s.log.drop 64 } : State).emit (.report (s.log.take 64)))

/-- RETEST: accepted with no context or in the safe state, after over-temperature only on a cool package, not while OFF is pending (R427, R429). -/
def execRetest (r : BringUp) (s : State) : Ans :=
  if s.dev == .closing || (s.dev != .safe && !s.ctxs.isEmpty) || (s.hot && !r.cool) then .next (s.answerMsg 10 ansBusy 0)
  else .next ((s.bringUp r).answerMsg 10 ansOk 0)

/-- FWLOAD: the inactive flash bank takes an image with its digest. -/
def execFwload (img digest : List Byte) (s : State) : Ans :=
  .next (({ s with flash := s.flash.map fun b => if b.1 then b else (false, img, digest), fwNew := true } : State).answerMsg 11 ansOk 0)

/-- A launch runs on the device: some team of it has started (R25). -/
def State.anyRunning (s : State) : Bool := s.launches.any Launch.started

/-- The bank store is written back and restarts empty; caches and tables of the compute dies with it (R428). -/
def State.dropBank (s : State) : State :=
  let s := (s.bank.map BLine.line).foldl (fun s l => s.dropLine l) s
  { s with bank := [], filters := [], cores := s.cores.map fun c => { c with l1 := [], reqs := [], replies := [] },
           clusters := s.clusters.map fun c => { c with tlb := [], ptrs := [], shards := [] }, ioTlb := [] }

/-- POWER (R428). OFF kills every context; it is pending until nothing that the host has sent waits for its answer (R427, log 104). -/
def execPower (p : Power) (s : State) : Ans :=
  s.unlessSafe 12 fun s =>
    let ok (s : State) : State := ({ s with power := p } : State).answerMsg 12 ansOk 0
    match p with
    | .p0 | .p1 | .p2 | .p3 => ok s
    | .s1 => if s.anyRunning then s.answerMsg 12 ansBusy 0 else ok s
    | .s2 => if s.anyRunning then s.answerMsg 12 ansBusy 0 else ok s.dropBank
    | .off => ok { s.diesOff with ctxs := s.ctxs.map fun c => { c with killed := true }, dev := .closing }

/-! ## Frames (R389) -/

/-- A frame range of PIN and UNPIN. -/
def frameRange (pa size : BitVec 64) : Bool := pa.toNat % 65536 == 0 && size.toNat % 65536 == 0 && size != 0

/-- PIN. -/
def execPin (pa size : BitVec 64) (s : State) : Ans :=
  s.unlessSafe 16 fun s =>
    if !frameRange pa size then s.answerMsg 16 ansBadarg 0
    else ({ s with pinned := s.pinned ++ [(pa.toNat, size.toNat)] } : State).answerMsg 16 ansOk 0

/-- A range without the part that another covers. -/
def cutRange (r c : Nat × Nat) : List (Nat × Nat) :=
  if !meets r c then [r]
  else (if r.1 < c.1 then [(r.1, c.1 - r.1)] else []) ++ (if c.1 + c.2 < r.1 + r.2 then [(c.1 + c.2, r.1 + r.2 - (c.1 + c.2))] else [])

/-- UNPIN: a frame that the management core pinned itself stays. -/
def execUnpin (pa size : BitVec 64) (s : State) : Ans :=
  s.unlessSafe 17 fun s =>
    let c := (pa.toNat, size.toNat)
    if !frameRange pa size || s.corePinned.any fun r => meets r c then s.answerMsg 17 ansBadarg 0
    else ({ s with pinned := s.pinned.flatMap fun r => cutRange r c } : State).answerMsg 17 ansOk 0

/-- Leaves of `n` pages that follow each other from an address; none where one is not mapped. -/
def State.pagesFrom (s : State) (asid : BitVec 16) : Nat → Nat → Option (List Leaf)
  | 0, _ => some []
  | n + 1, va => match s.leaf? asid va with
    | none => none
    | some f => (s.pagesFrom asid n (f.va + f.size)).map fun fs => f :: fs

/-- MIGRATE: BUSY if a page may not move, else the answer waits until every migration has started. -/
def execMigrate (asid : BitVec 16) (va : BitVec 64) (n : Nat) (tier die : BitVec 8) (s : State) : Ans :=
  s.unlessSafe 18 fun s =>
    if !s.liveCtx asid then s.answerMsg 18 ansBadctx 0
    else if 1 < tier.toNat || (tier == 0 && (4 ≤ die.toNat || s.lostDies.contains die.toNat)) || (tier == 1 && s.ddrCap == 0) then s.answerMsg 18 ansBadarg 0
    else match s.pagesFrom asid n va.toNat with
      | none => s.answerMsg 18 ansBadarg 0
      | some fs =>
        if fs.any fun f => s.isPinned f.frame f.size || s.inRunning f || s.movesPage asid f.va then s.answerMsg 18 ansBusy 0
        else
          let qs := fs.map fun f => ({ cause := .host, asid := asid, va := BitVec.ofNat 64 f.va, tier := tier.setWidth 2, die := die.toNat, key := (0, 0) } : MigReq)
          (qs.foldl (fun (s : State) q => s.later (.migrationStart q)) { s with migOwed := s.migOwed ++ [qs] }).payOwed

end Sys2Proof.Machine
end

