-- ==== Sys2Proof/Machine/LaneCross.lean ====
section
/-! DEFINITION. Cross-lane instructions (R187, R233, R246 to R251). Lanes are numbered from the base of their shadow half. -/

namespace Sys2Proof.Machine

/-! ## Exchanges (R246) -/

/-- S0 of lane `j` of the half that starts at `base`. -/
def Group.xchSrc (g : Group) (x : LOp) (F : Form) (first base j : Nat) : Opd :=
  match g.rdForm x F.s0 x.s0 first (base + j) with
  | .ok v => .ok v
  | .tok t => .bad t
  | .stale => .ok 0

/-- An exchange: `pick` gives the lane a lane reads from, none where it falls outside the group. -/
def State.exchange (s : State) (x : LOp) (F : Form) (pick : Nat → Nat → Nat → Option Nat) : Ans :=
  let first := (s.cur.active x.guard).head?.getD 0
  s.laneGroup x F fun g base ls => ls.map fun l =>
    (l.lane, match l.b.tok with
      | some t => .bad t
      | none => match pick g.laneW (l.lane - base) l.b.val with
        | some j => g.xchSrc x F first base j
        | none => l.c)

/-- `xchi`. -/
def execXchi (x : LOp) (s : State) : Ans := s.exchange x (formOf (.xchi x)) fun w _ c => some (c % w)

/-- `xchu`. -/
def execXchu (x : LOp) (s : State) : Ans := s.exchange x (formOf (.xchu x)) fun _ i c => if c ≤ i then some (i - c) else none

/-- `xchd`. -/
def execXchd (x : LOp) (s : State) : Ans := s.exchange x (formOf (.xchd x)) fun w i c => if i + c < w then some (i + c) else none

/-- `xchx`. -/
def execXchx (x : LOp) (s : State) : Ans := s.exchange x (formOf (.xchx x)) fun w i c => some (i ^^^ (c % w))

/-! ## Votes and matches (R247, R248) -/

/-- Token of the lowest-numbered poisoned lane. -/
def firstBad (ls : List LaneIn) : Option (BitVec 32) := ls.findSome? fun l => l.a.tok

/-- A reduction of clean lanes; a poisoned lane poisons it (R247, R249). -/
def ofLanes (ls : List LaneIn) (v : Nat) : Opd := match firstBad ls with | some t => .bad t | none => .ok v

/-- `vote` (R247). -/
def execVote (x : LOp) (s : State) : Ans :=
  s.laneUni x (formOf (.vote x)) fun _ base ls => ofLanes ls
    (match x.fn.toNat with
     | 0 => b2n (ls.all fun l => l.a.val != 0)
     | 1 => b2n (ls.any fun l => l.a.val != 0)
     | 2 => maskOf ((ls.filter fun l => l.a.val != 0).map fun l => l.lane - base)
     | _ => b2n (ls.all fun l => some l.a.val == ls.head?.map fun k => k.a.val))

/-- `match` (R248). -/
def execMatchl (x : LOp) (s : State) : Ans :=
  s.laneGroup x (formOf (.matchl x)) fun _ base ls => ls.map fun l =>
    (l.lane, match l.a.tok with
      | some t => .bad t
      | none => .ok (maskOf ((ls.filter fun k => k.a.tok.isNone && k.a.val == l.a.val).map fun k => k.lane - base)))

/-! ## Reductions and scans (R249, R250) -/

/-- A lane's value with ABS and NEG: exact for integers, a code for `f32`. -/
def redValue (t : Ty) (m : Mods) (v : Nat) : Int :=
  if t == .f32 then (Num.encode Num.f32 (Num.applyNa m 0 (Num.decode Num.f32 v)) : Nat) else Num.applyNaInt m 0 (Num.intVal t v)

/-- Two values combined by function FN mod 8 (R249). -/
def redOp (t : Ty) (fn : Nat) (a b : Int) : Int :=
  let w := t.width
  match fn % 8 with
  | 0 => if t == .f32 then (addElem .f32 a.toNat b.toNat : Nat) else a + b
  | 1 => if t == .f32 then (minMaxElem false .f32 a.toNat b.toNat : Nat) else min a b
  | 2 => if t == .f32 then (minMaxElem true .f32 a.toNat b.toNat : Nat) else max a b
  | 3 => (wrapInt a w &&& wrapInt b w : Nat)
  | 4 => (wrapInt a w ||| wrapInt b w : Nat)
  | _ => (wrapInt a w ^^^ wrapInt b w : Nat)

/-- The identity: the result with no active lane (R249). -/
def redUnit (t : Ty) (fn : Nat) : Int :=
  match fn % 8 with
  | 0 => 0
  | 1 => if t == .f32 then 0x7F800000 else Num.intMax t
  | 2 => if t == .f32 then 0xFF800000 else Num.intMin t
  | 3 => (2 ^ t.width - 1 : Nat)
  | _ => 0

/-- Values combined in ascending lane number. -/
def redFold (t : Ty) (fn : Nat) : List Int → Int
  | [] => redUnit t fn
  | v :: vs => vs.foldl (redOp t fn) v

/-- One level of the tree of R187: neighbours at distance `step`. -/
def treeLevel (step : Nat) (vs : List (Option Nat)) : List (Option Nat) :=
  vs.zipIdx.map fun e =>
    if e.2 % (2 * step) == 0 then
      match e.1, (vs[e.2 + step]?).join with
      | some a, some b => some (addElem .f32 a b)
      | some a, none => some a
      | none, b => b
    else e.1

/-- The fixed pairwise tree over lane numbers of R187. -/
def treeSum (vs : List (Option Nat)) : Nat :=
  (([1, 2, 4, 8, 16, 32].foldl (fun vs k => if k < vs.length then treeLevel k vs else vs) vs).head?.join).getD 0

/-- A reduced value as a uniform: `i32` sign-extended (R249). -/
def redWord (t : Ty) (v : Int) : Nat := wrapInt (if t == .i32 then sextInt (wrapInt v 32) 32 else (wrapInt v t.width : Nat)) 64

/-- `gred` (R249). -/
def execGred (x : LOp) (s : State) : Ans :=
  s.laneUni x (formOf (.gred x)) fun g base ls => ofLanes ls
    (let val (l : LaneIn) : Int := redValue x.ty (modsOf x) l.a.val
     if x.ty == .f32 && x.fn == 0 then
       treeSum ((List.range g.laneW).map fun i => (ls.find? fun l => l.lane == base + i).map fun l => (val l).toNat)
     else redWord x.ty (redFold x.ty x.fn.toNat (ls.map val)))

/-- The lanes that lane `i` of a scan combines (R250). -/
def scanned (fn i : Nat) (ls : List LaneIn) : List LaneIn := ls.filter fun l => if fn < 8 then decide (l.lane ≤ i) else decide (l.lane < i)

/-- `scan` (R250). -/
def execScan (x : LOp) (s : State) : Ans :=
  s.laneGroup x (formOf (.scan x)) fun _ _ ls => ls.map fun l =>
    let part := scanned x.fn.toNat l.lane ls
    (l.lane, ofLanes part (wrapInt (redFold x.ty x.fn.toNat (part.map fun k => redValue x.ty (modsOf x) k.a.val)) x.ty.width))

/-! ## Locating (R251) -/

/-- `first` (R251). -/
def execFirst (x : LOp) (s : State) : Ans :=
  s.laneGroup x (formOf (.first x)) fun g base ls =>
    let hit := ls.filter fun l => l.a.val != 0
    let low := (hit.head?.map fun l => l.lane - base).getD g.laneW
    ls.map fun l => (l.lane, ofLanes ls
      (match x.fn.toNat with
       | 0 => b2n (l.lane - base == low)
       | 1 => low
       | _ => (hit.filter fun k => decide (k.lane < l.lane)).length))

end Sys2Proof.Machine
end

