-- ==== Sys2Proof/Machine/Fn.lean ====
section
/-! DEFINITION. The approximate functions (R288, R289). The special values are exact. Elsewhere the result is the code
that `Config.funcCode` names where R288's bound admits it, else the nearest value: every result the bound admits, and a
fixed map of the operand (log 3). The real value itself is computed to more than 90 bits. -/

namespace Sys2Proof.Machine.Num

/-- The functions with a bound. -/
inductive Func where
  | rsq | exp2 | log2 | sin | cos | tanh
  deriving DecidableEq, Repr

/-- Number of a function, the first argument of `Config.funcCode`. -/
def Func.code : Func → Nat
  | .rsq => 0 | .exp2 => 1 | .log2 => 2 | .sin => 3 | .cos => 4 | .tanh => 5

/-- A function's value: exact, or close to the real one. -/
inductive FRes where
  | exact (v : FVal)
  | near (v : FVal)
  deriving DecidableEq, Repr

/-- π × 2^420. -/
def piFixed : Nat :=
  8506444083868174897761245044461686771323923700309573190120836733458428361833437461212585903707197869053776263619362240579410812

/-- ln 2 × 2^256. -/
def ln2Fixed : Nat := 80260960185991308862233904206310070533990667611589946606122867505419956976171

/-- `⌊v × 2^p⌋` of the magnitude of a finite value. -/
def fixed (p : Nat) : FVal → Nat
  | .fin _ m e => let k := e + p; if 0 ≤ k then m <<< k.toNat else m >>> (-k).toNat
  | _ => 0

/-- Sum of r^k / k! from term number `k` on, in units of 2^-256. -/
def expSeries (r : Nat) : Nat → Nat → Nat → Nat → Nat
  | 0, _, _, acc => acc
  | n + 1, k, term, acc => let t := term * r / 2 ^ 256 / (k + 1); expSeries r n (k + 1) t (acc + t)

/-- e^r for 0 ≤ r < ln 2, in units of 2^-256. -/
def expFixed (r : Nat) : Nat := expSeries r 64 0 (2 ^ 256) (2 ^ 256)

/-- Alternating series of sine (`k` = 1) and cosine (`k` = 0) at s, in units of 2^-420. -/
def trigSeries (s2 : Nat) : Nat → Nat → Int → Int → Int
  | 0, _, _, acc => acc
  | n + 1, k, term, acc =>
    let t := -(term * s2 / (2 ^ 420 : Nat) / ((k + 1) * (k + 2) : Nat))
    trigSeries s2 n (k + 2) t (acc + t)

def sinFixed (s : Nat) : Int := trigSeries (s * s / 2 ^ 420) 60 1 s s
def cosFixed (s : Nat) : Int := trigSeries (s * s / 2 ^ 420) 60 0 (2 ^ 420 : Nat) (2 ^ 420 : Nat)

/-- Twice the series of z + z^3/3 + z^5/5 + ..., the logarithm of (1 + z)/(1 - z), in units of 2^-256. -/
def atanhSeries (z2 : Nat) : Nat → Nat → Nat → Nat → Nat
  | 0, _, _, acc => 2 * acc
  | n + 1, k, pw, acc => atanhSeries z2 n (k + 2) (pw * z2 / 2 ^ 256) (acc + pw / k)

/-- An integer in units of 2^-p. -/
def ofFixed (p : Nat) (i : Int) : FVal := .fin (i < 0) i.natAbs (-(p : Int))

/-- 2^x. Beyond 4,096 either way every result overflows, or underflows to +0, whatever the exponent (R182, R288). -/
def exp2Real (x : FVal) : FRes :=
  match x with
  | .nan => .exact .nan
  | .inf n => .exact (if n then .fin false 0 0 else .inf false)
  | .fin neg m e =>
    if m == 0 then .exact (.fin false 1 0)
    else if 4096 ≤ fixed 0 x then
      let whole := decide (0 ≤ e) || m % 2 ^ (-e).toNat == 0
      (if !neg then .exact (.fin false 1 4096) else if whole then .exact (.fin false 1 (-4096)) else .near (.fin false 1 (-4096)))
    else
      let k := max 0 (-e)
      let i := toInt neg m e (-k)
      let n := i / (2 ^ k.toNat : Nat)
      let f := i % (2 ^ k.toNat : Nat)
      if f == 0 then .exact (.fin false 1 n)
      else
        let r := f.toNat * ln2Fixed / 2 ^ k.toNat
        .near (.fin false (expFixed r) (n - 256))

/-- log₂ x. -/
def log2Real (x : FVal) : FRes :=
  match x with
  | .nan => .exact .nan
  | .inf n => .exact (if n then .nan else .inf false)
  | .fin neg m e =>
    if m == 0 then .exact (.inf true)
    else if neg then .exact .nan
    else
      let l := Nat.log2 m
      if m == 1 <<< l then .exact (ofInt (l + e))
      else
        let z := (m - 1 <<< l) <<< 256 / (m + 1 <<< l)
        let ln := atanhSeries (z * z / 2 ^ 256) 90 1 z 0
        .near (ofFixed 256 ((l + e) * (2 ^ 256 : Nat) + (ln * 2 ^ 256 / ln2Fixed : Nat)))

/-- sin x, or cos x. -/
def trigReal (isCos : Bool) (x : FVal) : FRes :=
  match x with
  | .nan => .exact .nan
  | .inf _ => .exact .nan
  | .fin neg m _ =>
    if m == 0 then .exact (if isCos then .fin false 1 0 else x)
    else
      let r := fixed 420 x % (2 * piFixed)
      let h := piFixed / 2
      let k := r / h + (if isCos then 1 else 0)
      let s := r % h
      let v := match k % 4 with
        | 0 => sinFixed s
        | 1 => cosFixed s
        | 2 => -(sinFixed s)
        | _ => -(cosFixed s)
      .near (ofFixed 420 (if neg && !isCos then -v else v))

/-- tanh x. -/
def tanhReal (x : FVal) : FRes :=
  match x with
  | .nan => .exact .nan
  | .inf n => .exact (.fin n 1 0)
  | .fin neg m _ =>
    if m == 0 then .exact x
    else
      let v := if 64 ≤ fixed 0 x then .fin false (2 ^ 180 - 1) (-180)
        else
          let t := 2 * fixed 256 x
          let g := expFixed (t % ln2Fixed) <<< (t / ln2Fixed)
          div (.fin false (g - 2 ^ 256) 0) (.fin false (g + 2 ^ 256) 0)
      .near (if neg then Num.neg v else v)

/-- 1/√x. -/
def rsqReal (x : FVal) : FRes :=
  match x with
  | .nan => .exact .nan
  | .inf n => .exact (if n then .nan else .fin false 0 0)
  | .fin neg m _ =>
    if m == 0 then .exact (.inf neg)
    else if neg then .exact .nan
    else .near (div (.fin false 1 0) (sqrt x))

def realOf (g : Func) (x : FVal) : FRes :=
  match g with
  | .rsq => rsqReal x
  | .exp2 => exp2Real x
  | .log2 => log2Real x
  | .sin => trigReal false x
  | .cos => trigReal true x
  | .tanh => tanhReal x

/-- |a - b| ≤ k × 2^q of finite values. -/
def within (a b : FVal) (k : Nat) (q : Int) : Bool :=
  match sub .rne a b with
  | .fin _ m e => !magGt m e k q
  | _ => false

/-- -1 ≤ v ≤ 1. -/
def unitRange (v : FVal) : Bool := !lt (one false) (abs v)

/-- The bound of R288 on a result `v` where the real value is `y` and the operand `x`. -/
def admits (f : Fmt) (g : Func) (x y v : FVal) : Bool :=
  let ulp := match y with | .fin _ m e => if m == 0 then emin f - f.fb else lastPlace f (exponent m e) | _ => 0
  let single := f == f32
  let big := match x with | .fin _ m e => magGt m e 1 20 | _ => false
  match v with
  | .fin _ _ _ =>
    match g with
    | .rsq => within v y 1 ulp
    | .exp2 => within v y (if single then 2 else 1) ulp
    | .log2 =>
      if single && !lt x (.fin false 3 (-2)) && !lt (.fin false 3 (-1)) x then within v y 1 (-23)
      else within v y (if single then 2 else 1) ulp
    | .sin | .cos =>
      unitRange v && (if big then (if single then within v y 1 (-20) else true) else within v y (if single then 2 else 1) ulp)
    | .tanh => unitRange v && within v y (if single then 2 else 1) ulp
  | _ => false

/-- Result code of an approximate function on operand code `c` of float type `t` (R288): the function, then SAT. -/
def funcCode (g : Func) (t : Ty) (m : Mods) (c : Nat) : Nat :=
  let f := fmtOf t
  let x := applyNa m 0 (decode f c)
  match realOf g x with
  | .exact v => encode f (saturate f m.sat v (roundTo f .rne v))
  | .near y =>
    let r := roundTo f .rne y
    let a := Config.funcCode g.code t.code (encode f x) % 2 ^ fmtBits f
    let v := if !isInf r && admits f g x y (decode f a) then decode f a else r
    encode f (saturate f m.sat y v)

end Sys2Proof.Machine.Num
end

