-- ==== Sys2Proof/Machine/LaneFp.lean ====
section
/-! DEFINITION. Lane floating point, conversion and block quantisation (R281 to R298). -/

namespace Sys2Proof.Machine

/-! ## Arithmetic (R284) -/

/-- Exact arithmetic on float elements, one rounding, SAT (R181, R284). -/
def fpArith (t : Ty) (m : Mods) (f : FVal → FVal → FVal → FVal) : Nat → Nat → Nat → Nat :=
  let F := Num.fmtOf t
  elems3 t fun a b c => Num.encode F (Num.finish F m
    (f (Num.applyNa m 0 (Num.decode F a)) (Num.applyNa m 1 (Num.decode F b)) (Num.applyNa m 2 (Num.decode F c))))

/-- A float instruction computing `f`, which may depend on the rounding mode, on each element. -/
def State.laneFp (s : State) (x : LOp) (F : Form) (f : Rm → FVal → FVal → FVal → FVal) : Ans :=
  s.laneMap x F (fpArith x.ty (modsOf x) (f (modsOf x).rm))

/-- `fadd` (R284). -/
def execFadd (x : LOp) (s : State) : Ans := s.laneFp x (formOf (.fadd x)) fun rm a b _ => Num.add rm a b

/-- `fsub` (R284). -/
def execFsub (x : LOp) (s : State) : Ans := s.laneFp x (formOf (.fsub x)) fun rm a b _ => Num.sub rm a b

/-- `fmul` (R284). -/
def execFmul (x : LOp) (s : State) : Ans := s.laneFp x (formOf (.fmul x)) fun _ a b _ => Num.mul a b

/-- `fmadd` (R284): rounded once. -/
def execFmadd (x : LOp) (s : State) : Ans := s.laneFp x (formOf (.fmadd x)) fun rm a b c => Num.add rm (Num.mul a b) c

/-- `fdiv` (R284). -/
def execFdiv (x : LOp) (s : State) : Ans := s.laneFp x (formOf (.fdiv x)) fun _ a b _ => Num.div a b

/-! ## Selection and comparison (R285, R286) -/

/-- A minimum or maximum that gives NaN where an operand is NaN (R285). -/
def nanFirst (f : FVal → FVal → FVal) (a b : FVal) : FVal := if Num.isNan a || Num.isNan b then .nan else f a b

/-- `fmin` (R285). -/
def execFmin (x : LOp) (s : State) : Ans := s.laneFp x (formOf (.fmin x)) fun _ a b _ => Num.minNum a b

/-- `fmax` (R285). -/
def execFmax (x : LOp) (s : State) : Ans := s.laneFp x (formOf (.fmax x)) fun _ a b _ => Num.maxNum a b

/-- `fminn` (R285). -/
def execFminn (x : LOp) (s : State) : Ans := s.laneFp x (formOf (.fminn x)) fun _ a b _ => nanFirst Num.minNum a b

/-- `fmaxn` (R285). -/
def execFmaxn (x : LOp) (s : State) : Ans := s.laneFp x (formOf (.fmaxn x)) fun _ a b _ => nanFirst Num.maxNum a b

/-- The conditions of `FSET` (R286). -/
def fpCond (fn : Nat) (a b : FVal) : Bool :=
  let n := Num.isNan a || Num.isNan b
  match fn with
  | 0 => Num.eq a b
  | 1 => n || !Num.eq a b
  | 2 => !n && Num.below a b
  | 3 => !n && (Num.below a b || Num.eq a b)
  | 4 => !n && Num.below b a
  | 5 => !n && (Num.below b a || Num.eq a b)
  | 6 => n
  | _ => !n

/-- `fset` (R286). -/
def execFset (x : LOp) (s : State) : Ans :=
  s.laneMap x (formOf (.fset x)) fun a b _ =>
    b2n (fpCond x.fn.toNat (Num.applyNa (modsOf x) 0 (Num.decode Num.f32 a)) (Num.applyNa (modsOf x) 1 (Num.decode Num.f32 b)))

/-- Class bit of an element code (R287). -/
def fpClass (t : Ty) (c : Nat) : Nat :=
  let F := Num.fmtOf t
  let sub (m : Nat) : Bool := decide (m < 2 ^ F.fb)
  match Num.decode F c with
  | .inf n => if n then 0 else 7
  | .nan => if bit c (F.fb - 1) then 9 else 8
  | .fin n m _ => if m == 0 then (if n then 3 else 4) else if sub m then (if n then 2 else 5) else if n then 1 else 6

/-- `fclass` (R287). -/
def execFclass (x : LOp) (s : State) : Ans :=
  s.laneMap x (formOf (.fclass x)) fun a _ _ =>
    sumNat ((List.range x.ty.count).map fun e => 2 ^ (fpClass x.ty (Num.elem x.ty a e) + 16 * e))

/-! ## Functions (R288, R289) -/

/-- A function with a bound, element by element. -/
def State.laneFunc (s : State) (x : LOp) (F : Form) (g : Num.Func) : Ans :=
  s.laneMap x F (elems3 x.ty fun a _ _ => Num.funcCode g x.ty (modsOf x) a)

/-- `frcp`: correctly rounded (R288). -/
def execFrcp (x : LOp) (s : State) : Ans := s.laneFp x (formOf (.frcp x)) fun _ a _ _ => Num.div (Num.one false) a

/-- `fsqrt`: correctly rounded (R288). -/
def execFsqrt (x : LOp) (s : State) : Ans := s.laneFp x (formOf (.fsqrt x)) fun _ a _ _ => Num.sqrt a

/-- `frsq`. -/
def execFrsq (x : LOp) (s : State) : Ans := s.laneFunc x (formOf (.frsq x)) .rsq

/-- `fexp2`. -/
def execFexp2 (x : LOp) (s : State) : Ans := s.laneFunc x (formOf (.fexp2 x)) .exp2

/-- `flog2`. -/
def execFlog2 (x : LOp) (s : State) : Ans := s.laneFunc x (formOf (.flog2 x)) .log2

/-- `fsin`. -/
def execFsin (x : LOp) (s : State) : Ans := s.laneFunc x (formOf (.fsin x)) .sin

/-- `fcos`. -/
def execFcos (x : LOp) (s : State) : Ans := s.laneFunc x (formOf (.fcos x)) .cos

/-- `ftanh`. -/
def execFtanh (x : LOp) (s : State) : Ans := s.laneFunc x (formOf (.ftanh x)) .tanh

/-! ## Conversion (R290 to R295) -/

/-- Replace element `e` of an operand of type `t`. -/
def setElem (t : Ty) (v e c : Nat) : Nat := v - Num.elem t v e <<< (e * t.bits) + (c % 2 ^ t.bits) <<< (e * t.bits)

/-- `CVT` outside the block form (R291). -/
def cvtWord (x : LOp) (v old : Nat) : Nat :=
  (List.range x.cvtN).foldl (fun r j => setElem x.ty r (x.dq + j) (Num.convert x.ty x.src (modsOf x) 0 (Num.elem x.src v (x.sq + j)))) old

/-- The real value a lane gives to the block quantiser, with NEG, ABS and SCALE (R293, R296). -/
def quantIn (m : Mods) (v : Nat) : FVal := Num.scale (Num.applyNa m 0 (Num.decode Num.f32 v)) m.scale.toInt

/-- The quantised block of the lanes `base` to `base + 31`; an inactive lane supplies +0 (R293). -/
def quantBlock (t : Ty) (m : Mods) (ls : List LaneIn) (base : Nat) : Num.QBlock :=
  Num.quantise t ((List.range 32).map fun i => match ls.find? fun l => l.lane == base + i with
    | some l => quantIn m l.a.val
    | none => .fin false 0 0)

/-- Lanes of the block of 32 that holds lane `i`. -/
def blockOf (i : Nat) (ls : List LaneIn) : List LaneIn := ls.filter fun l => l.lane / 32 == i / 32

/-- The block quantiser across lanes: `f` makes a lane's result of the block, its own number in the block and its operands. -/
def State.laneQuant (s : State) (x : LOp) (F : Form) (f : Num.QBlock → Nat → LaneIn → Opd) : Ans :=
  s.laneGroup x F fun _ _ ls => ls.map fun l =>
    let b := blockOf l.lane ls
    (l.lane, match firstPoisonA b with
      | some t => .bad t
      | none => f (quantBlock x.ty (modsOf x) b (l.lane / 32 * 32)) (l.lane % 32) l)
where
  /-- Token of the lowest lane whose S0 is poisoned. -/
  firstPoisonA (b : List LaneIn) : Option (BitVec 32) := b.findSome? fun l => l.a.tok

/-- `cvt` (R290 to R293). -/
def execCvt (x : LOp) (s : State) : Ans :=
  if x.blk then
    s.laneQuant x (formOf (.cvt x)) fun q i l =>
      match l.b.tok with
      | some t => .bad t
      | none => .ok (setElem x.ty l.b.val x.dq (q.codes.getD i 0))
  else s.laneMap x (formOf (.cvt x)) fun a b _ => cvtWord x a b

/-- `pack` (R294). -/
def execPack (x : LOp) (s : State) : Ans :=
  s.laneMap x (formOf (.pack x)) fun a b _ =>
    let n := x.src.count
    let cv (k v : Nat) : List Nat := (List.range n).map fun j => Num.convert x.ty x.src (modsOf x) k (Num.elem x.src v j)
    Num.packElems x.ty (cv 0 a ++ cv 1 b)

/-- `unpack` (R295). -/
def execUnpack (x : LOp) (s : State) : Ans :=
  s.laneMap x (formOf (.unpack x)) fun a _ _ =>
    let n := x.ty.count
    let h := if x.imm.getLsbD 0 then n else 0
    Num.packElems x.ty ((List.range n).map fun j => Num.convert x.ty x.src (modsOf x) 0 (Num.elem x.src a (h + j)))

/-! ## Block quantisation (R296, R297) -/

/-- `qblk` (R296). -/
def execQblk (x : LOp) (s : State) : Ans :=
  s.laneQuant x (formOf (.qblk x)) fun q i _ =>
    .ok (q.codes.getD i 0 + q.s <<< 8 + q.xv <<< 16 + b2n (q.outlier == some i) <<< 24)

/-- `dqblk` (R297). -/
def execDqblk (x : LOp) (s : State) : Ans :=
  s.laneMap x (formOf (.dqblk x)) fun a b _ =>
    Num.encode Num.f32 (Num.finish Num.f32 (modsOf x) (Num.decodeMx x.src (Num.elem x.src a x.sq) (bits b 8 8) (bits b 16 8)))

end Sys2Proof.Machine
end

