-- ==== Sys2Proof/Machine/LaneMask.lean ====
section
/-! DEFINITION. Masks and reconvergence (R134, R252 to R256). -/

namespace Sys2Proof.Machine

/-- Lanes that exist for the lane stream. -/
def Group.fullMask (g : Group) : BitVec 64 := BitVec.ofNat 64 (2 ^ g.laneW - 1)

/-- The condition mask of predicate `n`, inverted where INV is set. A lane left out under DROP has condition 0 (R256). -/
def Group.condMask (g : Group) (n : Nat) (inv : Bool) : BitVec 64 :=
  let b := (g.regs.pred n).bits
  (if inv then ~~~b else b) &&& g.fullMask &&& ~~~g.skipped

/-- Lanes of E whose condition bit is poisoned (R256). -/
def Group.condPoison (g : Group) (n : Nat) : BitVec 64 := g.regs.exm &&& (g.regs.pred n).pois &&& ~~~g.skipped

/-- The condition bits of a lane and of its shadow differ (R233, R345). -/
def Group.condDiffers (g : Group) (n : Nat) : Bool :=
  g.shadow &&
    (let p := g.regs.pred n
     let lo (v : BitVec 64) : BitVec 64 := v &&& 0xFFFFFFFF#64
     let clean := ~~~(lo p.pois)
     lo p.pois != p.pois >>> 32 || lo p.bits &&& clean != (p.bits >>> 32) &&& clean)

/-- A condition of predicate `n` decides: a shadow mismatch first, then live poison, then `f` on the mask. -/
def State.masking (s : State) (n : Nat) (inv : Bool) (f : BitVec 64 → Ans) : Ans :=
  let g := s.cur
  let bad := g.condPoison n
  if g.condDiffers n then .next (s.mismatch g.lpc)
  else if bad != 0 then .next (s.laneStop (g.livesOf bad (g.regs.pred n).token) bad)
  else f (g.condMask n inv)

/-- A mask instruction enters its opcode, acts, enters the new depth and a failed check (R341). -/
def State.maskDone (s : State) (x : LOp) (op : Nat) (act : Regs → Regs × Bool) : Ans :=
  let (r, ok) := act s.cur.regs
  ((((s.enterCode op).onRegs fun q => { q with exm := r.exm, mask := r.mask }).enterDepth op).enterCheck op ok).laneDone x

/-- The mask stack with its top entry changed. -/
def onTop (f : MaskEntry → MaskEntry) (m : List MaskEntry) : List MaskEntry := m.modify (m.length - 1) f

/-- INV and k of a mask instruction (R252). -/
def maskInv (x : LOp) : Bool := x.imm.getLsbD 0
def maskK (x : LOp) : Nat := bits x.imm.toNat 8 5

/-- Push of `MIF` (R253). -/
def Regs.mif (r : Regs) (all : Bool) (cond : BitVec 64) : Regs × Bool :=
  let e := r.exm
  let c := if all then e else e &&& cond
  ({ r with mask := r.mask ++ [⟨e, e &&& ~~~c⟩], exm := c }, c &&& (e &&& ~~~c) == 0 && c ||| (e &&& ~~~c) == e)

/-- `mif`. -/
def execMif (x : LOp) (s : State) : Ans :=
  if 32 ≤ s.cur.regs.mask.length then .next (s.illegal tsIllegal s.cur.lpc true)
  else if x.imm.getLsbD 1 then s.maskDone x 0x060 fun r => r.mif true 0
  else s.masking x.fn.toNat (maskInv x) fun c => s.maskDone x 0x060 fun r => r.mif false c

/-- Swap of `MELSE` (R253). -/
def Regs.melse (r : Regs) : Regs × Bool :=
  let t := (r.mask.getLast?.map MaskEntry.pending).getD 0
  ({ r with mask := onTop (fun e => { e with pending := r.exm }) r.mask, exm := t }, t &&& r.exm == 0)

/-- `melse`. -/
def execMelse (x : LOp) (s : State) : Ans :=
  if s.cur.regs.mask.isEmpty then .next (s.illegal tsIllegal s.cur.lpc true) else s.maskDone x 0x061 Regs.melse

/-- Pop of `MEND` (R253). -/
def Regs.mend (r : Regs) : Regs × Bool :=
  match r.mask.getLast? with
  | some t => ({ r with exm := t.saved, mask := r.mask.dropLast }, r.exm ||| t.pending == t.saved)
  | none => (r, true)

/-- `mend`. -/
def execMend (x : LOp) (s : State) : Ans :=
  if s.cur.regs.mask.isEmpty then .next (s.illegal tsIllegal s.cur.lpc true) else s.maskDone x 0x062 Regs.mend

/-- The entry `k` levels below the top. -/
def Regs.entryAt (r : Regs) (k : Nat) : MaskEntry := (r.mask[r.mask.length - 1 - k]?).getD ⟨0, 0⟩

/-- `mget` (R255): it acts whatever E holds, and writes a uniform under R232. Lanes at or above W read as zero. -/
def execMget (x : LOp) (s : State) : Ans :=
  let r := s.cur.regs
  if x.fn != 0 && decide (r.mask.length ≤ maskK x) then .next (s.illegal tsIllegal s.cur.lpc true)
  else
    let v := match x.fn.toNat with | 0 => r.exm | 1 => (r.entryAt (maskK x)).saved | _ => (r.entryAt (maskK x)).pending
    ((s.enterCode 0x063).writeU x (.ok (v &&& s.cur.fullMask).toNat)).laneDone x

/-- `mput` (R255). Under DROP a poisoned source writes nothing (R256). -/
def execMput (x : LOp) (s : State) : Ans :=
  let g := s.cur
  let w := match x.s0 with | .unif n => g.regs.captured n | _ => ⟨0, false⟩
  if x.fn != 0 && g.regs.mask.isEmpty then .next (s.illegal tsIllegal g.lpc true)
  else if g.skipped != 0 then (s.enterCode 0x064).laneDone x
  else if w.poison then .next (s.laneStop [carried .lane none w.token] 0xFFFFFFFFFFFFFFFF#64)
  else
    let v := w.val &&& g.fullMask
    ((s.enterCode 0x064).onRegs fun r =>
      if x.fn == 0 then { r with exm := v } else { r with mask := onTop (fun e => { e with pending := v }) r.mask }).laneDone x

/-- The lanes `b` leave for the entry `k` levels below the top (R254). -/
def Regs.mbrk (r : Regs) (k : Nat) (cond : BitVec 64) : Regs × Bool :=
  let b := r.exm &&& cond
  let tgt := r.mask.length - 1 - k
  let m := r.mask.zipIdx.map fun e =>
    if tgt < e.2 then { e.1 with saved := e.1.saved &&& ~~~b }
    else if e.2 == tgt then { e.1 with pending := e.1.pending ||| b } else e.1
  ({ r with exm := r.exm &&& ~~~b, mask := m }, ((m[tgt]?).map MaskEntry.pending).getD 0 &&& (r.exm &&& ~~~b) == 0)

/-- `mbrk`. -/
def execMbrk (x : LOp) (s : State) : Ans :=
  if s.cur.regs.mask.length ≤ maskK x then .next (s.illegal tsIllegal s.cur.lpc true)
  else s.masking x.fn.toNat (maskInv x) fun c => s.maskDone x 0x065 fun r => r.mbrk (maskK x) c

end Sys2Proof.Machine
end

