-- ==== Sys2Proof/Machine/Uniform.lean ====
section
/-! DEFINITION. Uniform arithmetic (R190, R200 to R202). -/

namespace Sys2Proof.Machine

/-- Bits [5:0] of a shift count (R200). -/
def shiftOf (y : BitVec 64) : Nat := y.toNat % 64

/-- 1 for true. -/
def flagWord (b : Bool) : BitVec 64 := if b then 1 else 0

/-- A result from value operands: the token of the first poisoned one, else the value (R190). -/
def valueOf (es : List UElem) (v : BitVec 64) : UElem :=
  match es.find? UElem.poison with
  | some e => tokElem e.token
  | none => ⟨v, false⟩

/-- `op wD, wA, wB` on 64 bits. -/
def State.wal2 (s : State) (d a b : BitVec 6) (f : BitVec 64 → BitVec 64 → BitVec 64) : Ans :=
  s.interlock [d, a, b] (s.setW d (valueOf [s.wreg a, s.wreg b] (f (s.wreg a).val (s.wreg b).val))).done

/-- `op wD, wA, #imm` on 64 bits. -/
def State.wal1 (s : State) (d a : BitVec 6) (f : BitVec 64 → BitVec 64) : Ans :=
  s.interlock [d, a] (s.setW d (valueOf [s.wreg a] (f (s.wreg a).val))).done

/-- R200 fn 0. -/
def wAddw (x y : BitVec 64) : BitVec 64 := x + y

/-- R200 fn 1. -/
def wSubw (x y : BitVec 64) : BitVec 64 := x - y

/-- R200 fn 2. -/
def wAndw (x y : BitVec 64) : BitVec 64 := x &&& y

/-- R200 fn 3. -/
def wOrw (x y : BitVec 64) : BitVec 64 := x ||| y

/-- R200 fn 4. -/
def wXorw (x y : BitVec 64) : BitVec 64 := x ^^^ y

/-- R200 fn 5. -/
def wShlw (x y : BitVec 64) : BitVec 64 := x <<< shiftOf y

/-- R200 fn 6. -/
def wShrw (x y : BitVec 64) : BitVec 64 := x >>> shiftOf y

/-- R200 fn 7. -/
def wSarw (x y : BitVec 64) : BitVec 64 := x.sshiftRight (shiftOf y)

/-- R200 fn 8. -/
def wMinw (x y : BitVec 64) : BitVec 64 := if x.slt y then x else y

/-- R200 fn 9. -/
def wMaxw (x y : BitVec 64) : BitVec 64 := if x.slt y then y else x

/-- R200 fn 10. -/
def wMinuw (x y : BitVec 64) : BitVec 64 := if x.ult y then x else y

/-- R200 fn 11. -/
def wMaxuw (x y : BitVec 64) : BitVec 64 := if x.ult y then y else x

/-- R200 fn 12. -/
def wMulw (x y : BitVec 64) : BitVec 64 := x * y

/-- R200 fn 13. -/
def wMulhw (x y : BitVec 64) : BitVec 64 := (x.signExtend 128 * y.signExtend 128).extractLsb' 64 64

/-- R200 fn 14. -/
def wMulhuw (x y : BitVec 64) : BitVec 64 := (x.setWidth 128 * y.setWidth 128).extractLsb' 64 64

/-- R200 fn 15. -/
def wSltw (x y : BitVec 64) : BitVec 64 := flagWord (x.slt y)

/-- R200 fn 16. -/
def wSltuw (x y : BitVec 64) : BitVec 64 := flagWord (x.ult y)

/-- R200 fn 17. -/
def wSeqw (x y : BitVec 64) : BitVec 64 := flagWord (x == y)

/-- `addw` (R200). -/
def execAddw (d a b : BitVec 6) (s : State) : Ans := s.wal2 d a b wAddw

/-- `subw` (R200). -/
def execSubw (d a b : BitVec 6) (s : State) : Ans := s.wal2 d a b wSubw

/-- `andw` (R200). -/
def execAndw (d a b : BitVec 6) (s : State) : Ans := s.wal2 d a b wAndw

/-- `orw` (R200). -/
def execOrw (d a b : BitVec 6) (s : State) : Ans := s.wal2 d a b wOrw

/-- `xorw` (R200). -/
def execXorw (d a b : BitVec 6) (s : State) : Ans := s.wal2 d a b wXorw

/-- `shlw` (R200). -/
def execShlw (d a b : BitVec 6) (s : State) : Ans := s.wal2 d a b wShlw

/-- `shrw` (R200). -/
def execShrw (d a b : BitVec 6) (s : State) : Ans := s.wal2 d a b wShrw

/-- `sarw` (R200). -/
def execSarw (d a b : BitVec 6) (s : State) : Ans := s.wal2 d a b wSarw

/-- `minw` (R200). -/
def execMinw (d a b : BitVec 6) (s : State) : Ans := s.wal2 d a b wMinw

/-- `maxw` (R200). -/
def execMaxw (d a b : BitVec 6) (s : State) : Ans := s.wal2 d a b wMaxw

/-- `minuw` (R200). -/
def execMinuw (d a b : BitVec 6) (s : State) : Ans := s.wal2 d a b wMinuw

/-- `maxuw` (R200). -/
def execMaxuw (d a b : BitVec 6) (s : State) : Ans := s.wal2 d a b wMaxuw

/-- `mulw` (R200). -/
def execMulw (d a b : BitVec 6) (s : State) : Ans := s.wal2 d a b wMulw

/-- `mulhw` (R200). -/
def execMulhw (d a b : BitVec 6) (s : State) : Ans := s.wal2 d a b wMulhw

/-- `mulhuw` (R200). -/
def execMulhuw (d a b : BitVec 6) (s : State) : Ans := s.wal2 d a b wMulhuw

/-- `sltw` (R200). -/
def execSltw (d a b : BitVec 6) (s : State) : Ans := s.wal2 d a b wSltw

/-- `sltuw` (R200). -/
def execSltuw (d a b : BitVec 6) (s : State) : Ans := s.wal2 d a b wSltuw

/-- `seqw` (R200). -/
def execSeqw (d a b : BitVec 6) (s : State) : Ans := s.wal2 d a b wSeqw

/-- `addiw` (R201). -/
def execAddiw (d a : BitVec 6) (i : BitVec 13) (s : State) : Ans := s.wal1 d a fun x => wAddw x (i.signExtend 64)

/-- `andiw` (R201). -/
def execAndiw (d a : BitVec 6) (i : BitVec 13) (s : State) : Ans := s.wal1 d a fun x => wAndw x (i.signExtend 64)

/-- `oriw` (R201). -/
def execOriw (d a : BitVec 6) (i : BitVec 13) (s : State) : Ans := s.wal1 d a fun x => wOrw x (i.signExtend 64)

/-- `xoriw` (R201). -/
def execXoriw (d a : BitVec 6) (i : BitVec 13) (s : State) : Ans := s.wal1 d a fun x => wXorw x (i.signExtend 64)

/-- `sltiw` (R201). -/
def execSltiw (d a : BitVec 6) (i : BitVec 13) (s : State) : Ans := s.wal1 d a fun x => wSltw x (i.signExtend 64)

/-- `shliw` (R201). -/
def execShliw (d a : BitVec 6) (n : BitVec 6) (s : State) : Ans := s.wal1 d a fun x => wShlw x (n.setWidth 64)

/-- `shriw` (R201). -/
def execShriw (d a : BitVec 6) (n : BitVec 6) (s : State) : Ans := s.wal1 d a fun x => wShrw x (n.setWidth 64)

/-- `sariw` (R201). -/
def execSariw (d a : BitVec 6) (n : BitVec 6) (s : State) : Ans := s.wal1 d a fun x => wSarw x (n.setWidth 64)

/-- `liw` (R202). -/
def execLiw (d : BitVec 6) (i : BitVec 19) (s : State) : Ans := s.interlock [d] (s.setVal d (i.signExtend 64)).done

/-- `orsw` (R202). -/
def execOrsw (d : BitVec 6) (i : BitVec 19) (s : State) : Ans :=
  s.interlock [d] (s.setW d (valueOf [s.wreg d] ((s.wreg d).val <<< 19 ||| i.setWidth 64))).done

/-- `leaw` (R202). -/
def execLeaw (d a b : BitVec 6) (n : BitVec 6) (s : State) : Ans := s.wal2 d a b fun x y => x + y <<< n.toNat

/-- `selw` (R190, R202): a poisoned condition ranks first, then a, then b. -/
def execSelw (d a b : BitVec 6) (s : State) : Ans :=
  s.interlock [d, a, b] (s.setW d (valueOf [s.wreg d, s.wreg a, s.wreg b]
    (if (s.wreg d).val != 0 then (s.wreg a).val else (s.wreg b).val))).done

end Sys2Proof.Machine
end

