-- ==== Sys2Proof/Machine/Dispatch.lean ====
section
/-! DEFINITION. The dispatch of one instruction to its meaning, one arm a constructor. -/

namespace Sys2Proof.Machine

/-- What instruction `i` does to the machine with its group current. -/
def exec (i : Instr) (s : State) : Host.Outcome State Fault Refusal :=
  match i with
  | .nop => Sys2Proof.Machine.execNop s
  | .br o => Sys2Proof.Machine.execBr o s
  | .brc c a b o => Sys2Proof.Machine.execBrc c a b o s
  | .brz a o => Sys2Proof.Machine.execBrz a o s
  | .brnz a o => Sys2Proof.Machine.execBrnz a o s
  | .call o => Sys2Proof.Machine.execCall o s
  | .jmpr a => Sys2Proof.Machine.execJmpr a s
  | .callr d a => Sys2Proof.Machine.execCallr d a s
  | .lblk n iv => Sys2Proof.Machine.execLblk n iv s
  | .lblkr a => Sys2Proof.Machine.execLblkr a s
  | .lwait => Sys2Proof.Machine.execLwait s
  | .yield e a o => Sys2Proof.Machine.execYield e a o s
  | .endg => Sys2Proof.Machine.execEndg s
  | .brk k => Sys2Proof.Machine.execBrk k s
  | .sysc k => Sys2Proof.Machine.execSysc k s
  | .addw d a b => Sys2Proof.Machine.execAddw d a b s
  | .subw d a b => Sys2Proof.Machine.execSubw d a b s
  | .andw d a b => Sys2Proof.Machine.execAndw d a b s
  | .orw d a b => Sys2Proof.Machine.execOrw d a b s
  | .xorw d a b => Sys2Proof.Machine.execXorw d a b s
  | .shlw d a b => Sys2Proof.Machine.execShlw d a b s
  | .shrw d a b => Sys2Proof.Machine.execShrw d a b s
  | .sarw d a b => Sys2Proof.Machine.execSarw d a b s
  | .minw d a b => Sys2Proof.Machine.execMinw d a b s
  | .maxw d a b => Sys2Proof.Machine.execMaxw d a b s
  | .minuw d a b => Sys2Proof.Machine.execMinuw d a b s
  | .maxuw d a b => Sys2Proof.Machine.execMaxuw d a b s
  | .mulw d a b => Sys2Proof.Machine.execMulw d a b s
  | .mulhw d a b => Sys2Proof.Machine.execMulhw d a b s
  | .mulhuw d a b => Sys2Proof.Machine.execMulhuw d a b s
  | .sltw d a b => Sys2Proof.Machine.execSltw d a b s
  | .sltuw d a b => Sys2Proof.Machine.execSltuw d a b s
  | .seqw d a b => Sys2Proof.Machine.execSeqw d a b s
  | .addiw d a iv => Sys2Proof.Machine.execAddiw d a iv s
  | .andiw d a iv => Sys2Proof.Machine.execAndiw d a iv s
  | .oriw d a iv => Sys2Proof.Machine.execOriw d a iv s
  | .xoriw d a iv => Sys2Proof.Machine.execXoriw d a iv s
  | .shliw d a n => Sys2Proof.Machine.execShliw d a n s
  | .shriw d a n => Sys2Proof.Machine.execShriw d a n s
  | .sariw d a n => Sys2Proof.Machine.execSariw d a n s
  | .sltiw d a iv => Sys2Proof.Machine.execSltiw d a iv s
  | .liw d iv => Sys2Proof.Machine.execLiw d iv s
  | .orsw d iv => Sys2Proof.Machine.execOrsw d iv s
  | .leaw d a b n => Sys2Proof.Machine.execLeaw d a b n s
  | .selw d a b => Sys2Proof.Machine.execSelw d a b s
  | .ldw d a iv => Sys2Proof.Machine.execLdw d a iv s
  | .stw r a iv => Sys2Proof.Machine.execStw r a iv s
  | .ldws d a iv => Sys2Proof.Machine.execLdws d a iv s
  | .stws r a iv => Sys2Proof.Machine.execStws r a iv s
  | .mfs d r => Sys2Proof.Machine.execMfs d r s
  | .mts a r => Sys2Proof.Machine.execMts a r s
  | .fence sc => Sys2Proof.Machine.execFence sc s
  | .rgn p o => Sys2Proof.Machine.execRgn p o s
  | .cmt a => Sys2Proof.Machine.execCmt a s
  | .arrive d a n => Sys2Proof.Machine.execArrive d a n s
  | .waitb a b => Sys2Proof.Machine.execWaitb a b s
  | .bars a n => Sys2Proof.Machine.execBars a n s
  | .watch a => Sys2Proof.Machine.execWatch a s
  | .launch d a => Sys2Proof.Machine.execLaunch d a s
  | .vclaim n => Sys2Proof.Machine.execVclaim n s
  | .vrel n => Sys2Proof.Machine.execVrel n s
  | .sigchk p => Sys2Proof.Machine.execSigchk p s
  | .efen e d r => Sys2Proof.Machine.execEfen e d r s
  | .ewait e a => Sys2Proof.Machine.execEwait e a s
  | .cwait a b d => Sys2Proof.Machine.execCwait a b d s
  | .cpy store h a b c => Sys2Proof.Machine.execCpy store h a b c s
  | .cpyg store h a b c => Sys2Proof.Machine.execCpyg store h a b c s
  | .cpyx store h a b c => Sys2Proof.Machine.execCpyx store h a b c s
  | .cpyxTt h a b => Sys2Proof.Machine.execCpyxTt h a b s
  | .tld x r t => Sys2Proof.Machine.execTld x r t s
  | .tldP x r p t => Sys2Proof.Machine.execTldP x r p t s
  | .tst x r t => Sys2Proof.Machine.execTst x r t s
  | .tstP x r p t => Sys2Proof.Machine.execTstP x r p t s
  | .mma x y f d => Sys2Proof.Machine.execMma x y f d s
  | .mmas x y f d => Sys2Proof.Machine.execMmas x y f d s
  | .drn k acc d r f z => Sys2Proof.Machine.execDrn k acc d r f z s
  | .azr d => Sys2Proof.Machine.execAzr d s
  | .ald d r => Sys2Proof.Machine.execAld d r s
  | .aldMem d r => Sys2Proof.Machine.execAldMem d r s
  | .nsend a => Sys2Proof.Machine.execNsend a s
  | .nwrite a => Sys2Proof.Machine.execNwrite a s
  | .nread a => Sys2Proof.Machine.execNread a s
  | .npost a => Sys2Proof.Machine.execNpost a s
  | .sropen a d => Sys2Proof.Machine.execSropen a d s
  | .srjoin h v r => Sys2Proof.Machine.execSrjoin h v r s
  | .snap a => Sys2Proof.Machine.execSnap a s
  | .sload a => Sys2Proof.Machine.execSload a s
  | .manif a => Sys2Proof.Machine.execManif a s
  | .shoot a b c => Sys2Proof.Machine.execShoot a b c s
  | .vcdef d v => Sys2Proof.Machine.execVcdef d v s
  | .vcflush d v m => Sys2Proof.Machine.execVcflush d v m s
  | .stset d h r => Sys2Proof.Machine.execStset d h r s
  | .iadd x => Sys2Proof.Machine.execIadd x s
  | .isub x => Sys2Proof.Machine.execIsub x s
  | .imul x => Sys2Proof.Machine.execImul x s
  | .imulh x => Sys2Proof.Machine.execImulh x s
  | .imad x => Sys2Proof.Machine.execImad x s
  | .imin x => Sys2Proof.Machine.execImin x s
  | .imax x => Sys2Proof.Machine.execImax x s
  | .iabs x => Sys2Proof.Machine.execIabs x s
  | .and x => Sys2Proof.Machine.execAnd x s
  | .or x => Sys2Proof.Machine.execOr x s
  | .xor x => Sys2Proof.Machine.execXor x s
  | .lut3 x => Sys2Proof.Machine.execLut3 x s
  | .shl x => Sys2Proof.Machine.execShl x s
  | .shr x => Sys2Proof.Machine.execShr x s
  | .sar x => Sys2Proof.Machine.execSar x s
  | .popc x => Sys2Proof.Machine.execPopc x s
  | .clz x => Sys2Proof.Machine.execClz x s
  | .brev x => Sys2Proof.Machine.execBrev x s
  | .bfe x => Sys2Proof.Machine.execBfe x s
  | .bfi x => Sys2Proof.Machine.execBfi x s
  | .iset x => Sys2Proof.Machine.execIset x s
  | .sel x => Sys2Proof.Machine.execSel x s
  | .mov x => Sys2Proof.Machine.execMov x s
  | .alignb x => Sys2Proof.Machine.execAlignb x s
  | .blut x => Sys2Proof.Machine.execBlut x s
  | .plog x => Sys2Proof.Machine.execPlog x s
  | .movp x => Sys2Proof.Machine.execMovp x s
  | .xchi x => Sys2Proof.Machine.execXchi x s
  | .xchu x => Sys2Proof.Machine.execXchu x s
  | .xchd x => Sys2Proof.Machine.execXchd x s
  | .xchx x => Sys2Proof.Machine.execXchx x s
  | .vote x => Sys2Proof.Machine.execVote x s
  | .matchl x => Sys2Proof.Machine.execMatchl x s
  | .gred x => Sys2Proof.Machine.execGred x s
  | .scan x => Sys2Proof.Machine.execScan x s
  | .first x => Sys2Proof.Machine.execFirst x s
  | .mif x => Sys2Proof.Machine.execMif x s
  | .melse x => Sys2Proof.Machine.execMelse x s
  | .mend x => Sys2Proof.Machine.execMend x s
  | .mget x => Sys2Proof.Machine.execMget x s
  | .mput x => Sys2Proof.Machine.execMput x s
  | .mbrk x => Sys2Proof.Machine.execMbrk x s
  | .sread x => Sys2Proof.Machine.execSread x s
  | .ptst x => Sys2Proof.Machine.execPtst x s
  | .pclr x => Sys2Proof.Machine.execPclr x s
  | .crumb x => Sys2Proof.Machine.execCrumb x s
  | .lsig last p => Sys2Proof.Machine.execLsig last p s
  | .ld x => Sys2Proof.Machine.execLd x s
  | .st x => Sys2Proof.Machine.execSt x s
  | .lds x => Sys2Proof.Machine.execLds x s
  | .sts x => Sys2Proof.Machine.execSts x s
  | .ldsx x => Sys2Proof.Machine.execLdsx x s
  | .ldx x => Sys2Proof.Machine.execLdx x s
  | .stx x => Sys2Proof.Machine.execStx x s
  | .atom x => Sys2Proof.Machine.execAtom x s
  | .red x => Sys2Proof.Machine.execRed x s
  | .atoms x => Sys2Proof.Machine.execAtoms x s
  | .reds x => Sys2Proof.Machine.execReds x s
  | .pref x => Sys2Proof.Machine.execPref x s
  | .fadd x => Sys2Proof.Machine.execFadd x s
  | .fsub x => Sys2Proof.Machine.execFsub x s
  | .fmul x => Sys2Proof.Machine.execFmul x s
  | .fmadd x => Sys2Proof.Machine.execFmadd x s
  | .fmin x => Sys2Proof.Machine.execFmin x s
  | .fmax x => Sys2Proof.Machine.execFmax x s
  | .fminn x => Sys2Proof.Machine.execFminn x s
  | .fmaxn x => Sys2Proof.Machine.execFmaxn x s
  | .fset x => Sys2Proof.Machine.execFset x s
  | .fclass x => Sys2Proof.Machine.execFclass x s
  | .frcp x => Sys2Proof.Machine.execFrcp x s
  | .frsq x => Sys2Proof.Machine.execFrsq x s
  | .fsqrt x => Sys2Proof.Machine.execFsqrt x s
  | .fdiv x => Sys2Proof.Machine.execFdiv x s
  | .fexp2 x => Sys2Proof.Machine.execFexp2 x s
  | .flog2 x => Sys2Proof.Machine.execFlog2 x s
  | .fsin x => Sys2Proof.Machine.execFsin x s
  | .fcos x => Sys2Proof.Machine.execFcos x s
  | .ftanh x => Sys2Proof.Machine.execFtanh x s
  | .cvt x => Sys2Proof.Machine.execCvt x s
  | .pack x => Sys2Proof.Machine.execPack x s
  | .unpack x => Sys2Proof.Machine.execUnpack x s
  | .qblk x => Sys2Proof.Machine.execQblk x s
  | .dqblk x => Sys2Proof.Machine.execDqblk x s
  | .exmWrite v => Sys2Proof.Machine.execExmWrite v s
  | .prioWrite v => Sys2Proof.Machine.execPrioWrite v s
  | .tshWrite n v => Sys2Proof.Machine.execTshWrite n v s
  | .asidWrite v => Sys2Proof.Machine.execAsidWrite v s
  | .leaseWrite v => Sys2Proof.Machine.execLeaseWrite v s
  | .runIssue slot => Sys2Proof.Machine.execRunIssue slot s
  | .groupStop k => Sys2Proof.Machine.execGroupStop k s
  | .chunkClose k => Sys2Proof.Machine.execChunkClose k s
  | .arbiterAdmit k => Sys2Proof.Machine.execArbiterAdmit k s
  | .replayResume k => Sys2Proof.Machine.execReplayResume k s
  | .sigGapTimeout k => Sys2Proof.Machine.execSigGapTimeout k s
  | .lineRequest core => Sys2Proof.Machine.execLineRequest core s
  | .fillReply core => Sys2Proof.Machine.execFillReply core s
  | .snoop peer line => Sys2Proof.Machine.execSnoop peer line s
  | .watchTimeout k => Sys2Proof.Machine.execWatchTimeout k s
  | .fabricReadRequest q => Sys2Proof.Machine.execFabricReadRequest q s
  | .fabricReadResponse r => Sys2Proof.Machine.execFabricReadResponse r s
  | .putReceive q => Sys2Proof.Machine.execPutReceive q s
  | .remoteAtomicReceive q => Sys2Proof.Machine.execRemoteAtomicReceive q s
  | .remoteRedReceive q => Sys2Proof.Machine.execRemoteRedReceive q s
  | .putAckReceive r => Sys2Proof.Machine.execPutAckReceive r s
  | .atomicResponse r => Sys2Proof.Machine.execAtomicResponse r s
  | .requestTimeout id => Sys2Proof.Machine.execRequestTimeout id s
  | .holdResponseTimer id => Sys2Proof.Machine.execHoldResponseTimer id s
  | .retryResend id => Sys2Proof.Machine.execRetryResend id s
  | .wcbAgeExpiry core n => Sys2Proof.Machine.execWcbAgeExpiry core n s
  | .shootdownRemove id rcpt => Sys2Proof.Machine.execShootdownRemove id rcpt s
  | .shootdownAck id rcpt => Sys2Proof.Machine.execShootdownAck id rcpt s
  | .stsetComplete k => Sys2Proof.Machine.execStsetComplete k s
  | .patrolScrub frame => Sys2Proof.Machine.execPatrolScrub frame s
  | .migrationStart q => Sys2Proof.Machine.execMigrationStart q s
  | .migrationSwitch id => Sys2Proof.Machine.execMigrationSwitch id s
  | .migrationDone id => Sys2Proof.Machine.execMigrationDone id s
  | .vcPhaseAdvance vc => Sys2Proof.Machine.execVcPhaseAdvance vc s
  | .vcLineMove vc line => Sys2Proof.Machine.execVcLineMove vc line s
  | .copyIssue k => Sys2Proof.Machine.execCopyIssue k s
  | .copyLineComplete op => Sys2Proof.Machine.execCopyLineComplete op s
  | .copyResume op => Sys2Proof.Machine.execCopyResume op s
  | .matrixIssue k => Sys2Proof.Machine.execMatrixIssue k s
  | .matrixOpStart op => Sys2Proof.Machine.execMatrixOpStart op s
  | .matrixOpEnd op => Sys2Proof.Machine.execMatrixOpEnd op s
  | .networkIssue k => Sys2Proof.Machine.execNetworkIssue k s
  | .workRequestComplete op ok => Sys2Proof.Machine.execWorkRequestComplete op ok s
  | .uetAckReceive asid flow acked refused => Sys2Proof.Machine.execUetAckReceive asid flow acked refused s
  | .uetRetransmitTimeout asid flow seq => Sys2Proof.Machine.execUetRetransmitTimeout asid flow seq s
  | .slotOpenRequest q => Sys2Proof.Machine.execSlotOpenRequest q s
  | .slotAnswer m ans => Sys2Proof.Machine.execSlotAnswer m ans s
  | .slotContribution q => Sys2Proof.Machine.execSlotContribution q s
  | .slotTimeout slot => Sys2Proof.Machine.execSlotTimeout slot s
  | .slotResultLand h id value status => Sys2Proof.Machine.execSlotResultLand h id value status s
  | .gangAckReceive lid h status => Sys2Proof.Machine.execGangAckReceive lid h status s
  | .gangTimeout lid => Sys2Proof.Machine.execGangTimeout lid s
  | .gangAbortResend lid => Sys2Proof.Machine.execGangAbortResend lid s
  | .gangKeyExpiry origin lid => Sys2Proof.Machine.execGangKeyExpiry origin lid s
  | .snapshotIssue k => Sys2Proof.Machine.execSnapshotIssue k s
  | .snapshotOpEnd op => Sys2Proof.Machine.execSnapshotOpEnd op s
  | .illegalControlWord w => Sys2Proof.Machine.execIllegalControlWord w s
  | .controlWordFetchFault cause => Sys2Proof.Machine.execControlWordFetchFault cause s
  | .networkLocalPartEnd op => Sys2Proof.Machine.execNetworkLocalPartEnd op s
  | .holdResponseReceive m => Sys2Proof.Machine.execHoldResponseReceive m s
  | .retryResponseReceive m => Sys2Proof.Machine.execRetryResponseReceive m s
  | .gangAdmit => Sys2Proof.Machine.execGangAdmit s
  | .teamActivate team => Sys2Proof.Machine.execTeamActivate team s
  | .preempt k => Sys2Proof.Machine.execPreempt k s
  | .teamComplete team => Sys2Proof.Machine.execTeamComplete team s
  | .hostLaunchMessage hdr bs => Sys2Proof.Machine.execHostLaunchMessage hdr bs s
  | .parkedTeamTimeout team => Sys2Proof.Machine.execParkedTeamTimeout team s
  | .quantumExpiry team => Sys2Proof.Machine.execQuantumExpiry team s
  | .ctxcreate asid pt crumb shard res => Sys2Proof.Machine.execCtxcreate asid pt crumb shard res s
  | .ctxdestroy asid => Sys2Proof.Machine.execCtxdestroy asid s
  | .winset n desc => Sys2Proof.Machine.execWinset n desc s
  | .peerset asid n p => Sys2Proof.Machine.execPeerset asid n p s
  | .cntrset n owner v => Sys2Proof.Machine.execCntrset n owner v s
  | .config c => Sys2Proof.Machine.execConfig c s
  | .link port => Sys2Proof.Machine.execLink port s
  | .status => Sys2Proof.Machine.execStatus s
  | .report => Sys2Proof.Machine.execReport s
  | .retest r => Sys2Proof.Machine.execRetest r s
  | .fwload img digest => Sys2Proof.Machine.execFwload img digest s
  | .power p => Sys2Proof.Machine.execPower p s
  | .syslaunch asid bs => Sys2Proof.Machine.execSyslaunch asid bs s
  | .resume asid lid gang team grp => Sys2Proof.Machine.execResume asid lid gang team grp s
  | .withdraw asid lid all => Sys2Proof.Machine.execWithdraw asid lid all s
  | .pin pa size => Sys2Proof.Machine.execPin pa size s
  | .unpin pa size => Sys2Proof.Machine.execUnpin pa size s
  | .migrate asid va n tier die => Sys2Proof.Machine.execMigrate asid va n tier die s
  | .dieHeartbeatTimeout d => Sys2Proof.Machine.execDieHeartbeatTimeout d s
  | .dieLinkRetrainTimeout d => Sys2Proof.Machine.execDieLinkRetrainTimeout d s
  | .dieFaultDetected d => Sys2Proof.Machine.execDieFaultDetected d s
  | .overtempTrip => Sys2Proof.Machine.execOvertempTrip s
  | .powerOn r => Sys2Proof.Machine.execPowerOn r s
  | .linkLaneFailure port => Sys2Proof.Machine.execLinkLaneFailure port s
  | .linkRetrainComplete port => Sys2Proof.Machine.execLinkRetrainComplete port s
  | .flitCrcReplay port => Sys2Proof.Machine.execFlitCrcReplay port s
  | .gangLaunchReceive h lid asid bs => Sys2Proof.Machine.execGangLaunchReceive h lid asid bs s
  | .gangAbortReceive h lid => Sys2Proof.Machine.execGangAbortReceive h lid s
  | .uetPacketReceive p => Sys2Proof.Machine.execUetPacketReceive p s
  | .shareRetire err => Sys2Proof.Machine.execShareRetire err s

end Sys2Proof.Machine
end

