-- ==== Sys2Proof/Machine/Sched.lean ====
section
/-! DEFINITION. What the machine does next (R12, R163, R404, R405): one turn is one lane instruction, one control instruction, one event, or the
end of a wait. The order in which the model serves what could happen is its own (log 2). -/

namespace Sys2Proof.Machine

/-- Where an instruction comes from: a control stream, a lane stream, the agenda, or the machine itself. -/
inductive Source where
  | control | lane | agenda | event
  deriving DecidableEq, Repr

/-- The next thing that happens: nothing at all, an instruction in a state, or the end of a wait. -/
inductive Turn where
  | off
  | instr (from_ : Source) (i : Instr) (s : State)
  | quiet (s : State)

/-- An event as a turn. -/
def Turn.event (i : Instr) (s : State) : Turn := .instr .event i s

/-- An instruction whose engine commit no arbiter admitted has done nothing: its stream waits, or the event comes again (R329, R332, log 78). -/
def State.withdraw (s : State) (i : Instr) : Source → State
  | .control => s.stalled
  | .lane => s.laneWaits
  | .agenda => s.later i
  | .event => s

/-! ## Streams -/

/-- The first instruction of the open chunk, in either stream, starts its clocks (R324). -/
def State.beginChunk (s : State) : State := if s.cur.chunk.begun then s else s.onChunk fun c => { c with begun := true, clock0 := s.clock }

/-- The run of a group may go on (R163): no atomic of it waits at an arbiter. -/
def Group.laneReady (g : Group) : Bool :=
  (match g.phase with | .run | .wait _ | .ending => true | _ => false) && !g.lstall && g.chunk.pend.isEmpty && (g.run.map fun r => !r.stop).getD false

/-- The next lane instruction of the current group's run, unless it waits for a load (R265). -/
def State.laneTurn (s : State) : Option Turn :=
  let i := (s.cur.run.map fun r => r.wi.toNat).getD 0
  if !s.cur.laneReady then none
  else match s.fetchLane i with
  | (s, .error c) => some (.quiet (s.fetchFault c (s.cur.laneAddr i) true i))
  | (s, .ok (w, m)) => match decodeLane w m with
    | some ins =>
      if (match laneForm ins with | some (x, F) => s.cur.freads.any fun f => f.hazard x F | none => false) then none
      else some (.instr .lane ins s.beginChunk)
    | none => some (.quiet (s.illegal tsIllegal i true))

/-- A run that is in flight goes before everything else. -/
def State.runTurn (s : State) : Option Turn :=
  s.laneTurn <|> s.rest.findSome? fun g => if g.laneReady then (s.focus g.key).laneTurn else none

/-- The control stream of a group takes its next instruction (R405). It waits while its chunk closes (R324), and while a run starts a chunk for which the
chunk before closed. -/
def State.controlReady (s : State) (g : Group) : Bool :=
  g.phase == .run && !g.stall && !g.chunk.committing && g.chunk.closing.isNone && !(g.chunk.forRun && !g.regs.laneq.isEmpty) &&
  (g.run.map fun r => !r.stop).getD true && s.issuing g.teamKey && (s.focus g.key).mustClose != some .limit

/-- The next control instruction of the current group (R44, R146, R149). -/
def State.controlTurn (s : State) : Turn :=
  match s.fetchControl s.pc with
  | (s, .error c) => .instr .control (.controlWordFetchFault c) s.beginChunk
  | (s, .ok w) => match decodeControl w with
    | some i => .instr .control i s.beginChunk
    | none => .instr .control (.illegalControlWord w) s.beginChunk

/-- The group after the one whose control stream issued last, in the order of keys, of which `p` holds (R405). -/
def State.nextOf (s : State) (p : Group → Bool) : Option Nat :=
  let ks := (s.groups.filter p).map Group.key
  match ks.filter fun k => decide (s.lastCtl < k) with
  | k :: up => some (minNat k up)
  | [] => match ks with
    | k :: all => some (minNat k all)
    | [] => none

/-! ## Classes of events. Each answers its first event that is due. -/

/-- An event changes the state; one that must still wait, also for an arbiter, does not. -/
def State.moves (s : State) (f : State → Ans) : Bool := match f s with | .next t => !t.engHeld && decide (t ≠ s) | _ => true

/-- Class 0: a control stream. -/
def State.controlDue (s : State) : Option Turn := (s.nextOf s.controlReady).map fun k => (({ s with lastCtl := k } : State).focus k).controlTurn

/-- Class 1: an issue decision of a core (R404). -/
def State.issueDue (s : State) : Option Turn :=
  (s.groups.find? fun g => (s.focus g.key).runReady).map fun g => Turn.event (.runIssue 0) (s.focus g.key)

/-- Class 2: a chunk that closes (R324). -/
def State.closeDue (s : State) : Option Turn :=
  (s.groups.find? fun g => g.alive && !g.chunk.committing && (g.run.map RunSt.stop).getD true && s.moves (execChunkClose g.key)).map fun g => Turn.event (.chunkClose g.key) s

/-- Class 3: an admission (R329). -/
def State.admitDue (s : State) : Option Turn :=
  (s.groups.find? fun g => g.chunk.committing && s.moves (execArbiterAdmit g.key)).map fun g => Turn.event (.arbiterAdmit g.key) s

/-- Class 4: copies (R104, R117). -/
def State.copyDue (s : State) : Option Turn :=
  s.ops.findSome? fun o =>
    if o.eng != .copy then none
    else match o.suspended with
      | some _ => if s.mayResume o then some (.event (.copyResume o.id) s) else none
      | none => if o.out == 0 && s.moves (execCopyLineComplete o.id) then some (.event (.copyLineComplete o.id) s) else none

/-- Class 5: matrix operations (R307, R308). -/
def State.matrixDue (s : State) : Option Turn :=
  s.ops.findSome? fun o =>
    if o.eng != .matrix then none
    else if o.active then (if s.moves (execMatrixOpEnd o.id) then some (.event (.matrixOpEnd o.id) s) else none)
    else if (s.nextMatrix o.core (matrixUnit o.instr)).any fun p => p.id == o.id then some (.event (.matrixOpStart o.id) s)
    else none

/-- Class 6: network and snapshot operations (R217, R421). -/
def State.netDue (s : State) : Option Turn :=
  s.ops.findSome? fun o =>
    match o.eng with
    | .network => if s.moves (execNetworkLocalPartEnd o.id) then some (.event (.networkLocalPartEnd o.id) s) else none
    | .snapshot => if s.snapReady o then some (.event (.snapshotOpEnd o.id) s) else none
    | _ => none

/-- The event that issues a held command. -/
def issueEvent (i : Instr) (k : Nat) : Instr :=
  if copyRegs i != [] then .copyIssue k
  else if matrixKind i != 0 then .matrixIssue k
  else if (Machine.netCommand i).1 != [] then .networkIssue k
  else .snapshotIssue k

/-- Trying a held command again issues it. -/
def State.canIssue (s : State) (i : Instr) (k : Nat) : Bool :=
  s.moves fun s =>
    if copyRegs i != [] then execCopyIssue k s
    else if matrixKind i != 0 then execMatrixIssue k s
    else if (Machine.netCommand i).1 != [] then execNetworkIssue k s
    else execSnapshotIssue k s

/-- Class 7: commands that wait for their queue (R105, R306). -/
def State.heldDue (s : State) : Option Turn :=
  s.groups.findSome? fun g => match g.phase with
    | .wait (.issue i _) => if s.canIssue i g.key then some (.event (issueEvent i g.key) s) else none
    | _ => none

/-- Class 8: line requests, replies and recalls (R91, R97). -/
def State.lineDue (s : State) : Option Turn :=
  match s.cores.find? fun c => !c.replies.isEmpty with
  | some c => some (.event (.fillReply c.id) s)
  | none => match s.cores.find? fun c => !c.reqs.isEmpty with
    | some c => some (.event (.lineRequest c.id) s)
    | none => s.recallDue.map fun q => .event (.snoop q.1 q.2) s

/-- A wait of group `g` that ends without an event of its own: a fence, a batch, a counter (R120, R205, R218). -/
def State.wake (s : State) (g : Group) : Option State :=
  if !s.activeTeam g.teamKey || g.frame.isSome then none
  else match g.phase with
    | .wait (.fence sc) =>
      if s.fenceWaits g.key sc then none
      else
        let s := match sc with | .pkg | .sys => s.raisePts g.core g.engineTime | _ => s
        some (s.onGroup g.key fun g => { g with phase := .run })
    | .parked (.batch e n _) =>
      if (g.engAt e).passed n then some (s.withGroup g.key fun s => (s.sawEngine e).onCur fun g => { g with phase := .run }) else none
    | .parked (.counter name thr d) =>
      match s.counter? g.sysr.asid name with
      | none => some (s.withGroup g.key fun s =>
          match ((s.goto (s.pc - 4)).onCur fun g => { g with phase := .run }).failLive Cause.bounds 0 (some d) with
          | .next t => t
          | _ => s)
      | some (v, t) =>
        if thr.ule v then some (((s.raisePts g.core t).answerW g.key d ⟨v, false⟩).onGroup g.key fun g => { g with phase := .run }) else none
    | _ => none

/-- Class 9: waits that end. -/
def State.wakeDue (s : State) : Option Turn := (s.groups.findSome? s.wake).map .quiet

/-- Class 10: resumes, stops, gaps, `STSET` (R57, R162, R337, R344). -/
def State.groupDue (s : State) : Option Turn :=
  s.groups.findSome? fun g =>
    match g.phase with
    | .parked (.replay _ _ _) | .parked (.fetch _ _) =>
      if !g.asked && s.serviced g && s.activeTeam g.teamKey then some (.event (.replayResume g.key) s) else none
    | .ending => if (g.run.map RunSt.stop).getD true && !g.chunk.committing then some (.event (.groupStop g.key) s) else none
    | .wait (.stset _ _ _ _) => if s.stsetReady g then some (.event (.stsetComplete g.key) s) else none
    | .run =>
      if g.anyUnchecked && !g.inRun && !g.chunk.committing && g.chunk.begun && decide (Config.chunkClocks + 4096 ≤ s.clock - g.chunk.clock0) && s.moves (execSigGapTimeout g.key)
      then some (.event (.sigGapTimeout g.key) s) else none
    | _ => none

/-- Class 11: shootdowns (R46). -/
def State.shootDue (s : State) : Option Turn :=
  s.shoots.findSome? fun t =>
    match (List.range 5).find? fun r => !t.removed.contains r with
    | some r => some (.event (.shootdownRemove t.id r) s)
    | none => ((List.range 5).find? fun r => s.canAck t r).map fun r => .event (.shootdownAck t.id r) s

/-- Class 12: the launch front and the dispatcher (R397 to R409). -/
def State.teamDue (s : State) : Option Turn :=
  match s.teams.find? s.teamDone with
  | some t => some (.event (.teamComplete t.key) s)
  | none => match s.groups.find? fun g => ((s.team? g.teamKey).map fun t => t.leaving && t.endSt.isNone).getD false && s.moves (execPreempt g.key) with
    | some g => some (.event (.preempt g.key) s)
    | none => match s.teams.find? s.canActivate with
      | some t => some (.event (.teamActivate t.key) s)
      | none => if s.admitGang.isSome then some (.event .gangAdmit s) else none

/-- Class 13: migrations and staging (R25, R28). -/
def State.pageDue (s : State) : Option Turn :=
  match s.migrations.find? s.moveReady with
  | some m => some (.event (.migrationDone m.id) s)
  | none => match s.migrations.find? fun m => !m.switching with
    | some m => some (.event (.migrationSwitch m.id) s)
    | none => if s.stageNext.isSome then some (.quiet s.stageStep) else none

/-- Class 14: virtual caches under reconfiguration (R79, R81). -/
def State.vcTurn (s : State) : Option Turn :=
  match s.vcs.find? s.vcDue with
  | some c => some (.event (.vcPhaseAdvance c.id) s)
  | none => (s.vcs.find? fun c => c.phase == .move).bind fun c => (s.vcMoves c).head?.map fun l => .event (.vcLineMove c.id l) s

/-- Class 15: a packet that waited for a port leaves (R364 to R366). -/
def State.wireDue (s : State) : Option Turn := s.drainEgress.map .quiet

/-- The classes in their order. -/
def classes : List (State → Option Turn) :=
  [State.controlDue, State.issueDue, State.closeDue, State.admitDue, State.copyDue, State.matrixDue, State.netDue, State.heldDue] ++
  [State.lineDue, State.wakeDue, State.groupDue, State.shootDue, State.teamDue, State.pageDue, State.vcTurn, State.wireDue]

/-! ## Timers -/

/-- Every timer that runs. Their times are not modelled: they go off where nothing else is due (log 5). -/
def State.timers (s : State) : List Instr :=
  (s.watches.map fun w => .watchTimeout w.gkey) ++
  (s.outReqs.map fun o => if o.waiting then .retryResend o.q.id else .requestTimeout o.q.id) ++
  (s.holds.map fun q => .holdResponseTimer q.id) ++
  ((s.cores.filter fun c => !c.wcb.isEmpty).map fun c => .wcbAgeExpiry c.id 0) ++
  ((s.slots.filter Slot.isOpen).map fun x => .slotTimeout x.n) ++
  (s.utx.map fun u => .uetRetransmitTimeout u.asid u.flow u.pkt.seq) ++
  ((s.teams.filter fun t => s.moves (execParkedTeamTimeout t.key)).map fun t => .parkedTeamTimeout t.key) ++
  ((s.teams.filter fun t => s.teamWaits t && s.moves (execQuantumExpiry t.key)).map fun t => .quantumExpiry t.key) ++
  (s.gangs.map fun g => if g.aborted then .gangAbortResend g.lid else .gangTimeout g.lid) ++
  (s.abortKeys.map fun k => .gangKeyExpiry k.1 k.2) ++
  (dedup ((s.ue ++ s.soft).map fun l => l / 512)).map fun k => (.patrolScrub k : Instr)

/-- Nothing else is due: a timer goes off, or time passes. -/
def State.idleTurn (s : State) : Turn :=
  match s.timers with
  | [] => .quiet s
  | t :: ts => .event ((t :: ts).getD (s.rr / classes.length % (ts.length + 1)) t) s

/-! ## The turn -/

/-- The first class from number `s.rr` on in which something is due; the number moves past it. -/
def State.scanClasses (s : State) : Nat → Nat → Option Turn
  | 0, _ => none
  | n + 1, i =>
    match (classes.getD ((s.rr + i) % classes.length) fun _ => none) { s with rr := s.rr + i + 1 } with
    | some t => some t
    | none => s.scanClasses n (i + 1)

/-- What happens without an input that waits. -/
def State.ownTurn (s : State) : Turn :=
  if s.dev != .running then .quiet { s with rr := s.rr + classes.length }
  else match s.scanClasses classes.length 0 with
    | some t => t
    | none => ({ s with rr := s.rr + classes.length } : State).idleTurn

/-- A bring-up. -/
def isPowerOn : Instr → Bool
  | .powerOn _ => true
  | _ => false

/-- The head of the agenda, in the state without it. -/
def State.agendaTurn (s : State) : Option Turn :=
  match s.agenda with
  | [] => none
  | i :: is => some (.instr .agenda i { s with agenda := is, rr := s.rr + classes.length })

/-- What happens next: a run in flight, then what waits in the agenda, then the classes in turn. After a step that no arbiter admitted the agenda lets a
class go first (log 78). In state OFF only bring-up happens (R428): what else reaches the package is lost. A pending OFF takes effect when nothing
that it still answers waits. -/
def State.turn (s : State) : Turn :=
  if s.dev == .off then
    match s.agenda.dropWhile fun i => !isPowerOn i with
    | [] => .off
    | i :: is => .event i { s with agenda := is, rr := s.rr + classes.length }
  else if s.dev == .closing && s.agenda.head?.all isPowerOn then .quiet { s.cutPower with rr := s.rr + classes.length }
  else
    let held := s.engHeld
    let s : State := { s with engHeld := false }
    match ({ s with rr := s.rr + classes.length } : State).runTurn with
    | some t => t
    | none => if held then s.ownTurn else s.agendaTurn.getD s.ownTurn

/-! ## The end of a turn -/

/-- Registers hold the bits that they have: CPC [56:2] (R141), EXM one bit a lane (R133). -/
def Group.tidy (g : Group) : Group :=
  { g with regs := { g.regs with cpc := pcOf g.regs.cpc, exm := g.regs.exm &&& (BitVec.allOnes 64 >>> (64 - laneWidth g.shadow g.width)) } }

/-- A team that has begun to wait for room takes an order number (R400). -/
def State.stampTeams (s : State) : State :=
  let new (t : Team) : Bool := t.since.isNone && s.teamWaits t
  if s.teams.any new then { s with teams := s.teams.map fun t => if new t then { t with since := some s.nextKey } else t, nextKey := s.nextKey + 1 }
  else s

/-- A control instruction that waits has not begun a chunk that holds nothing (R324). -/
def Group.unbegun (g : Group) : Group := if g.stall && g.pristine then { g with chunk := { g.chunk with begun := false } } else g

/-- Errors strike DRAM and the bank store at moments the spec does not give (R22, R23, R85, log 80). -/
def State.strike (s : State) : State :=
  let hit (known new : List Nat) : List Nat := known ++ (new.filter fun l => s.populated (l * 128) && !known.contains l)
  { s with soft := hit s.soft (Config.softErrors s.rr), ue := hit s.ue (Config.hardErrors s.rr),
           bankErr := s.bankErr ++ ((Config.arrayErrors s.rr).filter fun l => (s.bank? l).isSome && !s.bankErr.contains l) }

/-- After each turn of a machine that was in state `old`: progress other than a control instruction lets stalled streams try again, records that
changed are published (R65), the clock goes on. `waits`: a control instruction, or a step that was withdrawn. -/
def State.endTurn (s : State) (old : State) (waits : Bool) : State :=
  let s := if waits then s.onCur Group.unbegun else s.mapGroups fun g => { g with stall := false, lstall := false }
  let s := (s.publishCounts.stampTeams).mapGroups Group.tidy
  { s.strike with clock := max old.clock s.clock + Config.clockTick s.rr }

end Sys2Proof.Machine
end

