-- ==== Sys2Proof/Machine/Step.lean ====
section
/-! DEFINITION. One step of the package, and the state in which the next step fetches a given word. -/

namespace Sys2Proof.Machine

/-- One turn: the machine fetches or takes what is next, executes it, and ends the turn. Only a package that is OFF stops (R428). -/
def step (s : State) : Host.Outcome State Fault Refusal :=
  match s.turn with
  | .off => .fault .packageOff
  | .quiet t => .next (if t.engHeld then ({ s with rr := t.rr, engHeld := true } : State).endTurn s true else t.endTurn s false)
  | .instr from_ i t =>
    match exec i t with
    | .next u => .next (if u.engHeld then ({ t.withdraw i from_ with engHeld := true } : State).endTurn s true else u.endTurn s (from_ == .control))
    | .fault r => .fault r
    | .refused r => .refused r

/-! ## A word to be fetched next (log 7) -/

/-- A team of one group with 64 KiB of scratch, active on core 0. -/
def fetchTeam : Team :=
  { key := 1, lid := 0, gang := 0, num := 0, asid := 0, core := 0, ngroups := 1, prio := 0, scrSize := 65536, scratch := [], scrPois := [],
    scrTs := [], placed := true, active := true, started := true, leaving := false, admitted := 1, activated := 1, since := some 1,
    quantum := false, frameAt := Config.frameAreaBase, slotSize := 0, endSt := none, recorded := false }

/-- Its group: 16 lanes, 8 vector registers, supervisor mode, both sections at address 0x2000, page tables at 0. -/
def fetchGroup : Group :=
  let regs : Regs := { Regs.blank with v := zeroGranules 1 16, exm := 0xFFFF, cpc := 0x2000 }
  { Group.blank with key := 2, teamKey := 1, user := false, cbase := 0x2000, lbase := 0x2000, regs := regs, undo := regs,
                     chunk := Chunk.empty 0 3, phase := .run }

/-- The two page-table entries that map the first GiB of addresses to the first GiB of HBM4E, and the word at 0x2000 (R33 to R36, R146). -/
def fetchImage (w : Nat) (m : Mem) : Mem :=
  memWrite (memWrite (memWrite m 0 (toBytes 8 0x101F)) 0x1000 (toBytes 8 0x3F)) 0x2000 (toBytes 4 w)

/-- `s` with the control word `w` where the next step fetches: one group runs, nothing else is in flight. Only control words have bits in the
table, and each is one word of 32 bits. -/
def State.withFetchWord (s : State) (_nbits w : Nat) : State :=
  { s with cur := { fetchGroup with chunk := Chunk.empty s.clock (max s.nextKey 3) }, rest := [], teams := [fetchTeam],
           dram := fetchImage w s.dram, synd := s.synd.filter fun l => decide (128 ≤ l), ue := s.ue.filter fun l => decide (128 ≤ l),
           soft := s.soft.filter fun l => decide (128 ≤ l), bankErr := s.bankErr.filter fun l => decide (128 ≤ l),
           bank := s.bank.filter fun b => decide (128 ≤ b.line), clusters := [], cores := [], lostDies := [], migrations := [],
           dev := .running, power := .p0, agenda := [], rr := 0, lastCtl := 0, nextKey := max s.nextKey 3, engHeld := false }

end Sys2Proof.Machine
end

