-- ==== Sys2Proof/Safety.lean ====
section
/-! DEFINITION. What counts as a safe state and a safe run. -/

namespace Sys2Proof.Machine

/-- An instruction or a step goes on. -/
def Goes (o : Host.Outcome State Fault Refusal) : Prop := ∃ t, o = .next t

/-- A group's registers hold bits that they have: CPC is a multiple of 4 below 2^57 (R141), EXM names lanes of the group (R133, R233). -/
def Group.Legal (g : Group) : Prop :=
  pcOf g.regs.cpc = g.regs.cpc ∧ g.regs.exm &&& (BitVec.allOnes 64 >>> (64 - laneWidth g.shadow g.width)) = g.regs.exm

/-- Every group is legal. -/
def State.Legal (s : State) : Prop := ∀ g ∈ s.groups, g.Legal

/-- `n` steps from `s` lead to `t` without a stop. -/
def Runs : Nat → State → State → Prop
  | 0, s, t => s = t
  | n + 1, s, t => ∃ u, step s = .next u ∧ Runs n u t

/-- A run is safe while no step stops. -/
def SafeFor (n : Nat) (s : State) : Prop := ∃ t, Runs n s t

/-! ## Terms in which claims speak of one instruction -/

/-- Uniforms that no queued lane instruction will write: an instruction that reads or writes them does not wait (R191). -/
def State.Free (s : State) (rs : List (BitVec 6)) : Prop := rs.any s.cur.awaits = false

/-- Uniforms that hold no poison (R190). -/
def State.Clean (s : State) (rs : List (BitVec 6)) : Prop := ∀ r ∈ rs, (s.wreg r).poison = false

/-- The state before a close: a drain folds the finished blocks' signatures (R189, R342). -/
def State.beforeClose (s : State) (drain : Bool) : State := if drain || s.cur.checked then s.onRegs Regs.foldSigs else s

/-- A closing instruction finds its run boundary, or with `drain` an empty lane queue, nothing unchecked, and the open chunk
commits and leaves `u` (R189, R344). -/
def State.Commits (s : State) (drain : Bool) (u : State) : Prop :=
  s.cur.inRun = false ∧ ((drain || s.cur.checked) = true → s.cur.regs.laneq = []) ∧ (s.beforeClose drain).cur.anyUnchecked = false ∧
  (s.beforeClose drain).closeChunk = .ok u

/-- `s` with the control PC at `a`. -/
def State.atPc (s : State) (a : BitVec 64) : State := { s with cur := { s.cur with regs := { s.cur.regs with cpc := pcOf a } } }

/-- `s` with uniform `d` holding `e` and the control PC at the next word. -/
def State.wroteElem (s : State) (d : BitVec 6) (e : UElem) : State :=
  { s with cur := { s.cur with regs := { s.cur.regs with w := s.cur.regs.w.set d.toNat e, cpc := pcOf (s.cur.regs.cpc + 4) } } }

/-- The same with a clean value. -/
def State.wrote (s : State) (d : BitVec 6) (v : BitVec 64) : State := s.wroteElem d ⟨v, false⟩

/-- `s` after a taken transfer to `a`: the PC at `a`, the transfer entered in SIGR (R193, R341). -/
def State.tookBranch (s : State) (a : BitVec 64) : State :=
  { s with cur := { s.cur with regs := { s.cur.regs with cpc := pcOf a, sigr := mix s.cur.regs.sigr (takenEvent a), unchecked := true } } }

/-- PC + 4 × offset. -/
def State.branchTarget {n : Nat} (s : State) (o : BitVec n) : BitVec 64 := pcOf (s.cur.regs.cpc + (o.signExtend 64 <<< 2))

/-- `s` after an instruction that has committed its chunk: PC at the next word, a new chunk open there (R189, R326). -/
def State.nextChunk (s : State) : State := (s.atPc (s.cur.regs.cpc + 4)).newChunk

/-- `s` with the current group in a phase. -/
def State.inPhase (s : State) (p : Phase) : State := { s with cur := { s.cur with phase := p } }

/-- `s` after an instruction that has committed its chunk and leaves the stream waiting: PC at the next word, the phase, a new chunk. -/
def State.waitsIn (s : State) (p : Phase) : State := ((s.atPc (s.cur.regs.cpc + 4)).inPhase p).newChunk

/-- What the current group's instruction stream does where the instruction ends its team with a status and a token (R162, R408). -/
def State.teamStops (s : State) (status : BitVec 8) (token : BitVec 32) : State :=
  (s.endTeam s.cur.teamKey status s.cur.grp token).endGroup s.cur.key

/-! ## Terms in which claims speak of lanes (R154, R156, R228, R234) -/

/-- What a reading gives as an operand; an invalid latch gives LATCH_STALE poison, here with no crumb. -/
def Rd.toOpd : Rd → Opd
  | .ok v => .ok v
  | .tok t => .bad t
  | .stale => .bad (bareToken Cause.latchStale)

/-- The operands of the lanes of `Active()`, ascending, where no latch that is read is invalid. -/
def State.laneIns (s : State) (x : LOp) (F : Form) : List LaneIn :=
  (s.cur.active x.guard).map fun i =>
    let rd (f : SForm) (r : Src) : Opd := (s.cur.rdForm x f r ((s.cur.active x.guard).head?.getD 0) i).toOpd
    ⟨i, rd F.s0 x.s0, rd F.s1 x.s1, rd F.s2 x.s2⟩

/-- No source of an active lane is an invalid latch (R139). -/
def State.Fresh (s : State) (x : LOp) (F : Form) : Prop :=
  ∀ i ∈ s.cur.active x.guard, ∀ q ∈ [(F.s0, x.s0), (F.s1, x.s1), (F.s2, x.s2)],
    s.cur.rdForm x q.1 q.2 ((s.cur.active x.guard).head?.getD 0) i ≠ .stale

/-- `s` after a lane instruction that wrote these results: its opcode in the block signature, the results where the form says, the lane
stream at the next word or at the end of the run. -/
def State.laneOut (s : State) (x : LOp) (F : Form) (res : List (Nat × Opd)) : State :=
  ((s.enterCode F.op).writeRes x F res).laneNext x.last x.mods.isSome

end Sys2Proof.Machine
end

