-- ==== Sys2Proof/Certificates/Slice0/Obligations.lean ====
section
/-! DEFINITION. The statements for the provers. -/

open Sys2Proof Sys2Proof.Machine

/-! ## Uniform arithmetic (R200 to R202) -/

/-- The register forms of R200 with their results. -/
def uniformOps : List ((BitVec 6 → BitVec 6 → BitVec 6 → Instr) × (BitVec 64 → BitVec 64 → BitVec 64)) :=
  [(.addw, fun x y => x + y), (.subw, fun x y => x - y), (.andw, fun x y => x &&& y), (.orw, fun x y => x ||| y), (.xorw, fun x y => x ^^^ y),
   (.shlw, fun x y => x <<< (y.toNat % 64)), (.shrw, fun x y => x >>> (y.toNat % 64)), (.sarw, fun x y => x.sshiftRight (y.toNat % 64)),
   (.minw, fun x y => if x.slt y then x else y), (.maxw, fun x y => if x.slt y then y else x), (.minuw, fun x y => if x.ult y then x else y),
   (.maxuw, fun x y => if x.ult y then y else x), (.mulw, fun x y => x * y),
   (.mulhw, fun x y => (x.signExtend 128 * y.signExtend 128).extractLsb' 64 64),
   (.mulhuw, fun x y => (x.setWidth 128 * y.setWidth 128).extractLsb' 64 64), (.sltw, fun x y => if x.slt y then 1 else 0),
   (.sltuw, fun x y => if x.ult y then 1 else 0), (.seqw, fun x y => if x = y then 1 else 0)]

/-- R200: each register form is read from OP 0x10 with its fn, and completes with the result of its row in w[d], the next PC and nothing else
changed; a poisoned source gives its token to w[d], w[a] before w[b] (R190). -/
def Obligations.UniformRegisterFormsComplete : Prop :=
  ∀ (s : State) (d a b : BitVec 6),
    (∀ q ∈ uniformOps.zipIdx, decodeControl (0x10#7 ++ d ++ a ++ b ++ BitVec.ofNat 7 q.2) = some (q.1.1 d a b)) ∧
    decodeControl 0x20182100#32 = some (.addw 3 1 2) ∧
    (s.Free [d, a, b] → ∀ p ∈ uniformOps,
      (s.Clean [a, b] → exec (p.1 d a b) s = .next (s.wrote d (p.2 (s.wreg a).val (s.wreg b).val))) ∧
      ((s.wreg a).poison = true → exec (p.1 d a b) s = .next (s.wroteElem d (tokElem (s.wreg a).token))) ∧
      ((s.wreg a).poison = false → (s.wreg b).poison = true → exec (p.1 d a b) s = .next (s.wroteElem d (tokElem (s.wreg b).token))))

/-- The CI forms of R201 with the functions of R200 that they compute. -/
def immediateOps : List ((BitVec 6 → BitVec 6 → BitVec 13 → Instr) × (BitVec 64 → BitVec 64 → BitVec 64)) :=
  [(.addiw, fun x y => x + y), (.andiw, fun x y => x &&& y), (.oriw, fun x y => x ||| y), (.xoriw, fun x y => x ^^^ y)]

/-- The immediate shifts of R201. -/
def immediateShifts : List ((BitVec 6 → BitVec 6 → BitVec 6 → Instr) × (BitVec 64 → Nat → BitVec 64)) :=
  [(.shliw, fun x n => x <<< n), (.shriw, fun x n => x >>> n), (.sariw, fun x n => x.sshiftRight n)]

/-- R201, R202: the immediate forms, `liw`, `orsw`, `leaw` and `selw` are read from their encodings, a shift only with imm13[12:6] zero, and
complete with their results. -/
def Obligations.UniformImmediateFormsComplete : Prop :=
  ∀ (s : State) (d a b : BitVec 6) (i : BitVec 13) (n : BitVec 6) (k : BitVec 19),
    let x := (s.wreg a).val
    let y := (s.wreg b).val
    let im : BitVec 64 := i.signExtend 64
    (∀ q ∈ immediateOps.zipIdx 0x11, decodeControl (BitVec.ofNat 7 q.2 ++ d ++ a ++ i) = some (q.1.1 d a i)) ∧
    (∀ q ∈ immediateShifts.zipIdx 0x15, decodeControl (BitVec.ofNat 7 q.2 ++ d ++ a ++ (0#7 ++ n)) = some (q.1.1 d a n) ∧
      ∀ h : BitVec 7, h ≠ 0 → decodeControl (BitVec.ofNat 7 q.2 ++ d ++ a ++ (h ++ n)) = none) ∧
    decodeControl (0x18#7 ++ d ++ a ++ i) = some (.sltiw d a i) ∧ decodeControl 0x22105FFF#32 = some (.addiw 2 2 (-1)) ∧
    decodeControl (0x19#7 ++ d ++ k) = some (.liw d k) ∧ decodeControl (0x1A#7 ++ d ++ k) = some (.orsw d k) ∧
    decodeControl (0x1B#7 ++ d ++ a ++ b ++ (0#1 ++ n)) = some (.leaw d a b n) ∧
    decodeControl (0x1C#7 ++ d ++ a ++ b ++ 0#7) = some (.selw d a b) ∧
    (s.Free [d, a] → s.Clean [a] →
      (∀ p ∈ immediateOps, exec (p.1 d a i) s = .next (s.wrote d (p.2 x im))) ∧
      (∀ p ∈ immediateShifts, exec (p.1 d a n) s = .next (s.wrote d (p.2 x n.toNat))) ∧
      exec (.sltiw d a i) s = .next (s.wrote d (if x.slt im then 1 else 0))) ∧
    (s.Free [d] → exec (.liw d k) s = .next (s.wrote d (k.signExtend 64))) ∧
    (s.Free [d] → s.Clean [d] → exec (.orsw d k) s = .next (s.wrote d ((s.wreg d).val <<< 19 ||| k.setWidth 64))) ∧
    (s.Free [d, a, b] → s.Clean [a, b] → exec (.leaw d a b n) s = .next (s.wrote d (x + y <<< n.toNat))) ∧
    (s.Free [d, a, b] → s.Clean [d, a, b] → exec (.selw d a b) s = .next (s.wrote d (if (s.wreg d).val ≠ 0 then x else y)))

/-- R190: in the forms of R201 and R202 the first poisoned source gives its token to w[d]: w[a], for `leaw` then w[b], for `orsw` w[d], and
for `selw` the condition w[d], then w[a], then w[b]. The model's own reading or choice in it: log 15. -/
def Obligations.UniformPoisonPasses : Prop :=
  ∀ (s : State) (d a b : BitVec 6) (i : BitVec 13) (n : BitVec 6) (k : BitVec 19), s.Free [d, a, b] →
    let gives (r : BitVec 6) (j : Instr) : Prop := exec j s = .next (s.wroteElem d (tokElem (s.wreg r).token))
    ((s.wreg a).poison = true → (∀ p ∈ immediateOps, gives a (p.1 d a i)) ∧ (∀ p ∈ immediateShifts, gives a (p.1 d a n)) ∧
      gives a (.sltiw d a i) ∧ gives a (.leaw d a b n)) ∧
    ((s.wreg a).poison = false → (s.wreg b).poison = true → gives b (.leaw d a b n)) ∧
    ((s.wreg d).poison = true → gives d (.orsw d k) ∧ gives d (.selw d a b)) ∧
    ((s.wreg d).poison = false → (s.wreg a).poison = true → gives a (.selw d a b)) ∧
    ((s.wreg d).poison = false → (s.wreg a).poison = false → (s.wreg b).poison = true → gives b (.selw d a b))

/-- The register and immediate forms of R200 to R202. -/
def uniformForms (d a b : BitVec 6) (i : BitVec 13) (n : BitVec 6) (k : BitVec 19) : List Instr :=
  uniformOps.map (fun p => p.1 d a b) ++
  [.addiw d a i, .andiw d a i, .oriw d a i, .xoriw d a i, .shliw d a n, .shriw d a n, .sariw d a n, .sltiw d a i, .liw d k, .orsw d k,
   .leaw d a b n, .selw d a b]

/-- The frame of R200 to R202: whatever next state one of them reaches, only w[d], the PC and the mark of a waiting stream may differ: every
other uniform, every vector register, predicate, mask, state register, group and byte of memory stays. -/
def Obligations.UniformFormsFrame : Prop :=
  ∀ (s t : State) (d a b : BitVec 6) (i : BitVec 13) (n : BitVec 6) (k : BitVec 19), ∀ j ∈ uniformForms d a b i n k,
    exec j s = .next t →
      t = { s with cur := { s.cur with stall := t.cur.stall, regs := { s.cur.regs with w := t.cur.regs.w, cpc := t.cur.regs.cpc } } } ∧
      (∀ r : Nat, r ≠ d.toNat → t.cur.regs.w[r]? = s.cur.regs.w[r]?) ∧ t.cur.regs.v = s.cur.regs.v ∧ t.cur.regs.p = s.cur.regs.p ∧
      (∀ m : Nat, t.byteAt m = s.byteAt m)

/-! ## Flow (R193) -/

/-- R193: `nop` advances; `br`, `call`, `jmpr` and `callr` go to their targets, the calls leaving the return address in w63 or w[d]. -/
def transfersComplete : Prop :=
  ∀ (s : State) (d a : BitVec 6) (o : BitVec 25),
    let ret : BitVec 64 := s.cur.regs.cpc + 4
    exec .nop s = .next (s.atPc ret) ∧
    exec (.br o) s = .next (s.tookBranch (s.branchTarget o)) ∧
    (s.Free [63] → exec (.call o) s = .next ((s.setVal 63 ret).tookBranch (s.branchTarget o))) ∧
    (s.Free [a] → s.Clean [a] → exec (.jmpr a) s = .next (s.tookBranch (pcOf (s.wreg a).val))) ∧
    (s.Free [a, d] → s.Clean [a] → exec (.callr d a) s = .next ((s.setVal d ret).tookBranch (pcOf (s.wreg a).val)))

/-- R152: the conditions of `brc`. -/
def branchTaken : Cond → BitVec 64 → BitVec 64 → Bool
  | .eq, x, y => x == y
  | .ne, x, y => x != y
  | .lt, x, y => x.slt y
  | .ge, x, y => !x.slt y
  | .ltu, x, y => x.ult y
  | .geu, x, y => !x.ult y

/-- R193: a conditional branch on clean operands goes to its target where its condition holds and to the next word where not. -/
def conditionalBranchesComplete : Prop :=
  ∀ (s : State) (a b : BitVec 6) (c : Cond) (o : BitVec 10) (p : BitVec 19),
    let next := s.atPc (s.cur.regs.cpc + 4)
    (s.Free [a, b] → s.Clean [a, b] → exec (.brc c a b o) s =
      .next (if branchTaken c (s.wreg a).val (s.wreg b).val then s.tookBranch (s.branchTarget o) else next)) ∧
    (s.Free [a] → s.Clean [a] →
      exec (.brz a p) s = .next (if (s.wreg a).val = 0 then s.tookBranch (s.branchTarget p) else next) ∧
      exec (.brnz a p) s = .next (if (s.wreg a).val ≠ 0 then s.tookBranch (s.branchTarget p) else next))

/-- R152, R193: the encodings of the flow instructions; a field that must be zero and is not makes the word no instruction. -/
def flowWords : Prop :=
  ∀ (d a b : BitVec 6) (o : BitVec 25) (p : BitVec 10) (q : BitVec 19) (f : BitVec 7),
    decodeControl (0x01#7 ++ o) = (if o = 0 then some .nop else none) ∧ decodeControl 0x02000000#32 = some .nop ∧
    decodeControl (0x02#7 ++ o) = some (.br o) ∧ decodeControl (0x06#7 ++ o) = some (.call o) ∧
    (∀ c ∈ [Cond.eq, .ne, .lt, .ge, .ltu, .geu].zipIdx, decodeControl (0x03#7 ++ BitVec.ofNat 3 c.2 ++ a ++ b ++ p) = some (.brc c.1 a b p)) ∧
    decodeControl (0x04#7 ++ a ++ q) = some (.brz a q) ∧ decodeControl (0x05#7 ++ a ++ q) = some (.brnz a q) ∧
    decodeControl (0x07#7 ++ d ++ a ++ b ++ f) = (if d = 0 ∧ b = 0 ∧ f = 0 then some (.jmpr a) else none) ∧
    decodeControl (0x08#7 ++ d ++ a ++ b ++ f) = (if b = 0 ∧ f = 0 then some (.callr d a) else none)

/-- R193: the flow instructions, their encodings, the unconditional transfers and the conditional branches. -/
def Obligations.ControlTransfersComplete : Prop := flowWords ∧ transfersComplete ∧ conditionalBranchesComplete

/-! ## Lane blocks, yielding, ending, breaking, calling (R194 to R199) -/

/-- The runs that a runs field names: 0 stands for 32 (R194). -/
def blockRuns (f : BitVec 5) : Nat := if f = 0 then 32 else f.toNat

/-- `u` with a lane block queued: the event enters SIGR and the PC advances (R194, R341). -/
def blockQueued (u : State) (f : BitVec 5) (i : BitVec 20) (x : Scan) : State :=
  let b : LBlock := { start := i, nruns := blockRuns f, lpc := i, left := blockRuns f, caps := x.nums.map (fun r => ⟨r, u.wreg r⟩),
                      dests := x.dests, sig := 0, unchecked := false }
  { u with cur := { u.cur with regs := { u.cur.regs with laneq := u.cur.regs.laneq ++ [b], sigr := mix u.cur.regs.sigr (0x03#8 ++ 0#31 ++ f ++ i),
                                                         unchecked := true, cpc := pcOf (u.cur.regs.cpc + 4) } } }

/-- A block can be queued: the queue has room, its words name at most 8 uniforms, and those are free (R160, R161, R191, R194). -/
def blockFits (s u : State) (f : BitVec 5) (i : BitVec 20) (x : Scan) : Prop :=
  s.cur.regs.laneq.length < 16 ∧ s.scanBlock (32 * 24 + 1) i.toNat (blockRuns f) 0 ⟨[], []⟩ = (u, .ok x) ∧ x.nums.length ≤ 8 ∧ u.Free x.nums

/-- R194: `lblk` and `lblkr` queue the block with the uniforms it names captured; while 16 blocks are queued they wait; a word of the block on a page that
is not present is served first (log 99). The model's own reading or choice in it: logs 29, 89 and 99. -/
def Obligations.LaneBlockInstructionsComplete : Prop :=
  ∀ (s u : State) (f : BitVec 5) (i : BitVec 20) (a : BitVec 6) (x : Scan) (w : Nat),
    (blockFits s u f i x → exec (.lblk f i) s = .next (blockQueued u f i x)) ∧
    (16 ≤ s.cur.regs.laneq.length → exec (.lblk f i) s = .next { s with cur := { s.cur with stall := true } } ∧
      exec (.lblkr a) s = .next { s with cur := { s.cur with stall := true } }) ∧
    (s.cur.regs.laneq.length < 16 → s.scanBlock (32 * 24 + 1) i.toNat (blockRuns f) 0 ⟨[], []⟩ = (u, .error w) →
      exec (.lblk f i) s = .next (u.fetchFault Cause.pageMiss (u.cur.laneAddr w) false 0)) ∧
    (blockFits s u ((s.wreg a).val.extractLsb' 20 5) ((s.wreg a).val.extractLsb' 0 20) x → s.Free [a] → s.Clean [a] →
      exec (.lblkr a) s = .next (blockQueued u ((s.wreg a).val.extractLsb' 20 5) ((s.wreg a).val.extractLsb' 0 20) x))

/-- R195: the word of `lwait`; while the lane queue holds a block or a run is in flight the control stream stays at it, marked as waiting; then it
goes on, with the finished blocks' signatures folded, the chunk left open and its quarantine as it was. -/
def Obligations.LaneWaitHoldsTheControlStream : Prop :=
  ∀ s : State,
    decodeControl 0x16000000#32 = some .lwait ∧
    ((s.cur.inRun = true ∨ s.cur.regs.laneq ≠ []) → exec .lwait s = .next { s with cur := { s.cur with stall := true } }) ∧
    (s.cur.inRun = false → s.cur.regs.laneq = [] →
      ∃ t, exec .lwait s = .next t ∧ t = (s.onRegs Regs.foldSigs).atPc (s.cur.regs.cpc + 4) ∧ t.cur.chunk = s.cur.chunk)

/-- R161: a block whose words name more than 8 uniforms is an illegal operation at its `lblk` and ends the team. -/
def badLaneBlockIsIllegal : Prop :=
  ∀ (s u : State) (f : BitVec 5) (i : BitVec 20) (x : Scan), s.cur.regs.laneq.length < 16 →
    s.scanBlock (32 * 24 + 1) i.toNat (blockRuns f) 0 ⟨[], []⟩ = (u, .ok x) → 8 < x.nums.length →
    exec (.lblk f i) s = .next (u.illegal tsIllegal 0 false)

/-- R196, R197: after the commit `yield` goes on at its target if the batch has completed and parks for it if not; `end` ends the group, and
the last one ends the team with OK. The model's own reading or choice in it: log 22. -/
def Obligations.YieldAndEndComplete : Prop :=
  ∀ (s u : State) (e : Engine) (a : BitVec 6) (o : BitVec 16), s.Commits true u →
    (s.Free [a] → s.Clean [a] →
      ((u.cur.engAt e).passed ((u.wreg a).val.setWidth 32) = true →
        exec (.yield e a o) s = .next (((u.raisePts u.cur.core (u.cur.engAt e).ctime).atPc (u.branchTarget o)).newChunk)) ∧
      ((u.cur.engAt e).passed ((u.wreg a).val.setWidth 32) = false →
        exec (.yield e a o) s =
          .next ((u.atPc (u.branchTarget o)).inPhase (.parked (.batch e ((u.wreg a).val.setWidth 32) (u.branchTarget o)))).newChunk)) ∧
    (let v := u.endGroup u.cur.key
     (((v.groupsOf u.cur.teamKey).all fun g => g.phase == .ended) = false → exec .endg s = .next v) ∧
     (((v.groupsOf u.cur.teamKey).all fun g => g.phase == .ended) = true → exec .endg s =
        .next (v.onTeam u.cur.teamKey fun t => if t.endSt.isSome then t else { t with endSt := some ⟨0x00, 0, 0, v.pts t.core⟩ })))

/-- R198, R199: after the commit `brk` parks the group in its frame where its context is debugged and ends the team with BREAK where not;
`sysc` parks the group in its frame and asks system software. Where a frame is to be written while a matrix operation of the group runs, the
stream waits (R143, R400). The model's own reading or choice in it: the frame's commit (log 24), and the ASID in the two reports, which is the
team's: R198 and R199 say only the context, so the field is the model's own reading (log 32). -/
def Obligations.BreakAndSystemCallTakeTheirEntries : Prop :=
  ∀ (s u : State) (k : BitVec 19),
    let wait : Ans := .next { s with cur := { s.cur with stall := true } }
    (s.matrixBusy s.cur.key = true → exec (.sysc k) s = wait ∧ (s.debugOn = true → exec (.brk k) s = wait)) ∧
    (s.Commits false u → (s.debugOn = false ∨ s.matrixBusy s.cur.key = false) →
      (u.debugOn = false → exec (.brk k) s = .next (u.teamStops 0x46 0)) ∧
      (u.debugOn = true → exec (.brk k) s =
        .next (let v := (u.waitsIn (.parked .brk)).saveFrame 1 0
               v.emit (.breakpoint k v.team.asid v.cur.lid v.cur.team v.cur.grp v.cur.regs.cpc)))) ∧
    (s.Commits false u → s.matrixBusy s.cur.key = false → exec (.sysc k) s =
      .next (let v := (u.waitsIn (.parked .sysc)).saveFrame 1 0
             v.emit (.sysRequest k v.team.asid v.cur.key (v.cur.frame.getD 0))))

/-- R149, R162: a control word that is no instruction makes a crumb of cause ILLEGAL_OP and ends its team with ILLEGAL_OP. -/
def illegalControlWordEndsTheTeam : Prop :=
  ∀ (s : State) (w : BitVec 32), exec (.illegalControlWord w) s =
    .next (let r := s.makePoison 0x10 0 0 true 0
           r.1.teamStops 0x40 r.2)

/-- R149, R161, R162: a lane block that names too many uniforms, or a control word that is no instruction, ends its team. The model's own reading
or choice in it: logs 29 and 89. -/
def Obligations.IllegalOperationsEndTheTeam : Prop := badLaneBlockIsIllegal ∧ illegalControlWordEndsTheTeam

/-! ## Uniform memory (R203) -/

/-- The address of a uniform access: w[a] + 8 × the sign-extended immediate. -/
def uniformAddress (s : State) (a : BitVec 6) (i : BitVec 13) : Nat := ((s.wreg a).val + (i.signExtend 64 <<< 3)).toNat

/-- R203: `ldw` and `ldws` write the eight bytes that the chunk sees, little-endian, to w[d]; a failing access, or a poisoned scratch word with
its own token, writes poison and completes; a remote `ldw` leaves its fabric read and the stream waits for it. The model's own reading or choice in it:
logs 13 and 33. -/
def Obligations.UniformLoadsComplete : Prop :=
  ∀ (s u : State) (d a : BitVec 6) (i : BitVec 13) (bs : List Byte) (c : BitVec 8) (k : BitVec 32), s.Free [a, d] → s.Clean [a] →
    let ea := uniformAddress s a i
    (s.loadVa ea 8 0 = (u, .bytes bs) → exec (.ldw d a i) s = .next (u.wrote d (BitVec.ofNat 64 (leNat bs)))) ∧
    (s.loadVa ea 8 0 = (u, .bad c) →
      exec (.ldw d a i) s = .next ((u.makePoison c ea 0 true 0).1.wroteElem d (tokElem (u.makePoison c ea 0 true 0).2))) ∧
    (s.loadVa ea 8 0 = (u, .remote) → exec (.ldw d a i) s =
      .next ((u.fabricRead (remChip ea) (remWin ea) false (remOff ea) 8).inPhase (.wait (.rload u.nextKey d (BitVec.ofNat 64 ea))))) ∧
    (ea % 8 = 0 → s.scratchLoad ea 8 = (u, .ok bs) → exec (.ldws d a i) s = .next (u.wrote d (BitVec.ofNat 64 (leNat bs)))) ∧
    (ea % 8 = 0 → s.scratchLoad ea 8 = (u, .error (.word k)) →
      exec (.ldws d a i) s = .next ((u.makePoison (tokenCause k) ea 0 true 0).1.wroteElem d (tokElem k))) ∧
    (ea % 8 = 0 → s.scratchLoad ea 8 = (u, .error (.cause c)) →
      exec (.ldws d a i) s = .next ((u.makePoison c ea 0 true 0).1.wroteElem d (tokElem (u.makePoison c ea 0 true 0).2))) ∧
    (ea % 8 ≠ 0 → exec (.ldws d a i) s =
      .next ((s.makePoison Cause.invalid ea 0 true 0).1.wroteElem d (tokElem (s.makePoison Cause.invalid ea 0 true 0).2)))

/-- The quarantine entry of an eight-byte store at `ea` to a line (R126, R203): the bytes of w[r], little-endian, at their offsets. -/
def wordEntry (u : State) (id : LineId) (vc ea : Nat) (r : BitVec 6) : QEntry :=
  { line := id, va := BitVec.ofNat 64 ea, ops := [.st (cellsAt (ea % 128) (toBytes 8 (u.wreg r).val.toNat))], poison := none, vc := vc,
    r := false, w := false, u := false, hint := 0, lpc := 0 }

/-- `t` after a uniform store that state `s` began: the next PC, and where a run is in flight its entries are counted beside those that the run has
reserved (R126). -/
def storeDone (s t : State) : Ans := .next ((t.atPc (t.cur.regs.cpc + 4)).chargeCtl s)

/-- R126, R203, R266: with a free quarantine entry `stw` and `stws` put their eight bytes in the chunk's quarantine and advance; no byte of
memory changes before the commit. A failing store makes live poison and completes. The model's own reading or choice in it: logs 16 and 33.
-/
def Obligations.UniformStoresComplete : Prop :=
  ∀ (s u : State) (r a : BitVec 6) (i : BitVec 13) (id : LineId) (vc : Nat) (c : BitVec 8), s.Free [a, r] → s.Clean [a, r] → s.quarFree s.cur.core ≠ 0 →
    let ea := uniformAddress s a i
    (s.storeVa ea 8 .write = (u, .ok (id, vc)) →
      exec (.stw r a i) s = storeDone s (u.quarantine (wordEntry u id vc ea r)) ∧
      ∀ m, (u.quarantine (wordEntry u id vc ea r)).byteAt m = u.byteAt m) ∧
    (s.storeVa ea 8 .write = (u, .error c) → exec (.stw r a i) s =
      let p := u.makePoison c ea 0 true 0
      storeDone s (p.1.poisonStore ea p.2 (p.1.failedAt .control none p.2) 0)) ∧
    (ea % 8 = 0 → s.scratchCheck ea 8 = .ok () →
      exec (.stws r a i) s = storeDone s (s.quarantine (wordEntry s (.scr s.team.key (ea / 128)) 0 ea r))) ∧
    ((ea % 8 ≠ 0 ∧ c = Cause.invalid) ∨ (ea % 8 = 0 ∧ s.scratchCheck ea 8 = .error c) → exec (.stws r a i) s =
      let p := s.makePoison c ea 0 true 0
      storeDone s (p.1.poisonScratch ea p.2 (p.1.failedAt .control none p.2) 0)) ∧
    (s.cur.run = none → ∀ t : State, t.cur.run = none → t.chargeCtl s = t)

/-! ## State registers (R144, R145, R204) -/

/-- The state registers that `mfs` reads without waiting, with their values (R144). -/
def stateRegisters : List (Nat × (State → BitVec 64)) :=
  [(0x000, fun s => s.cur.grp.setWidth 64), (0x001, fun s => s.cur.team.setWidth 64), (0x002, fun s => s.cur.gang.setWidth 64),
   (0x003, fun s => s.cur.lid.setWidth 64), (0x004, fun s => BitVec.ofNat 64 s.cur.width), (0x005, fun s => BitVec.ofNat 64 s.cur.core),
   (0x006, fun s => s.chip.setWidth 64), (0x007, fun s => BitVec.ofNat 64 s.clock), (0x008, fun s => BitVec.ofNat 64 (s.pts s.cur.core)),
   (0x00C, fun s => BitVec.ofNat 64 s.cur.region.image), (0x00D, fun s => s.cur.crumbLast.setWidth 64),
   (0x00E, fun s => BitVec.ofNat 64 s.cur.regs.laneq.length), (0x00F, fun s => BitVec.ofNat 64 s.cur.regs.v.length),
   (0x010, fun s => BitVec.ofNat 64 (s.poolFree s.cur.core)), (0x011, fun s => s.cur.regs.prio.setWidth 64)] ++
  (List.range 32).map (fun k => (0x020 + k, fun s => ((s.cur.regs.tsh[k]?).getD 0).setWidth 64)) ++ [(0x106, fun s => s.lease.setWidth 64)]

/-- The registers that `mfs` reads in supervisor mode alone (R144, R145). -/
def systemRegisters : List (Nat × (State → BitVec 64)) :=
  [(0x100, fun s => s.cur.sysr.asid.setWidth 64), (0x101, fun s => s.cur.sysr.ptbase), (0x102, fun s => s.cur.sysr.crumbbase),
   (0x103, fun s => s.cur.sysr.stbase), (0x104, fun s => s.vctbase), (0x105, fun s => s.wcbage.setWidth 64),
   (0x107, fun s => s.placeb.setWidth 64)]

/-- R144, R204: `mfs` copies a state register to w[d]; `EXM`, `MSDEPTH` and `SIGR` are read once the lane queue is empty, with the finished
blocks folded. -/
def stateRegisterReadsComplete : Prop :=
  ∀ (s : State) (d : BitVec 6), s.Free [d] →
    (∀ p ∈ stateRegisters, exec (.mfs d (BitVec.ofNat 13 p.1)) s = .next (s.wrote d (p.2 s))) ∧
    (s.cur.user = false → ∀ p ∈ systemRegisters, exec (.mfs d (BitVec.ofNat 13 p.1)) s = .next (s.wrote d (p.2 s))) ∧
    (s.cur.inRun = false → s.cur.regs.laneq = [] →
      let v := s.onRegs Regs.foldSigs
      exec (.mfs d 0x009) s = .next (v.wrote d v.cur.regs.exm) ∧
      exec (.mfs d 0x00A) s = .next (v.wrote d (BitVec.ofNat 64 v.cur.regs.mask.length)) ∧
      exec (.mfs d 0x00B) s = .next (v.wrote d v.cur.regs.sigr))

/-- `s` with other restorable registers. -/
def withRegs (s : State) (r : Regs) : State := { s with cur := { s.cur with regs := r } }

/-- `s` with other system registers of the group. -/
def withSys (s : State) (r : SysRegs) : State := { s with cur := { s.cur with sysr := r } }

/-- R133, R144, R145, R204, R299, R442: `mts` writes the fields that its register has, `EXM` once the lane queue is empty and a system register
after a commit and in supervisor mode. -/
def stateRegisterWritesComplete : Prop :=
  ∀ (s u : State) (a : BitVec 6) (k : BitVec 5), s.Free [a] → s.Clean [a] →
    let v := (s.wreg a).val
    let next (t : State) : State := t.atPc (t.cur.regs.cpc + 4)
    (s.cur.inRun = false → s.cur.regs.laneq = [] → exec (.mts a 0x009) s = .next (next (withRegs s { s.cur.regs with exm := v &&& s.cur.exmMask }))) ∧
    (exec (.mts a 0x011) s =
      .next (next (withRegs s { s.cur.regs with prio := if (v.setWidth 3).ult s.cur.launchPrio then v.setWidth 3 else s.cur.launchPrio }))) ∧
    (exec (.mts a (0x020 + k.setWidth 13)) s = .next (next (withRegs s { s.cur.regs with tsh := s.cur.regs.tsh.set k.toNat (v.setWidth 20) }))) ∧
    (s.cur.user = false → s.Commits false u →
      exec (.mts a 0x100) s = .next (withSys u { u.cur.sysr with asid := v.setWidth 16 }).nextChunk ∧
      exec (.mts a 0x101) s = .next (withSys u { u.cur.sysr with ptbase := v &&& 0xFFFFFFFE00000#64 }).nextChunk ∧
      exec (.mts a 0x102) s = .next (withSys u { u.cur.sysr with crumbbase := v &&& 0xFFFFFFFFFF01F#64 }).nextChunk ∧
      exec (.mts a 0x103) s = .next (withSys u { u.cur.sysr with stbase := v &&& 0xFFFFFFFFFFFFF#64 }).nextChunk ∧
      exec (.mts a 0x105) s = .next ({ u with wcbage := v.setWidth 8 } : State).nextChunk ∧
      exec (.mts a 0x106) s = .next ({ u with lease := v.setWidth 24 } : State).nextChunk ∧
      exec (.mts a 0x107) s = .next ({ u with placeb := v.setWidth 5 } : State).nextChunk)

/-- The writes of state registers as steps of their own (R90, R133, R144, R299, R442): the register's fields change and nothing else. -/
def registerWriteStepsComplete : Prop :=
  ∀ (s : State) (v : BitVec 64) (k : BitVec 5),
    (s.cur.inRun = false → s.cur.regs.laneq = [] → exec (.exmWrite v) s = .next (withRegs s { s.cur.regs with exm := v &&& s.cur.exmMask })) ∧
    exec (.prioWrite v) s =
      .next (withRegs s { s.cur.regs with prio := if (v.setWidth 3).ult s.cur.launchPrio then v.setWidth 3 else s.cur.launchPrio }) ∧
    exec (.tshWrite k v) s = .next (withRegs s { s.cur.regs with tsh := s.cur.regs.tsh.set k.toNat (v.setWidth 20) }) ∧
    exec (.asidWrite v) s = .next (withSys s { s.cur.sysr with asid := v.setWidth 16 }) ∧
    exec (.leaseWrite v) s = .next { s with lease := v.setWidth 24 }

/-- R90, R133, R144, R145, R204, R299, R442: `mfs`, `mts` and the registers that have a row of their own. The model's own reading or choice
in it: the write of EXM (log 21), and the clauses of ASID, PTBASE, CRUMBBASE and STBASE, which write the current group's registers: one set for
each group is the model's own choice (log 91). -/
def Obligations.StateRegistersComplete : Prop := stateRegisterReadsComplete ∧ stateRegisterWritesComplete ∧ registerWriteStepsComplete

/-- R145: a reserved number ends the team with ILLEGAL_OP; then, in user mode, a system register other than a read `LEASE` with PRIV; then a write
of a register without an RW field with ILLEGAL_OP. A poisoned source of `mts` is live and nothing is written. -/
def Obligations.StateRegisterNumbersAreChecked : Prop :=
  ∀ (s : State) (d a : BitVec 6) (r : BitVec 13),
    let n := r.toNat
    let ends (status : BitVec 8) : Ans := .next (let p := s.makePoison 0x10 0 0 true 0
                                                 p.1.teamStops status p.2)
    let system : Prop := 0x100 ≤ n ∧ n ≤ 0x107
    let known : Prop := n ≤ 0x011 ∨ (0x020 ≤ n ∧ n ≤ 0x03F) ∨ system
    let writable : Prop := n = 0x009 ∨ n = 0x011 ∨ (0x020 ≤ n ∧ n ≤ 0x03F) ∨ (system ∧ n ≠ 0x104)
    (¬known → exec (.mfs d r) s = ends 0x40 ∧ exec (.mts a r) s = ends 0x40) ∧
    (system → s.cur.user = true → (n ≠ 0x106 → exec (.mfs d r) s = ends 0x41) ∧ exec (.mts a r) s = ends 0x41) ∧
    (known → ¬(system ∧ s.cur.user = true) → ¬writable → exec (.mts a r) s = ends 0x40) ∧
    (writable → ¬(system ∧ s.cur.user = true) → s.Free [a] → (s.wreg a).poison = true →
      exec (.mts a r) s = s.stopHere (fun u => u.liveControl (s.wreg a).token) id)

/-- R145, R162, R225, R227: in user mode `shoot`, `vcdef` and `vcflush` end their team with PRIV. -/
def Obligations.PrivilegedInstructionsTrapInUserMode : Prop :=
  ∀ (s : State) (d a b : BitVec 6) (m : FlushMode), s.cur.user = true →
    let out : Ans := .next (let r := s.makePoison 0x10 0 0 true 0
                            r.1.teamStops 0x41 r.2)
    exec (.shoot a b d) s = out ∧ exec (.vcdef d a) s = out ∧ exec (.vcflush d a m) s = out

/-! ## Fences, regions, barriers, watches, claims, batches, counters (R205 to R218) -/

/-- R205, R206, R207: after the drain and the commit `fence` goes on once its scope has nothing outstanding and waits where it has, `rgn` opens a
region with the policy and the recovery label, and `cmt` checks its live set and closes the region. -/
def Obligations.FencesAndRegionsComplete : Prop :=
  ∀ (s u : State) (p : Policy) (o : BitVec 23) (a : BitVec 6),
    (s.Commits true u →
      (∀ sc, sc ≠ .pkg → sc ≠ .sys → exec (.fence sc) s = .next u.nextChunk) ∧
      (u.engineBusy u.cur.key = false → exec (.fence .pkg) s = .next (u.raisePts u.cur.core u.cur.engineTime).nextChunk) ∧
      (u.engineBusy u.cur.key = true → exec (.fence .pkg) s = .next (u.waitsIn (.wait (.fence .pkg)))) ∧
      (let v := u.drainAll u.cur.core
       ((v.engineBusy v.cur.key || v.remoteBusy v.cur.key) = false →
          exec (.fence .sys) s = .next (v.raisePts v.cur.core v.cur.engineTime).nextChunk) ∧
       ((v.engineBusy v.cur.key || v.remoteBusy v.cur.key) = true → exec (.fence .sys) s = .next (v.waitsIn (.wait (.fence .sys))))) ∧
      exec (.rgn p o) s =
        .next ({ u with cur := { u.cur with region :=
          ⟨p, true, if o = 0 then 0xFFFFFFFF else ((u.branchTarget o - u.cur.cbase) >>> 2).setWidth 32⟩ } } : State).nextChunk) ∧
    (s.Free [a] → s.Clean [a] → s.cur.inRun = false → s.cur.regs.laneq = [] →
      ({ s with cur := { s.cur with chunk := { s.cur.chunk with
        live := (s.cur.chunk.live.filter fun l => l.src != .cmt) ++ s.cur.liveSet (s.wreg a).val } } } : State).Commits true u →
      exec (.cmt a) s = .next ({ u with cur := { u.cur with region := u.cur.defaultRegion } } : State).nextChunk)

/-- The scratch address that a uniform gives: bits [18:0]. -/
def barAt (u : State) (a : BitVec 6) : Nat := scratchAddr (u.wreg a).val

/-- R208 to R210: `arrive` counts its arrivals at the barrier word and writes the phase it joined, `waitb` goes on where the phase has completed and
parks where not, `bars` does both for the phase it joins. -/
def barriersComplete : Prop :=
  ∀ (s u : State) (d a b : BitVec 6) (n : BitVec 7) (w : Bar),
    (s.Free [a, d] → s.Clean [a] → s.Commits true u →
      u.barrier (barAt u a) = .ok w → w.expect ≠ 0 →
      exec (.arrive d a n) s = .next ((u.arriveAt (barAt u a) (n.toNat + 1) w).setVal d (BitVec.ofNat 64 w.phase)).nextChunk) ∧
    (s.Free [a, b] → s.Clean [a, b] → s.Commits false u →
      u.barrier (barAt u a) = .ok w →
      (w.completed ((u.wreg b).val.toNat % 2 ^ 31) = true → exec (.waitb a b) s = .next (u.raisePts u.cur.core (u.team.lineTimes (barAt u a / 128)).1).nextChunk) ∧
      (w.completed ((u.wreg b).val.toNat % 2 ^ 31) = false →
        exec (.waitb a b) s = .next ((u.waitsIn (.parked (.barrier (barAt u a) (BitVec.ofNat 31 ((u.wreg b).val.toNat % 2 ^ 31))))).checkDeadlock u.cur.teamKey))) ∧
    (s.Free [a] → s.Clean [a] → s.Commits true u →
      u.barrier (barAt u a) = .ok w → w.expect ≠ 0 →
      let v := u.arriveAt (barAt u a) (n.toNat + 1) w
      ((w.arrive (n.toNat + 1)).completed w.phase = true →
        exec (.bars a n) s = .next (v.raisePts v.cur.core (v.team.lineTimes (barAt u a / 128)).1).nextChunk) ∧
      ((w.arrive (n.toNat + 1)).completed w.phase = false →
        exec (.bars a n) s = .next ((v.waitsIn (.parked (.barrier (barAt u a) (BitVec.ofNat 31 w.phase)))).checkDeadlock v.cur.teamKey)))

/-- R208, R209: the barrier word after n arrivals in total below, at and above the number expected. -/
def barrierArithmetic : Prop :=
  ∀ (w : Bar) (n : Nat), w.expect < 65536 → w.phase < 2 ^ 31 →
    (w.arrived + n < w.expect → w.arrive n = { w with arrived := w.arrived + n } ∧ (w.arrive n).completed w.phase = false) ∧
    (w.arrived + n = w.expect → w.arrive n = { w with phase := (w.phase + 1) % 2 ^ 31, arrived := 0 } ∧ (w.arrive n).completed w.phase = true) ∧
    (w.expect < w.arrived + n → (w.arrive n).ovf = true ∧ (w.arrive n).phase = (w.phase + 1) % 2 ^ 31 ∧
      (w.arrive n).arrived = min (w.arrived + n - w.expect) 65535 ∧ (w.arrive n).completed w.phase = true)

/-- R208 to R210: `arrive`, `waitb` and `bars` complete, and what a barrier's word counts. The model's own reading or choice in it: logs 27
and 73. -/
def Obligations.BarriersWork : Prop := barriersComplete ∧ barrierArithmetic

/-- R102, R211: `watch` goes on where the line was written after the core's time and is entered at the line's home where not. -/
def Obligations.WatchCompletes : Prop :=
  ∀ (s u v : State) (a : BitVec 6) (p : Phys), s.Free [a] → s.Clean [a] → s.Commits false u →
    u.translate u.cur.xl (u.wreg a).val.toNat .read = (v, .ok p) →
    let f := v.fold (p.pa / 128)
    let full := decide ((f.watches.filter fun w => w.die == f.home (p.pa / 128) && w.listed).length < 64)
    (f.pts f.cur.core < (f.times (p.pa / 128)).1 → exec (.watch a) s = .next f.nextChunk) ∧
    ((f.times (p.pa / 128)).1 ≤ f.pts f.cur.core → exec (.watch a) s =
      .next (({ f with watches := f.watches ++ [⟨f.home (p.pa / 128), p.pa / 128, f.cur.key, full⟩] } : State).waitsIn
        (.parked (.watch (p.pa / 128)))))

/-- R136, R137, R213, R214: `vclaim` parks the group with its claim queued, which is granted at once where blocks are free; `vrel` gives the
granules back. The model's own reading or choice in it: log 73. -/
def Obligations.RegisterClaimsComplete : Prop :=
  ∀ (s u : State) (n : BitVec 7),
    (s.Commits false u → u.cur.regs.v.length + 8 * n.toNat ≤ 256 → exec (.vclaim n) s =
      .next ((({ u.waitsIn (.parked (.claim n.toNat)) with claims := u.claims ++ [(u.cur.core, ⟨u.cur.key, n.toNat, 0⟩)] } : State).freedBlocks
        u.cur.core).checkDeadlock u.cur.teamKey)) ∧
    (s.Commits true u → n.toNat < u.cur.granules → exec (.vrel n) s =
      .next ((withRegs u { u.cur.regs with v := u.cur.regs.v.take (u.cur.regs.v.length - 8 * n.toNat) }).nextChunk.freedBlocks u.cur.core))

/-- R120, R215 to R218, R343: `sigchk`, `efen`, `ewait` and `cwait` complete. The model's own reading or choice in it: logs 32 and 70. -/
def Obligations.ChecksBatchesCountersComplete : Prop :=
  ∀ (s u : State) (p : BitVec 24) (e : Engine) (d a b r : BitVec 6) (v : BitVec 64) (t : Nat),
    let next (t : State) : State := t.atPc (t.cur.regs.cpc + 4)
    (s.cur.checked = false → exec (.sigchk p) s = .next (next s)) ∧
    (s.cur.checked = true → s.cur.regs.sigr.extractLsb' 0 24 = p → exec (.sigchk p) s = .next (next (withRegs s { s.cur.regs with unchecked := false }))) ∧
    (s.cur.checked = true → s.cur.regs.sigr.extractLsb' 0 24 ≠ p → s.cur.mism = 0 →
      exec (.sigchk p) s = .next { s.squash with cur := { s.squash.cur with mism := 1 } }) ∧
    (s.Free [r, d] → s.Clean [r] → s.Commits false u →
      barAt u r % 8 = 0 → u.team.inside (barAt u r) 256 = true →
      exec (.efen e d r) s = .next ((((u.onEng u.cur.key e fun st => { st with cursor := some (barAt u r + 256) }).closeBatch u.cur.key e (some (barAt u r))).setVal d
        ((u.cur.engAt e).openNum.setWidth 64))).nextChunk) ∧
    (s.Free [a] → s.Clean [a] → (s.cur.engAt e).passed ((s.wreg a).val.setWidth 32) = true →
      exec (.ewait e a) s = .next (next (s.raisePts s.cur.core (s.cur.engAt e).seen))) ∧
    (s.Free [a] → s.Clean [a] → (s.cur.engAt e).passed ((s.wreg a).val.setWidth 32) = false →
      exec (.ewait e a) s = .next { s with cur := { s.cur with stall := true } }) ∧
    (s.Free [a, b, d] → s.Clean [a, b] → s.Commits false u →
      u.counter? u.cur.sysr.asid ((u.wreg a).val.setWidth 16) = some (v, t) →
      ((u.wreg b).val ≤ v → exec (.cwait a b d) s = .next ((u.raisePts u.cur.core t).setVal d v).nextChunk) ∧
      (v < (u.wreg b).val →
        exec (.cwait a b d) s = .next (u.waitsIn (.parked (.counter ((u.wreg a).val.setWidth 16) (u.wreg b).val d)))))
/-! ## Launches (R212, R387, R389 to R391, R394, R396) -/

/-- What a submitted record leads to once the front has checked it and its queue has room: it is queued under the next LAUNCHID with the issuer's
logical time, and the other chips of its list hear of it. -/
def queued (w : State) (asid : BitVec 16) (r : LaunchRec) (p : BitVec 3) (bs : List Byte) (time : Nat := 0) : State :=
  (w.queueLaunch asid r p none time).startGang w.nextLid asid r.chips bs

/-- The priority of a launch that the current group submits: the record's, at most the group's (R212). -/
def capped (v : State) (r : LaunchRec) : BitVec 3 := if v.cur.regs.prio.ult r.prio then v.cur.regs.prio else r.prio

/-- R212, R394, R396: `launch` answers OK with the LAUNCHID of a checked record, clamped to the group's priority; FULL where its queue is
full; BADREC for an address that is not aligned or a record that fails a check; FAULT with a crumb where the record cannot be read. -/
def launchCompletes : Prop :=
  ∀ (s u v w : State) (d a : BitVec 6) (bs : List Byte) (r : LaunchRec) (c : BitVec 8) (va : Nat), s.Free [a, d] → s.Clean [a] → s.Commits false u →
    (u.wreg a).val.toNat = va →
    (va % 256 ≠ 0 → exec (.launch d a) s = .next (u.setVal d (0#32 ++ 0#24 ++ 2#8)).nextChunk) ∧
    (va % 256 = 0 → u.readVa u.cur.xl va 256 = (v, .error c) →
      exec (.launch d a) s = .next ((v.makePoison c va 0 true 0).1.setVal d ((v.makePoison c va 0 true 0).2 ++ 0#24 ++ 3#8)).nextChunk) ∧
    (va % 256 = 0 → u.readVa u.cur.xl va 256 = (v, .ok bs) →
      (v.checkRecord v.cur.xl bs = (w, .error none) → exec (.launch d a) s = .next (w.setVal d (0#32 ++ 0#24 ++ 2#8)).nextChunk) ∧
      (v.checkRecord v.cur.xl bs = (w, .ok r) → w.queueFull v.cur.xl.asid (capped v r) = true →
        exec (.launch d a) s = .next (w.setVal d (0#32 ++ 0#24 ++ 1#8)).nextChunk) ∧
      (v.checkRecord v.cur.xl bs = (w, .ok r) → w.queueFull v.cur.xl.asid (capped v r) = false →
        exec (.launch d a) s = .next ((queued w v.cur.xl.asid r (capped v r) bs (w.pts v.cur.core)).setVal d (w.nextLid ++ 0#24 ++ 0#8)).nextChunk))

/-- R387, R389, R390: a launch message of the host, of system software in ASID 0, or of another chip's gang queues a record that passes its
checks and answers with its LAUNCHID, or acknowledges it. -/
def launchMessagesComplete : Prop :=
  ∀ (s w : State) (hdr bs : List Byte) (asid : BitVec 16) (cookie : BitVec 64) (h : Hdr) (lid : BitVec 32) (r : LaunchRec),
    s.dev = .running →
    (hdr.length = 64 → word8 hdr 0 = 1 + asid.toNat <<< 32 → word8 hdr 8 = cookie.toNat → (∀ b ∈ hdr.drop 16, b = 0) → asid ≠ 0 →
      s.liveCtx asid = true → s.checkRecord (s.frontXl asid) bs = (w, .ok r) → w.queueFull (s.frontXl asid).asid r.prio = false →
      exec (.hostLaunchMessage hdr bs) s = .next ((queued w (s.frontXl asid).asid r r.prio bs).emit (.launchReply cookie 0 w.nextLid))) ∧
    (s.checkRecord (s.frontXl 0) bs = (w, .ok r) → w.queueFull (s.frontXl 0).asid r.prio = false →
      exec (.syslaunch 0 bs) s = .next ((queued w (s.frontXl 0).asid r r.prio bs).emit (.answer 13 0 (w.nextLid.setWidth 64)))) ∧
    (h.dst = s.chip → s.abortKeys.contains (h.src, lid) = false → (asid = 0 ∨ s.liveCtx asid = true) →
      s.checkRecord (s.frontXl asid) bs = (w, .ok r) → w.queueFull asid r.prio = false →
      exec (.gangLaunchReceive h lid asid bs) s =
        .next ((w.queueLaunch asid r r.prio (some (h.src, lid)) 0).toChip .response h.src asid (.gangAck lid 0))) ∧
    (h.dst ≠ s.chip → exec (.gangLaunchReceive h lid asid bs) s = .next (s.passOn h (.gangLaunch lid bs)))

/-- R212, R387, R389, R390, R394, R396: `launch` and the messages that submit a launch. The model's own reading or choice in it: log 48. -/
def Obligations.LaunchesComplete : Prop := launchCompletes ∧ launchMessagesComplete

/-! ## Engine commands (R105, R219 to R221, R224, R306) -/

/-- What issue finds for a copy command: the operation and its boxes, or the status that ends it (R107 to R110). -/
def copyPlan (u : State) (i : Instr) : State × CopyPlan :=
  let o := u.newOp .copy i ((copyRegs i).map fun r => (u.wreg r).val)
  match i with
  | .cpy st _ _ _ _ => (u, planCpy o st u.team.scrSize)
  | .cpyg st _ _ _ _ => (u, planCpyg o u.team st)
  | .cpyx st _ _ _ _ => u.planCpyx o u.team (if st then 1 else 0)
  | _ => u.planCpyx o u.team 2

/-- R105, R110, R219: after the commit `cpy`, `cpyg`, `cpyx` and `cpyx` between tensors enter the core's queue of 32 with their boxes in the
range-lock table; one that a check ends takes its batch entry alone; one without room is held. The model's own reading or choice in it: log
53. -/
def Obligations.CopyCommandsComplete : Prop :=
  ∀ (s u v : State) (i : Instr) (o : EngOp) (bs : List Box) (st : BitVec 8) (k : BitVec 32),
    ((∃ x h a b c, i = .cpy x h a b c ∨ i = .cpyg x h a b c ∨ i = .cpyx x h a b c) ∨ ∃ h a b, i = .cpyxTt h a b) →
    s.Free (copyRegs i) → s.Clean (copyRegs i) → s.Commits false u →
    (copyPlan u i = (v, .ok (o, bs)) → (v.queued o.core .copy).length < 32 → (v.coreAt o.core).boxes.length + bs.length ≤ 256 →
      exec i s = .next ((v.lockBoxes o.core bs).startOp o (copyKind i)).nextChunk) ∧
    (copyPlan u i = (v, .ok (o, bs)) → (32 ≤ (v.queued o.core .copy).length ∨ 256 < (v.coreAt o.core).boxes.length + bs.length) →
      exec i s = .next (u.waitsIn (.wait (.issue i u.cur.regs.cpc)))) ∧
    (copyPlan u i = (v, .error (st, k)) → (v.queued u.cur.core .copy).length < 32 → (v.coreAt u.cur.core).boxes.length ≤ 256 →
      exec i s = .next (v.deadOp (u.newOp .copy i ((copyRegs i).map fun r => (u.wreg r).val)) (copyKind i) st k).nextChunk)

/-- The matrix commands with their operands. -/
def matrixCommands (x y : BitVec 5) (r p : BitVec 6) (acc : BitVec 3) (b : Bool) (k : DrainKind) (f : DrainFmt) : List Instr :=
  [.tld x r b, .tldP x r p b, .tst x r b, .tstP x r p b, .mma x y r acc, .mmas x y r acc, .drn k acc r p f b, .azr acc, .ald acc r, .aldMem acc r]

/-- R220, R306: a matrix command whose tiles and accumulators its group holds enters the core's queue of 32 after the commit, or is held
where there is no room; one that names a tile or an accumulator beyond the allocation is illegal. The model's own reading or choice in it:
log 66. -/
def Obligations.MatrixCommandsComplete : Prop :=
  ∀ (s u : State) (x y : BitVec 5) (r p : BitVec 6) (acc : BitVec 3) (b : Bool) (k : DrainKind) (f : DrainFmt) (o : EngOp) (bs : List Box),
    ∀ i ∈ matrixCommands x y r p acc b k f,
      (s.cur.hasMatrix i = false → exec i s = .next (s.illegal tsIllegal 0 false)) ∧
      (s.cur.hasMatrix i = true → s.Free (matrixRegs i) → s.Clean (matrixRegs i) → s.Commits false u →
        u.planMatrix (u.newOp .matrix i ((matrixRegs i).map fun r => (u.wreg r).val)) = some (o, bs) →
        ((u.queued o.core .matrix).length < 32 → (u.coreAt o.core).boxes.length + bs.length ≤ 256 →
          exec i s = .next ((u.startOp o (matrixKind i)).lockBoxes o.core bs).nextChunk) ∧
        ((32 ≤ (u.queued o.core .matrix).length ∨ 256 < (u.coreAt o.core).boxes.length + bs.length) →
          exec i s = .next (u.waitsIn (.wait (.issue i u.cur.regs.cpc)))))

/-- The work request that a network command reads at its scratch address, in its operation (R384). -/
def netOp (u : State) (i : Instr) (a : BitVec 6) : EngOp :=
  { u.newOp .network i [(u.wreg a).val] with img := memSlice u.team.scratch (scratchAddr (u.wreg a).val) 64 }

/-- A work request that its command accepts: an aligned clean record inside the allocation, of one of the command's kinds, whose counter the
context owns (R221, R384). -/
def netAccepts (u : State) (i : Instr) (a : BitVec 6) : Prop :=
  let w := WorkReq.ofImage (netOp u i a).img
  (u.queued u.cur.core .network).length < 64 ∧ (u.coreAt u.cur.core).boxes.length ≤ 256 ∧ scratchAddr (u.wreg a).val % 64 = 0 ∧
  u.team.inside (scratchAddr (u.wreg a).val) 64 = true ∧ u.team.firstPoison (scratchAddr (u.wreg a).val) 64 = none ∧ w.mbz = true ∧
  (netCommand i).1.contains w.kind = true ∧ w.len ≤ 2 ^ 30 ∧ u.ownsNet u.cur.sysr.asid w.cntr = true

/-- What an `nread` waits for: the data of its request (R385). -/
def readAnswer (o : EngOp) (w : WorkReq) (e : PeerEnt) : URx :=
  { src := e.peer.chip, srcAsid := o.sysr.asid, opId := o.id, kind := 15, asid := o.sysr.asid, laddr := BitVec.ofNat 64 w.laddr, room := w.len,
    cntr := some w.cntr, win := none, op := some o.id, got := [], bytes := 0, ctime := 0, bad := false, done := false }

/-- The receive that an `npost` posts (R384). -/
def posted (o : EngOp) (w : WorkReq) : PRecv :=
  { asid := o.sysr.asid, op := o.id, tagged := w.kind == 6, tag := w.tag, ign := w.ign, laddr := BitVec.ofNat 64 w.laddr, len := w.len, cntr := w.cntr }

/-- R221, R384 to R386: an accepted `nsend` or `nwrite` enters the queue, an `nread` sends its request and waits for its data, an `npost` posts its
receive and ends its local part at once; one to a peer that is known to be unreachable fails; a command without room is held. That a READ is one request
packet, pending until all its data have come, is the model's own reading: log 60; when a peer is known to be unreachable: log 92. -/
def Obligations.NetworkCommandsComplete : Prop :=
  ∀ (s u v : State) (a : BitVec 6) (e : PeerEnt), s.Free [a] → s.Clean [a] → s.Commits false u →
    (∀ i, i = Instr.nsend a ∨ i = .nwrite a → netAccepts u i a →
      u.peer? u.cur.sysr.asid (WorkReq.ofImage (netOp u i a).img).peer = some e → e.lost = false →
      exec i s = .next (u.startOp (netOp u i a) (WorkReq.ofImage (netOp u i a).img).kind).nextChunk) ∧
    (∀ i, i = Instr.nsend a ∨ i = .nwrite a ∨ i = .nread a → netAccepts u i a →
      let w := WorkReq.ofImage (netOp u i a).img
      u.peer? u.cur.sysr.asid w.peer = some e → e.lost = true →
      exec i s = .next ((u.deadOp (netOp u i a) w.kind Cause.remoteUnreach 0).countNet w.cntr true 0).nextChunk) ∧
    (netAccepts u (.nread a) a →
      let o := netOp u (.nread a) a
      let w := WorkReq.ofImage o.img
      u.peer? u.cur.sysr.asid w.peer = some e → e.lost = false → u.spanFault (netXl o) .write w.laddr w.len = (v, none) →
      exec (.nread a) s = .next ((({ (v.startOp o w.kind).pendNet o w [] with urx := ((v.startOp o w.kind).pendNet o w []).urx ++ [readAnswer o w e] } : State).sendPackets o w e [(0, 0)] ⟨[], []⟩).1).nextChunk) ∧
    (netAccepts u (.npost a) a →
      let o := netOp u (.npost a) a
      let w := WorkReq.ofImage o.img
      u.spanFault (netXl o) .write w.laddr w.len = (v, none) →
      exec (.npost a) s = .next (((({ v with recvs := v.recvs ++ [posted o w] } : State).deadOp o w.kind 0 0).pendNet o w [])).nextChunk) ∧
    (∀ i, i = Instr.nsend a ∨ i = .nwrite a ∨ i = .nread a ∨ i = .npost a → 64 ≤ (u.queued u.cur.core .network).length →
      exec i s = .next (u.waitsIn (.wait (.issue i u.cur.regs.cpc))))

/-- R224: `snap`, `sload` and `manif` close the chunk and hand their command to the snapshot engine. The model's own reading or choice in
it: log 67. -/
def Obligations.SnapshotCommandsComplete : Prop :=
  ∀ (s u : State) (a : BitVec 6), s.Free [a] → s.Clean [a] → s.Commits false u →
    ∀ i ∈ [Instr.snap a, .sload a, .manif a], exec i s = .next (u.waitsIn (.wait (.issue i u.cur.regs.cpc)))

/-! ## Reduction slots (R222, R223, R378 to R380) -/

/-- A request of the current group that belongs to a slot. -/
def slotMessage (u : State) (root : BitVec 8) (body : ReqBody) : Req :=
  { id := u.nextKey, src := u.chip, dst := root, asid := u.cur.sysr.asid, gang := u.gangKey u.cur root, win := 0, byVa := false, addr := 0, body := body }

/-- `t` after such a request has left; where no route leads to the root, the answer UNREACH comes from this chip itself. -/
def slotSent (t : State) (q : Req) : State :=
  let v : State := { t with nextKey := t.nextKey + 1, outReqs := t.outReqs ++ [⟨q, .slot t.cur.key, false, [], false⟩] }
  let back : Hdr := ⟨.response, 1, t.chip, t.chip, q.asid⟩
  if t.routeTo q.dst then v.depart q
  else v.later (match q.body with
    | .slotJoin _ => .slotResultLand back q.id 0 4
    | _ => .slotAnswer ⟨back, q.id⟩ (slotHandle q.dst 0 0 3))

/-- The contribution that `srjoin` makes; `x` is `u` once the address of the record has been translated (R223). -/
def slotJoinOf (u x : State) (h v r : BitVec 6) : SlotJoin :=
  { id := x.nextKey, src := x.chip, asid := x.cur.sysr.asid, core := x.cur.core, grp := x.cur.grp.toNat, slot := (u.wreg h).val.extractLsb' 0 9, gen := (u.wreg h).val.extractLsb' 32 16, value := (x.wreg v).val,
    recVa := BitVec.ofNat 64 (u.wreg r).val.toNat }

/-- R222, R223: `sropen` sends its description to the root and waits for the handle, which is UNREACH where no route leads there; `srjoin` sends its
contribution and goes on. -/
def slotInstructionsComplete : Prop :=
  ∀ (s u x : State) (a d h v r : BitVec 6) (p : Phys), s.Commits false u →
    (s.Free [a, d] → s.Clean [a] → exec (.sropen a d) s =
      .next (slotSent (u.waitsIn (.wait (.slot d))) (slotMessage u ((u.wreg a).val.extractLsb' 0 8) (.slotOpen (u.wreg a).val)))) ∧
    (s.Free [h, v, r] → s.Clean [h, v, r] → (u.wreg r).val.toNat % 16 = 0 → u.translate u.cur.xl (u.wreg r).val.toNat .write = (x, .ok p) →
      exec (.srjoin h v r) s = .next (slotSent x (slotMessage x ((u.wreg h).val.extractLsb' 16 8) (.slotJoin (slotJoinOf u x h v r)))).nextChunk)

/-- What a root does with an opening request (R222, R378). -/
def opened (s : State) (q : Req) (desc : BitVec 64) : State :=
  if slotBad desc then s.sendSlotAnswer q (slotHandle s.chip 0 0 2)
  else match s.freeSlot with
    | none => s.sendSlotAnswer q (slotHandle s.chip 0 0 1)
    | some n => (s.putSlot ⟨n, ((s.slot? n).map Slot.gen).getD 0 + 1, true, desc, []⟩).sendSlotAnswer q
        (slotHandle s.chip n (((s.slot? n).map Slot.gen).getD 0 + 1) 0)

/-- R222, R223, R364, R378, R379: the root opens its lowest free slot under a new generation, adds a contribution to an open slot of its generation,
combines the slot when the last one has come or its time is over; the origin's stream takes the handle; the result lands in its record; what is for
another chip is passed on. An answer or a result that nothing waits for changes nothing. -/
def slotEventsComplete : Prop :=
  ∀ (s t : State) (q : Req) (desc : BitVec 64) (j : SlotJoin) (x : Slot) (n : BitVec 9) (k : Nat) (d : BitVec 6) (m : RespTo) (ans value : BitVec 64)
    (st : BitVec 8) (p : Phys) (o : OutReq) (g : Group),
    let u : State := { s with outReqs := s.outReqs.filter fun o => o.q.id != m.id }
    (q.dst = s.chip → q.gang = none → (q.body = .slotOpen desc → exec (.slotOpenRequest q) s = .next (opened s q desc)) ∧
      (q.body = .slotJoin j →
        (s.slot? j.slot = some x → x.isOpen = true → x.gen = j.gen →
          (x.joins.length + 1 < bits x.desc.toNat 8 9 → exec (.slotContribution q) s = .next (s.putSlot { x with joins := x.joins ++ [j] })) ∧
          (bits x.desc.toNat 8 9 ≤ x.joins.length + 1 →
            exec (.slotContribution q) s = .next (s.combineSlot { x with joins := x.joins ++ [j] } 0))) ∧
        (s.slot? j.slot = some x → x.isOpen = false → x.gen = j.gen → exec (.slotContribution q) s = .next (s.sendSlotResult j 0 2)) ∧
        (s.slot? j.slot = some x → x.gen ≠ j.gen → exec (.slotContribution q) s = .next (s.sendSlotResult j 0 3)) ∧
        (s.slot? j.slot = none → exec (.slotContribution q) s = .next (s.sendSlotResult j 0 3)))) ∧
    (s.slot? n = some x → x.isOpen = true → exec (.slotTimeout n) s = .next (s.combineSlot x 1)) ∧
    (m.h.dst = s.chip →
      (s.outReqs.find? (fun o => o.q.id == m.id) = some o →
        (o.owner = .slot k → u.group? k = some g → g.phase = .wait (.slot d) → g.frame = none →
          exec (.slotAnswer m ans) s = .next ((u.answerW k d ⟨ans, false⟩).onGroup k fun g => { g with phase := .run })) ∧
        (o.q.body = .slotJoin j → u.translate (u.frontXl o.q.asid) j.recVa.toNat .write = (t, .ok p) →
          exec (.slotResultLand m.h m.id value st) s = .next (t.putAt none p (toBytes 8 value.toNat ++ [st] ++ List.replicate 7 0)).1)) ∧
      (s.outReqs.find? (fun o => o.q.id == m.id) = none →
        exec (.slotAnswer m ans) s = .next s ∧ exec (.slotResultLand m.h m.id value st) s = .next s)) ∧
    (m.h.dst ≠ s.chip → exec (.slotAnswer m ans) s = .next (s.passOn m.h (.slotAns m.id ans)) ∧
      exec (.slotResultLand m.h m.id value st) s = .next (s.passOn m.h (.slotRes m.id value st)))

/-- R222, R223, R378, R379: `sropen` and `srjoin`, and the events of slots. The model's own reading or choice in it: logs 57, 58 and 75. -/
def Obligations.SlotsComplete : Prop := slotInstructionsComplete ∧ slotEventsComplete

/-! ## Shootdowns, virtual caches and sharding entries under change (R45 to R57, R77 to R85, R225 to R227) -/

/-- R45, R46, R225: `shoot` in supervisor mode broadcasts its range, rounded outward to 64 KiB, and waits; a recipient removes and then
acknowledges, and the last acknowledgement lets the group go on. -/
def Obligations.ShootdownsComplete : Prop :=
  ∀ (s u : State) (a b c : BitVec 6) (t : Shoot) (r : Nat),
    (s.cur.user = false → s.Free [a, b, c] → s.Clean [a, b, c] → s.Commits false u →
      exec (.shoot a b c) s = .next
        { u.waitsIn (.wait (.shoot u.nextKey)) with
          nextKey := u.nextKey + 1,
          shoots := u.shoots ++ [{ id := u.nextKey, asid := (u.wreg a).val.setWidth 16, whole := (u.wreg a).val.getLsbD 16,
                                   lo := (u.wreg b).val.toNat % 2 ^ 57 / 65536 * 65536,
                                   hi := if (u.wreg c).val.toNat = 0 then (u.wreg b).val.toNat % 2 ^ 57 / 65536 * 65536
                                     else roundUp ((u.wreg b).val.toNat % 2 ^ 57 + (u.wreg c).val.toNat) 65536,
                                   removed := [], acked := [] }] }) ∧
    (s.shoots.find? (fun x => x.id == t.id && !x.removed.contains r) = some t → 4 ≤ r →
      exec (.shootdownRemove t.id r) s =
        .next { s with shoots := s.shoots.map fun x => if x.id == t.id then { x with removed := x.removed ++ [r] } else x,
                       ioTlb := s.ioTlb.filter fun e => !(t.covers e.asid e.vbase e.size) }) ∧
    (s.shoots.find? (fun x => x.id == t.id && !x.removed.contains r) = some t → r < 4 → (∀ c ∈ s.cores, ∀ x ∈ c.l1, x.st ≠ .u) →
      (∀ g ∈ s.groups, g.heldBy t = false) →
      exec (.shootdownRemove t.id r) s =
        .next { s with shoots := s.shoots.map fun x => if x.id == t.id then { x with removed := x.removed ++ [r] } else x,
                       clusters := s.clusters.map fun c => if c.id / 16 == r then c.shot t else c,
                       cores := s.cores.map fun c => if c.id / 64 == r then c.shot t else c }) ∧
    (s.shoots.find? (fun x => x.id == t.id && s.canAck x r) = some t →
      (t.acked.length < 4 → exec (.shootdownAck t.id r) s =
        .next { s with shoots := s.shoots.map fun x => if x.id == t.id then { x with acked := x.acked ++ [r] } else x }) ∧
      (4 ≤ t.acked.length → exec (.shootdownAck t.id r) s =
        .next (({ s with shoots := s.shoots.filter fun x => x.id != t.id } : State).mapGroups fun g =>
          if g.phase == .wait (.shoot t.id) then { g with phase := .run } else g)))

/-- The answer of `vcdef` and `vcflush` in w[d]: a status, and for `vcdef` the target of MCOUNT (R77, R84). -/
def cacheAnswer (t : State) (d : BitVec 6) (st : Nat) (m : BitVec 24) : Ans := .next (t.setVal d (BitVec.ofNat 64 (st + m.toNat * 256))).nextChunk

/-- A virtual cache is between two definitions (R79, R83). -/
def underChange (u : State) (n : Nat) : Prop := ∃ c, u.vcs.find? (fun c => c.id == n) = some c ∧ c.phase ≠ .stable ∧ c.phase ≠ .undefined

/-- R77 to R79: after the commit `vcdef` in supervisor mode goes on with its answer in w[d]: FIXED for VCs 0, 254 and 255, BUSY for one under change; else
it reads the CDR: one that is not VALID removes the VC, a legal one defines it or changes its shares, and BADCDR, INCOMPAT or NOSPACE change nothing. -/
def vcdefCompletes : Prop :=
  ∀ (s u v : State) (d r : BitVec 6) (bs : List Byte) (n : Nat), s.cur.user = false → s.Free [r, d] → s.Commits false u → u.Clean [r] →
    (u.wreg r).val.toNat % 256 = n →
    let old := (v.vcs.find? fun x => x.id == n).getD { Vc.fixed n 0 0 with phase := .undefined, cen := false }
    let c := Cdr.ofBytes bs
    let kept := c.kept old.shares
    ((n = 0 ∨ n = 254 ∨ n = 255) → exec (.vcdef d r) s = cacheAnswer u d 4 0) ∧
    (n ≠ 0 → n ≠ 254 → n ≠ 255 →
      (underChange u n → exec (.vcdef d r) s = cacheAnswer u d 1 0) ∧
      (¬underChange u n → u.peekBytes (u.vcTable + 64 * n) 64 = (v, bs, none) →
        (c.valid = false → old.phase = .undefined →
          exec (.vcdef d r) s = cacheAnswer ((v.putVc { old with mcount := old.mcount + 1 }).writeStatus n) d 0 (old.mcount + 1)) ∧
        (c.valid = false → old.phase ≠ .undefined →
          exec (.vcdef d r) s = cacheAnswer ((v.putVc { old with phase := .removing, leaving := old.shares }).writeStatus n) d 0 (old.mcount + 1)) ∧
        (c.valid = true → c.legal = false → exec (.vcdef d r) s = cacheAnswer v d 3 0) ∧
        (c.valid = true → c.legal = true → old.phase ≠ .undefined → old.incompat c = true → exec (.vcdef d r) s = cacheAnswer v d 5 0) ∧
        (c.valid = true → c.legal = true → old.phase = .undefined →
          (v.placeShares c c.shares = none → exec (.vcdef d r) s = cacheAnswer v d 2 0) ∧
          (∀ js, v.placeShares c c.shares = some js → exec (.vcdef d r) s = cacheAnswer (((v.putVc { old.take c with
            hits := 0, misses := 0, evicts := 0, retired := 0, phase := .claim, shares := [], joining := sortBy id js, leaving := [] }).writeStatus n).writeStatus 0)
            d 0 (old.mcount + 1))) ∧
        (c.valid = true → c.legal = true → old.phase ≠ .undefined → old.incompat c = false →
          (v.placeShares c (c.shares - kept.length) = none → exec (.vcdef d r) s = cacheAnswer v d 2 0) ∧
          (∀ js, v.placeShares c (c.shares - kept.length) = some js → exec (.vcdef d r) s = cacheAnswer (((v.putVc { old.take c with
            phase := .claim, joining := sortBy id js, leaving := old.shares.filter fun g => !kept.contains g }).writeStatus n).writeStatus 0)
            d 0 (old.mcount + 1)))))

/-- R84: after the commit `vcflush` in supervisor mode waits for a VC under change, and else goes on with its answer in w[d]: BADCDR for a VC that is not
defined, NOTPOOL for ZERO of a cache, else OK, when CLEAN has written every modified line back, INVAL has dropped every line, and ZERO has written zeros
to every line of the pool. CLEAN and INVAL change nothing of a pool. -/
def vcflushCompletes : Prop :=
  ∀ (s u : State) (d r : BitVec 6) (m : FlushMode) (c : Vc) (n : Nat), s.cur.user = false → s.Free [r, d] → s.Commits false u → u.Clean [r] →
    (u.wreg r).val.toNat % 256 = n →
    let lines := (u.bank.filter fun b => b.vc == n).map BLine.line
    (u.vc? n = none → exec (.vcflush d r m) s = cacheAnswer u d 3 0) ∧
    (u.vc? n = some c → c.phase ≠ .stable → exec (.vcflush d r m) s = .next (u.waitsIn (.wait (.flush d n m)))) ∧
    (u.vc? n = some c → c.phase = .stable → c.pool = false →
      exec (.vcflush d r .zero) s = cacheAnswer u d 6 0 ∧
      exec (.vcflush d r .inval) s = cacheAnswer (lines.foldl State.dropLine u) d 0 0 ∧
      exec (.vcflush d r .clean) s = cacheAnswer (lines.foldl (fun t l =>
        let t := t.fold l
        match t.bank? l with
        | some b => (match b.st with
          | .m => ((t.dramPut l b.data).putBank { b with st := .s, dirty := false }).filterClear l
          | .x => (t.dramPoison l).putBank { b with dirty := false }
          | _ => t)
        | none => t) u) d 0 0) ∧
    (u.vc? n = some c → c.phase = .stable → c.pool = true →
      exec (.vcflush d r .clean) s = cacheAnswer u d 0 0 ∧ exec (.vcflush d r .inval) s = cacheAnswer u d 0 0 ∧
      exec (.vcflush d r .zero) s = cacheAnswer ((List.range (c.poolSize / 128)).foldl (fun t i =>
        (t.engineWrite none (poolBase + n * 0x4000000 + i) n (cellsAt 0 (List.replicate 128 0)) none).1) u) d 0 0)

/-- R190: a poisoned w[V] goes to w[d] and is live in `vcdef` and `vcflush` once their chunk has committed: they go on under DROP, and the policy acts under
any other. -/
def cacheOperandPoison : Prop :=
  ∀ (s u t : State) (d r : BitVec 6) (m : FlushMode), s.cur.user = false → s.Free [r, d] → s.Commits false u → (u.wreg r).poison = true →
    let v := (u.liveControl (u.wreg r).token).setW d (tokElem (u.wreg r).token)
    (v.takeStop = .ok t → exec (.vcdef d r) s = .next t.nextChunk ∧ exec (.vcflush d r m) s = .next t.nextChunk) ∧
    (v.takeStop = .stopped t → exec (.vcdef d r) s = .next t ∧ exec (.vcflush d r m) s = .next t) ∧
    (v.takeStop = .wait t → exec (.vcdef d r) s = .next t.held ∧ exec (.vcflush d r m) s = .next t.held)

/-- R77 to R79, R84, R190, R227: `vcdef` and `vcflush` in supervisor mode. The model's own reading or choice in it: log 62. -/
def Obligations.VirtualCacheInstructionsComplete : Prop := vcdefCompletes ∧ vcflushCompletes ∧ cacheOperandPoison

/-- R50, R57, R226: `stset` of a clean aligned image and a handle of the table installs the entry and waits for the accesses through the old one;
the wait ends with the answer in w[d]. -/
def shardEntryReplacementCompletes : Prop :=
  ∀ (s u w : State) (d h r : BitVec 6) (gen : BitVec 16) (k key : Nat) (val : BitVec 64) (g : Group) (hd : BitVec 16),
    (s.Free [h, r, d] → s.Clean [h, r] → s.Commits false u →
      let a := scratchAddr (u.wreg r).val
      let hd : BitVec 16 := (u.wreg h).val.setWidth 16
      let bs := memBytes u.team.scratch a 128
      let ok := (Shard.ofBytes bs).legal && (Shard.ofBytes bs).valid
      a % 8 = 0 → u.team.inside a 128 = true → hd.toNat < shardCount u.cur.sysr.stbase → u.team.firstPoison a 128 = none →
      u.installShard u.cur.core u.cur.sysr.asid u.cur.sysr.stbase hd bs ok = (w, gen) →
      exec (.stset d h r) s =
        .next { w.waitsIn (.wait (.stset d hd (stsetAnswer (if ok then 0 else 1) gen.toNat) w.nextKey)) with nextKey := w.nextKey + 1 }) ∧
    (s.group? k = some g → g.phase = .wait (.stset d hd val key) → s.shardBusy g.sysr.asid hd key = false →
      exec (.stsetComplete k) s = .next ((s.answerW k d ⟨val, false⟩).onGroup k fun g => { g with phase := .run }))

/-- R79 to R82: a phase of a VC under migration ends by its rules. -/
def virtualCacheMigrationCompletes : Prop :=
  ∀ (s : State) (n l : Nat) (c : Vc) (b : BLine), s.vc? n = some c →
    (c.phase = .claim → exec (.vcPhaseAdvance n) s = .next (((s.linesIn 0 c.joining).foldl State.leaveShare s).putVc
      { c with phase := .move, shares := sortBy id ((c.shares.filter fun g => !c.leaving.contains g) ++ c.joining), joining := [] })) ∧
    (c.phase = .move → s.vcMoves c = [] → exec (.vcPhaseAdvance n) s = .next (s.putVc { c with phase := .release })) ∧
    (c.phase = .release →
      let t := (s.linesIn n c.leaving).foldl State.leaveShare s
      let c' := (t.vc? n).getD c
      exec (.vcPhaseAdvance n) s =
        .next ((((t.putVc { c' with phase := .stable, leaving := [], mcount := c'.mcount + 1, live := c'.shares.length }).writeStatus n).writeStatus
          0).waitingFlushes n)) ∧
    (c.phase = .removing →
      let t := ((s.bank.filter fun b => b.vc == n).map BLine.line).foldl State.leaveShare s
      let c' := (t.vc? n).getD c
      exec (.vcPhaseAdvance n) s =
        .next ((((t.putVc { c' with phase := .undefined, shares := [], joining := [], leaving := [], mcount := c'.mcount + 1, live := 0 }).writeStatus
          n).writeStatus 0).waitingFlushes n)) ∧
    (c.phase = .move → s.bank? l = some b → s.wantsMove c b = true → s.bankErr.contains l = false →
      (c.pool = false ∨ poolLine l * 128 < c.poolSize →
        let t := if c.pool then s else s.makeRoom n l
        let b' : BLine := { b with share := t.shareFor n l, ways := (t.geometry n).2, wts := (t.times l).1, rts := (t.times l).2 }
        exec (.vcLineMove n l) s = .next (((t.putBank b').refilter b').rewatch l)) ∧
      (c.pool = true → c.poolSize ≤ poolLine l * 128 → exec (.vcLineMove n l) s = .next (s.dropLine l))) ∧
    (c.phase = .move → s.bank? l = some b → s.wantsMove c b = true → s.bankErr.contains l = true →
      exec (.vcLineMove n l) s = .next ((s.retireShare b.share).moveVcLine n l))

/-- R85: a share that retires leaves its virtual cache for good and is counted; its modified lines become X in the shares that remain. A pool's share is
replaced by one of VC 0, and every line of it becomes X; a line of a share that was joining or leaving the pool becomes X at its place in the pool. A
share that has retired, or whose die is lost, stays so. An error of the tag or state array retires the 16 shares of its bank. -/
def shareRetirementCompletes : Prop :=
  ∀ (s : State) (n : Nat) (c : Vc),
    (s.goodShare n = false → exec (.shareRetire (.data n)) s = .next s) ∧
    exec (.shareRetire (.tags n)) s = .next ((List.range 16).foldl (fun t i => t.retireShare (n * 16 + i)) s) ∧
    (s.goodShare n = true → s.vcs.find? (fun c => c.id == s.holderOf n) = some c →
      let lines := (s.bank.filter fun b => b.share == n).map BLine.line
      let u : State := { s with badShares := s.badShares ++ [n], bankErr := s.bankErr.filter fun l => !lines.contains l }
      let gone (l : List Nat) : List Nat := l.filter fun g => g != n
      let v := u.putVc { c with shares := gone c.shares, joining := gone c.joining, leaving := gone c.leaving,
                                live := if c.shares.contains n || c.leaving.contains n then c.live - 1 else c.live,
                                retired := c.retired + 1 }
      let told (t : State) : Ans := .next (((t.staleVc 0).staleVc (s.holderOf n)).faultEvent 6 7 n)
      (c.pool = false → exec (.shareRetire (.data n)) s = told (lines.foldl State.retireLine v)) ∧
      (c.pool = true → c.shares.contains n = false →
        exec (.shareRetire (.data n)) s = told (lines.foldl (fun t l => t.retireLeaving c l) v)) ∧
      (c.pool = true → c.shares.contains n = true → exec (.shareRetire (.data n)) s = told (u.retirePool c n)))

/-- R50, R57, R79 to R82, R85, R226: a sharding entry is replaced, a virtual cache migrates, a share is retired. The model's own reading or
choice in it: logs 61 and 63. -/
def Obligations.CacheAndShardReconfigurationCompletes : Prop := shardEntryReplacementCompletes ∧ virtualCacheMigrationCompletes ∧ shareRetirementCompletes

/-! ## Runs, chunks, arbiters, stops (R44, R162, R163, R324 to R329, R337, R344, R404, R407) -/

/-- R126, R160, R163, R325, R404: an issue decision chooses, among the groups of the core whose run is ready, the first by the order of R404; a run whose
words are good is one that the quarantine and, unless its chunk is new, the register limit allow; it starts with its reservation. A run with a bad word ends
its team at that word before any of it executes. The model's own reading or choice in it: logs 2, 41, 43, 45 and 89. -/
def Obligations.RunIssueCompletes : Prop :=
  ∀ (s v : State) (slot : BitVec 2) (m i after : Nat) (ds : List Nat) (atomic : Bool) (g : Group) (b : LBlock) (bs : List LBlock),
    (s.choose s.cur.core = some g →
      (g ∈ s.readyRuns s.cur.core ∧ ∀ h ∈ s.readyRuns s.cur.core, issueKey g ≤ issueKey h) ∧
      (let u := s.focus g.key
       u.checkNext.2 = .ok m ds atomic after →
         u.cur.width * m ≤ u.quarFree u.cur.core ∧ (u.cur.pristine = true ∨ (atomic = false ∧ u.cur.chunk.vw.length + u.cur.chunk.fresh ds ≤ 32))) ∧
      (((s.decided g.core g.key).focus g.key).checkNext = (v, .ok m ds atomic after) → v.cur.regs.laneq = b :: bs →
        exec (.runIssue slot) s =
          .next { v with cur := { v.cur with chunk := { v.cur.chunk with forRun := atomic },
                                             run := some { wi := b.lpc, n := 0, resv := v.cur.width * m, q0 := v.cur.chunk.quar.length, ctl := 0,
                                                           skip := 0, stop := false, after := BitVec.ofNat 20 after } } }) ∧
      (((s.decided g.core g.key).focus g.key).checkNext = (v, .illegal i) → exec (.runIssue slot) s =
        .next (let p := v.makePoison 0x10 0 0 false i
               p.1.teamStops 0x40 p.2))) ∧
    (s.choose s.cur.core = none → exec (.runIssue slot) s = .next s)

/-- R324, R327 to R329, R332: a chunk without live poison or an unchecked event, whose loads have all landed, that has to close commits at once where it
names no line, and begins at its lowest arbiter where it does; an arbiter admits the first of its FIFO that nothing stands against, and the last admission
commits, where an atomic has not yet to be executed in the chunk; a chunk with a reservation that an older one blocks is squashed. The model's own reading or choice in it: logs 20, 44, 76, 78 and 98. -/
def Obligations.ChunksCloseAndCommit : Prop :=
  ∀ (s u : State) (k a t mine : Nat) (as : List Nat) (why : CloseReason), (s.group? k).isSome = true → s.focus k = u →
    (u.cur.freads = [] → u.cur.run = none → u.cur.chunk.committing = false → (u.cur.chunk.closing <|> u.mustClose) = some why → u.cur.anyUnchecked = false →
      u.cur.chunk.live = [] →
      let v := u.onChunk fun c => { c with closing := some why }
      (v.arbiters v.cur.chunk = [] → exec (.chunkClose k) s = .next (v.commitNow.state.focus s.cur.key)) ∧
      (v.arbiters v.cur.chunk = a :: as → exec (.chunkClose k) s =
        .next ((({ v with nextKey := v.nextKey + 1 } : State).onChunk fun c =>
          { c with committing := true, pend := a :: as, got := [], arrive := v.nextKey }).focus s.cur.key))) ∧
    (u.cur.chunk.committing = true → u.cur.chunk.pend = a :: as → u.blockedBy (some a) = none → u.admittedClash (some a) = false →
      u.queuedBefore a u.cur.chunk.arrive = false →
      let v := u.onChunk fun c => { c with pend := as, got := c.got ++ [a] }
      (as ≠ [] → exec (.arbiterAdmit k) s =
        .next ((({ v with nextKey := v.nextKey + 1 } : State).onChunk fun c => { c with arrive := v.nextKey }).focus s.cur.key)) ∧
      (as = [] → (∀ r, u.cur.run = some r → r.stop = true) → exec (.arbiterAdmit k) s = .next (v.commitNow.state.focus s.cur.key)) ∧
      (as = [] → (∃ r, u.cur.run = some r ∧ r.stop = false) → exec (.arbiterAdmit k) s = .next (v.focus s.cur.key))) ∧
    (u.cur.chunk.committing = true → u.cur.chunk.pend = a :: as → u.blockedBy (some a) = some t → u.cur.reserve = some mine → t < u.cur.ageKey mine →
      exec (.arbiterAdmit k) s = .next (u.squash.focus s.cur.key))

/-- R44, R162, R337, R344, R407: a group of an ended team stops; a serviced group returns from its frame; an unchecked event that outlives
its limit stops the chunk with SIG_GAP; a control word that cannot be fetched, a page miss apart, ends its team with FAULT. The model's own
reading or choice in it: logs 23, 28 and 44. -/
def Obligations.StopsAndReturnsComplete : Prop :=
  ∀ (s u : State) (k : Nat) (g : Group) (sys : Bool) (vas : List (BitVec 64)) (ops : List Nat) (va : BitVec 64) (c : Cause),
    (s.group? k = some g → g.phase = .ending → (g.run.map RunSt.stop).getD true = true → g.chunk.committing = false →
      exec (.groupStop k) s = .next (s.endGroup k)) ∧
    (s.group? k = some g → s.serviced g = true → s.activeTeam g.teamKey = true →
      (g.phase = .parked (.replay sys vas ops) → exec (.replayResume k) s = .next (((s.focus k).resumeFrame false).focus s.cur.key)) ∧
      (g.phase = .parked (.fetch sys va) → exec (.replayResume k) s = .next (((s.focus k).inPhase .run).focus s.cur.key))) ∧
    (s.group? k = some g → s.activeTeam g.teamKey = false → g.asked = true →
      (g.phase = .parked (.replay sys vas ops) →
        exec (.replayResume k) s = .next (s.onGroup k fun g => { g with phase := .parked (.replay false vas ops) })) ∧
      (g.phase = .parked (.fetch sys va) →
        exec (.replayResume k) s = .next (s.onGroup k fun g => { g with phase := .parked (.fetch false va) }))) ∧
    ((s.group? k).isSome = true → s.focus k = u → u.cur.anyUnchecked = true → u.cur.inRun = false → u.cur.chunk.committing = false →
      u.cur.chunk.begun = true → Config.chunkClocks + 4096 ≤ u.clock - u.cur.chunk.clock0 →
      exec (.sigGapTimeout k) s = .next (u.sigGap.takeStop.state.focus s.cur.key)) ∧
    (c ≠ Cause.pageMiss → exec (.controlWordFetchFault c) s =
      .next (let p := s.makePoison c s.cur.regs.cpc.toNat 0 true 0
             p.1.teamStops tsFault p.2))

/-! ## Lines, links, watches (R22, R23, R91, R97, R98, R101, R367, R368) -/

/-- R91, R97, R101, R22, R23: a place answers the oldest request of a core and the reply enters the L1; a snoop writes the peer's modified copy back and clears
that peer's filter bit; a watch that times out lets its group go on; the patrol scrubber corrects and counts a correctable error, and poisons a bad line that no copy holds. -/
def lineEventsComplete : Prop :=
  ∀ (s v : State) (core peer l : Nat) (q : LReq) (qs : List LReq) (r : LReply) (rs : List LReply) (g : Grant) (b : BLine),
    ((s.coreAt core).reqs = q :: qs → (s.onCore core fun c => { c with reqs := qs }).grant core q.asid q.line q.vc q.hint = (v, .ok g) →
      exec (.lineRequest core) s =
        .next (v.onCore core fun c => { c with replies := c.replies ++ [⟨q, g.view.x, g.view.data, g.wts, g.rts⟩] })) ∧
    ((s.coreAt core).replies = r :: rs →
      let u := s.onCore core fun c => { c with replies := rs }
      ((u.coreAt core).uCopy? r.req.line = none →
        exec (.fillReply core) s = .next (u.install core r.req.tag ⟨⟨r.data, r.x⟩, r.wts, r.rts⟩)) ∧
      (((u.coreAt core).uCopy? r.req.line).isSome = true → exec (.fillReply core) s = .next (u.raisePts core r.wts))) ∧
    ((s.filters.any fun f => f.peer == peer && f.region == l / 32 && f.mask.getLsbD (l % 32)) = true →
      let t := s.fold l
      (t.bank? l = some b → b.st = .m → shareDie b.share = peer → isPool l = false → exec (.snoop peer l) s =
        .next (((t.dramPut l b.data).putBank { b with st := .s, dirty := false }).filterClearFor (fun p => p == peer) l)) ∧
      ((∀ b, t.bank? l = some b → b.st ≠ .m ∨ shareDie b.share ≠ peer ∨ isPool l = true) →
        exec (.snoop peer l) s = .next (t.filterClearFor (fun p => p == peer) l))) ∧
    (exec (.watchTimeout core) s =
      .next (({ s with watches := s.watches.filter fun w => w.gkey != core } : State).unwatch core)) ∧
    (s.ue = [l] →
      let t := (s.soft.filter fun x => x / 512 == l / 512 && !s.ue.contains x).foldl State.correct s
      (t.bank? l = none → exec (.patrolScrub (l / 512)) s = .next ((t.dramPoison l).faultEvent 6 11 l)) ∧
      (t.bank? l = some b → b.st = .s → exec (.patrolScrub (l / 512)) s =
        .next (((t.putBank { b with st := .m, dirty := true }).refilter { b with st := .m, dirty := true }).faultEvent 6 10 l)) ∧
      (t.bank? l = some b → b.st ≠ .s → exec (.patrolScrub (l / 512)) s = .next (t.faultEvent 6 10 l))) ∧
    (s.ue = [] → s.soft = [l] → exec (.patrolScrub (l / 512)) s = .next (({ s with soft := [] } : State).faultEvent 6 16 (dramSite (l * 128)).code))

/-- R367, R368: a link whose lanes fail falls one step and retrains, is down below the last step, and is up again when retraining completes, which answers
every LINK message that asked for it (R388); a replayed flit is counted. -/
def linkEventsComplete : Prop :=
  ∀ (s : State) (n : Nat) (p : Port), n < 30 → s.ports = [p] → p.n = n →
    exec (.linkLaneFailure n) s =
      .next (({ s with ports := [{ p with level := min 4 (p.level + 1), retraining := decide (p.level + 1 < 4) }] } : State).faultEvent 6 8 n) ∧
    exec (.linkRetrainComplete n) s =
      .next ((List.range p.owed).foldl (fun t _ => t.emit (.answer 7 0 0)) { s with ports := [{ p with retraining := false, owed := 0 }] }) ∧
    exec (.flitCrcReplay n) s = .next (({ s with ports := [{ p with replays := p.replays + 1 }] } : State).faultEvent 6 9 n) ∧
    (s.dev = .running → s.hasPartner n = true → exec (.link n) s = .next { s with ports := [{ p with level := 0, retraining := true, owed := p.owed + 1 }] })

/-- R22, R23, R91, R97, R101, R363, R367, R368: the events of cache lines, of scrubbing and of links. The model's own reading or choice in it:
logs 74, 80 and 82; what a watch that times out does to the overflow of its table (log 83); the level, the retraining and the owed answer of LINK
(log 69): those clauses are the model's choice. -/
def Obligations.LinesAndLinksComplete : Prop := lineEventsComplete ∧ linkEventsComplete

/-! ## The fabric (R55, R265, R275, R277, R359, R364 to R367, R370, R371, R373, R374, R377, R401) -/

/-- A request that this chip serves: it is for this chip and carries no gang key, its window is registered, admits its source, kind and range, and belongs to a live
context, and its address translates. -/
def served (s t : State) (q : Req) (w : Window) (va : Nat) (p : Phys) : Prop :=
  q.dst = s.chip ∧ q.gang = none ∧ s.window? q.win = some w ∧ windowVa w q = some va ∧ s.liveCtx w.asid = true ∧ s.remoteXlate w va q.body = (t, .ok p)

/-- The response that goes back. -/
def responds (s : State) (q : Req) (cause : Cause) (x : Bool) (data : List Byte) : State :=
  let old : Bool := match q.body with
    | .atomic _ _ _ _ => true
    | _ => false
  let r : Resp := { id := q.id, cause := cause, x := x, data := data, old := old, src := s.chip, dst := q.src, asid := q.asid }
  if q.src == s.chip then s.later (answerTo q r) else s.toChip .response q.src q.asid (.resp r)

/-- R55, R275, R277, R351, R364, R370, R374, R377: a request for another chip is passed on. A served read answers with its bytes, a put writes its line and
counts, an atomic writes the new value and answers with the old, a reduction combines its elements and counts; a change whose line's arbiter does not admit
it is held; a request whose window does not admit it changes no memory and answers PERM. -/
def remoteRequestsComplete : Prop :=
  ∀ (s t u : State) (q : Req) (w : Window) (va : Nat) (p : Phys),
    (q.dst ≠ s.chip → s.arrive q = s.passOn (reqHdr q) (.req q)) ∧
    (∀ (n : Nat) (bs : List Byte), q.body = .read n → served s t q w va p → t.peekBytes p.pa n (some p.vc) = (u, bs, none) →
      exec (.fabricReadRequest q) s = .next (responds u q 0 false bs)) ∧
    (∀ (bs : Mem) (x : Option Cause) (time : Nat), q.body = .put bs x → served s t q w va p → t.lineHeld none (.mem (p.pa / 128)) = false →
      t.engineWrite none (p.pa / 128) p.vc bs (x.map bareToken) = (u, time) →
      (x.isSome = true ∨ u.lineX (p.pa / 128) = none → exec (.putReceive q) s = .next (responds (u.countTarget q.win time) q 0 false [])) ∧
      (∀ k, x = none → u.lineX (p.pa / 128) = some k →
        exec (.putReceive q) s = .next (responds (u.countTarget q.win time) q (lineCause k) true []))) ∧
    (∀ (fn : BitVec 4) (ty : Ty) (a b : BitVec 64) (d : Mem), q.body = .atomic fn ty a b → served s t q w va p →
      t.lineHeld none (.mem (p.pa / 128)) = false → (t.countRmw (p.pa / 128) p.vc).rmwRead (p.pa / 128) p.vc = (u, ⟨d, none⟩) →
      let old := memNat d (p.pa % 128) (tyBytes ty)
      let v := u.writePlace (p.pa / 128) p.vc (cellsAt (p.pa % 128) (toBytes (tyBytes ty) (atomOp fn.toNat ty old a.toNat b.toNat))) none
        (t.nextTime (p.pa / 128) p.vc)
      exec (.remoteAtomicReceive q) s =
        .next (responds (v.countTarget q.win (t.nextTime (p.pa / 128) p.vc)) q 0 false (toBytes (tyBytes ty) old))) ∧
    (∀ (fn : BitVec 4) (ty : Ty) (els : List (Nat × BitVec 64)), q.body = .red fn ty els → served s t q w va p →
      t.lineHeld none (.mem (p.pa / 128)) = false →
      (t.countRmw (p.pa / 128) p.vc).reduceAt (p.pa / 128) p.vc fn ty (els.map fun e => (e.1, e.2.toNat)) (t.nextTime (p.pa / 128) p.vc) = (u, none) →
      exec (.remoteRedReceive q) s = .next (responds (u.countTarget q.win (t.nextTime (p.pa / 128) p.vc)) q 0 false [])) ∧
    (∀ (bs : Mem) (x : Option Cause), q.body = .put bs x → served s t q w va p → t.lineHeld none (.mem (p.pa / 128)) = true →
      exec (.putReceive q) s = .next { t with engHeld := true }) ∧
    (q.dst = s.chip → q.gang = none → s.window? q.win = some w → windowVa w q = none → (∀ x, q.body ≠ .slotOpen x) → (∀ x, q.body ≠ .slotJoin x) →
      s.arrive q = responds s q Cause.perm false [])

/-- R265, R275, R359, R366, R367, R377, R401: a response for this chip ends its request: an acknowledged write counts in COUNT of the origin's window, a
refused one in ERR, and the load that waited takes its bytes and its stream goes on; a time-out counts as a failure, unless a hold response has begun its
limit again. A response that nothing waits for changes nothing. -/
def responsesComplete : Prop :=
  ∀ (s : State) (r : Resp) (o : OutReq) (ks : List Nat) (win : BitVec 12) (asid : BitVec 16) (k : Nat) (g : Group) (d : BitVec 6) (va : BitVec 64)
    (f : FRead),
    let u : State := { s with outReqs := s.outReqs.filter fun p => p.q.id != r.id }
    (s.outReqs = [o] → o.q.id = r.id → o.owner = .write ks win asid →
      (r.dst = s.chip → exec (.putAckReceive r) s = .next (u.countOrigin win asid (r.cause != 0 && !r.x))) ∧
      (o.held = false → exec (.requestTimeout r.id) s = .next (u.countOrigin win asid true)) ∧
      (o.held = true → exec (.requestTimeout r.id) s = .next { s with outReqs := [{ o with held := false }] })) ∧
    (r.dst = s.chip → s.outReqs.find? (fun o => o.q.id == r.id) = some o → o.owner = .load k → (∃ n, o.q.body = .read n) → s.cur.key = k →
      u.group? k = some g → s.cur.freads = [] → s.cur.phase = .wait (.rload r.id d va) → r.cause = 0 →
      exec (.fabricReadResponse r) s = .next (((u.wrote d (BitVec.ofNat 64 (leNat r.data))).inPhase .run))) ∧
    (r.dst = s.chip → s.outReqs.find? (fun o => o.q.id == r.id) = none →
      exec (.fabricReadResponse r) s = .next s ∧ exec (.putAckReceive r) s = .next s ∧ exec (.atomicResponse r) s = .next s) ∧
    (r.dst ≠ s.chip → let on : Ans := .next (s.passOn (respHdr r) (.resp r))
      exec (.fabricReadResponse r) s = on ∧ exec (.putAckReceive r) s = on ∧ exec (.atomicResponse r) s = on) ∧
    (r.dst = s.chip → s.outReqs.find? (fun o => o.q.id == r.id) = some o → o.owner = .load k → (∃ fn ty a b, o.q.body = .atomic fn ty a b) →
      s.cur.key = k → u.group? k = some g → s.cur.freads = [f] → f.id = r.id →
      exec (.atomicResponse r) s = .next (((u.countOrigin o.q.win o.q.asid (r.cause != 0 && !r.x)).landLane f r).focus k))

/-- R366, R373, R401: a held request is answered with a hold response, which starts its limit again; one that must retry waits and then leaves again;
an entry of the write-combining buffer that has reached its age leaves as one put. -/
def requestTimersComplete : Prop :=
  ∀ (s : State) (id : Nat) (q : Req) (o : OutReq) (core n : Nat) (e : Wcb) (m : RespTo),
    (s.holds = [q] → q.id = id →
      (q.src = s.chip → exec (.holdResponseTimer id) s = .next (s.later (.holdResponseReceive ⟨⟨.response, 1, s.chip, q.src, q.asid⟩, id⟩))) ∧
      (q.src ≠ s.chip → exec (.holdResponseTimer id) s = .next (s.toChip .response q.src q.asid (.hold id)))) ∧
    (m.h.dst ≠ s.chip → exec (.holdResponseReceive m) s = .next (s.passOn m.h (.hold m.id)) ∧
      exec (.retryResponseReceive m) s = .next (s.passOn m.h (.retry m.id))) ∧
    (s.outReqs = [o] → o.q.id = id →
      (m.h.dst = s.chip → m.id = id →
        exec (.holdResponseReceive m) s = .next { s with outReqs := [{ o with held := true }] } ∧
        exec (.retryResponseReceive m) s = .next { s with outReqs := [{ o with waiting := true, held := false }] }) ∧
      (o.waiting = true → exec (.retryResend id) s = .next (({ s with outReqs := [{ o with waiting := false }] } : State).depart o.q))) ∧
    ((s.coreAt core).wcb[n]? = some e → exec (.wcbAgeExpiry core n) s =
      .next ((s.onCore core fun c => { c with wcb := c.wcb.filter fun x => x != e }).sendWrite (.write e.gkeys e.win e.asid) e.asid e.gang e.chip e.win
        false (e.line * 128) (.put e.bytes none)))

/-- R55, R265, R275, R277, R351, R359, R366, R367, R370, R373, R374, R377, R401: remote requests that arrive, their responses, and their
timers. The model's own reading or choice in it: logs 54, 55, 59, 78, 86 and 93; that a response which nothing waits for changes nothing is the
model's own reading (log 75). -/
def Obligations.FabricEventsComplete : Prop := remoteRequestsComplete ∧ responsesComplete ∧ requestTimersComplete

/-! ## Teams and gangs (R389 to R391, R397 to R401, R406, R408, R409) -/

/-- A team's completion record and its count (R408, R409): the record is written at its place, the team is forgotten and counted in its launch. -/
def teamEnded (s t u : State) (l : Launch) (x : Team) (e : EndSt) (p : Phys) (time : Nat) : Prop :=
  s.translate (s.frontXl x.asid) ((l.lrec.crec.toNat + 16 * (x.gang.toNat * l.lrec.teams + x.num.toNat)) % 2 ^ 64) .write = (t, .ok p) ∧
  t.lostDies.contains (t.home (p.pa / 128)) = false ∧
  t.putAt none p (toBytes 4 (e.status.toNat + 2 ^ 8 + e.grp.toNat <<< 16) ++ toBytes 4 e.token.toNat ++ toBytes 8 (e.ltime % 2 ^ 64)) = (u, time) ∧
  u.lineX (p.pa / 128) = none

/-- A gang of one team here that is first in line and finds a core: the team stands on that core, its frames at the first free slot, and its
launch goes on to its next gang. The core had room for its groups, for its scratch and for its frames (R398). -/
def gangAdmission : Prop :=
  ∀ (s u : State) (l : Launch) (ls : List Launch) (n c : Nat),
    (s.launches.find? fun m => m.stop.isSome && decide (m.nextGang < m.lrec.gangs)) = none → s.working = true →
    s.queueOrder.filter s.eligible = l :: ls → l.lrec.here s.chip = [n] → s.place l.lrec = some (u, c) →
    exec .gangAdmit s = .next
      { u with
        nextKey := u.nextKey + 1
        launches := u.launches.map fun m => if m.lid == l.lid then { m with nextGang := m.nextGang + 1, passed := 0 } else m
        teams := u.teams ++
          [{ key := u.nextKey, lid := l.lid, gang := BitVec.ofNat 32 l.nextGang, num := BitVec.ofNat 12 n, asid := l.asid, core := c,
             ngroups := l.lrec.teamg, prio := l.prio, scrSize := roundUp l.lrec.scratch 4096, scratch := [], scrPois := [], scrTs := [],
             placed := true, active := false, started := false, leaving := false, admitted := u.nextKey, activated := 0,
             since := some u.nextKey, quantum := false, frameAt := (u.findSlot l.lrec.slotBytes).getD 0, slotSize := l.lrec.slotBytes,
             endSt := none, recorded := false }] } ∧
    s.admittedOn c + min l.lrec.teamg 32 ≤ 256 ∧ (32 < l.lrec.teamg → s.admittedOn (c + 1) + (l.lrec.teamg - 32) ≤ 256) ∧
    s.scratchUsed c + roundUp l.lrec.scratch 4096 ≤ 524288 ∧ (s.findSlot l.lrec.slotBytes).isSome = true

/-- Group `i` of a team at its start, its number `key`, its chunk opened at clock `now` before number `next` (R130 to R133, R144, R399): CPC at the
entry, w0 the arguments, every other register and predicate 0, all its lanes in EXM, an empty mask stack, the launch's policy with no label, the
system registers of its context, and the system mode for ASID 0 alone. -/
def startedGroup (t : Team) (l : Launch) (c : Ctx) (key next now i : Nat) : Group :=
  let r := l.lrec
  let lanes := if r.shadow then 32 else r.width
  let regs : Regs :=
    { v := List.replicate (8 * (r.vregs / 8)) (List.replicate r.width ⟨0, false⟩), w := ⟨r.args, false⟩ :: List.replicate 63 ⟨0, false⟩,
      p := List.replicate 16 ⟨0, 0, 0⟩, exm := BitVec.ofNat 64 (2 ^ lanes - 1), mask := [], sigr := 0, unchecked := false,
      cpc := (r.cbase + r.entry.setWidth 64) &&& 0x01FFFFFFFFFFFFFC#64, laneq := [], finished := [], tsh := List.replicate 32 0, prio := l.prio }
  { key := key, teamKey := t.key, lid := t.lid, gang := t.gang, team := t.num, grp := BitVec.ofNat 6 i,
    core := if i < 32 then t.core else t.core + 1, width := r.width, user := decide (t.asid ≠ 0), shadow := r.shadow, checked := r.checked,
    launchPrio := l.prio, dflt := r.policy, region := ⟨r.policy, false, 0xFFFFFFFF⟩, crumbLast := 0, faultVa := [], cbase := r.cbase,
    lbase := r.lbase, sysr := ⟨c.asid, c.pt, c.shard, c.crumb⟩, regs := regs, undo := regs, latches := [],
    tiles := List.replicate r.tiles ⟨[], false, 0⟩, accs := List.replicate r.accs ⟨[], false, 0⟩,
    chunk :=
      { reads := [], quar := [], nlane := 0, vw := [], live := [], begun := false, clock0 := now, key0 := next, closing := none, hold := false,
        stop := false, committing := false, pend := [], got := [], arrive := 0, forRun := false, vlines := [] },
    squashes := 0, reserve := none, replays := 0, mism := 0, fracture := false, eng := List.replicate 4 EngSt.fresh, phase := .run,
    stall := false, lstall := false, run := none, freads := [], frame := none, reason := 0, issued := 0, passed := 0 }

/-- A team that fits and has not started becomes active, and its groups start, after what the launching group had committed (R352, R399). -/
def teamStart : Prop :=
  ∀ (s : State) (k : Nat) (x : Team) (l : Launch) (c : Ctx),
    s.team? k = some x → s.canActivate x = true → x.started = false → s.launch? x.lid = some l → s.ctx? x.asid = some c →
    l.lrec.width ∈ [16, 32, 64] → (l.lrec.shadow = true → l.lrec.width = 64) →
    let a := s.onTeam x.key fun t =>
      { t with active := true, started := true, activated := s.nextKey, since := none, quantum := false, leaving := false }
    let b := (if 32 < x.ngroups then [x.core, x.core + 1] else [x.core]).foldl (fun b n => b.raisePts n l.time) { a with nextKey := s.nextKey + 1 }
    let gs := (List.range x.ngroups).map fun i => startedGroup x l c (s.nextKey + 1 + i) (s.nextKey + 1) s.clock i
    exec (.teamActivate k) s = .next
      ((({ b with rest := b.rest ++ gs, nextKey := s.nextKey + 1 + x.ngroups } : State).onLaunch x.lid fun m => { m with started := true }).releaseHeld
        (l.origin, l.olid))

/-- R397, R398, R399, R400, R406, R408, R409: a gang that can be admitted is, its team on the core that its placement finds; a team that fits becomes
active, its groups with the registers, masks and code addresses of a start; a group of a leaving team is saved; a team parked while another waits, or the
least of the active ones when a quantum ends, leaves; an ended team writes its record and is counted. The model's own reading or choice in it: logs
51 and 52. -/
def Obligations.TeamEventsComplete : Prop :=
  gangAdmission ∧ teamStart ∧
  ∀ (s t u : State) (k time : Nat) (x v : Team) (vs : List Team) (g : Group) (l : Launch) (e : EndSt) (p : Phys),
    (s.admitGang = some t → exec .gangAdmit s = .next t) ∧
    (s.team? k = some x → s.canActivate x = true → exec (.teamActivate k) s = .next (s.activate x)) ∧
    (s.group? k = some g → s.team? g.teamKey = some x → x.leaving = true → x.endSt = none →
      exec (.preempt k) s = .next ((((s.focus k).leave).focus s.cur.key).finishLeave g.teamKey)) ∧
    (s.team? k = some x → x.active = true → x.leaving = false → x.endSt = none → (s.groupsOf k).all Group.longParked = true →
      s.teams.any (fun u => u.key != k && u.meets x && s.teamWaits u) = true → exec (.parkedTeamTimeout k) s = .next (s.deactivate k)) ∧
    (s.team? k = some x → s.teamWaits x = true →
      sortBy (fun u => u.prio.toNat * 2 ^ 64 + u.activated)
        (s.teams.filter fun u => u.active && !u.leaving && u.endSt.isNone && u.meets x && u.prio.ule x.prio) = v :: vs →
      exec (.quantumExpiry k) s = .next ((s.onTeam k fun t => { t with quantum := true, since := t.since <|> some t.admitted }).deactivate v.key)) ∧
    (s.team? k = some x → s.teamDone x = true → x.endSt = some e → s.launch? x.lid = some l → teamEnded s t u l x e p time →
      exec (.teamComplete k) s = .next (((u.countEnd l (e.status != tsOk) time).dropTeam x).countTeam l))

/-- R390, R391: an acknowledgement of a gang's launch is noted, a refusal or a time-out aborts the gang, an abort is told again to the chips
that have not acknowledged it, a chip that hears of it aborts and acknowledges, and the key expires. The model's own reading or choice in
it: log 50. -/
def Obligations.GangEventsComplete : Prop :=
  ∀ (s : State) (lid : BitVec 32) (h : Hdr) (origin : BitVec 8) (st : BitVec 8) (g : GangSt),
    (s.gangs = [g] → g.lid = lid → g.aborted = false →
      (h.dst = s.chip → (exec (.gangAckReceive lid h 0) s =
        .next { s with gangs := ([{ g with left := g.left.filter fun c => c != h.src }] : List GangSt).filter fun h => h.lid != lid || !h.left.isEmpty }) ∧
        (st ≠ 0 → exec (.gangAckReceive lid h st) s = .next (s.abortGang lid))) ∧
      exec (.gangTimeout lid) s = .next (s.abortGang lid) ∧
      s.abortGang lid = (g.chips.foldl (fun (s : State) c => s.toChip .request c g.asid (.gangAbort lid)) { s with gangs := [{ g with left := g.chips, aborted := true }] }).abortHere
        (s.chip, lid)) ∧
    (s.gangs = [g] → g.lid = lid → g.aborted = true →
      exec (.gangAbortResend lid) s = .next (g.left.foldl (fun (s : State) c => s.toChip .request c g.asid (.gangAbort lid)) s)) ∧
    (h.dst = s.chip →
      exec (.gangAbortReceive h lid) s = .next ((s.abortHere (h.src, lid)).toChip .response h.src h.asid (.gangAck lid tsAborted))) ∧
    (h.dst ≠ s.chip → exec (.gangAbortReceive h lid) s = .next (s.passOn h (.gangAbort lid)) ∧
      exec (.gangAckReceive lid h st) s = .next (s.passOn h (.gangAck lid st))) ∧
    (origin ≠ s.chip → exec (.gangKeyExpiry origin lid) s = .next { s with abortKeys := s.abortKeys.filter fun k => k != (origin, lid) })

/-- Where the parts of a group stand in its frame (R140 to R142). -/
def frameLayout : Prop :=
  ∀ (g : Group) (pts reason : Nat) (cause : BitVec 32), g.Framed → g.AtBoundary →
    let m := g.frameImage pts reason cause
    let vec := 4 * g.regs.v.length * g.width
    let tile0 := 0x1000 + roundUp (vec + g.regs.v.length * g.width / 8) 4096
    let acc0 := tile0 + 16384 * g.tiles.length
    memNat m 0x00 8 = 1 + g.width * 2 ^ 8 + b2n g.shadow * 2 ^ 16 + b2n g.checked * 2 ^ 17 + b2n (!g.user) * 2 ^ 18 + reason % 8 * 2 ^ 20 +
      (acc0 + 65536 * g.accs.length) * 2 ^ 32 ∧
    memNat m 0x08 8 = g.regs.cpc.toNat ∧
    (∀ b, g.regs.laneq.head? = some b →
      memNat m 0x10 8 = (if b.begun then b.lpc.toNat + b.left * 2 ^ 20 else 0) + g.regs.laneq.length * 2 ^ 32) ∧
    memNat m 0x18 8 = pts % 2 ^ 64 ∧ memNat m 0x28 8 = g.crumbLast.toNat ∧ memNat m 0x30 8 = cause.toNat ∧
    memNat m 0x38 8 = g.regs.v.length + g.tiles.length * 2 ^ 16 + g.accs.length * 2 ^ 24 + g.regs.prio.toNat * 2 ^ 32 ∧
    (∀ (k : Nat) (b : LBlock), g.regs.laneq[k]? = some b → memNat m (0x40 + 4 * k) 4 = b.start.toNat + b.nruns % 32 * 2 ^ 20 + 2 ^ 31) ∧
    (∀ (i : Nat) (e : EngSt), g.eng[i]? = some e → memNat m (0x100 + 8 * i) 8 = e.openNum.toNat + e.closedNum.toNat * 2 ^ 32 ∧
      memNat m (0x270 + 8 * i) 8 = match e.cursor with | some a => a | none => 2 ^ 63) ∧
    (∀ (i : Nat) (b : BitVec 20), g.regs.tsh[i]? = some b → memNat m (0x120 + 4 * i) 4 = b.toNat) ∧
    (∀ (i : Nat) (e : UElem), g.regs.w[i]? = some e → memNat m (0x900 + 8 * i) 8 = e.val.toNat ∧ bit (memNat m 0xB00 8) i = e.poison) ∧
    (∀ (i : Nat) (p : PReg), g.regs.p[i]? = some p → memNat m (0xB40 + 8 * i) 8 = p.bits.toNat ∧ memNat m (0xBC0 + 8 * i) 8 = p.pois.toNat ∧
      memNat m (0x230 + 4 * i) 4 = p.token.toNat) ∧
    memNat m 0xC40 8 = g.regs.exm.toNat ∧ memNat m 0xC48 8 = g.regs.mask.length ∧
    (∀ (i : Nat) (e : MaskEntry), g.regs.mask[i]? = some e → memNat m (0xC50 + 16 * i) 8 = e.saved.toNat ∧ memNat m (0xC58 + 16 * i) 8 = e.pending.toNat) ∧
    memNat m 0xE80 8 = g.regs.sigr.toNat ∧ memNat m 0xE98 8 = min 16 g.regs.finished.length ∧
    (∀ (i : Nat) (b : BitVec 64), i < 16 → g.regs.finished[i]? = some b → memNat m (0xEC0 + 8 * i) 8 = b.toNat) ∧
    (∀ (n i : Nat) (r : List VElem) (e : VElem), g.regs.v[n]? = some r → r[i]? = some e →
      memNat m (0x1000 + 4 * (n * g.width + i)) 4 = e.val.toNat ∧
      bit (memNat m (0x1000 + vec + (n * g.width + i) / 8) 1) ((n * g.width + i) % 8) = e.poison) ∧
    (∀ (i : Nat) (b : Block), g.tiles[i]? = some b → memSlice m (tile0 + i * 16384) 16384 = b.data ∧
      memNat m (0x700 + 8 * i) 8 = b.token.toNat + b2n b.poison * 2 ^ 32) ∧
    ∀ (i : Nat) (b : Block), g.accs[i]? = some b → memSlice m (acc0 + i * 65536) 65536 = b.data ∧
      memNat m (0x800 + 8 * i) 8 = b.token.toNat + b2n b.poison * 2 ^ 32

/-- A group that a frame is written of comes back from it: every saved register and field is that of the save, latches and a run are gone, and where its
team stayed active it keeps its own tiles and accumulators. A frame of another VERSION, WIDTH, V, T or A gives no group (R143). -/
def framesGiveBack : Prop :=
  (∀ (g h : Group) (pts reason : Nat) (cause : BitVec 32) (full : Bool), g.Framed → g.AtBoundary →
    h.width = g.width → h.regs.v.length = g.regs.v.length → h.tiles.length = g.tiles.length → h.accs.length = g.accs.length →
    h.eng.length = g.eng.length → h.regs.laneq.map LBlock.dests = g.regs.laneq.map LBlock.dests →
    h.regs.finished.drop 16 = g.regs.finished.drop 16 →
    h.ofImage (g.frameImage pts reason cause) full = some { h with
      regs := g.regs, undo := g.regs, shadow := g.shadow, checked := g.checked, user := g.user, region := g.region, crumbLast := g.crumbLast
      eng := (h.eng.zip g.eng).map fun e => { e.1 with openNum := e.2.openNum, closedNum := e.2.closedNum, cursor := e.2.cursor }
      tiles := if full then g.tiles else h.tiles, accs := if full then g.accs else h.accs
      latches := [], run := none, freads := [], stall := false, lstall := false }) ∧
  ∀ (h : Group) (m : Mem) (full : Bool),
    bits (memNat m 0 8) 0 8 ≠ 1 ∨ bits (memNat m 0 8) 8 7 ≠ h.width ∨ bits (memNat m 0x38 8) 0 9 ≠ h.regs.v.length ∨
      bits (memNat m 0x38 8) 16 6 ≠ h.tiles.length ∨ bits (memNat m 0x38 8) 24 4 ≠ h.accs.length → h.ofImage m full = none

/-- What the save of a group writes and what its return reads (R140, R143): whole lines of its place in its team's slot, as engine commits in VC 254. A
frame that cannot be read, or gives no group, ends the team with FAULT. -/
def framesAreSavedAndRead : Prop :=
  ∀ (s t : State) (x : Team) (h : Group) (m : Mem) (bad full : Bool) (a reason : Nat) (cause : BitVec 32),
    (s.team? s.cur.teamKey = some x →
      let at_ := x.frameAt + s.cur.grp.toNat * (0x1000 + vecArea 256 s.cur.width + s.cur.tiles.length * 16384 + s.cur.accs.length * 65536)
      let img := s.cur.frameImage (s.pts s.cur.core) reason cause
      let u := (List.range (s.cur.frameSize / 128)).foldl (fun u i =>
        (u.engineWrite none (at_ / 128 + i) 254 (cellsAt 0 (memBytes (memSlice img (i * 128) 128) 0 128)) none).1) s
      s.saveFrame reason cause = { u with cur := { u.cur with frame := some at_, reason := reason } }) ∧
    (s.cur.frame = some a → s.readImage a s.cur.frameSize = (t, m, bad) →
      (bad = false → t.cur.ofImage m full = some h → s.resumeFrame full =
        ((({ t with cur := { h with frame := none, reason := 0 } } : State).raisePts h.core (memNat m 0x18 8)).inPhase .run).newChunk) ∧
      (bad = true ∨ t.cur.ofImage m full = none → s.resumeFrame full = t.endHere tsFault 0))

/-- R140, R141, R142, R143, R389: the frame of a group holds its registers at the places of the table, a group comes back from it whole, and no other frame
gives one; RESUME lets a group that stands at its `brk` or `sysc` go on from its frame, WITHDRAW stops every named launch and answers when they have
gone. The model's own reading or choice in it: logs 24, 25, 49, 84 and 85. -/
def Obligations.ResumeAndWithdrawComplete : Prop :=
  frameLayout ∧ framesGiveBack ∧ framesAreSavedAndRead ∧
  ∀ (s : State) (asid : BitVec 16) (lid gang : BitVec 32) (team : BitVec 12) (grp : BitVec 6) (t : Team) (l : Launch),
    s.dev = .running → (asid = 0 ∨ (s.ctx? asid).isSome = true) →
    ((s.cur.phase = .parked .brk ∨ s.cur.phase = .parked .sysc) → s.cur.lid = lid → s.cur.gang = gang → s.cur.team = team → s.cur.grp = grp →
      s.team? s.cur.teamKey = some t → t.asid = asid →
      (s.activeTeam s.cur.teamKey = true →
        exec (.resume asid lid gang team grp) s = .next (((s.resumeFrame false).focus s.cur.key).emit (.answer 14 0 0))) ∧
      (s.activeTeam s.cur.teamKey = false →
        exec (.resume asid lid gang team grp) s = .next ((s.onGroup s.cur.key fun g => { g with phase := .run }).emit (.answer 14 0 0)))) ∧
    (s.launches = [l] → l.asid = asid → l.lid = lid →
      exec (.withdraw asid lid false) s = .next ((({ s with withdrawals := s.withdrawals ++ [⟨[lid], (l.lrec.gangs - l.nextGang) * (l.lrec.here s.chip).length +
        (s.teams.filter fun t => t.lid == lid && t.endSt.isNone).length⟩] } : State).withdrawLaunch l).answerWithdrawals))

/-! ## Messages of the host, migration, containment, bring-up (R25 to R31, R369 to R371, R376, R382, R388, R389, R411 to R415, R425 to R429) -/

/-- R363, R369 to R371, R376, R382, R388, R390: the messages about contexts, windows, peers, counters and the configuration change what they name
and answer OK; a window keeps its counters when it is written again, and the answer waits for the requests admitted before; a peer's sequence counts start
again; a link with a partner retrains and owes its answer, one without is refused. That a link retrains from step 0 and answers when it is up is the model's own
reading: log 69; the model's own reading or choice in the rest: logs 68 and 102. -/
def Obligations.ContextMessagesComplete : Prop :=
  ∀ (s : State) (asid res : BitVec 16) (pt crumb shard v : BitVec 64) (n : BitVec 12) (desc : List Byte) (p : Peer) (owner : Option (BitVec 16))
    (w old : Window) (x : Ctx) (wc : BitVec 8) (le : BitVec 24) (pb : BitVec 5) (b : Bool) (ms g port : Nat), s.dev = .running →
    (asid ≠ 0 → s.ctx? asid = none → 2 ≤ res.toNat → exec (.ctxcreate asid pt crumb shard res) s =
      .next (({ s with ctxs := s.ctxs ++ [⟨asid, pt &&& 0xFFFFFFFE00000, crumb &&& 0xFFFFFFFFFF01F, shard &&& 0xFFFFFFFFFFFFF, res,
        true, false, false⟩] } : State).answerMsg 1 0 0)) ∧
    (s.ctx? asid = some x → s.launches.any (fun l => l.asid == asid) = false → s.teams.any (fun t => t.asid == asid) = false →
      exec (.ctxdestroy asid) s =
        .next (({ s with ctxs := s.ctxs.filter fun c => c.asid != asid, peers := s.peers.filter fun p => p.asid != asid,
                              counters := s.counters.map fun c => if c.owner == some asid then { c with owner := none } else c, recvs := s.recvs.filter fun v => v.asid != asid,
                              urx := s.urx.filter fun r => r.asid != asid, utx := s.utx.filter fun u => u.asid != asid, netPend := s.netPend.filter fun p => p.asid != asid } : State).answerMsg 2 0 0)) ∧
    (s.windows.find? (fun w => w.n == n) = none → Window.of n desc 0 0 0 = w → (w.valid = true → w.legal = true) →
      s.missed.any (fun m => m.q.win == n) = false → exec (.winset n desc) s = .next (({ s with windows := s.windows ++ [w] } : State).answerMsg 3 0 0)) ∧
    (s.windows.find? (fun w => w.n == n) = some old → Window.of n desc old.target old.origin old.ctime = w → (w.valid = true → w.legal = true) →
      let t : State := { s with windows := s.windows.map fun x => if x.n == n then w else x }
      (s.missed.any (fun m => m.q.win == n) = false → exec (.winset n desc) s = .next (t.answerMsg 3 0 0)) ∧
      (s.missed.any (fun m => m.q.win == n) = true → exec (.winset n desc) s = .next { t with winAnswers := s.winAnswers ++ [n] })) ∧
    (s.ctx? asid = some x → (p.payload.all fun k => [1024, 2048, 4096, 8192].contains k) = true → exec (.peerset asid n p) s =
      .next (({ s with nextKey := s.nextKey + 1, peers := (s.peers.filter fun q => !(q.asid == asid && q.n == n)) ++
        [⟨asid, n, p, s.nextKey, 0, 0, false⟩] } : State).answerMsg 4 0 0)) ∧
    ((∀ a, owner = some a → (s.ctx? a).isSome = true) → exec (.cntrset n owner v) s =
      .next (({ s with counters := (s.counters.filter fun c => c.n != n) ++ [⟨n, owner, v, 0⟩] } : State).answerMsg 5 0 0)) ∧
    exec (.config (.wcbage wc)) s = .next (({ s with wcbage := wc } : State).answerMsg 6 0 0) ∧
    exec (.config (.lease le)) s = .next ((s.writeLease (le.setWidth 64)).answerMsg 6 0 0) ∧
    exec (.config (.placeb pb)) s = .next (({ s with placeb := pb } : State).answerMsg 6 0 0) ∧
    (s.ctx? asid = some x →
      exec (.config (.demotion asid b)) s = .next ((s.onCtx asid fun c => { c with inPlace := b }).answerMsg 6 0 0) ∧
      exec (.config (.debug asid b)) s = .next ((s.onCtx asid fun c => { c with debug := b }).answerMsg 6 0 0)) ∧
    (1 ≤ ms → ms ≤ 1000 → exec (.config (.gangTimeout ms)) s = .next (({ s with gangMs := ms } : State).answerMsg 6 0 0)) ∧
    (g ∈ [1600, 800, 400, 100] → exec (.config (.etherRate g)) s = .next (({ s with etherGbps := g } : State).answerMsg 6 0 0)) ∧
    (s.hasPartner port = true → exec (.link port) s = .next (s.onPort port fun p => { p with level := 0, retraining := true, owed := p.owed + 1 })) ∧
    (s.hasPartner port = false → exec (.link port) s = .next (s.answerMsg 7 ansBadarg 0))

/-- The bring-up of `r` succeeds on a package with this flash (R425): the boot image's digest is right and every test passes. -/
def bringUpWorks (s : State) (r : BringUp) : Bool :=
  ((bootFlash s.fwNew s.flash).find? fun x => x.1).any (fun x => Sha.sha256 x.2.1 == x.2.2) && r.selfTestOk && r.dieLinksOk && r.hbmOk

/-- What R18 and R425 leave after bring-up: no context, launch or team; running where every step worked and the safe state where not; DRAM and its poison
syndromes, the flash banks as they booted, the DDR-5 channels with what they hold together, the chip's place in its domain, its ports at the steps they
trained to, and with the safe state Ethernet at 100 Gb/s under the address in flash. What the host has sent still waits. -/
def broughtUp (s t : State) (r : BringUp) : Prop :=
  t.dev = (if bringUpWorks s r then .running else .safe) ∧ t.etherGbps = (if bringUpWorks s r then (if etherRates.contains r.etherGbps then r.etherGbps else 1600) else 100) ∧ t.ctxs = [] ∧ t.launches = [] ∧
  t.teams = [] ∧ t.dram = s.dram ∧ t.synd = s.synd ∧ t.flash = bootFlash s.fwNew s.flash ∧ t.channels = r.channels ∧
  t.ddrCap = min ((ddrUsable r.channels).getD 0) 0x40000000000 ∧ t.chip = r.chip ∧ t.rows = min 16 (max 1 r.rows) ∧ t.cols = min 16 (max 1 r.cols) ∧ t.badCores = r.badCores ∧
  t.badShares = r.badShares ∧ t.per254 = framesOf r ∧ t.ports = (r.ports.filter fun p => decide (p.1 < 30)).map (fun p => ⟨p.1, min 4 p.2, false, 0, 0⟩) ∧
  t.etherAddr = (if bringUpWorks s r then r.etherAddr else s.flashAddr) ∧ t.flashAddr = s.flashAddr ∧ t.agenda = s.agenda.filter fromHost

/-- The codes of the device's state and of its power state that STATUS answers. -/
def statusCodes (s : State) : Nat × Nat :=
  (match s.dev with
   | .running => 0
   | .safe => 1
   | .closing => 2
   | .off => 2,
   match s.power with
   | .p0 => 0
   | .p1 => 1
   | .p2 => 2
   | .p3 => 3
   | .s1 => 4
   | .s2 => 5
   | .off => 6)

/-- R426 to R429, R411: the device's messages and events. STATUS and REPORT answer what they are asked; RETEST and power-on bring the
package up; FWLOAD fills the inactive bank; POWER changes the power state, and OFF is pending until nothing that the host has sent waits before it, then
keeps the flash alone; over-temperature kills every context and leaves the safe state with DRAM kept; a lost die is contained. The codes of the power states,
when a pending OFF takes effect, what the sensors report and what a bring-up is told are the model's own reading or choice: logs 6, 68, 69, 77, 104 and 105. -/
def Obligations.DeviceMessagesComplete : Prop :=
  ∀ (s : State) (r : BringUp) (img digest : List Byte) (d : Nat) (is : List Instr),
    exec .status s = .next (s.emit (.status (statusCodes s).1 (statusCodes s).2 ((List.range 256).map fun k => Config.temperature k s.clock) s.counts)) ∧
    exec .report s = .next (State.emit { s with log := s.log.drop 64 } (.report (s.log.take 64))) ∧
    (s.dev ≠ .closing → (s.dev = .safe ∨ s.ctxs = []) → (s.hot = true → r.cool = true) →
      ∃ t, exec (.retest r) s = .next (t.answerMsg 10 0 0) ∧ broughtUp s t r) ∧
    (s.dev = .off → ∃ t, exec (.powerOn r) s = .next t ∧ broughtUp s t r) ∧
    exec (.fwload img digest) s =
      .next (({ s with flash := s.flash.map fun b => if b.1 then b else (false, img, digest), fwNew := true } : State).answerMsg 11 0 0) ∧
    (s.dev = .running →
      (∀ p ∈ [Power.p0, .p1, .p2, .p3], exec (.power p) s = .next (({ s with power := p } : State).answerMsg 12 0 0)) ∧
      (s.launches.any Launch.started = false →
        exec (.power .s1) s = .next (({ s with power := .s1 } : State).answerMsg 12 0 0) ∧
        exec (.power .s2) s = .next (({ s.dropBank with power := .s2 } : State).answerMsg 12 0 0)) ∧
      exec (.power .off) s = .next (({ s.diesOff with ctxs := s.ctxs.map (fun c => { c with killed := true }), dev := .closing, power := .off } : State).answerMsg
        12 0 0)) ∧
    (s.dev = .closing → (s.agenda = [] ∨ s.agenda = .powerOn r :: is) →
      ∃ t, s.turn = .quiet t ∧ step s = .next (t.endTurn s false) ∧ t.dev = .off ∧ t.power = .off ∧ t.flash = s.flash ∧ t.flashAddr = s.flashAddr ∧
        t.agenda = s.agenda ∧ t.ctxs = [] ∧ t.teams = [] ∧ t.dram = [] ∧ t.bank = []) ∧
    (s.dev = .running ∨ s.dev = .safe → ∃ t, exec .overtempTrip s = .next t ∧ t.dev = .safe ∧ t.hot = true ∧ t.etherGbps = 100 ∧ t.etherAddr = s.flashAddr ∧
      t.teams = [] ∧ t.launches = [] ∧ t.groups = [Group.blank] ∧ (∀ c ∈ t.ctxs, c.killed = true) ∧ t.dram = s.dram ∧ t.synd = s.synd ∧
      t.agenda = s.agenda.filter fromHost) ∧
    (s.dev = .running → d < 4 → s.lostDies.contains d = false →
      exec (.dieHeartbeatTimeout d) s = .next (s.contain d 1) ∧ exec (.dieLinkRetrainTimeout d) s = .next (s.contain d 2) ∧
      exec (.dieFaultDetected d) s = .next (s.contain d 3))

/-- R25 to R30, R389: PIN and UNPIN change the pinned frames, MIGRATE queues the moves of its pages and owes its answer until they have
started; a wanted move with a free frame begins its copy; the switch takes the entry's P away, wakes the page's watchers and sends the shootdown; at its end the copies
of the page's lines leave, marked lines are copied again and the entry names the new frame. The model's own reading or choice in it: logs 64
and 65. -/
def Obligations.FramesAndMigrationsComplete : Prop :=
  ∀ (s : State) (pa size va : BitVec 64) (asid : BitVec 16) (n a id : Nat) (fs : List Leaf) (q : MigReq) (f : Leaf) (m : Migration),
    (s.dev = .running → frameRange pa size = true →
      exec (.pin pa size) s = .next (({ s with pinned := s.pinned ++ [(pa.toNat, size.toNat)] } : State).answerMsg 16 0 0) ∧
      (s.corePinned.any (fun r => meets r (pa.toNat, size.toNat)) = false → exec (.unpin pa size) s =
        .next (({ s with pinned := s.pinned.flatMap fun r => cutRange r (pa.toNat, size.toNat) } : State).answerMsg 17 0 0))) ∧
    (s.dev = .running → s.liveCtx asid = true → s.ddrCap ≠ 0 → s.pagesFrom asid n va.toNat = some fs →
      fs.any (fun f => s.isPinned f.frame f.size || s.inRunning f || s.movesPage asid f.va) = false →
      exec (.migrate asid va n 1 0) s =
        .next (let qs := fs.map fun f => (⟨.host, asid, BitVec.ofNat 64 f.va, 1, 0, (0, 0)⟩ : MigReq)
               (qs.foldl (fun (s : State) q => s.later (.migrationStart q)) { s with migOwed := s.migOwed ++ [qs] }).payOwed)) ∧
    (s.leaf? q.asid q.va.toNat = some f → f.tier = 1 → f.present = false → q.cause = .demand → s.frameThere f = true → s.frameLost f.frame = false →
      s.migrations.any (fun m => m.covers q.asid q.va.toNat) = false → s.isPinned f.frame f.size = false → s.inRunning f = false →
      s.freeFrame q.tier q.die f.size = some a → exec (.migrationStart q) s = .next (s.beginMove q f a).payOwed) ∧
    (s.migrations = [m] → m.id = id → m.switching = false →
      exec (.migrationSwitch id) s =
        .next (let u := s.setPte m.pte false 0 none
               let on (w : WatchEnt) : Bool := decide (m.src ≤ w.line * 128) && decide (w.line * 128 < m.src + m.size)
               let v := (u.watches.filter on).foldl (fun (t : State) w => t.unwatch w.gkey) { u with watches := u.watches.filter fun w => !on w }
               let b := m.q.va.toNat % 2 ^ 57 / m.size * m.size
               let t := v.broadcast m.q.asid false b (b + m.size)
               { t with migrations := t.migrations.map fun k => if k.id == id then { k with switching := true, shoot := some v.nextKey } else k })) ∧
    (s.migrations = [m] → m.id = id → s.moveReady m = true →
      exec (.migrationDone id) s =
        .next (let inside (l : Nat) : Bool := decide (m.src ≤ l * 128) && decide (l * 128 < m.src + m.size)
               let u := ((s.bank.map BLine.line).filter inside).foldl (fun s l => s.dropLine l) s
               let u : State := { u with cores := u.cores.map fun c => { c with l1 := c.l1.filter fun x => !inside x.line } }
               let u := (((u.migrations.find? fun k => k.id == id).map Migration.marked).getD []).foldl (fun s l => s.moveLine m.src m.dst l) u
               let u := u.setPte m.pte (m.q.tier == 0 || (((u.ctx? m.q.asid).map Ctx.inPlace).getD true)) m.q.tier (some m.dst)
               (State.endMove { u with lastUse := u.lastUse.filter fun x => !inside (x.1 * 512) } id).payOwed))

/-! ## Events of the engines (R104, R115 to R119, R217, R224, R306, R308, R310, R383 to R386, R420, R421, R436) -/

/-- The command that waits at each engine's issue event, and what issuing it does. -/
def engineIssues (k : Nat) (i : Instr) : List (Instr × Bool × (State → Option State)) :=
  [(.copyIssue k, decide (copyRegs i ≠ []), State.issueCopy i), (.matrixIssue k, decide (matrixKind i ≠ 0), State.issueMatrix i),
   (.networkIssue k, decide ((Machine.netCommand i).1 ≠ []), State.issueNet i), (.snapshotIssue k, decide ((Machine.snapCommand i).1 ≠ 0), State.issueSnap i)]

/-- R105, R224, R306, R386: where a command of the engine waits for its issue and there is room, it enters with the operands of its own
place and its group runs on where it stands; without room it waits on. The model's own reading or choice in it: log 2. -/
def Obligations.EngineIssuesComplete : Prop :=
  ∀ (s t : State) (i : Instr) (pc : BitVec 64), s.cur.phase = .wait (.issue i pc) → ∀ e ∈ engineIssues s.cur.key i, e.2.1 = true →
    (e.2.2 (s.goto pc) = some t → t.cur.phase = s.cur.phase →
      exec e.1 s = .next (((t.goto s.cur.regs.cpc).inPhase .run).focus s.cur.key)) ∧
    (e.2.2 (s.goto pc) = none → exec e.1 s = .next s)

/-- Elements of a tile of well-formed shape and of scratch rows at a pitch (R314): element (r, c) is element c of the row at s + r·p, with T element r of the
row at s + c·p; a store gives each row those elements, and each byte of a row, where rows overlap that of one of them, to its address. -/
def tileElements : Prop :=
  ∀ (g : TileGeo) (m d : Mem), g.sh.width ∈ [4, 8, 16, 32] → (g.sh.cols * g.sh.width + 7) / 8 ≤ 128 →
    let b := g.sh.width
    let rb := (g.sh.cols * b + 7) / 8
    (∀ r c, r < g.sh.rows → c < g.sh.cols → bits (memNat (g.load m) (128 * r) rb) (c * b) b =
      if g.t then bits (memNat m (g.s + c * g.p) ((g.sh.rows * b + 7) / 8)) (r * b) b else bits (memNat m (g.s + r * g.p) rb) (c * b) b) ∧
    (∀ k e, k < (if g.t then g.sh.cols else g.sh.rows) → e < (if g.t then g.sh.rows else g.sh.cols) →
      ((g.rowsOf d).getD k []).length = ((if g.t then g.sh.rows else g.sh.cols) * b + 7) / 8 ∧
      bits (leNat ((g.rowsOf d).getD k [])) (e * b) b =
        if g.t then bits (memNat d (128 * e) rb) (k * b) b else bits (memNat d (128 * k) rb) (e * b) b) ∧
    ∀ free : Nat → Nat,
      (∀ x ∈ g.store d free, ∃ (k : Nat) (j : Nat) (row : List Byte), (g.rowsOf d)[k]? = some row ∧ j < row.length ∧ x = (g.s + k * g.p + j, row.getD j 0)) ∧
      ∀ (k j : Nat) (row : List Byte), (g.rowsOf d)[k]? = some row → j < row.length → ∃ x ∈ g.store d free, x.1 = g.s + k * g.p + j

/-- TLD and TST at their end (R314): a load puts scratch into the tile, or poisons it with the cause that was found or with the lowest poisoned word that it
read; a store puts the tile into scratch, or waits for a box. The end of every operation here writes its entry (R310). -/
def tileCommands : Prop :=
  tileElements ∧
  ∀ (s u : State) (n : Nat) (o p : EngOp) (x : BitVec 5) (r q : BitVec 6) (t : Bool) (team : Team) (k : BitVec 32), s.op? n = some o → o.eng = .matrix →
    o.active = true → s.team? o.teamKey = some team →
    let at_ := (o.args.getD 0 0).toNat % 2 ^ 19
    let pitch := (o.args.getD 1 0).toNat % 2 ^ 32
    let poison (u : State) (k : BitVec 32) : State := u.setTile o x { u.tileOf o x with poison := true, token := k }
    (∀ e ∈ [(Instr.tld x r t, 128), (.tldP x r q t, pitch)], o.instr = e.1 →
      let g : TileGeo := ⟨at_, e.2, t, o.shape x⟩
      (∀ c, o.status = c → c ≠ 0 → s.enginePoison o c at_ = (u, k) → exec (.matrixOpEnd n) s = .next ((poison u k).endMatrix o c k)) ∧
      (o.status = 0 →
        (s.foreignLock o 0 false g.segs = true → s.enginePoison o 0x05 at_ = (u, k) → exec (.matrixOpEnd n) s = .next ((poison u k).endMatrix o 0x05 k)) ∧
        (s.foreignLock o 0 false g.segs = false →
          (team.lowestPoison g.segs = some k → exec (.matrixOpEnd n) s = .next ((poison s k).endMatrix o stPoisoned k)) ∧
          (team.lowestPoison g.segs = none → exec (.matrixOpEnd n) s = .next ((s.setTile o x ⟨g.load team.scratch, false, 0⟩).endMatrix o 0 0))))) ∧
    ∀ e ∈ [(Instr.tst x r t, 128), (.tstP x r q t, pitch)], o.instr = e.1 →
      let g : TileGeo := ⟨at_, e.2, t, o.shape x⟩
      let b := s.tileOf o x
      (o.status ≠ 0 → exec (.matrixOpEnd n) s = .next (s.endMatrix o o.status 0)) ∧
      (o.status = 0 → s.boxWaits o = true → exec (.matrixOpEnd n) s = .next (s.keepOp { o with active := false })) ∧
      (o.status = 0 → s.boxWaits o = false →
        (if g.len ≤ g.p ∨ g.nrows = 1 then s else { s with fresh := s.fresh + 2 ^ 19 }).engScrCells o
          (g.store b.data fun a => (Config.freeValue (s.fresh + a)).toNat) (if b.poison then some b.token else none) = (u, p) →
        exec (.matrixOpEnd n) s = .next (u.endMatrix p (if b.poison then stPoisoned else 0) (if b.poison then b.token else 0)))

/-- The sums of the matrix engine (R185, R317): integers add exactly and wrap at 32 bits; other formats add K-group by K-group, the exact sum of a group
rounded to f32 and then added to the accumulator with rounding, a NaN sum giving the canonical NaN and a zero sum nothing. -/
def matrixSums : Prop :=
  (∀ (acc : Nat) (xs ys : List Int),
    accElem 0 acc (xs.map Machine.Num.ofInt) (ys.map Machine.Num.ofInt) = (((acc : Int) + (List.zipWith (· * ·) xs ys).sum) % 4294967296).toNat) ∧
  (∀ (kg acc : Nat) (xs ys : List FVal), 0 < kg → accElem kg acc [] ys = acc ∧
    (xs ≠ [] → ys ≠ [] → accElem kg acc xs ys =
      accElem kg (accStep (kg == 16) acc (List.zipWith Machine.Num.mul (xs.take kg) (ys.take kg))) (xs.drop kg) (ys.drop kg))) ∧
  (∀ (short : Bool) (acc : Nat) (ts : List FVal),
    (groupSum short ts = .nan → accStep short acc ts = 0x7FC00000) ∧
    (Machine.Num.isZero (groupSum short ts) = true → accStep short acc ts = acc) ∧
    (Machine.Num.isNan (groupSum short ts) = false → Machine.Num.isZero (groupSum short ts) = false → accStep short acc ts =
      Machine.Num.toF32 (Machine.Num.add .rne (Machine.Num.decode Machine.Num.f32 acc) (Machine.Num.roundTo Machine.Num.f32 .rne (groupSum short ts))))) ∧
  (∀ (side : MmaSide) (m : Mem) (i k x c : Nat) (codes : List Nat), codes[x]? = some c →
    (side.code = 4 → (side.decode m i k codes)[x]? = some (Machine.Num.ofInt (Machine.Num.intVal .i8x4 c))) ∧
    (side.code = 5 → (side.decode m i k codes)[x]? = some (Machine.Num.ofInt (c % 256 : Nat)))) ∧
  ∀ (m : Mem) (md i k x : Nat) (kept : List Nat), x < k →
    let code (p : Nat) : Nat := bits (memGet m (md + 16 * i + p / 4)).toNat (2 * (p % 4)) 2
    (expandRow m md i k kept).getD x 0 = if code (2 * (x / 4)) = x % 4 then kept.getD (2 * (x / 4)) 0
      else if code (2 * (x / 4) + 1) = x % 4 then kept.getD (2 * (x / 4) + 1) 0 else 0

/-- MMA and MMAS at their end (R317): a poisoned accumulator stays, a cause, a poisoned byte of the format block or a poisoned tile poisons it and its data
stay; else word (i, j) of the product takes the sum over row i of A, expanded for MMAS, and column j of B, and every other word stays. -/
def multiplyCommands : Prop :=
  matrixSums ∧
  ∀ (s u : State) (n : Nat) (o : EngOp) (x y : BitVec 5) (r : BitVec 6) (d : BitVec 3) (k : BitVec 32) (w : Nat × BitVec 32) (ws : List (Nat × BitVec 32)),
    s.op? n = some o → o.eng = .matrix → o.active = true → ∀ e ∈ [(Instr.mma x y r d, false), (.mmas x y r d, true)], o.instr = e.1 →
    let a := s.accOf o d
    let ta := s.tileOf o x
    let tb := s.tileOf o y
    let carried (k : BitVec 32) : Ans := .next ((s.setAcc o d { a with poison := true, token := k }).endMatrix o stPoisoned k)
    (a.poison = true → exec (.matrixOpEnd n) s = .next (s.endMatrix o stPoisoned a.token)) ∧
    (a.poison = false → o.status ≠ 0 → s.enginePoison o o.status 0 = (u, k) →
      exec (.matrixOpEnd n) s = .next ((u.setAcc o d { a with poison := true, token := k }).endMatrix o o.status k)) ∧
    (a.poison = false → o.status = 0 →
      (o.imgPois = w :: ws → exec (.matrixOpEnd n) s = carried w.2) ∧
      (o.imgPois = [] →
        (ta.poison = true → exec (.matrixOpEnd n) s = carried ta.token) ∧
        (ta.poison = false → tb.poison = true → exec (.matrixOpEnd n) s = carried tb.token) ∧
        (ta.poison = false → tb.poison = false →
          let sa := o.shape x
          let sb := o.shape y
          let f := mmaSides o.img ((o.args.getD 0 0).toNat % 2 ^ 19)
          let row (i : Nat) : List Nat := (List.range sa.cols).map fun c => bits (memNat ta.data (128 * i) 128) (c * sa.width) sa.width
          let col (j : Nat) : List Nat := (List.range sb.rows).map fun c => bits (memNat tb.data (128 * c) 128) (j * sb.width) sb.width
          ∃ m, exec (.matrixOpEnd n) s = .next ((s.setAcc o d ⟨m, false, 0⟩).endMatrix o 0 0) ∧
            ∀ i j, i < 128 → j < 128 → memNat m (512 * i + 4 * j) 4 =
              (if i < sa.rows ∧ j < sb.cols then
                accElem ((kGroup f.1 f.2.1).getD 0) (memNat a.data (512 * i + 4 * j) 4)
                  (f.1.decode o.img i sb.rows (if e.2 then expandRow o.img f.2.2 i sb.rows (row i) else row i)) (f.2.1.decode o.img j sb.rows (col j))
              else memNat a.data (512 * i + 4 * j) 4) % 2 ^ 32)))

/-- Lines read one after the other by an operation, up to the first that is poisoned or cannot be read (R115, R318). -/
def linesRead (o : EngOp) : State → List (Nat × Nat) → State × List Byte × Option (BitVec 8 × BitVec 32)
  | s, [] => (s, [], none)
  | s, q :: qs =>
    match s.engRead o q.1 q.2 0 with
    | (t, _, .ok ⟨bs, none⟩) => let r := linesRead o t qs; (r.1, bs ++ r.2.1, r.2.2)
    | (t, _, .ok ⟨_, some k⟩) => (t, [], some (stPoisoned, k))
    | (t, _, .error c) => let r := t.enginePoison o c q.1; (r.1, [], some (c, r.2))

/-- AZR and ALD at their end (R318): every word 0; the 64 KiB from the scratch address; the 64 KiB from the virtual address, line by line. A cause or a poisoned
word poisons the accumulator, and a page that a migration can bring suspends a load from memory. -/
def accumulatorCommands : Prop :=
  ∀ (s u : State) (n va : Nat) (o : EngOp) (r : BitVec 6) (d : BitVec 3) (k : BitVec 32) (team : Team) (bs : List Byte) (st : BitVec 8),
    s.op? n = some o → o.eng = .matrix → o.active = true → s.team? o.teamKey = some team →
    let poison (u : State) (k : BitVec 32) : State := u.setAcc o d { u.accOf o d with poison := true, token := k }
    (o.instr = .azr d → exec (.matrixOpEnd n) s = .next ((s.setAcc o d ⟨[], false, 0⟩).endMatrix o 0 0)) ∧
    (∀ e ∈ [(Instr.ald d r, 0, (o.args.getD 0 0).toNat % 2 ^ 19), (.aldMem d r, 1, (o.args.getD 0 0).toNat)], o.instr = e.1 →
      (o.status ≠ 0 → s.enginePoison o o.status e.2.2 = (u, k) → exec (.matrixOpEnd n) s = .next ((poison u k).endMatrix o o.status k)) ∧
      (o.status = 0 → s.foreignLock o e.2.1 false [(e.2.2, 65536)] = true → s.enginePoison o 0x05 e.2.2 = (u, k) →
        exec (.matrixOpEnd n) s = .next ((poison u k).endMatrix o 0x05 k))) ∧
    (o.instr = .ald d r → o.status = 0 →
      let a := (o.args.getD 0 0).toNat % 2 ^ 19
      s.foreignLock o 0 false [(a, 65536)] = false →
        (team.firstPoison a 65536 = some k → exec (.matrixOpEnd n) s = .next ((poison s k).endMatrix o stPoisoned k)) ∧
        (team.firstPoison a 65536 = none → ∃ m, exec (.matrixOpEnd n) s = .next ((s.setAcc o d ⟨m, false, 0⟩).endMatrix o 0 0) ∧
          ∀ i, i < 65536 → memGet m i = memGet team.scratch (a + i))) ∧
    (o.instr = .aldMem d r → o.status = 0 →
      let a := (o.args.getD 0 0).toNat
      s.foreignLock o 1 false [(a, 65536)] = false →
        (s.firstMovable o .read (vaSegs a 65536) = some va → exec (.matrixOpEnd n) s = .next (s.suspendOp { o with active := false } va)) ∧
        (s.firstMovable o .read (vaSegs a 65536) = none →
          (linesRead o s (vaSegs a 65536) = (u, bs, some (st, k)) → exec (.matrixOpEnd n) s = .next ((poison u k).endMatrix o st k)) ∧
          (linesRead o s (vaSegs a 65536) = (u, bs, none) → ∃ m, exec (.matrixOpEnd n) s = .next ((u.setAcc o d ⟨m, false, 0⟩).endMatrix o 0 0) ∧
            ∀ i, memGet m i = bs.getD i 0)))

/-- The elements of a drain without blocks (R321): words unchanged, or each rounded to the format, saturated as the record says. -/
def drainElements : Prop :=
  ∀ (q : DrainRec) (acc : Mem) (i c : Nat), i < q.rows → c < q.cols → q.row0 + q.rows ≤ 128 → q.col0 + q.cols ≤ 128 →
    let word := memNat acc (512 * (q.row0 + i) + 4 * (q.col0 + c)) 4
    bits (leNat (((q.data .w32 acc).1).getD i [])) (32 * c) 32 = word ∧
    ∀ f ty, drainTy f = some ty → q.scaled f = false →
      let m := Machine.Num.fmtOf ty
      let v := Machine.Num.decode Machine.Num.f32 word
      bits (leNat (((q.data f acc).1).getD i [])) (c * drainBits f) (drainBits f) =
        Machine.Num.encode m (Machine.Num.saturate m (if q.sat then .type else .none) v (Machine.Num.roundTo m (rmOf q.rm) v)) % 2 ^ drainBits f

/-- DRN at its end (R320, R321): the rows of the region to a tile, to scratch or to memory at their pitch, scales and extra values at theirs; all of it
poisoned where the accumulator is; the accumulator zeroed with Z. A bad record or a poisoned one writes nothing; a box keeps it waiting, a page that a migration
can bring suspends it, and a fault in memory ends it there. -/
def drainCommands : Prop :=
  drainElements ∧
  ∀ (s u : State) (n va : Nat) (o p : EngOp) (dk : DrainKind) (d : BitVec 3) (rd rr : BitVec 6) (f : DrainFmt) (z : Bool) (k : BitVec 32)
    (w : Nat × BitVec 32) (ws : List (Nat × BitVec 32)) (c : Cause),
    s.op? n = some o → o.eng = .matrix → o.active = true → o.instr = .drn dk d rd rr f z →
    let rec_ := (o.args.getD 1 0).toNat % 2 ^ 19
    let dest := (o.args.getD 0 0).toNat
    (o.imgPois = w :: ws → exec (.matrixOpEnd n) s = .next (s.endMatrix o stPoisoned w.2)) ∧
    (o.imgPois = [] → o.status = 0x05 → s.enginePoison o 0x05 rec_ = (u, k) → exec (.matrixOpEnd n) s = .next (u.endMatrix o 0x05 k)) ∧
    (o.imgPois = [] → o.status ≠ 0x05 → o.status ≠ 0 → exec (.matrixOpEnd n) s = .next (s.endMatrix o o.status 0)) ∧
    (o.imgPois = [] → o.status = 0 → s.boxWaits o = true → exec (.matrixOpEnd n) s = .next (s.keepOp { o with active := false })) ∧
    (o.imgPois = [] → o.status = 0 → s.boxWaits o = false →
      let q := DrainRec.of o.img rec_
      let a := s.accOf o d
      let out := q.data f a.data
      let places := (q.dests dk f (if dk = .mem then dest else dest % 2 ^ 19)).map Prod.fst
      let parts := (if dk = .tile then [] else out.1) ++ (if q.scaled f then [out.2.1] else []) ++ (if f = .x2m1 then [out.2.2] else [])
      let cells := (places.zip parts).flatMap fun e => cellsAt e.1 e.2
      let lines := splitLines (cells.map fun e => (e.1 % 2 ^ 64, e.2))
      let tok := if a.poison then some a.token else none
      let done (u : State) (p : EngOp) : Ans :=
        .next ((if z then u.setAcc o d ⟨[], false, 0⟩ else u).endMatrix p (if a.poison then stPoisoned else 0) (tok.getD 0))
      (dk = .scratch → s.engScrCells o cells tok = (u, p) → exec (.matrixOpEnd n) s = done u p) ∧
      (dk = .tile → s.engScrCells o cells tok = (u, p) → exec (.matrixOpEnd n) s =
        done (u.setTile p ((o.args.getD 0 0).setWidth 5) (if a.poison then ⟨memOfRows 128 (out.1.map fun b => b.map fun _ => 0), true, a.token⟩
          else ⟨memOfRows 128 out.1, false, 0⟩)) p) ∧
      (dk = .mem →
        (s.firstMovable o .write (lines.map fun e => (e.1 * 128, 128)) = some va →
          exec (.matrixOpEnd n) s = .next (s.suspendOp { o with active := false } va)) ∧
        (s.firstMovable o .write (lines.map fun e => (e.1 * 128, 128)) = none →
          (s.drainMem o tok lines = (u, p, none) → exec (.matrixOpEnd n) s = done u p) ∧
          (s.drainMem o tok lines = (u, p, some c) →
            exec (.matrixOpEnd n) s = .next (u.endMatrix p c (if p.ctime = 0 then 0 else tok.getD 0))))))

/-- R104, R117, R119, R307, R308, R310: a copy moves its next transfer, or ends PARTIAL or with what it carried; a suspended one resumes
after its migration; the first matrix operation that may start occupies its unit and takes effect at its end: R314, R317, R318, R321 say what TLD, TST, MMA, MMAS,
AZR, ALD and DRN put into tiles, accumulators, scratch and memory; a snapshot operation that has taken its last step ends with its count. The model's own reading
or choice in it: logs 53, 66, 67 and 94. -/
def Obligations.EngineStepsComplete : Prop :=
  tileCommands ∧ multiplyCommands ∧ accumulatorCommands ∧ drainCommands ∧
  (∀ (s : State) (o : EngOp) (st : BitVec 8) (k : BitVec 32), ((s.endOp o st 0 k true).group? o.gkey).bind Group.frame = none →
    s.endMatrix o st k = s.endOp o st 0 k true) ∧
  ∀ (s t : State) (n a : Nat) (o p : EngOp) (seg : CSeg) (f : Fetched) (va : BitVec 64) (r : BitVec 6), s.op? n = some o →
    (o.eng = .copy → o.out = 0 → (s.movingCopies o.core).any (fun p => p.id == n) = true →
      (s.copySeg o = none → exec (.copyLineComplete n) s =
        .next (s.endOp o (if o.failed = [] then o.status else stPartial) o.tally o.token true)) ∧
      (s.copySeg o = some seg → o.failed.contains (pieceId seg.piece) = false → seg.tok = none → seg.src = .mem a →
        s.engRead o a seg.n (copyHint o.instr) = (t, p, .ok f) → exec (.copyLineComplete n) s = .next (t.copyLand p seg f)) ∧
      (s.copySeg o = some seg → o.failed.contains (pieceId seg.piece) = false → seg.tok = none → seg.src = .scr a →
        s.engScrRead o a seg.n = (t, p, f) → exec (.copyLineComplete n) s = .next (t.copyLand p seg f))) ∧
    (o.suspended = some va → s.migrating o.sysr.asid va = false → s.opHeld o = false →
      (∀ x, s.team? o.teamKey = some x → x.active = true ∨ x.endSt.isSome = true) →
      exec (.copyResume n) s = .next (s.keepOp { o with suspended := none })) ∧
    (o.eng = .matrix → s.nextMatrix o.core (matrixUnit o.instr) = some p → p.id = n →
      exec (.matrixOpStart n) s = .next (s.keepOp { o with active := true, suspended := none })) ∧
    (o.eng = .matrix → o.active = true →
      exec (.matrixOpEnd n) s = .next (s.runMatrix o)) ∧
    (s.snapReady o = true → o.suspended = none → o.instr = .snap r → s.snapStep o = (t, p, .ok true) →
      exec (.snapshotOpEnd n) s = .next (t.endOp p 0 p.count 0 true))

/-- R217, R381, R383 to R386, R436: no packet above 9,216 bytes is taken; the local part of a read ends with its data; a work request counts in its counter; a packet of a send is
placed in the receive that took its message, acknowledged and counted, a second copy acknowledged alone; a send for which no receive is
posted is refused, which its sender takes as a loss; an acknowledgement of the last packet completes its request, and the third one of a packet above
sends a packet again at once; a packet that is not acknowledged is sent again up to 8 times and then fails its operation and those whose local part to
this peer has not ended. The model's own reading or choice in it: logs 60, 92 and 102. -/
def Obligations.NetworkEventsComplete : Prop :=
  ∀ (s t u : State) (n time : Nat) (o : EngOp) (p : NetPend) (a : BitVec 6) (ok : Bool) (k : UetPkt) (r : URx) (x y : UTx) (c : Ctx)
    (ps : List (Nat × Nat × Phys)) (asid : BitVec 16) (flow : FlowId),
    let there : State := { s with peers := s.peers.map fun e =>
      if e.asid == asid && e.n.toNat == flow.entry && e.gen == flow.gen then { e with lost := false } else e }
    (s.op? n = some o → o.eng = .network → o.instr = .nread a → o.pos = 1 →
      exec (.networkLocalPartEnd n) s = .next (s.endOp o o.status 0 o.token true)) ∧
    (s.op? n = some o → o.eng = .network → o.instr = .nsend a → o.suspended = none →
      exec (.networkLocalPartEnd n) s = .next (s.sendLocal o)) ∧
    (s.netPend.find? (fun q => q.op == n) = some p → s.ownsNet p.asid p.cntr = true →
      exec (.workRequestComplete n ok) s = .next (({ s with netPend := s.netPend.filter fun q => q.op != n,
                                                            utx := s.utx.filter fun u => u.pkt.opId != n } : State).countNet p.cntr (!ok) p.ctime)) ∧
    (9216 < k.len → exec (.uetPacketReceive k) s = .next s) ∧
    (k.kind = 1 → k.ord = false → k.len ≤ 9216 → s.rx? k = some r → (r.done || r.got.contains k.off) = true →
      exec (.uetPacketReceive k) s = .next (s.ackPkt k false)) ∧
    (k.kind = 1 → k.ord = false → k.len ≤ 9216 → s.rx? k = some r → (r.done || r.got.contains k.off) = false →
      s.xlateSegs (s.frontXl r.asid) .write ((r.laddr.toNat + k.off) % 2 ^ 64)
        (lineSegs ((r.laddr.toNat + k.off) % 2 ^ 64) (min k.len (r.room - k.off))) = (t, .ok ps) →
      t.commitSegs ps k.bytes (fun o n => (markOf k.x o n).map bareToken) = (u, time) →
      exec (.uetPacketReceive k) s =
        .next (((u.putRx k (r.placed k time (min k.len (r.room - k.off) < k.len))).ackPkt k false).wholeRx
          (r.placed k time (min k.len (r.room - k.off) < k.len)))) ∧
    (k.kind = 1 → k.ord = false → k.len ≤ 9216 → s.rx? k = none → s.ctxs.find? (fun c => c.res == k.res && !c.killed) = some c →
      (∀ v ∈ s.recvs, v.takes c.asid k = false) → exec (.uetPacketReceive k) s = .next (s.ackPkt k true)) ∧
    (s.utx = [x] → x.asid = asid → x.flow = flow →
      (x.pkt.kind ≠ 4 → s.netPend = [p] → p.op = x.pkt.opId → p.left = [x.pkt.seq] → exec (.uetAckReceive asid flow [x.pkt.seq] false) s =
        .next (({ there with utx := [], netPend := [{ p with left := [] }] } : State).later (.workRequestComplete x.pkt.opId true))) ∧
      (x.pkt.kind = 1 ∨ x.pkt.kind = 2 → exec (.uetAckReceive asid flow [x.pkt.seq] true) s = .next there) ∧
      (x.pkt.seq = n →
        (x.retries < 8 → exec (.uetRetransmitTimeout asid flow n) s =
          .next (({ s with utx := [{ x with retries := x.retries + 1 }] } : State).emit (.uet x.pkt))) ∧
        (8 ≤ x.retries → exec (.uetRetransmitTimeout asid flow n) s = .next ((s.failNet x.pkt.opId Cause.remoteUnreach).failPeer asid flow.entry)))) ∧
    (s.utx = [x, y] → x.asid = asid → y.asid = asid → x.flow = flow → y.flow = flow → x.pkt.seq < y.pkt.seq → y.pkt.kind ≠ 4 → s.netPend = [] →
      (x.above < 2 → exec (.uetAckReceive asid flow [y.pkt.seq] false) s = .next { there with utx := [{ x with above := x.above + 1 }] }) ∧
      (x.above = 2 → x.retries < 8 → exec (.uetAckReceive asid flow [y.pkt.seq] false) s =
        .next (({ there with utx := [{ x with above := 3, retries := x.retries + 1 }] } : State).emit (.uet x.pkt))))

/-! ## Lanes: integers, bytes, predicates, floats, conversions (R234 to R245, R257 to R259, R281 to R297) -/

/-- The integer, logic, shift, count, field, byte, comparison and predicate instructions that compute each lane's result from its clean operands. -/
def laneIntegers : List ((LOp → Instr) × (LOp → Nat → Nat → Nat → Nat)) :=
  [(.iadd, fun x => intArith x.ty (modsOf x) fun a b _ => a + b), (.isub, fun x => intArith x.ty (modsOf x) fun a b _ => a - b),
   (.imul, fun x => intArith x.ty (modsOf x) fun a b _ => a * b), (.imulh, fun x => intArith x.ty (modsOf x) fun a b _ => a * b / (2 ^ x.ty.bits : Nat)),
   (.imad, fun x => intArith x.ty (modsOf x) fun a b c => a * b + c), (.imin, fun x => intArith x.ty (modsOf x) fun a b _ => min a b),
   (.imax, fun x => intArith x.ty (modsOf x) fun a b _ => max a b), (.iabs, fun x => intArith x.ty (modsOf x) fun a _ _ => (a.natAbs : Int)),
   (.and, fun _ a b _ => a &&& b), (.or, fun _ a b _ => a ||| b), (.xor, fun _ a b _ => a ^^^ b), (.lut3, fun x => lut3 x.imm.toNat x.ty.width),
   (.shl, fun x => elems3 x.ty fun a c _ => shlElem x.ty.bits a c), (.shr, fun x => elems3 x.ty fun a c _ => shrElem x.ty.bits a c),
   (.sar, fun x => elems3 x.ty fun a c _ => sarElem x.ty.bits a c), (.popc, fun x a _ _ => popCount x.ty.width a), (.clz, fun x a _ _ => clz x.ty.width a),
   (.brev, fun x a _ _ => brev x.ty.width a), (.bfe, fun x a c _ => bfe x.ty a c), (.bfi, fun x => bfi x.ty.width),
   (.iset, fun x a b _ => b2n (intCond x.fn.toNat (Num.intVal x.ty a) (Num.intVal x.ty b))),
   (.alignb, fun _ a b c => (a * 2 ^ 32 + b) >>> (8 * (c % 4)) % 2 ^ 32),
   (.blut, fun x a lo hi => Num.packElems .n8x4 ((List.range 4).map fun j => blutByte lo hi (bits a (8 * j + (if x.fn == 1 then 4 else 0)) 4))),
   (.plog, fun x a b c => b2n (bit x.imm.toNat (a * 4 + b * 2 + c)))]

/-- Those that judge a lane's operands with their poison: selection, moves, poison inspection (R241, R245, R257 to R259). -/
def laneMoves (s : State) : List ((LOp → Instr) × (LOp → LaneIn → Opd)) :=
  [(.mov, fun _ l => l.a),
   (.sel, fun x l => match s.cur.regs.rdPred x.fn.toNat l.lane with | .ok v => if v != 0 then l.a else l.b | .tok t => .bad t | .stale => l.a),
   (.movp, fun x l => match x.fn.toNat with
     | 0 => l.map fun a _ _ => b2n (a != 0)
     | 1 => l.map fun a _ _ => a
     | _ => l.map fun a _ _ => b2n (bit a (l.lane % s.cur.laneW))),
   (.sread, fun x l => .ok (match x.fn.toNat with
     | 0 => l.lane % s.cur.laneW | 1 => s.cur.laneW | 2 => s.cur.grp.toNat | 3 => s.cur.team.toNat | 4 => s.cur.core | 5 => s.chip.toNat
     | 6 => s.clock % 2 ^ 32 | _ => s.pts s.cur.core % 2 ^ 32)),
   (.ptst, fun _ l => .ok (b2n l.a.tok.isSome)), (.pclr, fun _ l => if l.a.tok.isSome then l.b else l.a),
   (.crumb, fun _ l => .ok (match l.a.tok with | some t => t.toNat | none => 0))]

/-- R234 to R245, R257 to R259: with a guard without poison and no invalid latch among its sources, each of these completes: its opcode
enters the block signature, every lane of `Active()` gets its result, the first poisoned operand passing (R228), and the lane stream goes
on. The model's own reading or choice in it: logs 8 and 9; the lane whose bit MOVP with FN 2 reads (its half's, lane modulo W) is the model's
own reading (log 37). -/
def Obligations.LaneIntegerInstructionsComplete : Prop :=
  ∀ (s : State) (x : LOp), s.cur.guardPoison x.guard = 0 →
    (∀ p ∈ laneIntegers, s.Fresh x (formOf (p.1 x)) →
      exec (p.1 x) s = .next (s.laneOut x (formOf (p.1 x)) ((s.laneIns x (formOf (p.1 x))).map fun l => (l.lane, l.map (p.2 x))))) ∧
    (∀ p ∈ laneMoves s, s.Fresh x (formOf (p.1 x)) →
      exec (p.1 x) s = .next (s.laneOut x (formOf (p.1 x)) ((s.laneIns x (formOf (p.1 x))).map fun l => (l.lane, p.2 x l))))

/-- The float instructions and conversions (R284 to R297): the exact value of each element rounded once, or the function's. -/
def laneFloats : List ((LOp → Instr) × (LOp → Nat → Nat → Nat → Nat)) :=
  let fp (f : Rm → FVal → FVal → FVal → FVal) (x : LOp) : Nat → Nat → Nat → Nat := fpArith x.ty (modsOf x) (f (modsOf x).rm)
  let fn (g : Num.Func) (x : LOp) : Nat → Nat → Nat → Nat := elems3 x.ty fun a _ _ => Num.funcCode g x.ty (modsOf x) a
  [(.fadd, fp fun rm a b _ => Machine.Num.add rm a b), (.fsub, fp fun rm a b _ => Machine.Num.sub rm a b), (.fmul, fp fun _ a b _ => Machine.Num.mul a b),
   (.fmadd, fp fun rm a b c => Machine.Num.add rm (Machine.Num.mul a b) c), (.fdiv, fp fun _ a b _ => Machine.Num.div a b), (.fmin, fp fun _ a b _ => Num.minNum a b),
   (.fmax, fp fun _ a b _ => Num.maxNum a b), (.fminn, fp fun _ a b _ => nanFirst Num.minNum a b), (.fmaxn, fp fun _ a b _ => nanFirst Num.maxNum a b),
   (.frcp, fp fun _ a _ _ => Machine.Num.div (Machine.Num.one false) a), (.fsqrt, fp fun _ a _ _ => Num.sqrt a), (.frsq, fn .rsq), (.fexp2, fn .exp2), (.flog2, fn .log2),
   (.fsin, fn .sin), (.fcos, fn .cos), (.ftanh, fn .tanh),
   (.fset, fun x a b _ => b2n (fpCond x.fn.toNat (Num.applyNa (modsOf x) 0 (Num.decode Num.f32 a)) (Num.applyNa (modsOf x) 1 (Num.decode Num.f32 b)))),
   (.fclass, fun x a _ _ => sumNat ((List.range x.ty.count).map fun e => 2 ^ (fpClass x.ty (Num.elem x.ty a e) + 16 * e))),
   (.pack, fun x a b _ =>
     let cv (k v : Nat) : List Nat := (List.range x.src.count).map fun j => Num.convert x.ty x.src (modsOf x) k (Num.elem x.src v j)
     Num.packElems x.ty (cv 0 a ++ cv 1 b)),
   (.unpack, fun x a _ _ => Num.packElems x.ty ((List.range x.ty.count).map fun j =>
     Num.convert x.ty x.src (modsOf x) 0 (Num.elem x.src a ((if x.imm.getLsbD 0 then x.ty.count else 0) + j)))),
   (.dqblk, fun x a b _ =>
     Num.encode Num.f32 (Num.finish Num.f32 (modsOf x) (Num.decodeMx x.src (Num.elem x.src a x.sq) (bits b 8 8) (bits b 16 8))))]

/-- The result of a lane from the quantised block of its 32 lanes: the token of the block's lowest poisoned lane, else what `f` makes (R293, R296). -/
def quantLane (x : LOp) (ls : List LaneIn) (f : Num.QBlock → Nat → LaneIn → Opd) (l : LaneIn) : Opd :=
  match (blockOf l.lane ls).findSome? fun k => k.a.tok with
  | some t => .bad t
  | none => f (quantBlock x.ty (modsOf x) (blockOf l.lane ls) (l.lane / 32 * 32)) (l.lane % 32) l

/-- R284 to R297: the same of the float instructions, of `cvt`, `pack`, `unpack` and `dqblk`, and of `qblk` and the block form of `cvt`,
whose results come from the quantised block of each 32 lanes. The model's own reading or choice in it: logs 8, 11 and 12. -/
def Obligations.LaneFloatInstructionsComplete : Prop :=
  ∀ (s : State) (x : LOp), s.cur.guardPoison x.guard = 0 →
    (∀ p ∈ laneFloats, s.Fresh x (formOf (p.1 x)) →
      exec (p.1 x) s = .next (s.laneOut x (formOf (p.1 x)) ((s.laneIns x (formOf (p.1 x))).map fun l => (l.lane, l.map (p.2 x))))) ∧
    (s.Fresh x (formOf (.cvt x)) → x.blk = false →
      exec (.cvt x) s = .next (s.laneOut x (formOf (.cvt x)) ((s.laneIns x (formOf (.cvt x))).map fun l => (l.lane, l.map fun a b _ => cvtWord x a b)))) ∧
    (s.Fresh x (formOf (.cvt x)) → x.blk = true → s.cur.shadow = false → (∀ l ∈ s.laneIns x (formOf (.cvt x)), l.lane < s.cur.width) →
      exec (.cvt x) s = .next (s.laneOut x (formOf (.cvt x)) ((s.laneIns x (formOf (.cvt x))).map fun l => (l.lane,
        quantLane x (s.laneIns x (formOf (.cvt x))) (fun q i l => match l.b.tok with
          | some t => .bad t
          | none => .ok (setElem x.ty l.b.val x.dq (q.codes.getD i 0))) l)))) ∧
    (s.Fresh x (formOf (.qblk x)) → s.cur.shadow = false → (∀ l ∈ s.laneIns x (formOf (.qblk x)), l.lane < s.cur.width) →
      exec (.qblk x) s = .next (s.laneOut x (formOf (.qblk x)) ((s.laneIns x (formOf (.qblk x))).map fun l => (l.lane,
        quantLane x (s.laneIns x (formOf (.qblk x))) (fun q i _ =>
          .ok (q.codes.getD i 0 + q.s <<< 8 + q.xv <<< 16 + b2n (q.outlier == some i) <<< 24)) l))))

/-- The lane instructions that write a vector register or a predicate and no memory. -/
def laneRegisterForms (s : State) (x : LOp) : List Instr :=
  laneIntegers.map (fun p => p.1 x) ++ (laneMoves s).map (fun p => p.1 x) ++ laneFloats.map (fun p => p.1 x)

/-- The frame of the lane instructions that compute (R228, R231, R234): with no invalid latch among the sources, whatever next state one reaches
differs only in the destination vector registers or the destination predicate, the latches, the lane queue with its signatures, the run, the chunk's
own records, and at the end of a run the latches that pending loads would have written; uniforms, masks, state registers, other groups and every byte of memory stay. -/
def Obligations.LaneRegisterFormsFrame : Prop :=
  ∀ (s t : State) (x : LOp), ∀ i ∈ laneRegisterForms s x, s.Fresh x (formOf i) → exec i s = .next t →
    t = { s with cur := { s.cur with run := t.cur.run, latches := t.cur.latches, chunk := t.cur.chunk, freads := t.cur.freads,
                                     regs := { s.cur.regs with v := t.cur.regs.v, p := t.cur.regs.p, laneq := t.cur.regs.laneq,
                                                               finished := t.cur.regs.finished } } } ∧
    (t.cur.freads = s.cur.freads ∨ t.cur.freads = s.cur.freads.map fun f => { f with lat := false }) ∧
    ((formOf i).res = .pred → t.cur.regs.v = s.cur.regs.v ∧ ∀ n, n ≠ x.dst.num.toNat % 16 → t.cur.regs.p[n]? = s.cur.regs.p[n]?) ∧
    (∀ wide, (formOf i).res = .vec wide → t.cur.regs.p = s.cur.regs.p ∧ ∀ n, n ∉ vdests x wide → t.cur.regs.v[n]? = s.cur.regs.v[n]?) ∧
    (∀ m, t.byteAt m = s.byteAt m)

/-! ## Lanes: cross-lane, masks, signatures (R134, R233, R246 to R256, R260) -/

/-- An exchange within a half that starts at lane `b`: a lane whose count is clean takes S0 of the lane it names, or its fill (R246). -/
def exchanged (s : State) (x : LOp) (F : Form) (pick : Nat → Nat → Nat → Option Nat) (b : Nat) (ls : List LaneIn) : List (Nat × Opd) :=
  ls.map fun l => (l.lane, match l.b.tok with
    | some t => .bad t
    | none => match pick s.cur.laneW (l.lane - b) l.b.val with
      | some j => s.cur.xchSrc x F ((s.cur.active x.guard).head?.getD 0) b j
      | none => l.c)

/-- The cross-lane instructions that give every active lane a result, with the results in the half that starts at lane `b`. -/
def crossLanes (s : State) (x : LOp) : List (Instr × (Nat → List LaneIn → List (Nat × Opd))) :=
  [(.xchi x, exchanged s x (formOf (.xchi x)) fun w _ c => some (c % w)),
   (.xchu x, exchanged s x (formOf (.xchu x)) fun _ i c => if c ≤ i then some (i - c) else none),
   (.xchd x, exchanged s x (formOf (.xchd x)) fun w i c => if i + c < w then some (i + c) else none),
   (.xchx x, exchanged s x (formOf (.xchx x)) fun w i c => some (i ^^^ (c % w))),
   (.matchl x, fun b ls => ls.map fun l => (l.lane, match l.a.tok with
     | some t => .bad t
     | none => .ok (maskOf ((ls.filter fun k => k.a.tok.isNone && k.a.val == l.a.val).map fun k => k.lane - b)))),
   (.scan x, fun _ ls => ls.map fun l => (l.lane, ofLanes (scanned x.fn.toNat l.lane ls)
     (wrapInt (redFold x.ty x.fn.toNat ((scanned x.fn.toNat l.lane ls).map fun k => redValue x.ty (modsOf x) k.a.val)) x.ty.width))),
   (.first x, fun b ls =>
     let hit := ls.filter fun l => l.a.val != 0
     let low := (hit.head?.map fun l => l.lane - b).getD s.cur.laneW
     ls.map fun l => (l.lane, ofLanes ls (match x.fn.toNat with
       | 0 => b2n (l.lane - b == low)
       | 1 => low
       | _ => (hit.filter fun k => decide (k.lane < l.lane)).length)))]

/-- What `vote` gives of its lanes (R247). -/
def voted (x : LOp) (ls : List LaneIn) : Nat :=
  match x.fn.toNat with
  | 0 => b2n (ls.all fun l => l.a.val != 0)
  | 1 => b2n (ls.any fun l => l.a.val != 0)
  | 2 => maskOf ((ls.filter fun l => l.a.val != 0).map fun l => l.lane)
  | _ => b2n (ls.all fun l => some l.a.val == ls.head?.map fun k => k.a.val)

/-- What `gred` gives: `f32` sums by the fixed tree over lane numbers, everything else in ascending lane number (R187, R249). -/
def reduced (s : State) (x : LOp) (ls : List LaneIn) : Nat :=
  let val (l : LaneIn) : Int := redValue x.ty (modsOf x) l.a.val
  if x.ty = .f32 ∧ x.fn = 0 then treeSum ((List.range s.cur.laneW).map fun i => (ls.find? fun l => l.lane == i).map fun l => (val l).toNat)
  else redWord x.ty (redFold x.ty x.fn.toNat (ls.map val))

/-- R246 to R251: exchanges, `match`, `scan` and `first` give each active lane its result from the lanes of its half; `vote` and `gred` give
a uniform, poisoned by the lowest poisoned lane. The model's own reading or choice in it: log 34. -/
def Obligations.CrossLaneInstructionsComplete : Prop :=
  ∀ (s : State) (x : LOp), s.cur.guardPoison x.guard = 0 →
    (∀ p ∈ crossLanes s x, s.Fresh x (formOf p.1) →
      exec p.1 s = .next (s.laneOut x (formOf p.1) (s.cur.bases.flatMap fun b =>
        p.2 b ((s.laneIns x (formOf p.1)).filter fun l => l.lane / s.cur.laneW == b / s.cur.laneW)))) ∧
    (s.cur.shadow = false → ∀ p ∈ ([(.vote x, 0x044, voted x), (.gred x, 0x046, reduced s x)] : List (Instr × Nat × (List LaneIn → Nat))),
      s.Fresh x (formOf p.1) →
        let ls := (s.laneIns x (formOf p.1)).filter fun l => l.lane / s.cur.laneW == 0
        exec p.1 s = .next (((s.enterCode p.2.1).writeU x (ofLanes ls (p.2.2 ls))).laneNext x.last x.mods.isSome))

/-- `s` after a mask instruction whose check held: opcode and depth in the block signature, EXM and the mask stack changed (R252, R341). -/
def maskOut (s : State) (x : LOp) (op : Nat) (e : BitVec 64) (m : List MaskEntry) : State :=
  (((s.enterCode op).onRegs fun q => { q with exm := e, mask := m }).enterDepth op).laneNext x.last x.mods.isSome

/-- R253 to R256, R260: `mif` pushes EXM and its complement within the condition, `melse` swaps the pending lanes in, `mend` pops, `mget`
and `mput` read and write EXM and an entry, `mbrk` sends lanes to the entry k levels down, `lsig` compares the signature under checking; a
condition without poison decides. The model's own reading or choice in it: logs 10, 35, 36 and 37. -/
def Obligations.MaskInstructionsComplete : Prop :=
  ∀ (s : State) (x : LOp) (m : List MaskEntry) (sv pd : BitVec 64) (n : BitVec 6) (last : Bool) (b : BitVec 24) (q : LBlock) (qs : List LBlock),
    let r := s.cur.regs
    let steady := s.cur.condDiffers x.fn.toNat = false ∧ s.cur.condPoison x.fn.toNat = 0
    let cond := s.cur.condMask x.fn.toNat (maskInv x)
    (r.mask.length < 32 → x.imm.getLsbD 1 = true → exec (.mif x) s = .next (maskOut s x 0x060 r.exm (r.mask ++ [⟨r.exm, 0⟩]))) ∧
    (r.mask.length < 32 → x.imm.getLsbD 1 = false → steady →
      exec (.mif x) s = .next (maskOut s x 0x060 (r.exm &&& cond) (r.mask ++ [⟨r.exm, r.exm &&& ~~~cond⟩]))) ∧
    (r.mask = m ++ [⟨sv, pd⟩] → pd &&& r.exm = 0 → exec (.melse x) s = .next (maskOut s x 0x061 pd (m ++ [⟨sv, r.exm⟩]))) ∧
    (r.mask = m ++ [⟨sv, pd⟩] → r.exm ||| pd = sv → exec (.mend x) s = .next (maskOut s x 0x062 sv m)) ∧
    (x.fn = 0 → exec (.mget x) s = .next (((s.enterCode 0x063).writeU x (.ok (r.exm &&& s.cur.fullMask).toNat)).laneNext x.last x.mods.isSome)) ∧
    (maskK x < r.mask.length →
      (x.fn = 1 → exec (.mget x) s = .next (((s.enterCode 0x063).writeU x (.ok ((r.entryAt (maskK x)).saved &&& s.cur.fullMask).toNat)).laneNext x.last x.mods.isSome)) ∧
      (x.fn = 2 → exec (.mget x) s = .next (((s.enterCode 0x063).writeU x (.ok ((r.entryAt (maskK x)).pending &&& s.cur.fullMask).toNat)).laneNext x.last x.mods.isSome))) ∧
    (x.s0 = .unif n → (r.captured n).poison = false → s.cur.skipped = 0 →
      (x.fn = 0 → exec (.mput x) s =
        .next (((s.enterCode 0x064).onRegs fun q => { q with exm := (r.captured n).val &&& s.cur.fullMask }).laneNext x.last x.mods.isSome)) ∧
      (x.fn = 1 → r.mask ≠ [] → exec (.mput x) s =
        .next (((s.enterCode 0x064).onRegs fun q =>
          { q with mask := onTop (fun e => { e with pending := (r.captured n).val &&& s.cur.fullMask }) q.mask }).laneNext x.last x.mods.isSome))) ∧
    (maskK x < r.mask.length → steady → (r.mbrk (maskK x) cond).2 = true →
      exec (.mbrk x) s = .next (maskOut s x 0x065 (r.exm &&& ~~~(r.exm &&& cond)) (r.mbrk (maskK x) cond).1.mask)) ∧
    (s.cur.checked = false → exec (.lsig last b) s = .next ((s.enterCode 0x074).laneNext last false)) ∧
    (s.cur.checked = true → r.laneq = q :: qs → q.sig.extractLsb' 0 24 = b →
      exec (.lsig last b) s =
        .next (((s.onRegs fun r => { r with laneq := { q with unchecked := false } :: qs }).enterCode 0x074).laneNext last false))

/-! ## Lanes: memory (R261 to R280) -/

/-- The loads with what one lane does. -/
def laneLoads (s : State) (x : LOp) : List (Instr × (State → LaneIn → State × Option Opd)) :=
  [(.ld x, State.ldLane x), (.lds x, State.ldsLane x), (.ldsx x, State.ldsxLane x),
   (.ldx x, State.ldxLane x ((s.cur.active x.guard).head?.getD 0))]

/-- The stores and reductions: whether shadow lanes disagree, and what one lane does. -/
def laneStores (s : State) (x : LOp) : List (Instr × Bool × (State → LaneIn → State)) :=
  [(.st x, s.cur.pairDiffers x (formOf (.st x)) (some ea64), State.stLane x), (.sts x, s.cur.pairDiffers x (formOf (.sts x)) (some ea32), State.stsLane x),
   (.stx x, s.cur.stxDiffers x, State.stxLane x ((s.cur.active x.guard).head?.getD 0)),
   (.reds x, s.cur.pairDiffers x (formOf (.reds x)) none, State.redsLane x),
   (.red x, s.cur.pairDiffers x (formOf (.red x)) none,
     State.redLane x (if 8 ≤ x.fn.toNat then lineMisfit (s.cur.cleanAddrs x (formOf (.red x))) else fun _ _ => false))]

/-- R234, R264 to R273, R277 to R280: with a guard without poison a load lets each lane of `Active()` act in ascending order and writes the
results it has; a store or a reduction, where shadow lanes agree, lets each lane below the lane-facing width act, and where they do not the group meets
a shadow mismatch; `pref` changes no register. The model's own reading or choice in it: logs 26, 37 and 40. -/
def Obligations.LaneMemoryInstructionsComplete : Prop :=
  ∀ (s u : State) (x : LOp) (res : List (Nat × Opd)), s.cur.guardPoison x.guard = 0 →
    let act := s.cur.active x.guard
    let first := act.head?.getD 0
    (∀ p ∈ laneLoads s x, (s.enterCode (formOf p.1).op).eachLane x (formOf p.1) first p.2 act = (u, res) →
      exec p.1 s = .next ((u.writeRes x (formOf p.1) res).laneNext x.last x.mods.isSome)) ∧
    (∀ p ∈ laneStores s x,
      (p.2.1 = false →
        (s.enterCode (formOf p.1).op).eachLane x (formOf p.1) first (fun s l => (p.2.2 s l, none)) (act.filter fun i => decide (i < s.cur.laneW)) = (u, res) →
        exec p.1 s = .next (u.laneNext x.last x.mods.isSome)) ∧
      (p.2.1 = true → exec p.1 s = .next (s.mismatch s.cur.lpc))) ∧
    (exec (.pref x) s = .next (((s.enterCode 0x08B).prefLanes x (formOf (.pref x)) first act).laneNext x.last x.mods.isSome))

/-- `u` with a poison of cause `c` for lane `l` at an address, and its token. -/
def lanePoisons (u : State) (c : Cause) (a : Nat) (l : LaneIn) : State × BitVec 32 := u.makePoison c a l.lane false u.cur.lpc

/-- The entry that a store of `n` bytes of S2 makes: at the byte of the line that its address names. -/
def storeEntry (u : State) (id : LineId) (a vc n : Nat) (l : LaneIn) : QEntry :=
  mkEntry id a vc [.st (cellsAt (a % 128) (toBytes n l.c.val))] none u.cur.lpc

/-- The entry that a reduction of S1 makes: function, type, byte of the line, value, and the lane and address for a crumb. -/
def redEntry (u : State) (id : LineId) (a vc : Nat) (x : LOp) (l : LaneIn) : QEntry :=
  mkEntry id a vc [.red x.fn x.ty (a % 128) (BitVec.ofNat 64 l.b.val) l.lane (BitVec.ofNat 64 a) u.cur.chunk.nlane] none u.cur.lpc

/-- R263 to R266, R269: what one lane of `ld` and `st` with clean operands does at ea = S0 + S1. A load gives its bytes, extended by sign for a signed
type, or poison where the access fails; a remote one leaves its fabric read. A store makes one quarantine entry with its bytes and changes no byte of memory;
one whose access fails, or whose data is poisoned, poisons its entry and is live. -/
def memoryLanes : Prop :=
  ∀ (s u : State) (x : LOp) (l : LaneIn) (bs : List Byte) (c : BitVec 8) (id : LineId) (vc : Nat) (k : BitVec 32),
    l.a.tok = none → l.b.tok = none →
    let ea := ea64 l.a.val l.b.val
    let n := Machine.sizeOf x
    let p := lanePoisons u c ea l
    (l.c.tok = none → (s.loadVa ea n (hintOf x) = (u, .bytes bs) → State.ldLane x s l = (u, some (.ok (extendTo x.ty n (leNat bs))))) ∧
      (s.loadVa ea n (hintOf x) = (u, .bad c) → State.ldLane x s l = (p.1, some (.bad p.2))) ∧
      (s.loadVa ea n (hintOf x) = (u, .remote) →
        State.ldLane x s l = (u.pendLoad x l.lane ea n (remChip ea) (remWin ea) false (remOff ea) [], none)) ∧
      (s.storeVa ea n .write = (u, .ok (id, vc)) →
        State.stLane x s l = u.quarantine (storeEntry u id ea vc n l) ∧ ∀ m, (State.stLane x s l).byteAt m = u.byteAt m) ∧
      (s.storeVa ea n .write = (u, .error c) →
        State.stLane x s l = p.1.poisonStore ea p.2 (p.1.failedAt .lane (some l.lane) p.2) p.1.cur.lpc)) ∧
    (l.c.tok = some k → State.stLane x s l = s.poisonStore ea k ⟨.lane, srcLane x.s2 l.lane, k, none⟩ s.cur.lpc)

/-- R121, R124, R263, R270, R271: the same of `lds`, `sts` and `ldsx` at the 32-bit sum sa of S0 and S1, in the team's scratch. A load of a poisoned word
gives that word's token; `ldsx` takes its elements from rows 128 bytes apart. -/
def scratchLanes : Prop :=
  ∀ (s u : State) (x : LOp) (l : LaneIn) (bs : List Byte) (c : BitVec 8) (k : BitVec 32) (vs : List Nat),
    l.a.tok = none → l.b.tok = none →
    let sa := ea32 l.a.val l.b.val
    let n := Machine.sizeOf x
    let w := x.ty.bits
    let p := lanePoisons u c sa l
    let inside := sa + 128 * (32 / w - 1) + w / 8 ≤ s.team.scrSize
    (l.c.tok = none → (sa % n = 0 → s.scratchLoad sa n = (u, .ok bs) → State.ldsLane x s l = (u, some (.ok (extendTo x.ty n (leNat bs))))) ∧
      (sa % n = 0 → s.scratchLoad sa n = (u, .error (.word k)) → State.ldsLane x s l = ((lanePoisons u (tokenCause k) sa l).1, some (.bad k))) ∧
      ((sa % n = 0 ∧ s.scratchLoad sa n = (u, .error (.cause c))) ∨ (sa % n ≠ 0 ∧ u = s ∧ c = Cause.invalid) →
        State.ldsLane x s l = (p.1, some (.bad p.2))) ∧
      (sa % n = 0 → s.scratchCheck sa n = .ok () →
        State.stsLane x s l = s.quarantine (storeEntry s (.scr s.team.key (sa / 128)) sa 0 n l) ∧ ∀ m, (State.stsLane x s l).byteAt m = s.byteAt m) ∧
      (u = s → (sa % n ≠ 0 ∧ c = Cause.invalid) ∨ (sa % n = 0 ∧ s.scratchCheck sa n = .error c) →
        State.stsLane x s l = p.1.poisonScratch sa p.2 (p.1.failedAt .lane (some l.lane) p.2) p.1.cur.lpc) ∧
      (¬(w = 16 ∧ sa % 2 ≠ 0) → inside →
        (s.fragRows sa w 0 (32 / w) = (u, .ok vs) → State.ldsxLane x s l = (u, some (.ok (Num.packElems x.ty vs)))) ∧
        (s.fragRows sa w 0 (32 / w) = (u, .error (.word k)) → State.ldsxLane x s l = ((lanePoisons u (tokenCause k) sa l).1, some (.bad k))) ∧
        (s.fragRows sa w 0 (32 / w) = (u, .error (.cause c)) → State.ldsxLane x s l = (p.1, some (.bad p.2)))) ∧
      (u = s → (w = 16 ∧ sa % 2 ≠ 0 ∧ c = Cause.invalid) ∨ (¬(w = 16 ∧ sa % 2 ≠ 0) ∧ ¬inside ∧ c = Cause.bounds) →
        State.ldsxLane x s l = (p.1, some (.bad p.2)))) ∧
    (l.c.tok = some k → State.stsLane x s l = s.poisonScratch sa k ⟨.lane, srcLane x.s2 l.lane, k, none⟩ s.cur.lpc)

/-- R124, R271: the rows of a transposing fragment: element j at sa + 128 × j; the first row that gives poison decides. -/
def fragmentRows : Prop :=
  ∀ (s u v : State) (sa w j n : Nat) (bs : List Byte) (vs : List Nat) (m : Miss) (r : Except Miss (List Nat)),
    s.fragRows sa w j 0 = (s, .ok []) ∧
    (s.scratchLoad (sa + 128 * j) (w / 8) = (u, .ok bs) → u.fragRows sa w (j + 1) n = (v, .ok vs) → s.fragRows sa w j (n + 1) = (v, .ok (leNat bs :: vs))) ∧
    (s.scratchLoad (sa + 128 * j) (w / 8) = (u, .error m) → u.fragRows sa w (j + 1) n = (v, r) → s.fragRows sa w j (n + 1) = (v, .error m)) ∧
    (s.scratchLoad (sa + 128 * j) (w / 8) = (u, .ok bs) → u.fragRows sa w (j + 1) n = (v, .error m) → s.fragRows sa w j (n + 1) = (v, .error m))

/-- R37, R277, R278: what one lane of `red` at the address S0, and of `reds` at the scratch address S0, does with the value S1: one quarantine entry with
the reduction, which a merge folds at the line, and no byte of memory; a failing one makes live poison and no entry. In a line form a lane off its place
is INVALID: lane i of a half stands 4 × i bytes above L, L a multiple of 128 that the half's lowest lane fixes. -/
def reductionLanes : Prop :=
  ∀ (s u : State) (x : LOp) (misfit : Nat → Nat → Bool) (l : LaneIn) (c : BitVec 8) (id : LineId) (vc : Nat), l.a.tok = none → l.b.tok = none →
    let ea := l.a.val
    let n := tyBytes x.ty
    let p := lanePoisons u c ea l
    let fails := p.1.onChunk fun k => { k with live := k.live ++ [p.1.failedAt .lane (some l.lane) p.2] }
    (misfit l.lane ea = false → s.redVa ea n = (u, .ok (id, vc)) → State.redLane x misfit s l = u.quarantine (redEntry u id ea vc x l) ∧
      ∀ m, (State.redLane x misfit s l).byteAt m = u.byteAt m) ∧
    ((misfit l.lane ea = false ∧ s.redVa ea n = (u, .error c)) ∨ (misfit l.lane ea = true ∧ u = s ∧ c = Cause.invalid) →
      State.redLane x misfit s l = fails) ∧
    (ea % n = 0 → s.scratchCheck ea n = .ok () →
      State.redsLane x s l = s.quarantine (redEntry s (.scr s.team.key (ea / 128)) ea 0 x l) ∧ ∀ m, (State.redsLane x s l).byteAt m = s.byteAt m) ∧
    (u = s → (ea % n ≠ 0 ∧ c = Cause.invalid) ∨ (ea % n = 0 ∧ s.scratchCheck ea n = .error c) → State.redsLane x s l = fails) ∧
    (∀ (as : List (Nat × Nat)) (j a i : Nat), as.find? (fun q => q.1 / 32 == i / 32) = some (j, a) → 4 * (j % 32) ≤ a → a < 2 ^ 64 - 128 →
      lineMisfit as i ea = !decide ((a - 4 * (j % 32)) % 128 = 0 ∧ ea = a - 4 * (j % 32) + 4 * (i % 32)))

/-- R52 to R55, R272, R273: what one lane of `ldx` and `stx` does where its handle and indices resolve to an element with owners and an address. The
nearest owner is read, here or with a fabric read; a store makes one entry, of the local line or, where this chip holds no replica, of the line at the
owners, and it names the replicas that a put goes to; an element off its alignment, or one of 8 bytes with a 32-bit type, is INVALID; a handle or an index
out of range is poison without an entry. The address in a crumb of INVALID is the model's own choice (log 101). -/
def shardLanes : Prop :=
  ∀ (s u v : State) (x : LOp) (first : Nat) (l : LaneIn) (os : List (BitVec 8)) (va : Nat) (e : Shard) (bs : List Byte) (c : BitVec 8) (k : BitVec 32)
    (src : Src) (p : Phys),
    let misfit := (e.esz == 3 && !x.ty.wide) || va % 2 ^ e.esz != 0
    let far := os.filter fun o => o != s.chip
    let away : LineId := .shd far e.win (va / 128)
    let entry (id : LineId) (vc : Nat) : QEntry :=
      mkEntry id va vc [.stx (cellsAt (va % 128) (toBytes (2 ^ e.esz) l.c.val)) (BitVec.ofNat 16 l.b.val) e.win (va / 128) far] none v.cur.lpc
    let bad := lanePoisons v c va l
    (s.shardLane x first l = (u, .at os va e) → u.chip = s.chip →
      (misfit = false → (u.nearest os = u.chip → u.chunkLoad va (2 ^ e.esz) (hintOf x) = (v, .ok bs) →
          State.ldxLane x first s l = (v, some (.ok (extendTo x.ty (2 ^ e.esz) (leNat bs))))) ∧
        (u.nearest os = u.chip → u.chunkLoad va (2 ^ e.esz) (hintOf x) = (v, .error c) → State.ldxLane x first s l = (bad.1, some (.bad bad.2))) ∧
        (u.nearest os ≠ u.chip → u.routeTo (u.nearest os) = true → State.ldxLane x first s l =
          (u.pendLoad x l.lane va (2 ^ e.esz) (u.nearest os) e.win true va [BitVec.ofNat 16 l.b.val], none)) ∧
        (u.nearest os ≠ u.chip → u.routeTo (u.nearest os) = false → v = u → c = Cause.remoteUnreach → State.ldxLane x first s l = (bad.1, some (.bad bad.2))) ∧
        (l.c.tok = none → os.contains s.chip = true → u.storeCheck va (2 ^ e.esz) .write = (v, .ok p) →
          State.stxLane x first s l = v.quarantine (entry (.mem (p.pa / 128)) p.vc)) ∧
        (l.c.tok = none → os.contains s.chip = true → u.storeCheck va (2 ^ e.esz) .write = (v, .error c) →
          State.stxLane x first s l = bad.1.poisonStore va bad.2 (bad.1.failedAt .lane (some l.lane) bad.2) bad.1.cur.lpc) ∧
        (l.c.tok = none → os.contains s.chip = false → v = u → State.stxLane x first s l = v.quarantine (entry away 0))) ∧
      (misfit = true → v = u → c = Cause.invalid → State.ldxLane x first s l = (bad.1, some (.bad bad.2)) ∧
        (l.c.tok = none → State.stxLane x first s l =
          bad.1.poisonShard (os.contains s.chip) away va bad.2 (bad.1.failedAt .lane (some l.lane) bad.2))) ∧
      (l.c.tok = some k → State.stxLane x first s l = u.poisonShard (os.contains s.chip) away va k ⟨.lane, srcLane x.s2 l.lane, k, none⟩)) ∧
    (s.shardLane x first l = (u, .cause c) →
      let p := lanePoisons u c 0 l
      State.ldxLane x first s l = (p.1, some (.bad p.2)) ∧
      State.stxLane x first s l = p.1.onChunk fun q => { q with live := q.live ++ [p.1.failedAt .lane (some l.lane) p.2] }) ∧
    (s.shardLane x first l = (u, .token k src) → State.ldxLane x first s l = (u, some (.bad k)) ∧
      State.stxLane x first s l = u.onChunk fun q => { q with live := q.live ++ [⟨.lane, srcLane src l.lane, k, none⟩] })

/-- R37, R52 to R55, R121, R124, R263 to R266, R269 to R273, R277, R278: what one lane of each memory instruction does. The model's own reading or
choice in it: logs 13, 16, 39, 40 and 101. -/
def Obligations.LaneAccesses : Prop := memoryLanes ∧ scratchLanes ∧ fragmentRows ∧ reductionLanes ∧ shardLanes

/-- Every lane instruction that a guard can hold back. -/
def guardedForms (s : State) (x : LOp) : List Instr :=
  laneRegisterForms s x ++ (crossLanes s x).map Prod.fst ++ (laneLoads s x).map Prod.fst ++ (laneStores s x).map Prod.fst ++
  [.cvt x, .qblk x, .vote x, .gred x, .stx x, .pref x, .atom x, .atoms x]

/-- A crumb (R333, R334): where the table's header cannot be read, nothing is written there and the host gets a report; where the table is full its count of
lost crumbs rises; else the next entry's number rises and the record stands at its place. The token is the cause with the number of the record, all ones where
there is none. The record's fields are those of the table, and every other bit is 0; a crumb of a lane or of the control stream stands in CRUMBLAST. -/
def crumbRecords : Prop :=
  (∀ (s t : State) (base : BitVec 64) (own core : Option Nat) (i : CrumbInfo) (hd : List Byte) (x : Option (BitVec 32)),
    let table := bits base.toNat 12 40 * 4096
    let size := min (2 ^ max 4 (min (base.toNat % 32) 24)) 0xFFFFFF
    let n := leNat (hd.take 3)
    s.peekBytes table 16 = (t, hd, x) →
      (x.isSome = true → s.makeCrumb base own core i = (t.emit (.note 1 i.cause.toNat), i.cause ++ 0xFFFFFF#24)) ∧
      (x = none → size ≤ n → s.makeCrumb base own core i =
        ((t.ownBytes own core (table + 8) (toBytes 8 ((leNat (hd.drop 8) + 1) % 2 ^ 64))).1, i.cause ++ 0xFFFFFF#24)) ∧
      (x = none → n < size → s.makeCrumb base own core i =
        (((t.ownBytes own core table (toBytes 3 (n + 1))).1.ownBytes own core (table + 32 * n) i.bytes).1, i.cause ++ BitVec.ofNat 24 n))) ∧
  (∀ i : CrumbInfo, i.bytes.length = 32 ∧
    (let w0 := leNat (i.bytes.take 8)
     let w1 := leNat ((i.bytes.drop 8).take 8)
     bits w0 0 8 = i.cause.toNat ∧ bits w0 8 6 = i.lane % 64 ∧ bits w0 14 1 = b2n i.ctrl ∧ bits w0 16 6 = i.grp % 64 ∧ bits w0 22 12 = i.team % 4096 ∧
     bits w0 34 20 = i.lpc % 2 ^ 20 ∧ bits w0 15 1 = 0 ∧ bits w0 54 10 = 0 ∧ bits w1 0 32 = i.gang % 2 ^ 32 ∧ bits w1 32 24 = i.cpcw % 2 ^ 24 ∧
     bits w1 56 8 = 0) ∧
    leNat ((i.bytes.drop 16).take 8) = i.va % 2 ^ 64 ∧ leNat (i.bytes.drop 24) = i.ltime % 2 ^ 64) ∧
  ∀ (s : State) (c : Cause) (va lane lpc : Nat) (ctrl : Bool),
    let g := s.cur
    let made := s.makeCrumb g.sysr.crumbbase (some g.key) (some g.core)
      { cause := c, lane := if ctrl then 0 else lane, ctrl := ctrl, grp := g.grp.toNat, team := g.team.toNat, lpc := lpc, gang := g.gang.toNat,
        cpcw := bits (g.regs.cpc - g.cbase).toNat 2 24, va := va, ltime := s.pts g.core }
    (s.makePoison c va lane ctrl lpc).2 = made.2 ∧ (s.makePoison c va lane ctrl lpc).1.cur.crumbLast = made.2

/-- R139, R228, R230, R333, R334: what a crumb writes and holds; a guard that is poisoned in a lane of EXM makes that lane's token live and stops the lane stream at the instruction, with no other
effect; an invalid latch reads as LATCH_STALE poison with a crumb of its own, and an instruction that reads it completes with that operand. -/
def Obligations.PoisonedGuardsAndInvalidLatches : Prop :=
  crumbRecords ∧
  ∀ (s : State) (x : LOp),
    let bad := s.cur.guardPoison x.guard
    (bad ≠ 0 → ∀ i ∈ guardedForms s x,
      exec i s = .next (s.laneStop (s.cur.livesOf bad ((x.guard.map fun q => (s.cur.regs.pred q.p.toNat).token).getD 0)) bad)) ∧
    (∀ i : Nat, s.settleRd i .stale = ((s.makePoison 0x07 0 i false s.cur.lpc).1, .bad (s.makePoison 0x07 0 i false s.cur.lpc).2)) ∧
    (bad = 0 → ∀ p ∈ laneIntegers ++ laneFloats,
      let F := formOf (p.1 x)
      let r := (s.enterCode F.op).operands x F
      exec (p.1 x) s = .next ((r.1.writeRes x F (r.2.map fun l => (l.lane, l.map (p.2 x)))).laneNext x.last x.mods.isSome))

/-- What an atomic finds after its checks: no live poison and no poisoned entry (R275). -/
def atomReady (c : State) : Prop := c.cur.chunk.live = [] ∧ ∀ q ∈ c.cur.chunk.quar, q.poison = none

/-- R100, R274 to R276, R329, R344: `atom` and `atoms` check every lane. Where an arbiter does not admit their chunk it takes its place in the FIFOs and
they wait until every arbiter has; then the lines are folded and the lanes applied in ascending order at one commit time above those of the lines they
touch, the old values are written, in both lanes of a shadow pair, and the chunk of this one instruction commits. A lane reads its word, writes the
operation's result and gives the old value. While an event is unchecked SIG_GAP stops them. The model's own reading or choice in it: logs 43, 78 and 98. -/
def Obligations.AtomicsComplete : Prop :=
  ∀ (s c u : State) (x : LOp) (as : List AtomLane) (res : List (Nat × Opd)) (a : AtomLane) (l time : Nat) (cp : LineSt),
    (s.cur.guardPoison x.guard = 0 → ∀ p ∈ ([(.atom x, false), (.atoms x, true)] : List (Instr × Bool)), s.cur.pairDiffers x (formOf p.1) none = false →
      (s.cur.anyUnchecked = true → exec p.1 s = .next (s.sigGap.laneStop [] 0)) ∧
      (s.cur.anyUnchecked = false →
        s.retract.atomChecks x (formOf p.1) p.2 ((s.cur.active x.guard).head?.getD 0) ((s.cur.active x.guard).filter fun i => decide (i < s.cur.laneW)) = (c, as) →
        atomReady c →
        let admitted := s.cur.chunk.committing && (c.arbiters c.cur.chunk).all fun a => s.cur.chunk.got.contains a
        (admitted = false → c.mustWait = true → exec p.1 s =
          let v := s.onChunk fun k => { k with quar := c.cur.chunk.quar }
          let w := ({ v with nextKey := v.nextKey + 1 } : State).onChunk fun k =>
            { k with committing := true, pend := v.arbiters v.cur.chunk, got := [], arrive := v.nextKey }
          .next { w with cur := { w.cur with lstall := true } }) ∧
        (admitted = true ∨ c.mustWait = false →
          let e := c.settleChunk
          let t := maxNat ([e.pts e.cur.core + 1] ++ e.cur.chunk.quar.map fun q => (e.idTimes q.line).2 + 1)
          e.atomAll x t as = (u, res) →
          let both := if u.cur.shadow then res ++ res.map (fun r => (32 + r.1, r.2)) else res
          exec p.1 s =
            .next ((((if as.isEmpty then u else u.raisePts e.cur.core t).writeDst x x.ty.wide both).enterCode (formOf p.1).op).laneNext x.last x.mods.isSome).committed))) ∧
    (a.line = .mem l → (s.countRmw l a.vc).rmwRead l a.vc = (u, cp) → cp.x = none →
      s.atomApply x a time =
        let old := memNat cp.data (a.ea % 128) (tyBytes x.ty)
        let v := u.writePlace l a.vc (cellsAt (a.ea % 128) (toBytes (tyBytes x.ty) (atomOp x.fn.toNat x.ty old a.s1 a.s2))) none time
        (match v.cur.chunk.entry? (.mem l) with | some q => v.ownCopy q l time | none => v, some (.ok old)))

/-! ## The machine as a whole (R12, R44, R146, R149, R153, R162, R163, R404, R405, R425, R428) -/

/-- A step runs what is fetched. Where the turn is an instruction, the step is its execution and the end of the turn; one whose engine commit no arbiter
admitted has done nothing and comes again (R329, R332). The turn is: in a run that is in flight the lane instruction at its word (R163), which waits only
for a load of one of its own registers (R265), or the illegal word or the fetch fault found there; else an input that waits; else, when the control
stream's turn has come, the instruction at the control PC (R146, R405), the illegal control word (R162) or the fetch fault (R44) found there. The order is
the model's own (logs 2 and 78). -/
def Obligations.StepRunsTheFetchedInstruction : Prop :=
  ∀ (s t : State) (i : Instr) (is : List Instr) (w : BitVec 32) (v : BitVec 96) (m : BitVec 32) (c : BitVec 8) (k : Source) (r : RunSt),
    let next : State := { s with rr := s.rr + 1, engHeld := false }
    let lane : State := { s with rr := s.rr + 16, engHeld := false }
    (s.turn = .instr k i t → step s = match exec i t with
      | .next u => .next (if u.engHeld then ({ t.withdraw i k with engHeld := true } : State).endTurn s true else u.endTurn s (k == .control))
      | .fault f => .fault f
      | .refused f => .refused f) ∧
    (s.turn = .quiet t → t.engHeld = false → step s = .next (t.endTurn s false)) ∧
    (s.dev = .running → s.cur.laneReady = true → s.cur.run = some r →
      (lane.fetchLane r.wi.toNat = (t, .ok (v, m)) → decodeLane v m = some i →
        (∀ x F, laneForm i = some (x, F) → ∀ f ∈ t.cur.freads, f.hazard x F = false) → s.turn = .instr .lane i t.beginChunk) ∧
      (lane.fetchLane r.wi.toNat = (t, .ok (v, m)) → decodeLane v m = none → s.turn = .quiet (t.illegal tsIllegal r.wi.toNat true)) ∧
      (lane.fetchLane r.wi.toNat = (t, .error c) → s.turn = .quiet (t.fetchFault c (t.cur.laneAddr r.wi.toNat) true r.wi.toNat))) ∧
    (s.dev = .running → s.cur.laneReady = false → s.rest.find? Group.laneReady = none →
      (s.engHeld = false → s.agenda = i :: is → s.turn = .instr .agenda i { lane with agenda := is }) ∧
      (s.agenda = [] → s.rest = [] → s.rr % 16 = 0 → next.controlReady s.cur = true →
        (next.fetchControl s.cur.regs.cpc = (t, .ok w) → decodeControl w = some i → s.turn = .instr .control i t.beginChunk) ∧
        (next.fetchControl s.cur.regs.cpc = (t, .ok w) → decodeControl w = none → s.turn = .instr .control (.illegalControlWord w) t.beginChunk) ∧
        (next.fetchControl s.cur.regs.cpc = (t, .error c) → s.turn = .instr .control (.controlWordFetchFault c) t.beginChunk)))

/-- R147, R150 to R155, R159: words written out field by field decode to the instructions that they stand for, and reserved ones to none.
The model's own reading or choice in it: log 8. -/
def Obligations.WordsOfTheTablesDecode : Prop :=
  decodeControl (0b0010000#7 ++ 0b000001#6 ++ 0b000010#6 ++ 0b000011#6 ++ 0b0000101#7) = some (.shlw 1 2 3) ∧
  decodeControl (0b0010001#7 ++ 0b000111#6 ++ 0b111111#6 ++ 0b1111111111111#13) = some (.addiw 7 63 (-1)) ∧
  decodeControl (0b0000011#7 ++ 0b101#3 ++ 0b000100#6 ++ 0b000101#6 ++ 0b1111111110#10) = some (.brc .geu 4 5 (-2)) ∧
  decodeControl (0b0001001#7 ++ 0b00000#5 ++ 0b00000000000000110000#20) = some (.lblk 0 48) ∧
  decodeControl (0b0001100#7 ++ 0b010#3 ++ 0b001010#6 ++ 0b0000000000000100#16) = some (.yield .network 10 4) ∧
  decodeControl (0b0100011#7 ++ 0b000000#6 ++ 0b0000000000000000101#19) = some (.fence .sys) ∧
  decodeControl (0b0100100#7 ++ 0b01#2 ++ 0b00000000000000000000011#23) = some (.rgn .recover 3) ∧
  decodeControl (0b0110001#7 ++ 0b01010#5 ++ 0b001000#6 ++ 0b000001#6 ++ 0b000010#6 ++ 0b00#2) = some (.cpy true 1 8 1 2) ∧
  decodeControl (0b0111000#7 ++ 0b10011#5 ++ 0b000001#6 ++ 0b000010#6 ++ 0b000110#6 ++ 0b01#2) = some (.drn .tile 3 1 2 .x2m1 true) ∧
  decodeControl (0b1000110#7 ++ 0b000001#6 ++ 0b000010#6 ++ 0b0000000000010#13) = some (.vcflush 1 2 .zero) ∧
  decodeControl (0b1001000#7 ++ 0#25) = none ∧ decodeControl (0b0011100#7 ++ 0b000001#6 ++ 0b000010#6 ++ 0b000011#6 ++ 0b0000001#7) = none ∧
  decodeLane (0b1#1 ++ 0b0#1 ++ 0b0000010000#10 ++ 0b100011#6 ++ 0b00000000101#11 ++ 0b000000000100#12 ++ 0b110000000000#12 ++ 0b000000000000#12 ++
      0b000000#6 ++ 0b00001#5 ++ 0b0000#4 ++ 0b0000000000000111#16) 0 =
    some (.iadd ⟨true, some ⟨false, 3⟩, ⟨false, 0, 5⟩, .vec 1 .none, .imm false, .vec 0 .none, 0, .n32, 0, 7, none⟩) ∧
  decodeLane (0b0#1 ++ 0b1#1 ++ 0b0011000011#10 ++ 0b000000#6 ++ 0b10100000000#11 ++ 0b010000000000#12 ++ 0b100000000100#12 ++ 0b000000001010#12 ++
      0b000000#6 ++ 0b01000#5 ++ 0b0000#4 ++ 0b0000000000000000#16) (0b01#2 ++ 0b001#3 ++ 0b000#3 ++ 0b111111#6 ++ 0b001#3 ++ 0#15) =
    some (.fmadd ⟨false, none, ⟨true, 1, 0⟩, .lat 0, .unif 1, .vec 2 .first, 0, .f32, 0, 0, some ⟨.type, 1, 0, -1, .rz⟩⟩) ∧
  decodeLane (0b0#1 ++ 0b0#1 ++ 0b1111111111#10 ++ 0#84) 0 = none

/-- R146 to R152: the decoder gives back every control instruction from its word. -/
def Obligations.ControlWordsRoundTrip : Prop :=
  ∀ (i : Instr) (w : BitVec 32), i.WellFormed → encodeControl i = some w → decodeControl w = some i

/-- R153 to R159, R260: the decoder gives back every lane instruction from its word and its modifier word, and a modifier word follows
exactly where bit M says so. The model's own reading or choice in it: log 8. -/
def Obligations.LaneWordsRoundTrip : Prop :=
  ∀ (i : Instr) (w : BitVec 96) (m : Option (BitVec 32)), i.WellFormed → encodeLane i = some (w, m) →
    decodeLane w (m.getD 0) = some i ∧ laneHasMods w = m.isSome

/-- R33, R66, R87, R90, R333, R372, R402, R425: what reset leaves: LEASE 0x400, WCBAGE 8, PLACEB with B = 3 and SENS = 1, every lt at 0, the
system state registers of a group 0, VCs 0, 254 and 255 alone, no context, launch, team or operation. The clock at 0, the running state after a
bring-up without failure and the memory that lists nothing are the model's choice (logs 1, 4 and 6). -/
def Obligations.ResetState : Prop :=
  State.reset.lease = 0x400 ∧ State.reset.wcbage = 8 ∧ State.reset.placeb = 0x13 ∧ State.reset.clock = 0 ∧ (∀ c, State.reset.pts c = 0) ∧ State.reset.cur.sysr = ⟨0, 0, 0, 0⟩ ∧
  State.reset.vcs.map Vc.id = [0, 254, 255] ∧ State.reset.ctxs = [] ∧ State.reset.launches = [] ∧ State.reset.teams = [] ∧ State.reset.ops = [] ∧
  State.reset.dev = .running ∧ Memory.wf State.reset.dram = true ∧ State.reset.Legal

/-- R133, R141: registers hold only the bits they have. From every state, legal or not, a step that goes on leaves every group with CPC a
multiple of 4 below 2^57 and EXM within the group's lanes. The model's own reading or choice in it: log 72. -/
def Obligations.StepKeepsLegal : Prop := ∀ s t : State, step s = .next t → t.Legal

/-- R2: memory reads what was written: a byte, or bytes from an address on, and nothing else changes. -/
def Obligations.MemoryReadsWhatWasWritten : Prop :=
  ∀ (m : Mem) (a i : Nat) (b : Byte) (bs : List Byte), Memory.wf m = true →
    memGet (memSet m a b) i = (if i = a then b else memGet m i) ∧
    memGet (memWrite m a bs) i = (if a ≤ i ∧ i < a + bs.length then bs.getD (i - a) 0 else memGet m i) ∧
    memBytes (memWrite m a bs) a bs.length = bs

/-- R428: every instruction goes on from every state, and a step stops exactly where the package is OFF and no bring-up waits. In state OFF a
waiting bring-up is what the step runs, and what stands before it is lost. The model's own reading or choice in it: the packet clauses of exec
(log 75) and what is lost in OFF (log 104). -/
def Obligations.StepStopsOnlyWhenOff : Prop :=
  (∀ (i : Instr) (s : State), Goes (exec i s)) ∧
  (∀ s : State, (step s = .fault .packageOff ∧ s.dev = .off ∧ ∀ r, Instr.powerOn r ∉ s.agenda) ∨ Goes (step s)) ∧
  (∀ s : State, s.dev = .off → (∀ r, Instr.powerOn r ∉ s.agenda) → step s = .fault .packageOff) ∧
  ∀ (s t : State) (r : BringUp) (before after : List Instr), s.dev = .off → s.agenda = before ++ .powerOn r :: after →
    (∀ r', Instr.powerOn r' ∉ before) → exec (.powerOn r) { s with agenda := after, rr := s.rr + 16 } = .next t → t.engHeld = false →
    step s = .next (t.endTurn s false)
end

