-- ==== Sys2Proof/Laws/Decode.lean ====
section
/-! SUPPORT. Fields of the words that the encoder makes, format by format (R147, R153). -/

namespace Sys2Proof

/-- A slice within the low part of two joined fields. -/
theorem extract_lo {n m : Nat} (x : BitVec n) (y : BitVec m) {lo k : Nat} (h : lo + k ≤ m) : (x ++ y).extractLsb' lo k = y.extractLsb' lo k := by
  apply BitVec.eq_of_getLsbD_eq; intro i hi
  simp [BitVec.getLsbD_append, hi]; omega

/-- A slice within the high part. -/
theorem extract_hi {n m : Nat} (x : BitVec n) (y : BitVec m) {lo k : Nat} (h : m ≤ lo) : (x ++ y).extractLsb' lo k = x.extractLsb' (lo - m) k := by
  apply BitVec.eq_of_getLsbD_eq; intro i hi
  simp [BitVec.getLsbD_append, hi]
  rw [if_neg (by omega)]; congr 1; omega

/-! ## CR: op, d, a, b, fn -/

theorem fld_wCR_fn (op : BitVec 7) (d a b : BitVec 6) (fn : BitVec 7) {lo k : Nat} (h : lo + k ≤ 7) :
    fld (wCR op d a b fn) lo k = fn.extractLsb' lo k := extract_lo _ _ h

theorem fld_wCR_b (op : BitVec 7) (d a b : BitVec 6) (fn : BitVec 7) {lo k : Nat} (h1 : 7 ≤ lo) (h2 : lo + k ≤ 13) :
    fld (wCR op d a b fn) lo k = b.extractLsb' (lo - 7) k := (extract_hi _ _ h1).trans (extract_lo _ _ (by omega))

theorem fld_wCR_a (op : BitVec 7) (d a b : BitVec 6) (fn : BitVec 7) {lo k : Nat} (h1 : 13 ≤ lo) (h2 : lo + k ≤ 19) :
    fld (wCR op d a b fn) lo k = a.extractLsb' (lo - 13) k :=
  (extract_hi _ _ (by omega)).trans ((extract_hi _ _ (by omega)).trans ((extract_lo _ _ (by omega)).trans (by rw [Nat.sub_sub])))

theorem fld_wCR_d (op : BitVec 7) (d a b : BitVec 6) (fn : BitVec 7) {lo k : Nat} (h1 : 19 ≤ lo) (h2 : lo + k ≤ 25) :
    fld (wCR op d a b fn) lo k = d.extractLsb' (lo - 19) k :=
  (extract_hi _ _ (by omega)).trans ((extract_hi _ _ (by omega)).trans ((extract_hi _ _ (by omega)).trans ((extract_lo _ _ (by omega)).trans (by
    rw [Nat.sub_sub, Nat.sub_sub]))))

theorem fld_wCR_op (op : BitVec 7) (d a b : BitVec 6) (fn : BitVec 7) : fld (wCR op d a b fn) 25 7 = op :=
  (extract_hi _ _ (by omega)).trans ((extract_hi _ _ (by omega)).trans ((extract_hi _ _ (by omega)).trans ((extract_hi _ _ (by omega)).trans (by simp))))

/-! ## CI: op, d, a, imm -/

theorem fld_wCI_i (op : BitVec 7) (d a : BitVec 6) (i : BitVec 13) {lo k : Nat} (h : lo + k ≤ 13) :
    fld (wCI op d a i) lo k = i.extractLsb' lo k := extract_lo _ _ h

theorem fld_wCI_a (op : BitVec 7) (d a : BitVec 6) (i : BitVec 13) {lo k : Nat} (h1 : 13 ≤ lo) (h2 : lo + k ≤ 19) :
    fld (wCI op d a i) lo k = a.extractLsb' (lo - 13) k := (extract_hi _ _ h1).trans (extract_lo _ _ (by omega))

theorem fld_wCI_d (op : BitVec 7) (d a : BitVec 6) (i : BitVec 13) {lo k : Nat} (h1 : 19 ≤ lo) (h2 : lo + k ≤ 25) :
    fld (wCI op d a i) lo k = d.extractLsb' (lo - 19) k :=
  (extract_hi _ _ (by omega)).trans ((extract_hi _ _ (by omega)).trans ((extract_lo _ _ (by omega)).trans (by rw [Nat.sub_sub])))

theorem fld_wCI_op (op : BitVec 7) (d a : BitVec 6) (i : BitVec 13) : fld (wCI op d a i) 25 7 = op :=
  (extract_hi _ _ (by omega)).trans ((extract_hi _ _ (by omega)).trans ((extract_hi _ _ (by omega)).trans (by simp)))

/-! ## CJ, CU, CY -/

theorem fld_wCJ_o (op : BitVec 7) (o : BitVec 25) {lo k : Nat} (h : lo + k ≤ 25) : fld (wCJ op o) lo k = o.extractLsb' lo k := extract_lo _ _ h

theorem fld_wCJ_op (op : BitVec 7) (o : BitVec 25) : fld (wCJ op o) 25 7 = op := (extract_hi _ _ (by omega)).trans (by simp)

theorem fld_wCU_i (op : BitVec 7) (d : BitVec 6) (i : BitVec 19) {lo k : Nat} (h : lo + k ≤ 19) :
    fld (wCU op d i) lo k = i.extractLsb' lo k := extract_lo _ _ h

theorem fld_wCU_d (op : BitVec 7) (d : BitVec 6) (i : BitVec 19) {lo k : Nat} (h1 : 19 ≤ lo) (h2 : lo + k ≤ 25) :
    fld (wCU op d i) lo k = d.extractLsb' (lo - 19) k := (extract_hi _ _ h1).trans (extract_lo _ _ (by omega))

theorem fld_wCU_op (op : BitVec 7) (d : BitVec 6) (i : BitVec 19) : fld (wCU op d i) 25 7 = op :=
  (extract_hi _ _ (by omega)).trans ((extract_hi _ _ (by omega)).trans (by simp))

theorem fld_wCY_o (op : BitVec 7) (e : BitVec 3) (a : BitVec 6) (o : BitVec 16) {lo k : Nat} (h : lo + k ≤ 16) :
    fld (wCY op e a o) lo k = o.extractLsb' lo k := extract_lo _ _ h

theorem fld_wCY_a (op : BitVec 7) (e : BitVec 3) (a : BitVec 6) (o : BitVec 16) {lo k : Nat} (h1 : 16 ≤ lo) (h2 : lo + k ≤ 22) :
    fld (wCY op e a o) lo k = a.extractLsb' (lo - 16) k := (extract_hi _ _ h1).trans (extract_lo _ _ (by omega))

theorem fld_wCY_e (op : BitVec 7) (e : BitVec 3) (a : BitVec 6) (o : BitVec 16) {lo k : Nat} (h1 : 22 ≤ lo) (h2 : lo + k ≤ 25) :
    fld (wCY op e a o) lo k = e.extractLsb' (lo - 22) k :=
  (extract_hi _ _ (by omega)).trans ((extract_hi _ _ (by omega)).trans ((extract_lo _ _ (by omega)).trans (by rw [Nat.sub_sub])))

theorem fld_wCY_op (op : BitVec 7) (e : BitVec 3) (a : BitVec 6) (o : BitVec 16) : fld (wCY op e a o) 25 7 = op :=
  (extract_hi _ _ (by omega)).trans ((extract_hi _ _ (by omega)).trans ((extract_hi _ _ (by omega)).trans (by simp)))

/-! ## CE: op, sub, a, b, c, fl -/

theorem fld_wCE_fl (op : BitVec 7) (sub : BitVec 5) (a b c : BitVec 6) (fl : BitVec 2) {lo k : Nat} (h : lo + k ≤ 2) :
    fld (wCE op sub a b c fl) lo k = fl.extractLsb' lo k := extract_lo _ _ h

theorem fld_wCE_c (op : BitVec 7) (sub : BitVec 5) (a b c : BitVec 6) (fl : BitVec 2) {lo k : Nat} (h1 : 2 ≤ lo) (h2 : lo + k ≤ 8) :
    fld (wCE op sub a b c fl) lo k = c.extractLsb' (lo - 2) k := (extract_hi _ _ h1).trans (extract_lo _ _ (by omega))

theorem fld_wCE_b (op : BitVec 7) (sub : BitVec 5) (a b c : BitVec 6) (fl : BitVec 2) {lo k : Nat} (h1 : 8 ≤ lo) (h2 : lo + k ≤ 14) :
    fld (wCE op sub a b c fl) lo k = b.extractLsb' (lo - 8) k :=
  (extract_hi _ _ (by omega)).trans ((extract_hi _ _ (by omega)).trans ((extract_lo _ _ (by omega)).trans (by rw [Nat.sub_sub])))

theorem fld_wCE_a (op : BitVec 7) (sub : BitVec 5) (a b c : BitVec 6) (fl : BitVec 2) {lo k : Nat} (h1 : 14 ≤ lo) (h2 : lo + k ≤ 20) :
    fld (wCE op sub a b c fl) lo k = a.extractLsb' (lo - 14) k :=
  (extract_hi _ _ (by omega)).trans ((extract_hi _ _ (by omega)).trans ((extract_hi _ _ (by omega)).trans ((extract_lo _ _ (by omega)).trans (by
    rw [Nat.sub_sub, Nat.sub_sub]))))

theorem fld_wCE_sub (op : BitVec 7) (sub : BitVec 5) (a b c : BitVec 6) (fl : BitVec 2) {lo k : Nat} (h1 : 20 ≤ lo) (h2 : lo + k ≤ 25) :
    fld (wCE op sub a b c fl) lo k = sub.extractLsb' (lo - 20) k :=
  (extract_hi _ _ (by omega)).trans ((extract_hi _ _ (by omega)).trans ((extract_hi _ _ (by omega)).trans ((extract_hi _ _ (by omega)).trans
    ((extract_lo _ _ (by omega)).trans (by rw [Nat.sub_sub, Nat.sub_sub, Nat.sub_sub])))))

theorem fld_wCE_op (op : BitVec 7) (sub : BitVec 5) (a b c : BitVec 6) (fl : BitVec 2) : fld (wCE op sub a b c fl) 25 7 = op :=
  (extract_hi _ _ (by omega)).trans ((extract_hi _ _ (by omega)).trans ((extract_hi _ _ (by omega)).trans ((extract_hi _ _ (by omega)).trans
    ((extract_hi _ _ (by omega)).trans (by simp)))))

end Sys2Proof
end

