-- ==== Sys2Proof/Laws/State.lean ====
section
/-! SUPPORT. What the updates of the current group and of every group leave: one lemma per field per update. -/

namespace Sys2Proof.Machine

/-! ## `onCur` -/

@[simp] theorem State.onCur_cur (s : State) (f : Group → Group) : (s.onCur f).cur = f s.cur := rfl
@[simp] theorem State.onCur_rest (s : State) (f : Group → Group) : (s.onCur f).rest = s.rest := rfl
@[simp] theorem State.onCur_teams (s : State) (f : Group → Group) : (s.onCur f).teams = s.teams := rfl
@[simp] theorem State.onCur_launches (s : State) (f : Group → Group) : (s.onCur f).launches = s.launches := rfl
@[simp] theorem State.onCur_ctxs (s : State) (f : Group → Group) : (s.onCur f).ctxs = s.ctxs := rfl
@[simp] theorem State.onCur_claims (s : State) (f : Group → Group) : (s.onCur f).claims = s.claims := rfl
@[simp] theorem State.onCur_cores (s : State) (f : Group → Group) : (s.onCur f).cores = s.cores := rfl
@[simp] theorem State.onCur_clusters (s : State) (f : Group → Group) : (s.onCur f).clusters = s.clusters := rfl
@[simp] theorem State.onCur_ioTlb (s : State) (f : Group → Group) : (s.onCur f).ioTlb = s.ioTlb := rfl
@[simp] theorem State.onCur_dram (s : State) (f : Group → Group) : (s.onCur f).dram = s.dram := rfl
@[simp] theorem State.onCur_synd (s : State) (f : Group → Group) : (s.onCur f).synd = s.synd := rfl
@[simp] theorem State.onCur_ue (s : State) (f : Group → Group) : (s.onCur f).ue = s.ue := rfl
@[simp] theorem State.onCur_soft (s : State) (f : Group → Group) : (s.onCur f).soft = s.soft := rfl
@[simp] theorem State.onCur_bankErr (s : State) (f : Group → Group) : (s.onCur f).bankErr = s.bankErr := rfl
@[simp] theorem State.onCur_channels (s : State) (f : Group → Group) : (s.onCur f).channels = s.channels := rfl
@[simp] theorem State.onCur_ddrCap (s : State) (f : Group → Group) : (s.onCur f).ddrCap = s.ddrCap := rfl
@[simp] theorem State.onCur_free (s : State) (f : Group → Group) : (s.onCur f).free = s.free := rfl
@[simp] theorem State.onCur_pinned (s : State) (f : Group → Group) : (s.onCur f).pinned = s.pinned := rfl
@[simp] theorem State.onCur_devPinned (s : State) (f : Group → Group) : (s.onCur f).devPinned = s.devPinned := rfl
@[simp] theorem State.onCur_migrations (s : State) (f : Group → Group) : (s.onCur f).migrations = s.migrations := rfl
@[simp] theorem State.onCur_migWait (s : State) (f : Group → Group) : (s.onCur f).migWait = s.migWait := rfl
@[simp] theorem State.onCur_migOwed (s : State) (f : Group → Group) : (s.onCur f).migOwed = s.migOwed := rfl
@[simp] theorem State.onCur_lastUse (s : State) (f : Group → Group) : (s.onCur f).lastUse = s.lastUse := rfl
@[simp] theorem State.onCur_bank (s : State) (f : Group → Group) : (s.onCur f).bank = s.bank := rfl
@[simp] theorem State.onCur_slices (s : State) (f : Group → Group) : (s.onCur f).slices = s.slices := rfl
@[simp] theorem State.onCur_bases (s : State) (f : Group → Group) : (s.onCur f).bases = s.bases := rfl
@[simp] theorem State.onCur_vcs (s : State) (f : Group → Group) : (s.onCur f).vcs = s.vcs := rfl
@[simp] theorem State.onCur_per254 (s : State) (f : Group → Group) : (s.onCur f).per254 = s.per254 := rfl
@[simp] theorem State.onCur_badShares (s : State) (f : Group → Group) : (s.onCur f).badShares = s.badShares := rfl
@[simp] theorem State.onCur_filters (s : State) (f : Group → Group) : (s.onCur f).filters = s.filters := rfl
@[simp] theorem State.onCur_watches (s : State) (f : Group → Group) : (s.onCur f).watches = s.watches := rfl
@[simp] theorem State.onCur_reserved (s : State) (f : Group → Group) : (s.onCur f).reserved = s.reserved := rfl
@[simp] theorem State.onCur_shoots (s : State) (f : Group → Group) : (s.onCur f).shoots = s.shoots := rfl
@[simp] theorem State.onCur_ops (s : State) (f : Group → Group) : (s.onCur f).ops = s.ops := rfl
@[simp] theorem State.onCur_vctbase (s : State) (f : Group → Group) : (s.onCur f).vctbase = s.vctbase := rfl
@[simp] theorem State.onCur_lease (s : State) (f : Group → Group) : (s.onCur f).lease = s.lease := rfl
@[simp] theorem State.onCur_wcbage (s : State) (f : Group → Group) : (s.onCur f).wcbage = s.wcbage := rfl
@[simp] theorem State.onCur_placeb (s : State) (f : Group → Group) : (s.onCur f).placeb = s.placeb := rfl
@[simp] theorem State.onCur_chip (s : State) (f : Group → Group) : (s.onCur f).chip = s.chip := rfl
@[simp] theorem State.onCur_clock (s : State) (f : Group → Group) : (s.onCur f).clock = s.clock := rfl
@[simp] theorem State.onCur_windows (s : State) (f : Group → Group) : (s.onCur f).windows = s.windows := rfl
@[simp] theorem State.onCur_counters (s : State) (f : Group → Group) : (s.onCur f).counters = s.counters := rfl
@[simp] theorem State.onCur_peers (s : State) (f : Group → Group) : (s.onCur f).peers = s.peers := rfl
@[simp] theorem State.onCur_outReqs (s : State) (f : Group → Group) : (s.onCur f).outReqs = s.outReqs := rfl
@[simp] theorem State.onCur_holds (s : State) (f : Group → Group) : (s.onCur f).holds = s.holds := rfl
@[simp] theorem State.onCur_missed (s : State) (f : Group → Group) : (s.onCur f).missed = s.missed := rfl
@[simp] theorem State.onCur_winAnswers (s : State) (f : Group → Group) : (s.onCur f).winAnswers = s.winAnswers := rfl
@[simp] theorem State.onCur_slots (s : State) (f : Group → Group) : (s.onCur f).slots = s.slots := rfl
@[simp] theorem State.onCur_utx (s : State) (f : Group → Group) : (s.onCur f).utx = s.utx := rfl
@[simp] theorem State.onCur_urx (s : State) (f : Group → Group) : (s.onCur f).urx = s.urx := rfl
@[simp] theorem State.onCur_rod (s : State) (f : Group → Group) : (s.onCur f).rod = s.rod := rfl
@[simp] theorem State.onCur_recvs (s : State) (f : Group → Group) : (s.onCur f).recvs = s.recvs := rfl
@[simp] theorem State.onCur_netPend (s : State) (f : Group → Group) : (s.onCur f).netPend = s.netPend := rfl
@[simp] theorem State.onCur_abortKeys (s : State) (f : Group → Group) : (s.onCur f).abortKeys = s.abortKeys := rfl
@[simp] theorem State.onCur_endedKeys (s : State) (f : Group → Group) : (s.onCur f).endedKeys = s.endedKeys := rfl
@[simp] theorem State.onCur_gangs (s : State) (f : Group → Group) : (s.onCur f).gangs = s.gangs := rfl
@[simp] theorem State.onCur_withdrawals (s : State) (f : Group → Group) : (s.onCur f).withdrawals = s.withdrawals := rfl
@[simp] theorem State.onCur_ports (s : State) (f : Group → Group) : (s.onCur f).ports = s.ports := rfl
@[simp] theorem State.onCur_rows (s : State) (f : Group → Group) : (s.onCur f).rows = s.rows := rfl
@[simp] theorem State.onCur_cols (s : State) (f : Group → Group) : (s.onCur f).cols = s.cols := rfl
@[simp] theorem State.onCur_egress (s : State) (f : Group → Group) : (s.onCur f).egress = s.egress := rfl
@[simp] theorem State.onCur_detours (s : State) (f : Group → Group) : (s.onCur f).detours = s.detours := rfl
@[simp] theorem State.onCur_etherGbps (s : State) (f : Group → Group) : (s.onCur f).etherGbps = s.etherGbps := rfl
@[simp] theorem State.onCur_etherAddr (s : State) (f : Group → Group) : (s.onCur f).etherAddr = s.etherAddr := rfl
@[simp] theorem State.onCur_flashAddr (s : State) (f : Group → Group) : (s.onCur f).flashAddr = s.flashAddr := rfl
@[simp] theorem State.onCur_gangMs (s : State) (f : Group → Group) : (s.onCur f).gangMs = s.gangMs := rfl
@[simp] theorem State.onCur_cursor1 (s : State) (f : Group → Group) : (s.onCur f).cursor1 = s.cursor1 := rfl
@[simp] theorem State.onCur_cursor2 (s : State) (f : Group → Group) : (s.onCur f).cursor2 = s.cursor2 := rfl
@[simp] theorem State.onCur_skips (s : State) (f : Group → Group) : (s.onCur f).skips = s.skips := rfl
@[simp] theorem State.onCur_badCores (s : State) (f : Group → Group) : (s.onCur f).badCores = s.badCores := rfl
@[simp] theorem State.onCur_lostDies (s : State) (f : Group → Group) : (s.onCur f).lostDies = s.lostDies := rfl
@[simp] theorem State.onCur_lostPools (s : State) (f : Group → Group) : (s.onCur f).lostPools = s.lostPools := rfl
@[simp] theorem State.onCur_nextLid (s : State) (f : Group → Group) : (s.onCur f).nextLid = s.nextLid := rfl
@[simp] theorem State.onCur_dev (s : State) (f : Group → Group) : (s.onCur f).dev = s.dev := rfl
@[simp] theorem State.onCur_hot (s : State) (f : Group → Group) : (s.onCur f).hot = s.hot := rfl
@[simp] theorem State.onCur_power (s : State) (f : Group → Group) : (s.onCur f).power = s.power := rfl
@[simp] theorem State.onCur_log (s : State) (f : Group → Group) : (s.onCur f).log = s.log := rfl
@[simp] theorem State.onCur_counts (s : State) (f : Group → Group) : (s.onCur f).counts = s.counts := rfl
@[simp] theorem State.onCur_flash (s : State) (f : Group → Group) : (s.onCur f).flash = s.flash := rfl
@[simp] theorem State.onCur_fwNew (s : State) (f : Group → Group) : (s.onCur f).fwNew = s.fwNew := rfl
@[simp] theorem State.onCur_out (s : State) (f : Group → Group) : (s.onCur f).out = s.out := rfl
@[simp] theorem State.onCur_agenda (s : State) (f : Group → Group) : (s.onCur f).agenda = s.agenda := rfl
@[simp] theorem State.onCur_rr (s : State) (f : Group → Group) : (s.onCur f).rr = s.rr := rfl
@[simp] theorem State.onCur_lastCtl (s : State) (f : Group → Group) : (s.onCur f).lastCtl = s.lastCtl := rfl
@[simp] theorem State.onCur_nextKey (s : State) (f : Group → Group) : (s.onCur f).nextKey = s.nextKey := rfl
@[simp] theorem State.onCur_fresh (s : State) (f : Group → Group) : (s.onCur f).fresh = s.fresh := rfl
@[simp] theorem State.onCur_engHeld (s : State) (f : Group → Group) : (s.onCur f).engHeld = s.engHeld := rfl

/-! ## `onRegs` -/

@[simp] theorem State.onRegs_cur (s : State) (f : Regs → Regs) : (s.onRegs f).cur = { s.cur with regs := f s.cur.regs } := rfl
@[simp] theorem State.onRegs_rest (s : State) (f : Regs → Regs) : (s.onRegs f).rest = s.rest := rfl
@[simp] theorem State.onRegs_teams (s : State) (f : Regs → Regs) : (s.onRegs f).teams = s.teams := rfl
@[simp] theorem State.onRegs_launches (s : State) (f : Regs → Regs) : (s.onRegs f).launches = s.launches := rfl
@[simp] theorem State.onRegs_ctxs (s : State) (f : Regs → Regs) : (s.onRegs f).ctxs = s.ctxs := rfl
@[simp] theorem State.onRegs_claims (s : State) (f : Regs → Regs) : (s.onRegs f).claims = s.claims := rfl
@[simp] theorem State.onRegs_cores (s : State) (f : Regs → Regs) : (s.onRegs f).cores = s.cores := rfl
@[simp] theorem State.onRegs_clusters (s : State) (f : Regs → Regs) : (s.onRegs f).clusters = s.clusters := rfl
@[simp] theorem State.onRegs_ioTlb (s : State) (f : Regs → Regs) : (s.onRegs f).ioTlb = s.ioTlb := rfl
@[simp] theorem State.onRegs_dram (s : State) (f : Regs → Regs) : (s.onRegs f).dram = s.dram := rfl
@[simp] theorem State.onRegs_synd (s : State) (f : Regs → Regs) : (s.onRegs f).synd = s.synd := rfl
@[simp] theorem State.onRegs_ue (s : State) (f : Regs → Regs) : (s.onRegs f).ue = s.ue := rfl
@[simp] theorem State.onRegs_soft (s : State) (f : Regs → Regs) : (s.onRegs f).soft = s.soft := rfl
@[simp] theorem State.onRegs_bankErr (s : State) (f : Regs → Regs) : (s.onRegs f).bankErr = s.bankErr := rfl
@[simp] theorem State.onRegs_channels (s : State) (f : Regs → Regs) : (s.onRegs f).channels = s.channels := rfl
@[simp] theorem State.onRegs_ddrCap (s : State) (f : Regs → Regs) : (s.onRegs f).ddrCap = s.ddrCap := rfl
@[simp] theorem State.onRegs_free (s : State) (f : Regs → Regs) : (s.onRegs f).free = s.free := rfl
@[simp] theorem State.onRegs_pinned (s : State) (f : Regs → Regs) : (s.onRegs f).pinned = s.pinned := rfl
@[simp] theorem State.onRegs_devPinned (s : State) (f : Regs → Regs) : (s.onRegs f).devPinned = s.devPinned := rfl
@[simp] theorem State.onRegs_migrations (s : State) (f : Regs → Regs) : (s.onRegs f).migrations = s.migrations := rfl
@[simp] theorem State.onRegs_migWait (s : State) (f : Regs → Regs) : (s.onRegs f).migWait = s.migWait := rfl
@[simp] theorem State.onRegs_migOwed (s : State) (f : Regs → Regs) : (s.onRegs f).migOwed = s.migOwed := rfl
@[simp] theorem State.onRegs_lastUse (s : State) (f : Regs → Regs) : (s.onRegs f).lastUse = s.lastUse := rfl
@[simp] theorem State.onRegs_bank (s : State) (f : Regs → Regs) : (s.onRegs f).bank = s.bank := rfl
@[simp] theorem State.onRegs_slices (s : State) (f : Regs → Regs) : (s.onRegs f).slices = s.slices := rfl
@[simp] theorem State.onRegs_bases (s : State) (f : Regs → Regs) : (s.onRegs f).bases = s.bases := rfl
@[simp] theorem State.onRegs_vcs (s : State) (f : Regs → Regs) : (s.onRegs f).vcs = s.vcs := rfl
@[simp] theorem State.onRegs_per254 (s : State) (f : Regs → Regs) : (s.onRegs f).per254 = s.per254 := rfl
@[simp] theorem State.onRegs_badShares (s : State) (f : Regs → Regs) : (s.onRegs f).badShares = s.badShares := rfl
@[simp] theorem State.onRegs_filters (s : State) (f : Regs → Regs) : (s.onRegs f).filters = s.filters := rfl
@[simp] theorem State.onRegs_watches (s : State) (f : Regs → Regs) : (s.onRegs f).watches = s.watches := rfl
@[simp] theorem State.onRegs_reserved (s : State) (f : Regs → Regs) : (s.onRegs f).reserved = s.reserved := rfl
@[simp] theorem State.onRegs_shoots (s : State) (f : Regs → Regs) : (s.onRegs f).shoots = s.shoots := rfl
@[simp] theorem State.onRegs_ops (s : State) (f : Regs → Regs) : (s.onRegs f).ops = s.ops := rfl
@[simp] theorem State.onRegs_vctbase (s : State) (f : Regs → Regs) : (s.onRegs f).vctbase = s.vctbase := rfl
@[simp] theorem State.onRegs_lease (s : State) (f : Regs → Regs) : (s.onRegs f).lease = s.lease := rfl
@[simp] theorem State.onRegs_wcbage (s : State) (f : Regs → Regs) : (s.onRegs f).wcbage = s.wcbage := rfl
@[simp] theorem State.onRegs_placeb (s : State) (f : Regs → Regs) : (s.onRegs f).placeb = s.placeb := rfl
@[simp] theorem State.onRegs_chip (s : State) (f : Regs → Regs) : (s.onRegs f).chip = s.chip := rfl
@[simp] theorem State.onRegs_clock (s : State) (f : Regs → Regs) : (s.onRegs f).clock = s.clock := rfl
@[simp] theorem State.onRegs_windows (s : State) (f : Regs → Regs) : (s.onRegs f).windows = s.windows := rfl
@[simp] theorem State.onRegs_counters (s : State) (f : Regs → Regs) : (s.onRegs f).counters = s.counters := rfl
@[simp] theorem State.onRegs_peers (s : State) (f : Regs → Regs) : (s.onRegs f).peers = s.peers := rfl
@[simp] theorem State.onRegs_outReqs (s : State) (f : Regs → Regs) : (s.onRegs f).outReqs = s.outReqs := rfl
@[simp] theorem State.onRegs_holds (s : State) (f : Regs → Regs) : (s.onRegs f).holds = s.holds := rfl
@[simp] theorem State.onRegs_missed (s : State) (f : Regs → Regs) : (s.onRegs f).missed = s.missed := rfl
@[simp] theorem State.onRegs_winAnswers (s : State) (f : Regs → Regs) : (s.onRegs f).winAnswers = s.winAnswers := rfl
@[simp] theorem State.onRegs_slots (s : State) (f : Regs → Regs) : (s.onRegs f).slots = s.slots := rfl
@[simp] theorem State.onRegs_utx (s : State) (f : Regs → Regs) : (s.onRegs f).utx = s.utx := rfl
@[simp] theorem State.onRegs_urx (s : State) (f : Regs → Regs) : (s.onRegs f).urx = s.urx := rfl
@[simp] theorem State.onRegs_rod (s : State) (f : Regs → Regs) : (s.onRegs f).rod = s.rod := rfl
@[simp] theorem State.onRegs_recvs (s : State) (f : Regs → Regs) : (s.onRegs f).recvs = s.recvs := rfl
@[simp] theorem State.onRegs_netPend (s : State) (f : Regs → Regs) : (s.onRegs f).netPend = s.netPend := rfl
@[simp] theorem State.onRegs_abortKeys (s : State) (f : Regs → Regs) : (s.onRegs f).abortKeys = s.abortKeys := rfl
@[simp] theorem State.onRegs_endedKeys (s : State) (f : Regs → Regs) : (s.onRegs f).endedKeys = s.endedKeys := rfl
@[simp] theorem State.onRegs_gangs (s : State) (f : Regs → Regs) : (s.onRegs f).gangs = s.gangs := rfl
@[simp] theorem State.onRegs_withdrawals (s : State) (f : Regs → Regs) : (s.onRegs f).withdrawals = s.withdrawals := rfl
@[simp] theorem State.onRegs_ports (s : State) (f : Regs → Regs) : (s.onRegs f).ports = s.ports := rfl
@[simp] theorem State.onRegs_rows (s : State) (f : Regs → Regs) : (s.onRegs f).rows = s.rows := rfl
@[simp] theorem State.onRegs_cols (s : State) (f : Regs → Regs) : (s.onRegs f).cols = s.cols := rfl
@[simp] theorem State.onRegs_egress (s : State) (f : Regs → Regs) : (s.onRegs f).egress = s.egress := rfl
@[simp] theorem State.onRegs_detours (s : State) (f : Regs → Regs) : (s.onRegs f).detours = s.detours := rfl
@[simp] theorem State.onRegs_etherGbps (s : State) (f : Regs → Regs) : (s.onRegs f).etherGbps = s.etherGbps := rfl
@[simp] theorem State.onRegs_etherAddr (s : State) (f : Regs → Regs) : (s.onRegs f).etherAddr = s.etherAddr := rfl
@[simp] theorem State.onRegs_flashAddr (s : State) (f : Regs → Regs) : (s.onRegs f).flashAddr = s.flashAddr := rfl
@[simp] theorem State.onRegs_gangMs (s : State) (f : Regs → Regs) : (s.onRegs f).gangMs = s.gangMs := rfl
@[simp] theorem State.onRegs_cursor1 (s : State) (f : Regs → Regs) : (s.onRegs f).cursor1 = s.cursor1 := rfl
@[simp] theorem State.onRegs_cursor2 (s : State) (f : Regs → Regs) : (s.onRegs f).cursor2 = s.cursor2 := rfl
@[simp] theorem State.onRegs_skips (s : State) (f : Regs → Regs) : (s.onRegs f).skips = s.skips := rfl
@[simp] theorem State.onRegs_badCores (s : State) (f : Regs → Regs) : (s.onRegs f).badCores = s.badCores := rfl
@[simp] theorem State.onRegs_lostDies (s : State) (f : Regs → Regs) : (s.onRegs f).lostDies = s.lostDies := rfl
@[simp] theorem State.onRegs_lostPools (s : State) (f : Regs → Regs) : (s.onRegs f).lostPools = s.lostPools := rfl
@[simp] theorem State.onRegs_nextLid (s : State) (f : Regs → Regs) : (s.onRegs f).nextLid = s.nextLid := rfl
@[simp] theorem State.onRegs_dev (s : State) (f : Regs → Regs) : (s.onRegs f).dev = s.dev := rfl
@[simp] theorem State.onRegs_hot (s : State) (f : Regs → Regs) : (s.onRegs f).hot = s.hot := rfl
@[simp] theorem State.onRegs_power (s : State) (f : Regs → Regs) : (s.onRegs f).power = s.power := rfl
@[simp] theorem State.onRegs_log (s : State) (f : Regs → Regs) : (s.onRegs f).log = s.log := rfl
@[simp] theorem State.onRegs_counts (s : State) (f : Regs → Regs) : (s.onRegs f).counts = s.counts := rfl
@[simp] theorem State.onRegs_flash (s : State) (f : Regs → Regs) : (s.onRegs f).flash = s.flash := rfl
@[simp] theorem State.onRegs_fwNew (s : State) (f : Regs → Regs) : (s.onRegs f).fwNew = s.fwNew := rfl
@[simp] theorem State.onRegs_out (s : State) (f : Regs → Regs) : (s.onRegs f).out = s.out := rfl
@[simp] theorem State.onRegs_agenda (s : State) (f : Regs → Regs) : (s.onRegs f).agenda = s.agenda := rfl
@[simp] theorem State.onRegs_rr (s : State) (f : Regs → Regs) : (s.onRegs f).rr = s.rr := rfl
@[simp] theorem State.onRegs_lastCtl (s : State) (f : Regs → Regs) : (s.onRegs f).lastCtl = s.lastCtl := rfl
@[simp] theorem State.onRegs_nextKey (s : State) (f : Regs → Regs) : (s.onRegs f).nextKey = s.nextKey := rfl
@[simp] theorem State.onRegs_fresh (s : State) (f : Regs → Regs) : (s.onRegs f).fresh = s.fresh := rfl
@[simp] theorem State.onRegs_engHeld (s : State) (f : Regs → Regs) : (s.onRegs f).engHeld = s.engHeld := rfl

/-! ## `onChunk` -/

@[simp] theorem State.onChunk_cur (s : State) (f : Chunk → Chunk) : (s.onChunk f).cur = { s.cur with chunk := f s.cur.chunk } := rfl
@[simp] theorem State.onChunk_rest (s : State) (f : Chunk → Chunk) : (s.onChunk f).rest = s.rest := rfl
@[simp] theorem State.onChunk_teams (s : State) (f : Chunk → Chunk) : (s.onChunk f).teams = s.teams := rfl
@[simp] theorem State.onChunk_launches (s : State) (f : Chunk → Chunk) : (s.onChunk f).launches = s.launches := rfl
@[simp] theorem State.onChunk_ctxs (s : State) (f : Chunk → Chunk) : (s.onChunk f).ctxs = s.ctxs := rfl
@[simp] theorem State.onChunk_claims (s : State) (f : Chunk → Chunk) : (s.onChunk f).claims = s.claims := rfl
@[simp] theorem State.onChunk_cores (s : State) (f : Chunk → Chunk) : (s.onChunk f).cores = s.cores := rfl
@[simp] theorem State.onChunk_clusters (s : State) (f : Chunk → Chunk) : (s.onChunk f).clusters = s.clusters := rfl
@[simp] theorem State.onChunk_ioTlb (s : State) (f : Chunk → Chunk) : (s.onChunk f).ioTlb = s.ioTlb := rfl
@[simp] theorem State.onChunk_dram (s : State) (f : Chunk → Chunk) : (s.onChunk f).dram = s.dram := rfl
@[simp] theorem State.onChunk_synd (s : State) (f : Chunk → Chunk) : (s.onChunk f).synd = s.synd := rfl
@[simp] theorem State.onChunk_ue (s : State) (f : Chunk → Chunk) : (s.onChunk f).ue = s.ue := rfl
@[simp] theorem State.onChunk_soft (s : State) (f : Chunk → Chunk) : (s.onChunk f).soft = s.soft := rfl
@[simp] theorem State.onChunk_bankErr (s : State) (f : Chunk → Chunk) : (s.onChunk f).bankErr = s.bankErr := rfl
@[simp] theorem State.onChunk_channels (s : State) (f : Chunk → Chunk) : (s.onChunk f).channels = s.channels := rfl
@[simp] theorem State.onChunk_ddrCap (s : State) (f : Chunk → Chunk) : (s.onChunk f).ddrCap = s.ddrCap := rfl
@[simp] theorem State.onChunk_free (s : State) (f : Chunk → Chunk) : (s.onChunk f).free = s.free := rfl
@[simp] theorem State.onChunk_pinned (s : State) (f : Chunk → Chunk) : (s.onChunk f).pinned = s.pinned := rfl
@[simp] theorem State.onChunk_devPinned (s : State) (f : Chunk → Chunk) : (s.onChunk f).devPinned = s.devPinned := rfl
@[simp] theorem State.onChunk_migrations (s : State) (f : Chunk → Chunk) : (s.onChunk f).migrations = s.migrations := rfl
@[simp] theorem State.onChunk_migWait (s : State) (f : Chunk → Chunk) : (s.onChunk f).migWait = s.migWait := rfl
@[simp] theorem State.onChunk_migOwed (s : State) (f : Chunk → Chunk) : (s.onChunk f).migOwed = s.migOwed := rfl
@[simp] theorem State.onChunk_lastUse (s : State) (f : Chunk → Chunk) : (s.onChunk f).lastUse = s.lastUse := rfl
@[simp] theorem State.onChunk_bank (s : State) (f : Chunk → Chunk) : (s.onChunk f).bank = s.bank := rfl
@[simp] theorem State.onChunk_slices (s : State) (f : Chunk → Chunk) : (s.onChunk f).slices = s.slices := rfl
@[simp] theorem State.onChunk_bases (s : State) (f : Chunk → Chunk) : (s.onChunk f).bases = s.bases := rfl
@[simp] theorem State.onChunk_vcs (s : State) (f : Chunk → Chunk) : (s.onChunk f).vcs = s.vcs := rfl
@[simp] theorem State.onChunk_per254 (s : State) (f : Chunk → Chunk) : (s.onChunk f).per254 = s.per254 := rfl
@[simp] theorem State.onChunk_badShares (s : State) (f : Chunk → Chunk) : (s.onChunk f).badShares = s.badShares := rfl
@[simp] theorem State.onChunk_filters (s : State) (f : Chunk → Chunk) : (s.onChunk f).filters = s.filters := rfl
@[simp] theorem State.onChunk_watches (s : State) (f : Chunk → Chunk) : (s.onChunk f).watches = s.watches := rfl
@[simp] theorem State.onChunk_reserved (s : State) (f : Chunk → Chunk) : (s.onChunk f).reserved = s.reserved := rfl
@[simp] theorem State.onChunk_shoots (s : State) (f : Chunk → Chunk) : (s.onChunk f).shoots = s.shoots := rfl
@[simp] theorem State.onChunk_ops (s : State) (f : Chunk → Chunk) : (s.onChunk f).ops = s.ops := rfl
@[simp] theorem State.onChunk_vctbase (s : State) (f : Chunk → Chunk) : (s.onChunk f).vctbase = s.vctbase := rfl
@[simp] theorem State.onChunk_lease (s : State) (f : Chunk → Chunk) : (s.onChunk f).lease = s.lease := rfl
@[simp] theorem State.onChunk_wcbage (s : State) (f : Chunk → Chunk) : (s.onChunk f).wcbage = s.wcbage := rfl
@[simp] theorem State.onChunk_placeb (s : State) (f : Chunk → Chunk) : (s.onChunk f).placeb = s.placeb := rfl
@[simp] theorem State.onChunk_chip (s : State) (f : Chunk → Chunk) : (s.onChunk f).chip = s.chip := rfl
@[simp] theorem State.onChunk_clock (s : State) (f : Chunk → Chunk) : (s.onChunk f).clock = s.clock := rfl
@[simp] theorem State.onChunk_windows (s : State) (f : Chunk → Chunk) : (s.onChunk f).windows = s.windows := rfl
@[simp] theorem State.onChunk_counters (s : State) (f : Chunk → Chunk) : (s.onChunk f).counters = s.counters := rfl
@[simp] theorem State.onChunk_peers (s : State) (f : Chunk → Chunk) : (s.onChunk f).peers = s.peers := rfl
@[simp] theorem State.onChunk_outReqs (s : State) (f : Chunk → Chunk) : (s.onChunk f).outReqs = s.outReqs := rfl
@[simp] theorem State.onChunk_holds (s : State) (f : Chunk → Chunk) : (s.onChunk f).holds = s.holds := rfl
@[simp] theorem State.onChunk_missed (s : State) (f : Chunk → Chunk) : (s.onChunk f).missed = s.missed := rfl
@[simp] theorem State.onChunk_winAnswers (s : State) (f : Chunk → Chunk) : (s.onChunk f).winAnswers = s.winAnswers := rfl
@[simp] theorem State.onChunk_slots (s : State) (f : Chunk → Chunk) : (s.onChunk f).slots = s.slots := rfl
@[simp] theorem State.onChunk_utx (s : State) (f : Chunk → Chunk) : (s.onChunk f).utx = s.utx := rfl
@[simp] theorem State.onChunk_urx (s : State) (f : Chunk → Chunk) : (s.onChunk f).urx = s.urx := rfl
@[simp] theorem State.onChunk_rod (s : State) (f : Chunk → Chunk) : (s.onChunk f).rod = s.rod := rfl
@[simp] theorem State.onChunk_recvs (s : State) (f : Chunk → Chunk) : (s.onChunk f).recvs = s.recvs := rfl
@[simp] theorem State.onChunk_netPend (s : State) (f : Chunk → Chunk) : (s.onChunk f).netPend = s.netPend := rfl
@[simp] theorem State.onChunk_abortKeys (s : State) (f : Chunk → Chunk) : (s.onChunk f).abortKeys = s.abortKeys := rfl
@[simp] theorem State.onChunk_endedKeys (s : State) (f : Chunk → Chunk) : (s.onChunk f).endedKeys = s.endedKeys := rfl
@[simp] theorem State.onChunk_gangs (s : State) (f : Chunk → Chunk) : (s.onChunk f).gangs = s.gangs := rfl
@[simp] theorem State.onChunk_withdrawals (s : State) (f : Chunk → Chunk) : (s.onChunk f).withdrawals = s.withdrawals := rfl
@[simp] theorem State.onChunk_ports (s : State) (f : Chunk → Chunk) : (s.onChunk f).ports = s.ports := rfl
@[simp] theorem State.onChunk_rows (s : State) (f : Chunk → Chunk) : (s.onChunk f).rows = s.rows := rfl
@[simp] theorem State.onChunk_cols (s : State) (f : Chunk → Chunk) : (s.onChunk f).cols = s.cols := rfl
@[simp] theorem State.onChunk_egress (s : State) (f : Chunk → Chunk) : (s.onChunk f).egress = s.egress := rfl
@[simp] theorem State.onChunk_detours (s : State) (f : Chunk → Chunk) : (s.onChunk f).detours = s.detours := rfl
@[simp] theorem State.onChunk_etherGbps (s : State) (f : Chunk → Chunk) : (s.onChunk f).etherGbps = s.etherGbps := rfl
@[simp] theorem State.onChunk_etherAddr (s : State) (f : Chunk → Chunk) : (s.onChunk f).etherAddr = s.etherAddr := rfl
@[simp] theorem State.onChunk_flashAddr (s : State) (f : Chunk → Chunk) : (s.onChunk f).flashAddr = s.flashAddr := rfl
@[simp] theorem State.onChunk_gangMs (s : State) (f : Chunk → Chunk) : (s.onChunk f).gangMs = s.gangMs := rfl
@[simp] theorem State.onChunk_cursor1 (s : State) (f : Chunk → Chunk) : (s.onChunk f).cursor1 = s.cursor1 := rfl
@[simp] theorem State.onChunk_cursor2 (s : State) (f : Chunk → Chunk) : (s.onChunk f).cursor2 = s.cursor2 := rfl
@[simp] theorem State.onChunk_skips (s : State) (f : Chunk → Chunk) : (s.onChunk f).skips = s.skips := rfl
@[simp] theorem State.onChunk_badCores (s : State) (f : Chunk → Chunk) : (s.onChunk f).badCores = s.badCores := rfl
@[simp] theorem State.onChunk_lostDies (s : State) (f : Chunk → Chunk) : (s.onChunk f).lostDies = s.lostDies := rfl
@[simp] theorem State.onChunk_lostPools (s : State) (f : Chunk → Chunk) : (s.onChunk f).lostPools = s.lostPools := rfl
@[simp] theorem State.onChunk_nextLid (s : State) (f : Chunk → Chunk) : (s.onChunk f).nextLid = s.nextLid := rfl
@[simp] theorem State.onChunk_dev (s : State) (f : Chunk → Chunk) : (s.onChunk f).dev = s.dev := rfl
@[simp] theorem State.onChunk_hot (s : State) (f : Chunk → Chunk) : (s.onChunk f).hot = s.hot := rfl
@[simp] theorem State.onChunk_power (s : State) (f : Chunk → Chunk) : (s.onChunk f).power = s.power := rfl
@[simp] theorem State.onChunk_log (s : State) (f : Chunk → Chunk) : (s.onChunk f).log = s.log := rfl
@[simp] theorem State.onChunk_counts (s : State) (f : Chunk → Chunk) : (s.onChunk f).counts = s.counts := rfl
@[simp] theorem State.onChunk_flash (s : State) (f : Chunk → Chunk) : (s.onChunk f).flash = s.flash := rfl
@[simp] theorem State.onChunk_fwNew (s : State) (f : Chunk → Chunk) : (s.onChunk f).fwNew = s.fwNew := rfl
@[simp] theorem State.onChunk_out (s : State) (f : Chunk → Chunk) : (s.onChunk f).out = s.out := rfl
@[simp] theorem State.onChunk_agenda (s : State) (f : Chunk → Chunk) : (s.onChunk f).agenda = s.agenda := rfl
@[simp] theorem State.onChunk_rr (s : State) (f : Chunk → Chunk) : (s.onChunk f).rr = s.rr := rfl
@[simp] theorem State.onChunk_lastCtl (s : State) (f : Chunk → Chunk) : (s.onChunk f).lastCtl = s.lastCtl := rfl
@[simp] theorem State.onChunk_nextKey (s : State) (f : Chunk → Chunk) : (s.onChunk f).nextKey = s.nextKey := rfl
@[simp] theorem State.onChunk_fresh (s : State) (f : Chunk → Chunk) : (s.onChunk f).fresh = s.fresh := rfl
@[simp] theorem State.onChunk_engHeld (s : State) (f : Chunk → Chunk) : (s.onChunk f).engHeld = s.engHeld := rfl

/-! ## `mapGroups` -/

@[simp] theorem State.mapGroups_cur (s : State) (f : Group → Group) : (s.mapGroups f).cur = f s.cur := rfl
@[simp] theorem State.mapGroups_rest (s : State) (f : Group → Group) : (s.mapGroups f).rest = s.rest.map f := rfl
@[simp] theorem State.mapGroups_teams (s : State) (f : Group → Group) : (s.mapGroups f).teams = s.teams := rfl
@[simp] theorem State.mapGroups_launches (s : State) (f : Group → Group) : (s.mapGroups f).launches = s.launches := rfl
@[simp] theorem State.mapGroups_ctxs (s : State) (f : Group → Group) : (s.mapGroups f).ctxs = s.ctxs := rfl
@[simp] theorem State.mapGroups_claims (s : State) (f : Group → Group) : (s.mapGroups f).claims = s.claims := rfl
@[simp] theorem State.mapGroups_cores (s : State) (f : Group → Group) : (s.mapGroups f).cores = s.cores := rfl
@[simp] theorem State.mapGroups_clusters (s : State) (f : Group → Group) : (s.mapGroups f).clusters = s.clusters := rfl
@[simp] theorem State.mapGroups_ioTlb (s : State) (f : Group → Group) : (s.mapGroups f).ioTlb = s.ioTlb := rfl
@[simp] theorem State.mapGroups_dram (s : State) (f : Group → Group) : (s.mapGroups f).dram = s.dram := rfl
@[simp] theorem State.mapGroups_synd (s : State) (f : Group → Group) : (s.mapGroups f).synd = s.synd := rfl
@[simp] theorem State.mapGroups_ue (s : State) (f : Group → Group) : (s.mapGroups f).ue = s.ue := rfl
@[simp] theorem State.mapGroups_soft (s : State) (f : Group → Group) : (s.mapGroups f).soft = s.soft := rfl
@[simp] theorem State.mapGroups_bankErr (s : State) (f : Group → Group) : (s.mapGroups f).bankErr = s.bankErr := rfl
@[simp] theorem State.mapGroups_channels (s : State) (f : Group → Group) : (s.mapGroups f).channels = s.channels := rfl
@[simp] theorem State.mapGroups_ddrCap (s : State) (f : Group → Group) : (s.mapGroups f).ddrCap = s.ddrCap := rfl
@[simp] theorem State.mapGroups_free (s : State) (f : Group → Group) : (s.mapGroups f).free = s.free := rfl
@[simp] theorem State.mapGroups_pinned (s : State) (f : Group → Group) : (s.mapGroups f).pinned = s.pinned := rfl
@[simp] theorem State.mapGroups_devPinned (s : State) (f : Group → Group) : (s.mapGroups f).devPinned = s.devPinned := rfl
@[simp] theorem State.mapGroups_migrations (s : State) (f : Group → Group) : (s.mapGroups f).migrations = s.migrations := rfl
@[simp] theorem State.mapGroups_migWait (s : State) (f : Group → Group) : (s.mapGroups f).migWait = s.migWait := rfl
@[simp] theorem State.mapGroups_migOwed (s : State) (f : Group → Group) : (s.mapGroups f).migOwed = s.migOwed := rfl
@[simp] theorem State.mapGroups_lastUse (s : State) (f : Group → Group) : (s.mapGroups f).lastUse = s.lastUse := rfl
@[simp] theorem State.mapGroups_bank (s : State) (f : Group → Group) : (s.mapGroups f).bank = s.bank := rfl
@[simp] theorem State.mapGroups_slices (s : State) (f : Group → Group) : (s.mapGroups f).slices = s.slices := rfl
@[simp] theorem State.mapGroups_bases (s : State) (f : Group → Group) : (s.mapGroups f).bases = s.bases := rfl
@[simp] theorem State.mapGroups_vcs (s : State) (f : Group → Group) : (s.mapGroups f).vcs = s.vcs := rfl
@[simp] theorem State.mapGroups_per254 (s : State) (f : Group → Group) : (s.mapGroups f).per254 = s.per254 := rfl
@[simp] theorem State.mapGroups_badShares (s : State) (f : Group → Group) : (s.mapGroups f).badShares = s.badShares := rfl
@[simp] theorem State.mapGroups_filters (s : State) (f : Group → Group) : (s.mapGroups f).filters = s.filters := rfl
@[simp] theorem State.mapGroups_watches (s : State) (f : Group → Group) : (s.mapGroups f).watches = s.watches := rfl
@[simp] theorem State.mapGroups_reserved (s : State) (f : Group → Group) : (s.mapGroups f).reserved = s.reserved := rfl
@[simp] theorem State.mapGroups_shoots (s : State) (f : Group → Group) : (s.mapGroups f).shoots = s.shoots := rfl
@[simp] theorem State.mapGroups_ops (s : State) (f : Group → Group) : (s.mapGroups f).ops = s.ops := rfl
@[simp] theorem State.mapGroups_vctbase (s : State) (f : Group → Group) : (s.mapGroups f).vctbase = s.vctbase := rfl
@[simp] theorem State.mapGroups_lease (s : State) (f : Group → Group) : (s.mapGroups f).lease = s.lease := rfl
@[simp] theorem State.mapGroups_wcbage (s : State) (f : Group → Group) : (s.mapGroups f).wcbage = s.wcbage := rfl
@[simp] theorem State.mapGroups_placeb (s : State) (f : Group → Group) : (s.mapGroups f).placeb = s.placeb := rfl
@[simp] theorem State.mapGroups_chip (s : State) (f : Group → Group) : (s.mapGroups f).chip = s.chip := rfl
@[simp] theorem State.mapGroups_clock (s : State) (f : Group → Group) : (s.mapGroups f).clock = s.clock := rfl
@[simp] theorem State.mapGroups_windows (s : State) (f : Group → Group) : (s.mapGroups f).windows = s.windows := rfl
@[simp] theorem State.mapGroups_counters (s : State) (f : Group → Group) : (s.mapGroups f).counters = s.counters := rfl
@[simp] theorem State.mapGroups_peers (s : State) (f : Group → Group) : (s.mapGroups f).peers = s.peers := rfl
@[simp] theorem State.mapGroups_outReqs (s : State) (f : Group → Group) : (s.mapGroups f).outReqs = s.outReqs := rfl
@[simp] theorem State.mapGroups_holds (s : State) (f : Group → Group) : (s.mapGroups f).holds = s.holds := rfl
@[simp] theorem State.mapGroups_missed (s : State) (f : Group → Group) : (s.mapGroups f).missed = s.missed := rfl
@[simp] theorem State.mapGroups_winAnswers (s : State) (f : Group → Group) : (s.mapGroups f).winAnswers = s.winAnswers := rfl
@[simp] theorem State.mapGroups_slots (s : State) (f : Group → Group) : (s.mapGroups f).slots = s.slots := rfl
@[simp] theorem State.mapGroups_utx (s : State) (f : Group → Group) : (s.mapGroups f).utx = s.utx := rfl
@[simp] theorem State.mapGroups_urx (s : State) (f : Group → Group) : (s.mapGroups f).urx = s.urx := rfl
@[simp] theorem State.mapGroups_rod (s : State) (f : Group → Group) : (s.mapGroups f).rod = s.rod := rfl
@[simp] theorem State.mapGroups_recvs (s : State) (f : Group → Group) : (s.mapGroups f).recvs = s.recvs := rfl
@[simp] theorem State.mapGroups_netPend (s : State) (f : Group → Group) : (s.mapGroups f).netPend = s.netPend := rfl
@[simp] theorem State.mapGroups_abortKeys (s : State) (f : Group → Group) : (s.mapGroups f).abortKeys = s.abortKeys := rfl
@[simp] theorem State.mapGroups_endedKeys (s : State) (f : Group → Group) : (s.mapGroups f).endedKeys = s.endedKeys := rfl
@[simp] theorem State.mapGroups_gangs (s : State) (f : Group → Group) : (s.mapGroups f).gangs = s.gangs := rfl
@[simp] theorem State.mapGroups_withdrawals (s : State) (f : Group → Group) : (s.mapGroups f).withdrawals = s.withdrawals := rfl
@[simp] theorem State.mapGroups_ports (s : State) (f : Group → Group) : (s.mapGroups f).ports = s.ports := rfl
@[simp] theorem State.mapGroups_rows (s : State) (f : Group → Group) : (s.mapGroups f).rows = s.rows := rfl
@[simp] theorem State.mapGroups_cols (s : State) (f : Group → Group) : (s.mapGroups f).cols = s.cols := rfl
@[simp] theorem State.mapGroups_egress (s : State) (f : Group → Group) : (s.mapGroups f).egress = s.egress := rfl
@[simp] theorem State.mapGroups_detours (s : State) (f : Group → Group) : (s.mapGroups f).detours = s.detours := rfl
@[simp] theorem State.mapGroups_etherGbps (s : State) (f : Group → Group) : (s.mapGroups f).etherGbps = s.etherGbps := rfl
@[simp] theorem State.mapGroups_etherAddr (s : State) (f : Group → Group) : (s.mapGroups f).etherAddr = s.etherAddr := rfl
@[simp] theorem State.mapGroups_flashAddr (s : State) (f : Group → Group) : (s.mapGroups f).flashAddr = s.flashAddr := rfl
@[simp] theorem State.mapGroups_gangMs (s : State) (f : Group → Group) : (s.mapGroups f).gangMs = s.gangMs := rfl
@[simp] theorem State.mapGroups_cursor1 (s : State) (f : Group → Group) : (s.mapGroups f).cursor1 = s.cursor1 := rfl
@[simp] theorem State.mapGroups_cursor2 (s : State) (f : Group → Group) : (s.mapGroups f).cursor2 = s.cursor2 := rfl
@[simp] theorem State.mapGroups_skips (s : State) (f : Group → Group) : (s.mapGroups f).skips = s.skips := rfl
@[simp] theorem State.mapGroups_badCores (s : State) (f : Group → Group) : (s.mapGroups f).badCores = s.badCores := rfl
@[simp] theorem State.mapGroups_lostDies (s : State) (f : Group → Group) : (s.mapGroups f).lostDies = s.lostDies := rfl
@[simp] theorem State.mapGroups_lostPools (s : State) (f : Group → Group) : (s.mapGroups f).lostPools = s.lostPools := rfl
@[simp] theorem State.mapGroups_nextLid (s : State) (f : Group → Group) : (s.mapGroups f).nextLid = s.nextLid := rfl
@[simp] theorem State.mapGroups_dev (s : State) (f : Group → Group) : (s.mapGroups f).dev = s.dev := rfl
@[simp] theorem State.mapGroups_hot (s : State) (f : Group → Group) : (s.mapGroups f).hot = s.hot := rfl
@[simp] theorem State.mapGroups_power (s : State) (f : Group → Group) : (s.mapGroups f).power = s.power := rfl
@[simp] theorem State.mapGroups_log (s : State) (f : Group → Group) : (s.mapGroups f).log = s.log := rfl
@[simp] theorem State.mapGroups_counts (s : State) (f : Group → Group) : (s.mapGroups f).counts = s.counts := rfl
@[simp] theorem State.mapGroups_flash (s : State) (f : Group → Group) : (s.mapGroups f).flash = s.flash := rfl
@[simp] theorem State.mapGroups_fwNew (s : State) (f : Group → Group) : (s.mapGroups f).fwNew = s.fwNew := rfl
@[simp] theorem State.mapGroups_out (s : State) (f : Group → Group) : (s.mapGroups f).out = s.out := rfl
@[simp] theorem State.mapGroups_agenda (s : State) (f : Group → Group) : (s.mapGroups f).agenda = s.agenda := rfl
@[simp] theorem State.mapGroups_rr (s : State) (f : Group → Group) : (s.mapGroups f).rr = s.rr := rfl
@[simp] theorem State.mapGroups_lastCtl (s : State) (f : Group → Group) : (s.mapGroups f).lastCtl = s.lastCtl := rfl
@[simp] theorem State.mapGroups_nextKey (s : State) (f : Group → Group) : (s.mapGroups f).nextKey = s.nextKey := rfl
@[simp] theorem State.mapGroups_fresh (s : State) (f : Group → Group) : (s.mapGroups f).fresh = s.fresh := rfl
@[simp] theorem State.mapGroups_engHeld (s : State) (f : Group → Group) : (s.mapGroups f).engHeld = s.engHeld := rfl

end Sys2Proof.Machine
end

