-- ==== Sys2Proof/Laws/Ops.lean ====
section
/-! SUPPORT. What each shared operation of the control stream can do, said once: a statement about an instruction cites these. -/

namespace Sys2Proof.Machine

/-! ## Registers and program counter -/

@[simp] theorem State.setVal_eq (s : State) (r : BitVec 6) (v : BitVec 64) : s.setVal r v = s.setW r ⟨v, false⟩ := rfl

@[simp] theorem State.done_eq (s : State) : s.done = .next s.advance := rfl

@[simp] theorem State.doneNew_eq (s : State) : s.doneNew = .next s.advance.newChunk := rfl

theorem State.advance_eq (s : State) : s.advance = s.atPc (s.cur.regs.cpc + 4) := rfl

theorem State.goto_eq (s : State) (a : BitVec 64) : s.goto a = s.atPc a := rfl

@[simp] theorem State.setW_advance (s : State) (r : BitVec 6) (e : UElem) : (s.setW r e).advance = s.wroteElem r e := rfl

@[simp] theorem pcOf_pcOf (v : BitVec 64) : pcOf (pcOf v) = pcOf v := by
  unfold pcOf; rw [BitVec.and_assoc, BitVec.and_self]

/-- An event enters `SIGR` (R341). -/
theorem State.mixSig_eq (s : State) (v : BitVec 64) : (s.onRegs fun r => r.mixSig v) =
    { s with cur := { s.cur with regs := { s.cur.regs with sigr := mix s.cur.regs.sigr v, unchecked := true } } } := rfl

theorem State.goto_of_sig (s : State) (v a : BitVec 64) :
    (({ s with cur := { s.cur with regs := { s.cur.regs with sigr := v, unchecked := true } } } : State).goto a) =
    { s with cur := { s.cur with regs := { s.cur.regs with cpc := pcOf a, sigr := v, unchecked := true } } } := rfl

theorem State.transfer_eq (s : State) (a : BitVec 64) : s.transfer a = s.tookBranch a := by
  unfold State.transfer; rw [State.mixSig_eq]; exact State.goto_of_sig _ _ _

theorem State.target_eq {n : Nat} (s : State) (o : BitVec n) : s.target o = s.branchTarget o := rfl

/-! ## Waiting, deciding, closing -/

/-- An interlock that finds its uniforms free does what it guards (R191). -/
theorem State.interlock_free {s : State} {rs : List (BitVec 6)} (f : Ans) (h : s.Free rs) : s.interlock rs f = f := by
  unfold State.Free at h; simp [State.interlock, h]

/-- An interlock that does not waits (R191). -/
theorem State.interlock_held {s : State} {rs : List (BitVec 6)} (f : Ans) (h : rs.any s.cur.awaits = true) :
    s.interlock rs f = .next s.stalled := by simp [State.interlock, h]

/-- Decision operands that are free and clean decide (R190). -/
theorem State.deciding_clean {s : State} {rs : List (BitVec 6)} {d : Option (BitVec 6)} (f : Ans) (hf : s.Free (rs ++ d.toList))
    (hc : s.Clean rs) : s.deciding rs d f = f := by
  have : rs.find? (fun r => (s.wreg r).poison) = none := List.find?_eq_none.2 fun r hr => by simp [hc r hr]
  simp [State.deciding, State.interlock_free _ hf, this]

/-- A closing instruction whose chunk commits acts in the state after the commit (R189). -/
theorem State.closing_commits {s u : State} {drain : Bool} (act : State → Ans) (h : s.Commits drain u) :
    s.closing drain act = act u := by
  obtain ⟨h1, h2, h3, h4⟩ := h
  unfold State.beforeClose at h3 h4
  unfold State.closing
  cases hd : (drain || s.cur.checked)
  · simp only [hd, Bool.false_eq_true, if_false] at h3 h4
    simp [-Bool.or_eq_true, hd, h1, h3, h4]
  · simp only [hd, if_true] at h3 h4
    simp [-Bool.or_eq_true, -State.onRegs_cur, hd, h1, h2 hd, h3, h4]

end Sys2Proof.Machine
end

