-- ==== Sys2Proof/Laws/Engines.lean ====
section
/-! SUPPORT. What submitting a record, and asking an engine's queue for room, can answer. -/

namespace Sys2Proof.Machine

/-- A record that fails a check is BADREC (R394). -/
theorem State.submit_bad {s t : State} {x : Xl} {cap : BitVec 3} {bs : List Byte} (h : s.checkRecord x bs = (t, .error none)) :
    s.submit x cap bs = (t, ansBadrec, 0, none) := by unfold State.submit; rw [h]

/-- A record whose queue is full is FULL (R396). -/
theorem State.submit_full {s t : State} {x : Xl} {cap : BitVec 3} {bs : List Byte} {r : LaunchRec} (h : s.checkRecord x bs = (t, .ok r))
    (hq : t.queueFull x.asid (if cap.ult r.prio then cap else r.prio) = true) : s.submit x cap bs = (t, ansFull, 0, none) := by
  unfold State.submit; rw [h]; simp only [hq, if_true]

/-- A checked record with room is queued and gets the next LAUNCHID (R212, R396). -/
theorem State.submit_ok {s t : State} {x : Xl} {cap : BitVec 3} {bs : List Byte} {r : LaunchRec} (h : s.checkRecord x bs = (t, .ok r))
    (hq : t.queueFull x.asid (if cap.ult r.prio then cap else r.prio) = false) :
    s.submit x cap bs =
      ((t.queueLaunch x.asid r (if cap.ult r.prio then cap else r.prio) none ((x.core.map t.pts).getD 0)).startGang t.nextLid x.asid r.chips bs, ansOk, t.nextLid, none) := by
  unfold State.submit; rw [h]; simp only [hq, if_false, Bool.false_eq_true]

/-- No priority is above the front's 7. -/
theorem front_prio (p : BitVec 3) : (if (7 : BitVec 3).ult p then (7 : BitVec 3) else p) = p := by revert p; decide

/-- The front, which is on no core, submits under the record's own priority. -/
theorem State.submit_front {s t : State} {x : Xl} {bs : List Byte} {r : LaunchRec} (h : s.checkRecord x bs = (t, .ok r)) (hx : x.core = none)
    (hq : t.queueFull x.asid r.prio = false) :
    s.submit x 7 bs = ((t.queueLaunch x.asid r r.prio none 0).startGang t.nextLid x.asid r.chips bs, ansOk, t.nextLid, none) := by
  rw [State.submit_ok h (by rw [front_prio]; exact hq), front_prio, hx]; rfl

/-- A queue and a table with room (R105, R306). -/
theorem State.roomFor_true {s : State} {c : Nat} {e : Engine} {k n : Nat} (h1 : (s.queued c e).length < k)
    (h2 : (s.coreAt c).boxes.length + n ≤ 256) : s.roomFor c e k n = true := by simp [State.roomFor, h1, h2]

/-- A full queue or a full table (R105, R306). -/
theorem State.roomFor_false {s : State} {c : Nat} {e : Engine} {k n : Nat}
    (h : k ≤ (s.queued c e).length ∨ 256 < (s.coreAt c).boxes.length + n) : s.roomFor c e k n = false := by
  simp only [State.roomFor, Bool.and_eq_false_iff, decide_eq_false_iff_not]; omega

/-- A command that issues goes on in a new chunk, one that is held waits (R105, R306). -/
theorem State.issueOrHold_some {s t : State} {i : Instr} {f : State → Option State} (h : f s = some t) : s.issueOrHold i f = .next t.nextChunk := by
  unfold State.issueOrHold; rw [h]; rfl

theorem State.issueOrHold_none {s : State} {i : Instr} {f : State → Option State} (h : f s = none) :
    s.issueOrHold i f = .next (s.waitsIn (.wait (.issue i s.cur.regs.cpc))) := by
  unfold State.issueOrHold; rw [h]; rfl

end Sys2Proof.Machine
end

