-- ==== Sys2Proof/Laws/Frame.lean ====
section
/-! SUPPORT. What a frame image reads as: a lemma that gives the word at any offset of a part, and the tiles and accumulators behind the parts. -/

namespace Sys2Proof.Machine

/-! ## Bytes and words -/

@[simp] theorem toBytes_length (n v : Nat) : (toBytes n v).length = n := by
  induction n generalizing v with
  | zero => rfl
  | succ n ih => simp [toBytes, ih]

theorem leNat_toBytes (n v : Nat) : leNat (toBytes n v) = v % 256 ^ n := by
  induction n generalizing v with
  | zero => simp [toBytes, leNat, Nat.mod_one]
  | succ n ih =>
    simp only [toBytes, leNat, ih, BitVec.toNat_ofNat]
    rw [show 256 ^ (n + 1) = 256 * 256 ^ n from Nat.pow_succ', Nat.mod_mul]

@[simp] theorem words_length (n : Nat) (l : List Nat) : (words n l).length = n * l.length := by
  induction l with
  | nil => simp [words]
  | cons a l ih => simp only [words] at ih ⊢; rw [List.flatMap_cons, List.length_append, ih, toBytes_length, List.length_cons, Nat.mul_succ, Nat.add_comm]

@[simp] theorem padTo_length {α : Type} (n : Nat) (d : α) (l : List α) : (padTo n d l).length = n := by simp [padTo]

theorem padTo_self {α : Type} (d : α) (l : List α) : padTo l.length d l = l := by
  apply List.ext_getElem (by simp)
  intro i h1 h2
  simp [padTo, h2]

/-- Word `i` of a list of words, at its place. -/
theorem words_drop (n : Nat) (l : List Nat) (i : Nat) (h : i < l.length) : ((words n l).drop (n * i)).take n = toBytes n (l.getD i 0) := by
  induction l generalizing i with
  | nil => simp at h
  | cons a l ih =>
    have e : words n (a :: l) = toBytes n a ++ words n l := rfl
    cases i with
    | zero => rw [e, Nat.mul_zero, List.drop_zero, List.take_append_of_le_length (by simp), List.take_of_length_le (by simp)]; rfl
    | succ i =>
      rw [e, List.drop_append, List.drop_eq_nil_of_le (by simp [Nat.mul_succ]), List.nil_append, toBytes_length,
        show n * (i + 1) - n = n * i by rw [Nat.mul_succ]; omega, ih i (by simpa using h)]
      rfl

/-! ## Reading a memory -/

theorem memNat_eq (m : Mem) (a n : Nat) : memNat m a n = leNat (memBytes m a n) := by
  induction n generalizing a with
  | zero => rfl
  | succ n ih => simp [memNat, memBytes, leNat, ih]

theorem memBytes_length (m : Mem) (a n : Nat) : (memBytes m a n).length = n := by
  induction n generalizing a with
  | zero => rfl
  | succ n ih => simp [memBytes, ih]

theorem memBytes_get (m : Mem) (a n i : Nat) (h : i < (memBytes m a n).length) : (memBytes m a n)[i] = memGet m (a + i) := by
  induction n generalizing a i with
  | zero => simp [memBytes] at h
  | succ n ih =>
    cases i with
    | zero => rfl
    | succ i => simp only [memBytes, List.getElem_cons_succ]; rw [ih]; congr 1; omega

/-- Nothing is listed from `a` to `a + n - 1`. -/
def Mem.clearOf (m : Mem) (a n : Nat) : Prop := ∀ c ∈ m, c.1 < a ∨ a + n ≤ c.1

theorem memGet_clear {m : Mem} {a n i : Nat} (h : Mem.clearOf m a n) (h1 : a ≤ i) (h2 : i < a + n) : memGet m i = unlisted := by
  induction m with
  | nil => rfl
  | cons c m ih =>
    have hc := h c (by simp)
    have : (c.1 == i) = false := by simp; omega
    obtain ⟨x, b⟩ := c
    simp only [memGet, this]
    exact ih fun d hd => h d (by simp [hd])

theorem memGet_append_clear {m k : Mem} {a n i : Nat} (h : Mem.clearOf m a n) (h1 : a ≤ i) (h2 : i < a + n) : memGet (m ++ k) i = memGet k i := by
  induction m with
  | nil => rfl
  | cons c m ih =>
    have hc := h c (by simp)
    have : (c.1 == i) = false := by simp; omega
    obtain ⟨x, b⟩ := c
    simp only [List.cons_append, memGet, this]
    exact ih fun d hd => h d (by simp [hd])

theorem memGet_before_clear {m k : Mem} {a n i : Nat} (h : Mem.clearOf k a n) (h1 : a ≤ i) (h2 : i < a + n) : memGet (m ++ k) i = memGet m i := by
  induction m with
  | nil => exact memGet_clear h h1 h2
  | cons c m ih =>
    obtain ⟨x, b⟩ := c
    simp only [List.cons_append, memGet, ih]

theorem piece_mem {o : Nat} {bs : List Byte} {c : Nat × Byte} (h : c ∈ piece o bs) : o ≤ c.1 ∧ c.1 < o + bs.length := by
  have key : ∀ (bs : List Byte) (o : Nat), c ∈ cellsAt o bs → o ≤ c.1 ∧ c.1 < o + bs.length := by
    intro bs
    induction bs with
    | nil => intro o h; simp [cellsAt] at h
    | cons b bs ih =>
      intro o h
      simp only [cellsAt, List.mem_cons] at h
      rcases h with h | h
      · subst h; simp
      · have := ih _ h; simp only [List.length_cons]; omega
  exact key bs o (List.mem_of_mem_filter h)

theorem piece_get (o : Nat) (bs : List Byte) (i : Nat) (h : i < bs.length) : memGet (piece o bs) (o + i) = bs[i] := by
  induction bs generalizing o i with
  | nil => simp at h
  | cons b bs ih =>
    have below : memGet (piece (o + 1) bs) o = unlisted :=
      memGet_clear (a := o) (n := 1) (fun c hc => by have := piece_mem hc; omega) (Nat.le_refl _) (by omega)
    unfold piece at below ih ⊢
    simp only [cellsAt, List.filter_cons]
    cases i with
    | zero =>
      split
      · show (if o == o then b else _) = b
        simp
      · rename_i hb
        have : b = unlisted := by simpa using hb
        exact below.trans this.symm
    | succ i =>
      have e := ih (o + 1) i (by simpa using h)
      rw [show o + 1 + i = o + (i + 1) by omega] at e
      split
      · simp only [memGet, show (o == o + (i + 1)) = false by simp, List.getElem_cons_succ]; simpa using e
      · simpa using e

/-! ## Parts -/

theorem clearOf_append {m k : Mem} {a n : Nat} (h : Mem.clearOf m a n) (h2 : Mem.clearOf k a n) : Mem.clearOf (m ++ k) a n := by
  intro c hc
  rcases List.mem_append.1 hc with hc | hc
  · exact h c hc
  · exact h2 c hc

/-- A part lies outside `a` to `a + n - 1`. -/
def partOff (a n : Nat) (s : Nat × List Byte) : Prop := s.1 + s.2.length ≤ a ∨ a + n ≤ s.1

theorem clearOf_parts {l : List (Nat × List Byte)} {a n : Nat} (h : ∀ s ∈ l, partOff a n s) : Mem.clearOf (partsImage l) a n := by
  intro c hc
  obtain ⟨s, hs, hc⟩ := List.mem_flatMap.1 hc
  have h1 := piece_mem hc
  rcases h s hs with h2 | h2 <;> omega

/-- Parts in ascending order that do not meet, all below `e`. -/
def partsUpTo (e : Nat) : List (Nat × List Byte) → Prop
  | [] => True
  | [s] => s.1 + s.2.length ≤ e
  | s :: r :: l => s.1 + s.2.length ≤ r.1 ∧ partsUpTo e (r :: l)

theorem partsUpTo_tail {e : Nat} {s : Nat × List Byte} {l : List (Nat × List Byte)} (h : partsUpTo e (s :: l)) :
    partsUpTo e l ∧ s.1 + s.2.length ≤ e ∧ ∀ r ∈ l, s.1 + s.2.length ≤ r.1 := by
  induction l generalizing s with
  | nil => exact ⟨trivial, h, by simp⟩
  | cons r l ih =>
    obtain ⟨h1, h2⟩ := h
    obtain ⟨_, h3, h4⟩ := ih h2
    refine ⟨h2, by omega, fun x hx => ?_⟩
    rcases List.mem_cons.1 hx with rfl | hx
    · exact h1
    · have := h4 x hx; omega

theorem partsUpTo_end {e : Nat} {l : List (Nat × List Byte)} (h : partsUpTo e l) : ∀ s ∈ l, s.1 + s.2.length ≤ e := by
  induction l with
  | nil => simp
  | cons s l ih =>
    have h' := partsUpTo_tail h
    intro r hr
    rcases List.mem_cons.1 hr with rfl | hr
    · exact h'.2.1
    · exact ih h'.1 r hr

/-- `n` bytes of part `k` from its byte `j` on: parts do not meet, and nothing of `m` stands below their end. -/
theorem memBytes_part {ps : List (Nat × List Byte)} {m : Mem} {e : Nat} (hp : partsUpTo e ps) (hm : ∀ c ∈ m, e ≤ c.1) {k o : Nat} {bs : List Byte}
    (hk : ps[k]? = some (o, bs)) {j n : Nat} (hj : j + n ≤ bs.length) : memBytes (partsImage ps ++ m) (o + j) n = (bs.drop j).take n := by
  apply List.ext_getElem
  · rw [memBytes_length, List.length_take, List.length_drop]; omega
  intro i h0 h2
  have h1 : i < n := by rwa [memBytes_length] at h0
  rw [memBytes_get, List.getElem_take, List.getElem_drop]
  have hj1 : o + j ≤ o + j + i := by omega
  have hj2 : o + j + i < o + j + n := by omega
  have hmem := List.mem_of_getElem? hk
  have hend := partsUpTo_end hp _ hmem
  have clr : Mem.clearOf m (o + j) n := fun c hc => Or.inr (by have := hm c hc; simp only at hend; omega)
  rw [memGet_before_clear clr hj1 hj2, Nat.add_assoc, ← piece_get o bs (j + i) (by omega)]
  clear hmem hend clr hm h0
  induction ps generalizing k with
  | nil => simp at hk
  | cons s ps ih =>
    have ht := partsUpTo_tail hp
    show memGet (piece s.1 s.2 ++ partsImage ps) _ = _
    cases k with
    | zero =>
      simp only [List.getElem?_cons_zero, Option.some.injEq] at hk
      subst hk
      refine memGet_before_clear (a := o + j) (n := n) (clearOf_parts fun r hr => Or.inr ?_) (by omega) (by omega)
      have := ht.2.2 r hr
      simp only at this
      omega
    | succ k =>
      have hk' : ps[k]? = some (o, bs) := by simpa using hk
      have := ht.2.2 _ (List.mem_of_getElem? hk')
      simp only at this
      rw [memGet_append_clear (a := o + j) (n := n) (fun c hc => Or.inl (by have := piece_mem hc; omega)) (by omega) (by omega)]
      exact ih ht.1 hk'

/-- Word `i` of part `k`, a part of words. -/
theorem memNat_part {ps : List (Nat × List Byte)} {m : Mem} {e : Nat} (hp : partsUpTo e ps) (hm : ∀ c ∈ m, e ≤ c.1) {k o n : Nat} {l : List Nat}
    (hk : ps[k]? = some (o, words n l)) {i : Nat} (hi : i < l.length) : memNat (partsImage ps ++ m) (o + n * i) n = l.getD i 0 % 256 ^ n := by
  have hlen : n * (i + 1) ≤ (words n l).length := by rw [words_length]; exact Nat.mul_le_mul_left _ hi
  rw [Nat.mul_succ] at hlen
  rw [memNat_eq, memBytes_part hp hm hk hlen, words_drop n l i hi, leNat_toBytes]

theorem blocks_mem {o size : Nat} {bs : List Block} (hb : ∀ b ∈ bs, ∀ c ∈ b.data, c.1 < size) {c : Nat × Byte} (h : c ∈ blocksImage o size bs) :
    o ≤ c.1 ∧ c.1 < o + bs.length * size := by
  obtain ⟨⟨b, i⟩, hm, hc⟩ := List.mem_flatMap.1 h
  obtain ⟨d, hd, rfl⟩ := List.mem_map.1 hc
  have hi : i < bs.length := by have := List.mem_zipIdx hm; omega
  have hb' := hb b (List.fst_mem_of_mem_zipIdx hm) d hd
  have : (i + 1) * size ≤ bs.length * size := Nat.mul_le_mul_right _ hi
  rw [Nat.succ_mul] at this
  simp only
  omega

/-! ## Lists of lists -/

theorem flatMap_length {α β : Type} {f : α → List β} {k : Nat} {l : List α} (h : ∀ x ∈ l, (f x).length = k) : (l.flatMap f).length = k * l.length := by
  induction l with
  | nil => rfl
  | cons a l ih =>
    rw [List.flatMap_cons, List.length_append, ih fun x hx => h x (by simp [hx]), h a (by simp), List.length_cons, Nat.mul_succ, Nat.add_comm]

theorem flatMap_getD {α β : Type} {f : α → List β} {k : Nat} {l : List α} (h : ∀ x ∈ l, (f x).length = k) {i j : Nat} (hi : i < l.length)
    (hj : j < k) (d : β) : (l.flatMap f).getD (k * i + j) d = (f l[i]).getD j d := by
  induction l generalizing i with
  | nil => simp at hi
  | cons a l ih =>
    have ha := h a (by simp)
    rw [List.flatMap_cons]
    cases i with
    | zero =>
      rw [List.getD_eq_getElem?_getD, List.getElem?_append_left (by omega), ← List.getD_eq_getElem?_getD, Nat.mul_zero, Nat.zero_add]
      rfl
    | succ i =>
      rw [List.getD_eq_getElem?_getD, List.getElem?_append_right (by rw [Nat.mul_succ]; omega), ← List.getD_eq_getElem?_getD,
        show k * (i + 1) + j - (f a).length = k * i + j by rw [Nat.mul_succ]; omega]
      exact ih (fun x hx => h x (by simp [hx])) (by simpa using hi)

/-- Bit `i` of a word whose bits are listed lowest first. -/
theorem bit_foldr {α : Type} (f : α → Bool) (l : List α) (i : Nat) (h : i < l.length) : bit (l.foldr (fun e n => n * 2 + b2n (f e)) 0) i = f l[i] := by
  induction l generalizing i with
  | nil => simp at h
  | cons a l ih =>
    have hb : ∀ (n : Nat) (b : Bool), (n * 2 + b2n b) % 2 = b2n b ∧ (n * 2 + b2n b) / 2 = n := by
      intro n b; cases b <;> (simp [b2n]; try omega)
    cases i with
    | zero => simp only [List.foldr_cons, bit, Nat.shiftRight_zero, (hb _ _).1, List.getElem_cons_zero]; cases f a <;> rfl
    | succ i =>
      have := ih i (by simpa using h)
      simp only [List.foldr_cons, bit, List.getElem_cons_succ] at this ⊢
      rw [Nat.add_comm i 1, Nat.shiftRight_add, show ∀ n : Nat, n >>> 1 = n / 2 from fun _ => rfl, (hb _ _).2]
      exact this

theorem foldr_bits_lt {α : Type} (f : α → Bool) (l : List α) : l.foldr (fun e n => n * 2 + b2n (f e)) 0 < 2 ^ l.length := by
  induction l with
  | nil => simp
  | cons a l ih =>
    have : b2n (f a) ≤ 1 := by cases f a <;> simp [b2n]
    rw [List.foldr_cons, List.length_cons, Nat.pow_succ]
    omega

/-! ## The frame -/

theorem vecArea_le {v w : Nat} (hw : w = 16 ∨ w = 32 ∨ w = 64) : 4 * v * w + w / 8 * v ≤ vecArea v w := by
  unfold vecArea roundUp
  rcases hw with rfl | rfl | rfl <;> omega

theorem frameParts_upTo {g : Group} (h : g.Framed) (pts reason : Nat) (c : BitVec 32) :
    partsUpTo (0x1000 + vecArea g.regs.v.length g.width) (g.frameParts pts reason c) := by
  obtain ⟨hw, hv, h1, h2, h3, h4, h5, h6, h7, h8, -, -⟩ := h
  have e1 : (g.regs.mask.flatMap fun m => [m.saved.toNat, m.pending.toNat]).length = 2 * g.regs.mask.length := flatMap_length fun _ _ => rfl
  have e2 : ((g.regs.laneq.take 16).flatMap fun b => padTo 8 0 (b.caps.map fun c => c.val.val.toNat)).length = 8 * (g.regs.laneq.take 16).length :=
    flatMap_length fun _ _ => by simp
  have e3 : (g.regs.v.flatMap fun x => (padTo g.width ⟨0, false⟩ x).map fun e => e.val.toNat).length = g.width * g.regs.v.length :=
    flatMap_length fun _ _ => by simp
  have e4 : (g.regs.laneq.take 16).length ≤ 16 := by simp
  have e5 : ((g.regs.finished.take 16).map BitVec.toNat).length ≤ 16 := by simp
  have e6 := vecArea_le (v := g.regs.v.length) hw
  have e7 : 4 * g.regs.v.length * g.width = 4 * (g.width * g.regs.v.length) := by rw [Nat.mul_assoc, Nat.mul_comm g.regs.v.length]
  simp only [Group.frameParts, partsUpTo, words_length, e1, e2, e3, List.length_map, padTo_length, List.length_cons, List.length_nil] at *
  omega

theorem tail_above {g : Group} (h : g.Framed) : ∀ c ∈ blocksImage (0x1000 + vecArea g.regs.v.length g.width) 16384 g.tiles ++
    blocksImage (0x1000 + vecArea g.regs.v.length g.width + g.tiles.length * 16384) 65536 g.accs, 0x1000 + vecArea g.regs.v.length g.width ≤ c.1 := by
  intro c hc
  obtain ⟨-, -, -, -, -, -, -, -, -, -, ht, ha⟩ := h
  rcases List.mem_append.1 hc with hc | hc
  · exact (blocks_mem (fun b hb => (ht b hb).2) hc).1
  · have := (blocks_mem (fun b hb => (ha b hb).2) hc).1; omega

/-- Word `i` of part `k` of a frame. -/
theorem frame_word {g : Group} (h : g.Framed) (pts reason : Nat) (c : BitVec 32) (k : Nat) {o n : Nat} {l : List Nat}
    (hk : (g.frameParts pts reason c)[k]? = some (o, words n l)) {i : Nat} (hi : i < l.length) :
    memNat (g.frameImage pts reason c) (o + n * i) n = l.getD i 0 % 256 ^ n := by
  unfold Group.frameImage
  rw [List.append_assoc]
  exact memNat_part (frameParts_upTo h pts reason c) (tail_above h) hk hi

/-! ## Groups from images -/


theorem map_getD {α : Type} (f : α → Nat) (l : List α) {i : Nat} (h : i < l.length) : (l.map f).getD i 0 = f l[i] := by simp [h]

theorem padTo_eq {α : Type} {n : Nat} (d : α) {l : List α} (h : l.length = n) : padTo n d l = l := by subst h; exact padTo_self d l

theorem memNat_add (m : Mem) (a n k : Nat) : memNat m a (n + k) = memNat m a n + 256 ^ n * memNat m (a + n) k := by
  induction n generalizing a with
  | zero => simp [memNat]
  | succ n ih =>
    rw [Nat.succ_add, memNat, memNat, ih, Nat.pow_succ', Nat.mul_add, Nat.mul_assoc, show a + 1 + n = a + (n + 1) by omega]
    omega

theorem memNat_lt (m : Mem) (a n : Nat) : memNat m a n < 256 ^ n := by
  induction n generalizing a with
  | zero => simp [memNat]
  | succ n ih =>
    have := ih (a + 1)
    have hb := (memGet m a).isLt
    rw [memNat, Nat.pow_succ']
    omega

/-- Bytes `j` to `j + k - 1` of a word of `n` bytes. -/
theorem memNat_sub {m : Mem} {a n j k : Nat} (h : j + k ≤ n) : memNat m (a + j) k = memNat m a n / 256 ^ j % 256 ^ k := by
  obtain ⟨r, rfl⟩ := Nat.exists_eq_add_of_le h
  have h1 := memNat_lt m a j
  have h2 := memNat_lt m (a + j) k
  rw [Nat.add_assoc, memNat_add m a j, memNat_add m (a + j) k, Nat.add_mul_div_left _ _ (by positivity), Nat.div_eq_of_lt h1, Nat.zero_add,
    Nat.add_mul_mod_self_left, Nat.mod_eq_of_lt h2]

theorem b2n_le (b : Bool) : b2n b ≤ 1 := by cases b <;> simp [b2n]

theorem bit_flags (a b : Bool) : bit (b2n a + 2 * b2n b) 0 = a ∧ bit (b2n a + 2 * b2n b) 1 = b := by cases a <;> cases b <;> decide

theorem flags_mod (a b : Bool) : (b2n a + 2 * b2n b) % 256 ^ 8 = b2n a + 2 * b2n b := by cases a <;> cases b <;> decide

/-- Digit `i` to the base 64 of a number whose digits are listed lowest first. -/
theorem digit_foldr {α : Type} (f : α → Nat) (l : List α) (hf : ∀ x ∈ l, f x < 64) (i : Nat) (h : i < l.length) :
    l.foldr (fun e n => n * 64 + f e) 0 / 64 ^ i % 64 = f l[i] := by
  induction l generalizing i with
  | nil => simp at h
  | cons a l ih =>
    have ha := hf a (by simp)
    cases i with
    | zero => simp only [List.foldr_cons, Nat.pow_zero, Nat.div_one, List.getElem_cons_zero]; omega
    | succ i =>
      rw [List.foldr_cons, Nat.pow_succ', ← Nat.div_div_eq_div_mul, show ∀ n : Nat, (n * 64 + f a) / 64 = n by omega]
      exact ih (fun x hx => hf x (by simp [hx])) i (by simpa using h)

theorem foldr_digits_lt {α : Type} (f : α → Nat) (l : List α) (hf : ∀ x ∈ l, f x < 64) : l.foldr (fun e n => n * 64 + f e) 0 < 64 ^ l.length := by
  induction l with
  | nil => simp
  | cons a l ih =>
    have ha := hf a (by simp)
    have := ih fun x hx => hf x (by simp [hx])
    rw [List.foldr_cons, List.length_cons, Nat.pow_succ]
    omega

theorem bytes8 : (256 : Nat) ^ 8 = 2 ^ 64 := by decide
theorem bytes4 : (256 : Nat) ^ 4 = 2 ^ 32 := by decide

/-! ## Tiles and accumulators -/

theorem memSlice_append (m k : Mem) (a n : Nat) : memSlice (m ++ k) a n = memSlice m a n ++ memSlice k a n := by simp [memSlice]

theorem memSlice_clear {m : Mem} {a n : Nat} (h : Mem.clearOf m a n) : memSlice m a n = [] := by
  have : (m.filter fun c => decide (a ≤ c.1) && decide (c.1 < a + n)) = [] := List.filter_eq_nil_iff.2 fun c hc => by
    have := h c hc
    simp only [Bool.and_eq_true, decide_eq_true_eq]
    omega
  rw [memSlice, this, List.map_nil]

theorem memSlice_shift {d : Mem} {a n : Nat} (h : ∀ c ∈ d, c.1 < n) : memSlice (d.map fun c => (a + c.1, c.2)) a n = d := by
  rw [memSlice, List.filter_eq_self.2, List.map_map]
  · conv => rhs; rw [← List.map_id d]
    exact List.map_congr_left fun c _ => by simp
  · intro c hc
    obtain ⟨x, hx, rfl⟩ := List.mem_map.1 hc
    have := h x hx
    simp [this]

/-- Block `i` of an image of blocks. -/
theorem blocks_slice {o size : Nat} {bs : List Block} (hb : ∀ b ∈ bs, ∀ c ∈ b.data, c.1 < size) {i : Nat} (hi : i < bs.length) :
    memSlice (blocksImage o size bs) (o + i * size) size = bs[i].data := by
  have key : ∀ (bs : List Block) (k i : Nat) (hi : i < bs.length), (∀ b ∈ bs, ∀ c ∈ b.data, c.1 < size) →
      memSlice ((bs.zipIdx k).flatMap fun b => b.1.data.map fun c => (o + b.2 * size + c.1, c.2)) (o + (k + i) * size) size = bs[i].data := by
    intro bs
    induction bs with
    | nil => intro k i hi; simp at hi
    | cons b bs ih =>
      intro k i hi hb
      rw [List.zipIdx_cons, List.flatMap_cons, memSlice_append]
      cases i with
      | zero =>
        rw [Nat.add_zero, memSlice_shift (hb b (by simp)), memSlice_clear, List.append_nil]
        · rfl
        · intro c hc
          obtain ⟨⟨x, j⟩, hm, hc⟩ := List.mem_flatMap.1 hc
          obtain ⟨d, _, rfl⟩ := List.mem_map.1 hc
          have := (List.mem_zipIdx hm).1
          have h2 : (k + 1) * size ≤ j * size := Nat.mul_le_mul_right _ this
          rw [Nat.succ_mul] at h2
          exact Or.inr (by simp only; omega)
      | succ i =>
        rw [memSlice_clear, List.nil_append, show k + (i + 1) = k + 1 + i by omega, ih (k + 1) i (by simpa using hi) fun x hx => hb x (by simp [hx])]
        · rfl
        · intro c hc
          obtain ⟨d, hd, rfl⟩ := List.mem_map.1 hc
          have h1 := hb b (by simp) d hd
          have h2 : (k + 1) * size ≤ (k + (i + 1)) * size := Nat.mul_le_mul_right _ (by omega)
          rw [Nat.succ_mul] at h2
          exact Or.inl (by simp only; omega)
  have := key bs 0 i hi hb
  rwa [Nat.zero_add] at this

theorem flag_bits (b : Block) : bit (b.flag % 256 ^ 8) 32 = b.poison ∧ BitVec.ofNat 32 (b.flag % 256 ^ 8 / 256 ^ 0 % 256 ^ 4) = b.token := by
  have := b.token.isLt
  unfold Block.flag bit
  cases b.poison <;> simp only [Bool.false_eq_true, if_true, if_false, bytes8, bytes4, Nat.shiftRight_eq_div_pow, Nat.pow_zero, Nat.div_one]
  · exact ⟨by rw [beq_eq_false_iff_ne]; omega, BitVec.eq_of_toNat_eq (by rw [BitVec.toNat_ofNat]; omega)⟩
  · exact ⟨by rw [beq_iff_eq]; omega, BitVec.eq_of_toNat_eq (by rw [BitVec.toNat_ofNat]; omega)⟩

theorem header_fields {w a b c r f : Nat} (ha : a ≤ 1) (hb : b ≤ 1) (hc : c ≤ 1) (hw : w < 128) :
    bits (1 + w <<< 8 + a <<< 16 + b <<< 17 + c <<< 18 + r <<< 20 + f <<< 32) 0 8 = 1 ∧
    bits (1 + w <<< 8 + a <<< 16 + b <<< 17 + c <<< 18 + r <<< 20 + f <<< 32) 8 7 = w ∧
    (1 + w <<< 8 + a <<< 16 + b <<< 17 + c <<< 18 + r <<< 20 + f <<< 32) >>> 16 % 2 = a ∧
    (1 + w <<< 8 + a <<< 16 + b <<< 17 + c <<< 18 + r <<< 20 + f <<< 32) >>> 17 % 2 = b ∧
    (1 + w <<< 8 + a <<< 16 + b <<< 17 + c <<< 18 + r <<< 20 + f <<< 32) >>> 18 % 2 = c := by
  simp only [bits, Nat.shiftLeft_eq, Nat.shiftRight_eq_div_pow]
  refine ⟨?_, ?_, ?_, ?_, ?_⟩ <;> omega

theorem count_fields {v t a p : Nat} (hv : v < 512) (ht : t < 64) (ha : a < 16) : bits (v + t <<< 16 + a <<< 24 + p <<< 32) 0 9 = v ∧
    bits (v + t <<< 16 + a <<< 24 + p <<< 32) 16 6 = t ∧ bits (v + t <<< 16 + a <<< 24 + p <<< 32) 24 4 = a := by
  simp only [bits, Nat.shiftLeft_eq, Nat.shiftRight_eq_div_pow]
  refine ⟨?_, ?_, ?_⟩ <;> omega

theorem region_low {x : Nat} (hx : x < 8) (l : BitVec 32) : Region.ofImage ((x + l.toNat * 2 ^ 32) % 2 ^ 64) =
    ⟨(match x % 4 with | 1 => .recover | 2 => .drop | _ => .replay), bit x 2, l⟩ := by
  have hl := l.isLt
  unfold Region.ofImage bit
  simp only [Nat.shiftRight_eq_div_pow]
  rw [show (x + l.toNat * 2 ^ 32) % 2 ^ 64 % 4 = x % 4 by omega, show (x + l.toNat * 2 ^ 32) % 2 ^ 64 / 2 ^ 2 % 2 = x / 2 ^ 2 % 2 by omega,
    show BitVec.ofNat 32 ((x + l.toNat * 2 ^ 32) % 2 ^ 64 / 2 ^ 32) = l from BitVec.eq_of_toNat_eq (by rw [BitVec.toNat_ofNat]; omega)]
  all_goals rfl

theorem region_image (r : Region) : Region.ofImage (r.image % 2 ^ 64) = r := by
  obtain ⟨p, o, l⟩ := r
  unfold Region.image
  cases p <;> cases o
  · exact region_low (x := 0) (by decide) l
  · exact region_low (x := 4) (by decide) l
  · exact region_low (x := 1) (by decide) l
  · exact region_low (x := 5) (by decide) l
  · exact region_low (x := 2) (by decide) l
  · exact region_low (x := 6) (by decide) l

theorem cursor_image {a : Nat} (h : a < 2 ^ 19) : (if bit (a % 2 ^ 19 % 2 ^ 64) 63 then none else some (a % 2 ^ 19 % 2 ^ 64 % 2 ^ 19)) = some a := by
  have e : a % 2 ^ 19 % 2 ^ 64 = a := by omega
  have hb : bit a 63 = false := by
    simp only [bit, Nat.shiftRight_eq_div_pow]; rw [beq_eq_false_iff_ne]; omega
  rw [e, hb, Nat.mod_eq_of_lt h]
  rfl

section
variable {g : Group} (h : g.Framed) (pts reason : Nat) (c : BitVec 32)
include h

theorem image_w {i : Nat} (hi : i < g.regs.w.length) : memNat (g.frameImage pts reason c) (0x900 + 8 * i) 8 = g.regs.w[i].val.toNat := by
  have hl : g.regs.w.length = 64 := h.2.2.1
  have e := frame_word h pts reason c 11 rfl (i := i) (by simp; omega)
  rw [e, padTo_eq _ (by simpa using hl), map_getD _ _ hi, bytes8, Nat.mod_eq_of_lt (BitVec.isLt _)]

theorem image_wPoison {i : Nat} (hi : i < g.regs.w.length) : bit (memNat (g.frameImage pts reason c) 0xB00 8) i = g.regs.w[i].poison := by
  have hl : g.regs.w.length = 64 := h.2.2.1
  have e := frame_word h pts reason c 12 rfl (i := 0) (by simp)
  have lt := foldr_bits_lt UElem.poison g.regs.w
  simp only [Nat.mul_zero, Nat.add_zero, List.getD_cons_zero, bytes8] at e
  rw [e, Nat.mod_eq_of_lt (by rw [hl] at lt; exact lt), bit_foldr _ _ _ hi]

theorem ofImage_w (old : Regs) (w lw v : Nat) : (old.ofImage (g.frameImage pts reason c) w lw v).w = g.regs.w := by
  have hl : g.regs.w.length = 64 := h.2.2.1
  apply List.ext_getElem (by simp [Regs.ofImage, hl])
  intro i h1 h2
  simp only [Regs.ofImage, List.getElem_map, List.getElem_range]
  rw [image_w h pts reason c h2, image_wPoison h pts reason c h2, BitVec.ofNat_toNat, BitVec.setWidth_eq]

theorem ofImage_p (old : Regs) (w lw v : Nat) : (old.ofImage (g.frameImage pts reason c) w lw v).p = g.regs.p := by
  have hl : g.regs.p.length = 16 := h.2.2.2.1
  apply List.ext_getElem (by simp [Regs.ofImage, hl])
  intro i h1 h2
  simp only [Regs.ofImage, List.getElem_map, List.getElem_range]
  have e1 := frame_word h pts reason c 13 rfl (i := i) (by simp; omega)
  have e2 := frame_word h pts reason c 14 rfl (i := i) (by simp; omega)
  have e3 := frame_word h pts reason c 6 rfl (i := i) (by simp; omega)
  rw [e1, e2, e3]
  repeat rw [padTo_eq _ (by simpa using hl), map_getD _ _ h2]
  simp [bytes8, bytes4, Nat.mod_eq_of_lt (BitVec.isLt _)]

theorem ofImage_tsh (old : Regs) (w lw v : Nat) : (old.ofImage (g.frameImage pts reason c) w lw v).tsh = g.regs.tsh := by
  have hl : g.regs.tsh.length = 32 := h.2.2.2.2.1
  apply List.ext_getElem (by simp [Regs.ofImage, hl])
  intro i h1 h2
  simp only [Regs.ofImage, List.getElem_map, List.getElem_range]
  have e1 := frame_word h pts reason c 3 rfl (i := i) (by simp; omega)
  rw [e1, padTo_eq _ (by simpa using hl), map_getD _ _ h2]
  have := BitVec.isLt g.regs.tsh[i]
  rw [Nat.mod_eq_of_lt (by rw [bytes4]; omega)]; simp

theorem ofImage_sigr (old : Regs) (w lw v : Nat) : (old.ofImage (g.frameImage pts reason c) w lw v).sigr = g.regs.sigr := by
  have e := frame_word h pts reason c 17 rfl (i := 0) (by simp)
  simp only [Nat.mul_zero, Nat.add_zero, List.getD_cons_zero, bytes8, Nat.mod_eq_of_lt (BitVec.isLt _)] at e
  simp only [Regs.ofImage]
  rw [e, BitVec.ofNat_toNat, BitVec.setWidth_eq]

theorem ofImage_exm (old : Regs) (w lw v : Nat) (hx : g.regs.exm.toNat < 2 ^ lw) : (old.ofImage (g.frameImage pts reason c) w lw v).exm = g.regs.exm := by
  have e := frame_word h pts reason c 15 rfl (i := 0) (by simp)
  simp only [Nat.mul_zero, Nat.add_zero, List.getD_cons_zero, bytes8, Nat.mod_eq_of_lt (BitVec.isLt _)] at e
  simp only [Regs.ofImage]
  rw [e, Nat.mod_eq_of_lt hx, BitVec.ofNat_toNat, BitVec.setWidth_eq]

theorem ofImage_cpc (old : Regs) (w lw v : Nat) (h4 : g.regs.cpc.toNat % 4 = 0) (hx : g.regs.cpc.toNat < 2 ^ 57) :
    (old.ofImage (g.frameImage pts reason c) w lw v).cpc = g.regs.cpc := by
  have e := frame_word h pts reason c 0 rfl (i := 1) (by simp)
  simp only [List.getD_cons_succ, List.getD_cons_zero, bytes8, Nat.mul_one, Nat.zero_add] at e
  simp only [Regs.ofImage]
  rw [e, show g.regs.cpc.toNat % 2 ^ 57 % 2 ^ 64 % 2 ^ 57 / 4 * 4 = g.regs.cpc.toNat by omega, BitVec.ofNat_toNat, BitVec.setWidth_eq]

theorem ofImage_prio (old : Regs) (w lw v : Nat) : (old.ofImage (g.frameImage pts reason c) w lw v).prio = g.regs.prio := by
  have e := frame_word h pts reason c 0 rfl (i := 7) (by simp)
  simp only [List.getD_cons_succ, List.getD_cons_zero, bytes8, Nat.zero_add] at e
  have hp := BitVec.isLt g.regs.prio
  have hv := h.2.2.2.2.2
  simp only [Regs.ofImage]
  rw [show (0x3C : Nat) = 0x38 + 4 by rfl, memNat_sub (n := 8) (by omega), show (0x38 : Nat) = 8 * 7 by rfl, e]
  simp only [Nat.shiftLeft_eq]
  apply BitVec.eq_of_toNat_eq
  rw [BitVec.toNat_ofNat]
  omega

theorem image_depth : memNat (g.frameImage pts reason c) 0xC48 8 = g.regs.mask.length := by
  have e := frame_word h pts reason c 15 rfl (i := 1) (by simp)
  have := h.2.2.2.2.2
  simp only [List.getD_cons_succ, List.getD_cons_zero, bytes8, Nat.mul_one] at e
  rw [show (0xC48 : Nat) = 0xC40 + 8 by rfl, e]
  omega

theorem image_mask {i : Nat} (hi : i < g.regs.mask.length) : memNat (g.frameImage pts reason c) (0xC50 + 16 * i) 8 = g.regs.mask[i].saved.toNat ∧
    memNat (g.frameImage pts reason c) (0xC58 + 16 * i) 8 = g.regs.mask[i].pending.toNat := by
  have hl : (g.regs.mask.flatMap fun m => [m.saved.toNat, m.pending.toNat]).length = 2 * g.regs.mask.length := flatMap_length fun _ _ => rfl
  have e1 := frame_word h pts reason c 16 rfl (i := 2 * i) (by rw [hl]; omega)
  have e2 := frame_word h pts reason c 16 rfl (i := 2 * i + 1) (by rw [hl]; omega)
  rw [show 2 * i = 2 * i + 0 by rfl, flatMap_getD (k := 2) (fun _ _ => rfl) hi (by omega)] at e1
  rw [flatMap_getD (k := 2) (fun _ _ => rfl) hi (by omega)] at e2
  rw [show 0xC50 + 16 * i = 0xC50 + 8 * (2 * i + 0) by omega, show 0xC58 + 16 * i = 0xC50 + 8 * (2 * i + 1) by omega, e1, e2]
  simp [bytes8, Nat.mod_eq_of_lt (BitVec.isLt _)]

theorem ofImage_mask (old : Regs) (w lw v : Nat) (hm : ∀ m ∈ g.regs.mask, m.saved.toNat < 2 ^ lw ∧ m.pending.toNat < 2 ^ lw) :
    (old.ofImage (g.frameImage pts reason c) w lw v).mask = g.regs.mask := by
  have hl : g.regs.mask.length ≤ 32 := h.2.2.2.2.2.2.2.2.2.1
  simp only [Regs.ofImage]
  rw [image_depth h, Nat.min_eq_right hl]
  apply List.ext_getElem (by simp)
  intro i h1 h2
  have hb := hm _ (List.getElem_mem h2)
  simp only [List.getElem_map, List.getElem_range]
  rw [(image_mask h pts reason c h2).1, (image_mask h pts reason c h2).2, Nat.mod_eq_of_lt hb.1, Nat.mod_eq_of_lt hb.2]
  simp

theorem image_finished : memNat (g.frameImage pts reason c) 0xE98 8 = min 16 g.regs.finished.length := by
  have e := frame_word h pts reason c 17 rfl (i := 3) (by simp)
  simp only [List.getD_cons_succ, List.getD_cons_zero, bytes8] at e
  rw [show (0xE98 : Nat) = 0xE80 + 8 * 3 by rfl, e]
  omega

theorem ofImage_finished (old : Regs) (w lw v : Nat) (ho : old.finished.drop 16 = g.regs.finished.drop 16) :
    (old.ofImage (g.frameImage pts reason c) w lw v).finished = g.regs.finished := by
  simp only [Regs.ofImage]
  rw [image_finished h, ho, show min 16 (min 16 g.regs.finished.length % 32) = (g.regs.finished.take 16).length by simp; omega]
  conv => rhs; rw [← List.take_append_drop 16 g.regs.finished]
  congr 1
  apply List.ext_getElem (by simp)
  intro i h1 h2
  have e := frame_word h pts reason c 18 rfl (i := i) (by simpa using h2)
  simp only [List.getElem_map, List.getElem_range]
  rw [e, map_getD _ _ h2, bytes8, Nat.mod_eq_of_lt (BitVec.isLt _), BitVec.ofNat_toNat, BitVec.setWidth_eq]

theorem image_flags : memNat (g.frameImage pts reason c) 0xE90 8 =
    b2n g.regs.unchecked + 2 * b2n (match g.regs.current with | some b => b.unchecked | none => false) := by
  have e := frame_word h pts reason c 17 rfl (i := 2) (by simp)
  simp only [List.getD_cons_succ, List.getD_cons_zero] at e
  rw [show (0xE90 : Nat) = 0xE80 + 8 * 2 by rfl, e]
  exact flags_mod _ _

theorem ofImage_unchecked (old : Regs) (w lw v : Nat) : (old.ofImage (g.frameImage pts reason c) w lw v).unchecked = g.regs.unchecked := by
  simp only [Regs.ofImage]
  rw [image_flags h, (bit_flags _ _).1]

theorem image_v {i j : Nat} (hi : i < g.regs.v.length) (hj : j < (g.regs.v[i]).length) :
    memNat (g.frameImage pts reason c) (0x1000 + 4 * (i * g.width + j)) 4 = g.regs.v[i][j].val.toNat := by
  have hr := h.2.1
  have hw := hr _ (List.getElem_mem hi)
  have hf : ∀ x ∈ g.regs.v, ((padTo g.width ⟨0, false⟩ x).map fun e : VElem => e.val.toNat).length = g.width := fun x hx => by simp
  have hlt : g.width * i + j < g.width * g.regs.v.length := by
    have : g.width * (i + 1) ≤ g.width * g.regs.v.length := Nat.mul_le_mul_left _ hi
    rw [Nat.mul_succ] at this; omega
  have e := frame_word h pts reason c 19 rfl (i := g.width * i + j) (by rw [flatMap_length hf]; exact hlt)
  rw [flatMap_getD hf hi (by omega), padTo_eq _ hw, map_getD _ _ hj, bytes4, Nat.mod_eq_of_lt (BitVec.isLt _)] at e
  rw [Nat.mul_comm i, e]

theorem image_vPoison {i j : Nat} (hi : i < g.regs.v.length) (hj : j < (g.regs.v[i]).length) :
    bit (memNat (g.frameImage pts reason c) (0x1000 + 4 * g.regs.v.length * g.width + (i * g.width + j) / 8) 1) ((i * g.width + j) % 8) =
      g.regs.v[i][j].poison := by
  have hr := h.2.1
  have hw := hr _ (List.getElem_mem hi)
  have e := frame_word h pts reason c 20 rfl (i := i) (by simpa using hi)
  rw [map_getD _ _ hi, padTo_eq _ hw] at e
  have hd : 8 * (g.width / 8) = g.width := by rcases h.1 with h | h | h <;> rw [h]
  have e1 : (i * g.width + j) / 8 = g.width / 8 * i + j / 8 := by
    conv => lhs; rw [← hd, Nat.mul_left_comm, Nat.mul_add_div (by omega), Nat.mul_comm i]
  have e2 : (i * g.width + j) % 8 = j % 8 := by
    conv => lhs; rw [← hd, Nat.mul_left_comm, Nat.mul_add_mod]
  have lt := foldr_bits_lt VElem.poison g.regs.v[i]
  rw [hw] at lt
  have p2 : (256 : Nat) ^ (g.width / 8) = 2 ^ g.width := by rcases h.1 with h | h | h <;> (rw [h]; norm_num)
  rw [e1, e2, ← Nat.add_assoc, memNat_sub (n := g.width / 8) (by omega), e, p2, Nat.mod_eq_of_lt lt, ← bit_foldr VElem.poison g.regs.v[i] j hj]
  simp only [bit, Nat.pow_one, Nat.shiftRight_eq_div_pow, show (256 : Nat) ^ (j / 8) = 2 ^ (8 * (j / 8)) by rw [Nat.pow_mul]]
  congr 1
  rw [show (256 : Nat) = 2 ^ (j % 8) * 2 ^ (8 - j % 8) by rw [← Nat.pow_add, show j % 8 + (8 - j % 8) = 8 by omega], Nat.mod_mul_right_div_self,
    Nat.div_div_eq_div_mul, ← Nat.pow_add, Nat.div_add_mod, show 8 - j % 8 = (7 - j % 8) + 1 by omega, Nat.pow_succ, Nat.mul_comm (2 ^ _) 2, Nat.mod_mul_right_mod]

theorem ofImage_v (old : Regs) (lw : Nat) : (old.ofImage (g.frameImage pts reason c) g.width lw g.regs.v.length).v = g.regs.v := by
  apply List.ext_getElem (by simp [Regs.ofImage])
  intro i h1 h2
  have hw := h.2.1 _ (List.getElem_mem h2)
  simp only [Regs.ofImage, List.getElem_map, List.getElem_range]
  apply List.ext_getElem (by simp [hw])
  intro j h3 h4
  simp only [List.getElem_map, List.getElem_range]
  rw [image_v h pts reason c h2 h4, image_vPoison h pts reason c h2 h4]
  simp

/-- The word that tells the current block and the length of the queue. -/
theorem image_stream : memNat (g.frameImage pts reason c) 0x10 8 =
    ((match g.regs.current with | some b => b.lpc.toNat + b.left <<< 20 | none => 0) + (g.regs.laneq.take 16).length <<< 32) % 256 ^ 8 := by
  have e := frame_word h pts reason c 0 rfl (i := 2) (by simp)
  exact e

theorem image_blockSig : memNat (g.frameImage pts reason c) 0xE88 8 = (match g.regs.current with | some b => b.sig.toNat | none => 0) % 256 ^ 8 := by
  have e := frame_word h pts reason c 17 rfl (i := 1) (by simp)
  exact e

theorem image_block {k : Nat} (hq : g.regs.laneq.length ≤ 16) (hk : k < g.regs.laneq.length) (hr : 1 ≤ g.regs.laneq[k].nruns ∧ g.regs.laneq[k].nruns ≤ 32) :
    BitVec.ofNat 20 (memNat (g.frameImage pts reason c) (0x40 + 4 * k) 4) = g.regs.laneq[k].start ∧
    (if bits (memNat (g.frameImage pts reason c) (0x40 + 4 * k) 4) 20 5 == 0 then 32
      else bits (memNat (g.frameImage pts reason c) (0x40 + 4 * k) 4) 20 5) = g.regs.laneq[k].nruns := by
  have e := frame_word h pts reason c 1 rfl (i := k) (by simp; omega)
  rw [List.take_of_length_le hq, map_getD _ _ hk, bytes4] at e
  have hs := g.regs.laneq[k].start.isLt
  rw [e]
  simp only [bits, Nat.shiftLeft_eq, Nat.shiftRight_eq_div_pow]
  constructor
  · apply BitVec.eq_of_toNat_eq; rw [BitVec.toNat_ofNat]; omega
  · split <;> rename_i hz
    · rw [beq_iff_eq] at hz; omega
    · rw [beq_iff_eq] at hz; omega

theorem image_caps {k : Nat} (hq : g.regs.laneq.length ≤ 16) (hk : k < g.regs.laneq.length) (hc : g.regs.laneq[k].caps.length ≤ 8) :
    ((List.range (min 8 (bits (memNat (g.frameImage pts reason c) (0x1A0 + 8 * k) 8) 48 4))).map fun j =>
      (⟨BitVec.ofNat 6 (bits (memNat (g.frameImage pts reason c) (0x1A0 + 8 * k) 8) (6 * j) 6),
        ⟨BitVec.ofNat 64 (memNat (g.frameImage pts reason c) (0x300 + 64 * k + 8 * j) 8), bit (memNat (g.frameImage pts reason c) (0x220 + k) 1) j⟩⟩ : Cap)) =
      g.regs.laneq[k].caps := by
  have e1 := frame_word h pts reason c 4 rfl (i := k) (by simp; omega)
  have e2 := frame_word h pts reason c 5 rfl (i := k) (by simp; omega)
  rw [List.take_of_length_le hq, map_getD _ _ hk] at e1 e2
  have lt := foldr_digits_lt (fun c : Cap => c.num.toNat) g.regs.laneq[k].caps fun x _ => x.num.isLt
  have lt2 := foldr_bits_lt (fun c : Cap => c.val.poison) g.regs.laneq[k].caps
  have p1 : (64 : Nat) ^ g.regs.laneq[k].caps.length ≤ 2 ^ 48 := (Nat.pow_le_pow_right (by omega) hc).trans (by norm_num)
  have p2 : (2 : Nat) ^ g.regs.laneq[k].caps.length ≤ 256 ^ 1 := (Nat.pow_le_pow_right (by omega) hc).trans (by norm_num)
  rw [Nat.shiftLeft_eq, Nat.mod_eq_of_lt (by rw [bytes8]; omega)] at e1
  rw [Nat.mod_eq_of_lt (by omega), Nat.one_mul] at e2
  rw [e1, e2]
  have hn : bits (g.regs.laneq[k].caps.foldr (fun c n => n * 64 + c.num.toNat) 0 + g.regs.laneq[k].caps.length * 2 ^ 48) 48 4 =
      g.regs.laneq[k].caps.length := by
    simp only [bits, Nat.shiftRight_eq_div_pow]; omega
  rw [hn, Nat.min_eq_right hc]
  apply List.ext_getElem (by simp)
  intro j h1 h2
  simp only [List.getElem_map, List.getElem_range]
  have hd : bits (g.regs.laneq[k].caps.foldr (fun c n => n * 64 + c.num.toNat) 0 + g.regs.laneq[k].caps.length * 2 ^ 48) (6 * j) 6 =
      g.regs.laneq[k].caps[j].num.toNat := by
    rw [← digit_foldr (fun c : Cap => c.num.toNat) g.regs.laneq[k].caps (fun x _ => x.num.isLt) j h2]
    simp only [bits, Nat.shiftRight_eq_div_pow, Nat.pow_mul, show (2 : Nat) ^ 6 = 64 by norm_num]
    have : (2 : Nat) ^ 48 = 64 ^ j * (64 * 64 ^ (7 - j)) := by
      rw [← Nat.pow_succ', ← Nat.pow_add, show j + (7 - j + 1) = 8 by omega]; norm_num
    rw [this, Nat.mul_left_comm, Nat.add_mul_div_left _ _ (by positivity), Nat.mul_left_comm, Nat.add_mul_mod_self_left]
  have hf : ∀ x ∈ g.regs.laneq.take 16, (padTo 8 0 (x.caps.map fun c : Cap => c.val.val.toNat)).length = 8 := fun x _ => by simp
  have e3 := frame_word h pts reason c 8 rfl (i := 8 * k + j) (by rw [flatMap_length hf, List.length_take]; omega)
  rw [flatMap_getD hf (by rw [List.length_take]; omega) (by omega)] at e3
  rw [hd, bit_foldr (fun c : Cap => c.val.poison) g.regs.laneq[k].caps j h2, show 0x300 + 64 * k + 8 * j = 0x300 + 8 * (8 * k + j) by omega, e3]
  have : (padTo 8 0 (((g.regs.laneq.take 16)[k]'(by rw [List.length_take]; omega)).caps.map fun c => c.val.val.toNat)).getD j 0 =
      g.regs.laneq[k].caps[j].val.val.toNat := by
    have : j < 8 := by omega
    simp [padTo, this, h2]
  rw [this, bytes8, Nat.mod_eq_of_lt (BitVec.isLt _)]
  simp

theorem ofImage_laneq (old : Regs) (w lw v : Nat) (hb : g.AtBoundary) (ho : old.laneq.map LBlock.dests = g.regs.laneq.map LBlock.dests) :
    (old.ofImage (g.frameImage pts reason c) w lw v).laneq = g.regs.laneq := by
  obtain ⟨-, -, -, -, hq, hn, hl, hs, ht, -⟩ := hb
  have e := image_stream h pts reason c
  rw [List.take_of_length_le hq] at e
  -- the current block is the first one, if that has begun
  have hcur : (∃ b, g.regs.current = some b ∧ g.regs.laneq.head? = some b ∧ b.begun = true ∧ 1 ≤ b.left ∧ b.left ≤ 32) ∨
      (g.regs.current = none ∧ ∀ b, g.regs.laneq.head? = some b → b.begun = false) := by
    unfold Regs.current
    cases hx : g.regs.laneq with
    | nil => right; simp
    | cons b bs =>
      cases hbb : b.begun
      · right; simp [hbb]
      · left
        have := hl b (by simp [hx]) hbb
        exact ⟨b, by simp [hbb], by simp, hbb, this.2.1, this.2.2⟩
  have len : min 16 (bits (memNat (g.frameImage pts reason c) 0x10 8) 32 5) = g.regs.laneq.length := by
    rw [e]
    simp only [bits, Nat.shiftRight_eq_div_pow, Nat.shiftLeft_eq, bytes8]
    rcases hcur with ⟨b, hc, -, -, h1, h2⟩ | ⟨hc, -⟩ <;> rw [hc] <;> simp only
    · have := b.lpc.isLt; omega
    · omega
  simp only [Regs.ofImage]
  rw [len]
  apply List.ext_getElem (by simp)
  intro k h1 h2
  simp only [List.getElem_map, List.getElem_range]
  have hk := hn _ (List.getElem_mem h2)
  have hd : (((old.laneq.drop k).head?.map LBlock.dests).getD []) = g.regs.laneq[k].dests := by
    have : (old.laneq.map LBlock.dests)[k]? = (g.regs.laneq.map LBlock.dests)[k]? := by rw [ho]
    rw [List.head?_drop, ← List.getElem?_map, this]
    simp [h2]
  have f1 := (image_block h pts reason c hq h2 ⟨hk.1, hk.2.1⟩).1
  have f2 := (image_block h pts reason c hq h2 ⟨hk.1, hk.2.1⟩).2
  rw [image_caps h pts reason c hq h2 hk.2.2, hd, image_blockSig h, image_flags h, (bit_flags _ _).2]
  have plain : g.regs.laneq[k].begun = false →
      ({ start := g.regs.laneq[k].start, nruns := g.regs.laneq[k].nruns, lpc := g.regs.laneq[k].start, left := g.regs.laneq[k].nruns,
         caps := g.regs.laneq[k].caps, dests := g.regs.laneq[k].dests, sig := 0, unchecked := false } : LBlock) = g.regs.laneq[k] := by
    intro hbb
    have h0 := hs _ (List.getElem_mem h2) hbb
    unfold LBlock.begun at hbb
    simp only [Bool.or_eq_false_iff, bne_eq_false_iff_eq] at hbb
    generalize g.regs.laneq[k] = x at *
    obtain ⟨a1, a2, a3, a4, a5, a6, a7, a8⟩ := x
    simp_all
  have tail : 0 < k → g.regs.laneq[k].begun = false := fun hp =>
    ht _ (List.mem_iff_getElem.2 ⟨k - 1, by simp; omega, by simp [List.getElem_tail, show k - 1 + 1 = k by omega]⟩)
  rcases hcur with ⟨b, hc, hh, hbb, hl1, hl2⟩ | ⟨hc, hh⟩
  · have hr : bits (memNat (g.frameImage pts reason c) 0x10 8) 20 6 = b.left := by
      rw [e, hc]
      simp only [bits, Nat.shiftRight_eq_div_pow, Nat.shiftLeft_eq, bytes8]
      have := b.lpc.isLt; omega
    have hlpc : BitVec.ofNat 20 (memNat (g.frameImage pts reason c) 0x10 8) = b.lpc := by
      rw [e, hc]
      simp only [Nat.shiftLeft_eq, bytes8]
      apply BitVec.eq_of_toNat_eq
      rw [BitVec.toNat_ofNat]
      have := b.lpc.isLt; omega
    rw [hr, hc]
    cases k with
    | zero =>
      have h0 : g.regs.laneq[0] = b := by
        rw [List.head?_eq_getElem?, List.getElem?_eq_getElem h2] at hh; exact Option.some.inj hh
      have hne : (b.left != 0) = true := by rw [bne_iff_ne]; omega
      simp only [hne, beq_self_eq_true, Bool.and_true, if_true, Bool.true_and, hlpc, f1, f2, h0, bytes8, Nat.mod_eq_of_lt (BitVec.isLt _), BitVec.ofNat_toNat, BitVec.setWidth_eq]
    | succ k =>
      simp only [show (k + 1 == 0) = false from rfl, Bool.false_and, Bool.false_eq_true, if_false, f1, f2]
      exact plain (tail (by omega))
  · have hr : bits (memNat (g.frameImage pts reason c) 0x10 8) 20 6 = 0 := by
      rw [e, hc]
      simp only [bits, Nat.shiftRight_eq_div_pow, Nat.shiftLeft_eq, bytes8]
      omega
    rw [hr, hc]
    have hbb : g.regs.laneq[k].begun = false := by
      cases k with
      | zero => exact hh _ (by rw [List.head?_eq_getElem?, List.getElem?_eq_getElem h2])
      | succ k => exact tail (by omega)
    simp only [show ((0 : Nat) != 0) = false from rfl, Bool.and_false, Bool.false_eq_true, if_false, f1, f2]
    exact plain hbb

theorem image_header : memNat (g.frameImage pts reason c) 0 8 = 1 + g.width <<< 8 + b2n g.shadow <<< 16 + b2n g.checked <<< 17 + b2n (!g.user) <<< 18 +
    (reason % 8) <<< 20 + g.frameSize <<< 32 := by
  have e := frame_word h pts reason c 0 rfl (i := 0) (by simp)
  refine e.trans (Nat.mod_eq_of_lt ?_)
  have h1 := b2n_le g.shadow
  have h2 := b2n_le g.checked
  have h3 := b2n_le (!g.user)
  obtain ⟨hw, -, -, -, -, hv, ht, ha, -⟩ := h
  simp only [List.getD_cons_zero, Nat.shiftLeft_eq, Group.frameSize, frameSize, vecArea, roundUp, bytes8]
  rcases hw with hw | hw | hw <;> rw [hw] <;> omega

theorem parts_below : ∀ e ∈ partsImage (g.frameParts pts reason c), e.1 < 0x1000 + vecArea g.regs.v.length g.width := by
  intro e he
  obtain ⟨s, hs, he⟩ := List.mem_flatMap.1 he
  have := partsUpTo_end (frameParts_upTo h pts reason c) s hs
  have := piece_mem he
  omega

theorem image_tile {i : Nat} (hi : i < g.tiles.length) :
    memSlice (g.frameImage pts reason c) (0x1000 + vecArea g.regs.v.length g.width + i * 16384) 16384 = g.tiles[i].data := by
  have ht : ∀ b ∈ g.tiles, ∀ c ∈ b.data, c.1 < 16384 := fun b hb => (h.2.2.2.2.2.2.2.2.2.2.1 b hb).2
  have ha : ∀ b ∈ g.accs, ∀ c ∈ b.data, c.1 < 65536 := fun b hb => (h.2.2.2.2.2.2.2.2.2.2.2 b hb).2
  unfold Group.frameImage
  rw [memSlice_append, memSlice_append, memSlice_clear, List.nil_append, blocks_slice ht hi, memSlice_clear, List.append_nil]
  · intro e he
    have h1 := blocks_mem ha he
    have : (i + 1) * 16384 ≤ g.tiles.length * 16384 := Nat.mul_le_mul_right _ hi
    exact Or.inr (by omega)
  · intro e he
    have := parts_below h pts reason c e he
    exact Or.inl (by omega)

theorem image_acc {i : Nat} (hi : i < g.accs.length) :
    memSlice (g.frameImage pts reason c) (0x1000 + vecArea g.regs.v.length g.width + g.tiles.length * 16384 + i * 65536) 65536 = g.accs[i].data := by
  have ht : ∀ b ∈ g.tiles, ∀ c ∈ b.data, c.1 < 16384 := fun b hb => (h.2.2.2.2.2.2.2.2.2.2.1 b hb).2
  have ha : ∀ b ∈ g.accs, ∀ c ∈ b.data, c.1 < 65536 := fun b hb => (h.2.2.2.2.2.2.2.2.2.2.2 b hb).2
  unfold Group.frameImage
  rw [memSlice_append, memSlice_append, memSlice_clear, List.nil_append, memSlice_clear, List.nil_append, blocks_slice ha hi]
  · intro e he
    have h1 := blocks_mem ht he
    exact Or.inl (by omega)
  · intro e he
    have := parts_below h pts reason c e he
    exact Or.inl (by omega)

theorem image_tileFlag {i : Nat} (hi : i < g.tiles.length) : bit (memNat (g.frameImage pts reason c) (0x700 + 8 * i) 8) 32 = g.tiles[i].poison ∧
    BitVec.ofNat 32 (memNat (g.frameImage pts reason c) (0x700 + 8 * i) 4) = g.tiles[i].token := by
  have e := frame_word h pts reason c 9 rfl (i := i) (by simpa using hi)
  rw [map_getD _ _ hi] at e
  have e4 := memNat_sub (m := g.frameImage pts reason c) (a := 0x700 + 8 * i) (n := 8) (j := 0) (k := 4) (by omega)
  rw [Nat.add_zero] at e4
  rw [e4, e]
  exact flag_bits _

theorem image_accFlag {i : Nat} (hi : i < g.accs.length) : bit (memNat (g.frameImage pts reason c) (0x800 + 8 * i) 8) 32 = g.accs[i].poison ∧
    BitVec.ofNat 32 (memNat (g.frameImage pts reason c) (0x800 + 8 * i) 4) = g.accs[i].token := by
  have e := frame_word h pts reason c 10 rfl (i := i) (by simpa using hi)
  rw [map_getD _ _ hi] at e
  have e4 := memNat_sub (m := g.frameImage pts reason c) (a := 0x800 + 8 * i) (n := 8) (j := 0) (k := 4) (by omega)
  rw [Nat.add_zero] at e4
  rw [e4, e]
  exact flag_bits _

theorem image_region : Region.ofImage (memNat (g.frameImage pts reason c) 0x20 8) = g.region := by
  have e := frame_word h pts reason c 0 rfl (i := 4) (by simp)
  simp only [List.getD_cons_succ, List.getD_cons_zero] at e
  rw [show (0x20 : Nat) = 0 + 8 * 4 by rfl, e, bytes8]
  exact region_image _

theorem image_crumb : BitVec.ofNat 32 (memNat (g.frameImage pts reason c) 0x28 4) = g.crumbLast := by
  have e : memNat (g.frameImage pts reason c) 0x28 8 = g.crumbLast.toNat % 256 ^ 8 := frame_word h pts reason c 0 rfl (i := 5) (by simp)
  have e4 := memNat_sub (m := g.frameImage pts reason c) (a := 0x28) (n := 8) (j := 0) (k := 4) (by omega)
  rw [Nat.add_zero] at e4
  rw [e4, e, bytes8, bytes4]
  have := g.crumbLast.isLt
  exact BitVec.eq_of_toNat_eq (by rw [BitVec.toNat_ofNat]; omega)

theorem image_counts : memNat (g.frameImage pts reason c) 0x38 8 =
    g.regs.v.length + g.tiles.length <<< 16 + g.accs.length <<< 24 + g.regs.prio.toNat <<< 32 := by
  have e := frame_word h pts reason c 0 rfl (i := 7) (by simp)
  refine e.trans (Nat.mod_eq_of_lt ?_)
  obtain ⟨-, -, -, -, -, hv, ht, ha, -⟩ := h
  have := g.regs.prio.isLt
  simp only [List.getD_cons_succ, List.getD_cons_zero, Nat.shiftLeft_eq, bytes8]
  omega

theorem image_engine {i : Nat} (hi : i < g.eng.length) :
    BitVec.ofNat 32 (memNat (g.frameImage pts reason c) (0x100 + 8 * i) 4) = g.eng[i].openNum ∧
    BitVec.ofNat 32 (memNat (g.frameImage pts reason c) (0x104 + 8 * i) 4) = g.eng[i].closedNum ∧
    ((∀ a, g.eng[i].cursor = some a → a < 2 ^ 19) →
      (if bit (memNat (g.frameImage pts reason c) (0x270 + 8 * i) 8) 63 then none else some (memNat (g.frameImage pts reason c) (0x270 + 8 * i) 8 % 2 ^ 19)) =
        g.eng[i].cursor) := by
  have e := frame_word h pts reason c 2 rfl (i := i) (by simpa using hi)
  have e2 := frame_word h pts reason c 7 rfl (i := i) (by simpa using hi)
  rw [map_getD _ _ hi] at e e2
  have e4 := memNat_sub (m := g.frameImage pts reason c) (a := 0x100 + 8 * i) (n := 8) (j := 0) (k := 4) (by omega)
  have e5 := memNat_sub (m := g.frameImage pts reason c) (a := 0x100 + 8 * i) (n := 8) (j := 4) (k := 4) (by omega)
  rw [Nat.add_zero] at e4
  rw [show 0x104 + 8 * i = 0x100 + 8 * i + 4 by omega, e4, e5, e, e2, bytes8, bytes4, Nat.shiftLeft_eq]
  have h1 := (g.eng[i]).openNum.isLt
  have h2 := (g.eng[i]).closedNum.isLt
  refine ⟨BitVec.eq_of_toNat_eq (by rw [BitVec.toNat_ofNat]; omega), BitVec.eq_of_toNat_eq (by rw [BitVec.toNat_ofNat]; omega), fun hc => ?_⟩
  cases hx : (g.eng[i]).cursor with
  | none => decide
  | some a =>
    exact cursor_image (hc a hx)

theorem image_checks : bits (memNat (g.frameImage pts reason c) 0 8) 0 8 = 1 ∧ bits (memNat (g.frameImage pts reason c) 0 8) 8 7 = g.width ∧
    bits (memNat (g.frameImage pts reason c) 0x38 8) 0 9 = g.regs.v.length ∧ bits (memNat (g.frameImage pts reason c) 0x38 8) 16 6 = g.tiles.length ∧
    bits (memNat (g.frameImage pts reason c) 0x38 8) 24 4 = g.accs.length ∧ bit (memNat (g.frameImage pts reason c) 0 8) 16 = g.shadow ∧
    bit (memNat (g.frameImage pts reason c) 0 8) 17 = g.checked ∧ bit (memNat (g.frameImage pts reason c) 0 8) 18 = !g.user := by
  rw [image_header h, image_counts h]
  obtain ⟨hw, -, -, -, -, hv, ht, ha, -⟩ := h
  have h0 := header_fields (f := g.frameSize) (b2n_le g.shadow) (b2n_le g.checked) (b2n_le !g.user) (by omega : g.width < 128) (r := reason % 8)
  have h1 := count_fields (by omega : g.regs.v.length < 512) (by omega : g.tiles.length < 64) (by omega : g.accs.length < 16) (p := g.regs.prio.toNat)
  unfold bit
  rw [h0.2.2.1, h0.2.2.2.1, h0.2.2.2.2]
  refine ⟨h0.1, h0.2.1, h1.1, h1.2.1, h1.2.2, ?_, ?_, ?_⟩
  · cases g.shadow <;> rfl
  · cases g.checked <;> rfl
  · cases g.user <;> rfl

end
end Sys2Proof.Machine
end

