-- ==== Sys2Proof/Laws/Goes.lean ====
section
/-! SUPPORT. Every shape of execution goes on where what it is given goes on: no meaning answers a fault or a refusal. -/

namespace Sys2Proof.Machine

theorem goes_next (s : State) : Goes (.next s) := ⟨s, rfl⟩

theorem goes_ite {c : Prop} [Decidable c] {a b : Host.Outcome State Fault Refusal} (h1 : Goes a) (h2 : Goes b) : Goes (if c then a else b) := by split <;> assumption

theorem goes_interlock {s : State} {rs} {f} (h : Goes f) : Goes (s.interlock rs f) := goes_ite (goes_next _) h

theorem goes_stopHere (s : State) (mk dr) : Goes (s.stopHere mk dr) := by
  unfold State.stopHere; dsimp only; repeat' (first | exact goes_next _ | exact ⟨_, rfl⟩ | split)

theorem goes_deciding {s : State} {rs d} {f} (h : Goes f) : Goes (s.deciding rs d f) := by
  unfold State.deciding; refine goes_interlock ?_; repeat' (first | exact goes_next _ | exact h | exact goes_stopHere _ _ _ | split)

theorem goes_closing {s : State} {b} {f : State → Host.Outcome State Fault Refusal} (h : ∀ u, Goes (f u)) : Goes (s.closing b f) := by
  unfold State.closing; dsimp only; repeat' (first | exact goes_next _ | exact h _ | exact goes_stopHere _ _ _ | split)

theorem goes_failWith (s : State) (l d) : Goes (s.failWith l d) := by
  unfold State.failWith; split <;> exact ⟨_, rfl⟩

theorem goes_failToken (s : State) (t d) : Goes (s.failToken t d) := goes_failWith _ _ _

theorem goes_failLive (s : State) (c va d) : Goes (s.failLive c va d) := goes_failWith _ _ _

theorem goes_issueOrHold (s : State) (i f) : Goes (s.issueOrHold i f) := by
  unfold State.issueOrHold; repeat' (first | exact goes_next _ | split)

theorem goes_guarded {s : State} {q} {f} (h : Goes f) : Goes (s.guarded q f) := by
  unfold State.guarded; dsimp only; repeat' (first | exact goes_next _ | exact h | split)

theorem goes_laneDone (s : State) (x) : Goes (s.laneDone x) := ⟨_, rfl⟩

theorem goes_laneGroup (s : State) (x F f) : Goes (s.laneGroup x F f) := goes_guarded (goes_laneDone _ _)

theorem goes_laneEach (s : State) (x F f) : Goes (s.laneEach x F f) := goes_guarded (goes_laneDone _ _)

theorem goes_laneMap (s : State) (x F f) : Goes (s.laneMap x F f) := goes_laneEach _ _ _ _

theorem goes_laneUni (s : State) (x F f) : Goes (s.laneUni x F f) := goes_guarded (goes_ite (goes_next _) (goes_laneDone _ _))

theorem goes_laneLoad (s : State) (x F f) : Goes (s.laneLoad x F f) := goes_guarded (goes_laneDone _ _)

theorem goes_laneStore (s : State) (x F o f) : Goes (s.laneStore x F o f) := goes_guarded (goes_ite (goes_next _) (goes_laneDone _ _))

theorem goes_atomic (s : State) (x F b) : Goes (s.atomic x F b) := by
  unfold State.atomic; refine goes_guarded ?_; dsimp only; repeat' (first | exact goes_next _ | split)

theorem goes_masking {s : State} {n i} {f : BitVec 64 → Host.Outcome State Fault Refusal} (h : ∀ v, Goes (f v)) : Goes (s.masking n i f) := by
  unfold State.masking; dsimp only; repeat' (first | exact goes_next _ | exact h _ | split)

theorem goes_maskDone (s : State) (x o f) : Goes (s.maskDone x o f) := by unfold State.maskDone; exact goes_laneDone _ _

theorem goes_unlessSafe (s : State) (k f) : Goes (s.unlessSafe k f) := goes_ite (goes_next _) (goes_next _)

theorem goes_done (s : State) : Goes s.done := ⟨_, rfl⟩

theorem goes_doneNew (s : State) : Goes s.doneNew := ⟨_, rfl⟩

theorem goes_branchIf (s : State) (b t) : Goes (s.branchIf b t) := goes_ite (goes_next _) (goes_done _)

theorem goes_wal2 (s : State) (d a b f) : Goes (s.wal2 d a b f) := by
  exact goes_interlock ⟨_, rfl⟩

theorem goes_wal1 (s : State) (d a f) : Goes (s.wal1 d a f) := by
  exact goes_interlock ⟨_, rfl⟩

theorem goes_reserveOne {s : State} {f} (h : Goes f) : Goes (s.reserveOne f) := by
  unfold State.reserveOne; repeat' (first | exact goes_next _ | exact h | exact goes_closing fun _ => goes_next _ | split)

theorem goes_writeExm {s : State} {v} {f : State → Host.Outcome State Fault Refusal} (h : ∀ v, Goes (f v)) : Goes (s.writeExm v f) := by
  unfold State.writeExm; repeat' (first | exact goes_next _ | exact h _ | split)

theorem goes_waitPhase (s : State) (a p b) : Goes (s.waitPhase a p b) := by
  unfold State.waitPhase; repeat' (first | exact goes_next _ | exact goes_done _ | exact goes_doneNew _ | split)

theorem goes_queueBlock (s : State) (f i) : Goes (s.queueBlock f i) := by
  unfold State.queueBlock; dsimp only; repeat' (first | exact goes_next _ | exact goes_done _ | refine goes_interlock ?_ | split)

end Sys2Proof.Machine
end

