-- ==== Sys2Proof/Laws/Lanes.lean ====
section
/-! SUPPORT. What the shapes of lane execution can do, said once: reading operands, a clean guard, each shape's next state. -/

namespace Sys2Proof.Machine

/-- A block signature leaves the captured uniforms (R161, R341). -/
theorem Regs.captured_mixBlock (r : Regs) (v : BitVec 64) (n : BitVec 6) : (r.mixBlock v).captured n = r.captured n := by
  unfold Regs.mixBlock Regs.captured; cases h : r.laneq <;> simp [h]

/-- A block signature leaves everything but the lane queue. -/
theorem Regs.mixBlock_same (r : Regs) (v : BitVec 64) :
    (r.mixBlock v).v = r.v ∧ (r.mixBlock v).p = r.p ∧ (r.mixBlock v).w = r.w ∧ (r.mixBlock v).exm = r.exm := by
  unfold Regs.mixBlock; cases r.laneq <;> exact ⟨rfl, rfl, rfl, rfl⟩

/-- Entering the opcode changes no source (R234). -/
theorem Group.rdForm_enterCode (s : State) (op : Nat) (x : LOp) (f : SForm) (src : Src) (first i : Nat) :
    (s.enterCode op).cur.rdForm x f src first i = s.cur.rdForm x f src first i := by
  obtain ⟨hv, hp, -, -⟩ := Regs.mixBlock_same s.cur.regs (opEvent op)
  have hs : (s.enterCode op).cur.shadow = s.cur.shadow := rfl
  have hl : (s.enterCode op).cur.latches = s.cur.latches := rfl
  have hr : (s.enterCode op).cur.regs = s.cur.regs.mixBlock (opEvent op) := rfl
  unfold Group.rdForm Regs.rdPred Regs.pred Group.rd Regs.velem Group.latch
  rw [hs, hl, hr, hv, hp]
  cases src <;> simp only [Regs.captured_mixBlock]

/-- Entering the opcode changes no lane's activity. -/
theorem Group.active_enterCode (s : State) (op : Nat) (q : Option Guard) : (s.enterCode op).cur.active q = s.cur.active q := by
  obtain ⟨-, hp, -, he⟩ := Regs.mixBlock_same s.cur.regs (opEvent op)
  have hr : (s.enterCode op).cur.regs = s.cur.regs.mixBlock (opEvent op) := rfl
  have hs : (s.enterCode op).cur.shadow = s.cur.shadow := rfl
  have hw : (s.enterCode op).cur.width = s.cur.width := rfl
  have hk : (s.enterCode op).cur.skipped = s.cur.skipped := rfl
  unfold Group.active Group.lanesOf Group.activeMask Group.guardBits Group.spread Regs.pred
  rw [hr, hs, hw, hk, hp, he]

/-- A reading that is no invalid latch settles without a crumb. -/
theorem State.settleRd_fresh {s : State} {r : Rd} (i : Nat) (h : r ≠ .stale) : s.settleRd i r = (s, r.toOpd) := by
  cases r with
  | ok => rfl
  | tok => rfl
  | stale => exact absurd rfl h

/-- Reading fresh sources changes nothing and gives each lane its operands. -/
theorem State.gather_fresh (s : State) (x : LOp) (F : Form) (first : Nat) (is : List Nat)
    (h : ∀ i ∈ is, ∀ q ∈ [(F.s0, x.s0), (F.s1, x.s1), (F.s2, x.s2)], s.cur.rdForm x q.1 q.2 first i ≠ .stale) :
    s.gather x F first is = (s, is.map fun i => ⟨i, (s.cur.rdForm x F.s0 x.s0 first i).toOpd, (s.cur.rdForm x F.s1 x.s1 first i).toOpd,
      (s.cur.rdForm x F.s2 x.s2 first i).toOpd⟩) := by
  induction is with
  | nil => rfl
  | cons i is ih =>
    have hi := h i (List.mem_cons_self ..)
    have h0 := hi (F.s0, x.s0) (by simp)
    have h1 := hi (F.s1, x.s1) (by simp)
    have h2 := hi (F.s2, x.s2) (by simp)
    have hr : s.readLane x F first i = (s, ⟨i, (s.cur.rdForm x F.s0 x.s0 first i).toOpd, (s.cur.rdForm x F.s1 x.s1 first i).toOpd,
        (s.cur.rdForm x F.s2 x.s2 first i).toOpd⟩) := by
      unfold State.readLane
      simp only [State.settleRd_fresh i h0, State.settleRd_fresh i h1, State.settleRd_fresh i h2]
    unfold State.gather
    simp only [hr, ih fun j hj => h j (List.mem_cons_of_mem _ hj), List.map_cons]

/-- The operands that an instruction reads after it entered its opcode. -/
theorem State.operands_fresh {s : State} {x : LOp} {F : Form} (op : Nat) (h : s.Fresh x F) :
    (s.enterCode op).operands x F = (s.enterCode op, s.laneIns x F) := by
  unfold State.operands
  rw [Group.active_enterCode]
  rw [State.gather_fresh _ _ _ _ _ (by simpa only [Group.rdForm_enterCode, State.Fresh] using h)]
  simp only [Group.rdForm_enterCode]
  rfl

/-- A guard without poison lets the instruction act (R230). -/
theorem State.guarded_clean {s : State} {q : Option Guard} (f : Ans) (h : s.cur.guardPoison q = 0) : s.guarded q f = f := by
  unfold State.guarded; rw [h]; rfl

/-- Each lane on its own (R228). -/
theorem State.laneEach_out {s : State} {x : LOp} {F : Form} (f : LaneIn → Opd) (hg : s.cur.guardPoison x.guard = 0) (h : s.Fresh x F) :
    s.laneEach x F f = .next (s.laneOut x F ((s.laneIns x F).map fun l => (l.lane, f l))) := by
  unfold State.laneEach
  rw [State.guarded_clean _ hg]
  simp only [State.operands_fresh F.op h]
  rfl

/-- Each lane on its own, poisoned by its first poisoned source. -/
theorem State.laneMap_out {s : State} {x : LOp} {F : Form} (f : Nat → Nat → Nat → Nat) (hg : s.cur.guardPoison x.guard = 0) (h : s.Fresh x F) :
    s.laneMap x F f = .next (s.laneOut x F ((s.laneIns x F).map fun l => (l.lane, l.map f))) := State.laneEach_out _ hg h

/-- The lanes of each half together (R233, R234). -/
theorem State.laneGroup_out {s : State} {x : LOp} {F : Form} (f : Group → Nat → List LaneIn → List (Nat × Opd))
    (hg : s.cur.guardPoison x.guard = 0) (h : s.Fresh x F) :
    s.laneGroup x F f = .next (s.laneOut x F (s.cur.bases.flatMap fun b =>
      f (s.enterCode F.op).cur b ((s.laneIns x F).filter fun l => l.lane / s.cur.laneW == b / s.cur.laneW))) := by
  unfold State.laneGroup
  rw [State.guarded_clean _ hg]
  simp only [State.operands_fresh F.op h]
  rfl

/-- A reduction to a uniform whose halves agree (R233, R345). -/
theorem State.laneUni_out {s : State} {x : LOp} {F : Form} (f : Group → Nat → List LaneIn → Opd) (hg : s.cur.guardPoison x.guard = 0)
    (h : s.Fresh x F) (hs : s.cur.shadow = false) :
    s.laneUni x F f = .next (((s.enterCode F.op).writeU x (f (s.enterCode F.op).cur 0
      ((s.laneIns x F).filter fun l => l.lane / s.cur.laneW == 0))).laneNext x.last x.mods.isSome) := by
  unfold State.laneUni
  rw [State.guarded_clean _ hg]
  simp only [State.operands_fresh F.op h]
  rw [if_neg (by rw [show (s.enterCode F.op).cur.shadow = s.cur.shadow from rfl, hs]; exact Bool.false_ne_true)]
  simp only [show (s.enterCode F.op).cur.laneW = s.cur.laneW from rfl, Nat.zero_div]
  rfl

end Sys2Proof.Machine
end

