-- ==== Sys2Proof/Laws/Matrix.lean ====
section
/-! SUPPORT. What tiles and accumulators read as: the elements that a tile load and a tile store move, the words of an accumulator. -/

namespace Sys2Proof.Machine

/-! ## Memories -/

theorem memSlice_get (m : Mem) (a n i : Nat) (h : i < n) : memGet (memSlice m a n) i = memGet m (a + i) := by
  induction m with
  | nil => rfl
  | cons c m ih =>
    obtain ⟨x, b⟩ := c
    unfold memSlice at ih ⊢
    rw [List.filter_cons]
    by_cases hx : a ≤ x ∧ x < a + n
    · rw [if_pos (by simpa using hx), List.map_cons]
      simp only [memGet]
      by_cases he : x = a + i
      · subst he; simp
      · rw [if_neg (by simp; omega), if_neg (by simpa using he)]
        exact ih
    · rw [if_neg (by simpa using hx), ih]
      simp only [memGet]
      rw [if_neg (by simp; omega)]

theorem memSlice_bytes (m : Mem) (a n i k : Nat) (h : i + k ≤ n) : memBytes (memSlice m a n) i k = memBytes m (a + i) k := by
  apply List.ext_getElem (by simp [memBytes_length])
  intro j h1 h2
  rw [memBytes_length] at h1
  rw [memBytes_get, memBytes_get, memSlice_get _ _ _ _ (by omega), Nat.add_assoc]

theorem memSlice_nat (m : Mem) (a n i k : Nat) (h : i + k ≤ n) : memNat (memSlice m a n) i k = memNat m (a + i) k := by
  rw [memNat_eq, memNat_eq, memSlice_bytes m a n i k h]

theorem memRow_eq (m : Mem) (a n : Nat) : memRow m a n = memNat m a n := by
  rw [memRow, memSlice_bytes m a n 0 n (by omega), ← memNat_eq]; rfl

/-! ## Rows -/

theorem memOfRows_parts (p : Nat) (rows : List (List Byte)) : memOfRows p rows = partsImage (rows.zipIdx.map fun r => (r.2 * p, r.1)) := by
  simp only [memOfRows, partsImage, List.filter_flatMap, List.flatMap_map, piece]

theorem rows_upTo {p : Nat} (rows : List (List Byte)) (k : Nat) (h : ∀ r ∈ rows, r.length ≤ p) :
    partsUpTo ((k + rows.length) * p) ((rows.zipIdx k).map fun r => (r.2 * p, r.1)) := by
  induction rows generalizing k with
  | nil => trivial
  | cons r rows ih =>
    have hr := h r (by simp)
    have := ih (k + 1) fun x hx => h x (by simp [hx])
    rw [List.length_cons, show k + (rows.length + 1) = k + 1 + rows.length by omega]
    cases rows with
    | nil => simp only [List.zipIdx_cons, List.zipIdx_nil, List.map_cons, List.map_nil, partsUpTo, List.length_nil, Nat.add_zero, Nat.succ_mul]; omega
    | cons q rows =>
      refine ⟨?_, this⟩
      simp only [Nat.succ_mul]; omega

/-- Bytes of row `i`. -/
theorem memOfRows_bytes {p : Nat} {rows : List (List Byte)} (h : ∀ r ∈ rows, r.length ≤ p) {i : Nat} (hi : i < rows.length) {j n : Nat}
    (hj : j + n ≤ (rows[i]).length) : memBytes (memOfRows p rows) (i * p + j) n = ((rows[i]).drop j).take n := by
  have := memBytes_part (m := []) (rows_upTo rows 0 h) (by simp) (k := i) (o := i * p) (bs := rows[i]) (by simp [hi]) hj
  rw [List.append_nil] at this
  rw [memOfRows_parts]
  exact this

theorem leNat_take_toBytes (n v k : Nat) (h : k ≤ n) : leNat ((toBytes n v).take k) = v % 256 ^ k := by
  induction n generalizing v k with
  | zero => have : k = 0 := by omega
            subst this; simp [leNat, Nat.mod_one]
  | succ n ih =>
    cases k with
    | zero => simp [leNat, Nat.mod_one]
    | succ k =>
      simp only [toBytes, List.take_succ_cons, leNat, ih (v / 256) k (by omega), BitVec.toNat_ofNat]
      rw [show 256 ^ (k + 1) = 256 * 256 ^ k from Nat.pow_succ', Nat.mod_mul]

/-! ## Accumulators -/

/-- Word (i, j) of an accumulator. -/
theorem accWords_get (m : Mem) {i j : Nat} (hi : i < 128) (hj : j < 128) : ((accWords m).getD i []).getD j 0 = memNat m (512 * i + 4 * j) 4 := by
  simp only [accWords, List.getD_eq_getElem?_getD, List.getElem?_map, List.getElem?_range hi, List.getElem?_range hj, Option.map_some, Option.getD_some]
  rw [memRow_eq, memNat_sub (m := m) (a := 512 * i) (n := 512) (j := 4 * j) (k := 4) (by omega)]
  simp only [bits, Nat.shiftRight_eq_div_pow, bytes4, show (256 : Nat) ^ (4 * j) = 2 ^ (32 * j) by rw [show (256 : Nat) = 2 ^ 8 by norm_num, ← Nat.pow_mul]; congr 1; omega]

/-- Word (i, j) of an accumulator that is made of words. -/
theorem accMem_get {ws : List (List Nat)} (hw : ∀ r ∈ ws, r.length = 128) {i j : Nat} (hi : i < ws.length) (hj : j < 128) :
    memNat (accMem ws) (512 * i + 4 * j) 4 = (ws[i]).getD j 0 % 2 ^ 32 := by
  have hl : ∀ r ∈ ws.map fun r => r.flatMap fun w => toBytes 4 w, r.length ≤ 512 := by
    intro r hr
    obtain ⟨x, hx, rfl⟩ := List.mem_map.1 hr
    rw [flatMap_length (k := 4) fun _ _ => by simp, hw x hx]
  have hx := hw _ (List.getElem_mem hi)
  have hlen : ((ws[i]).flatMap fun w => toBytes 4 w).length = 512 := by rw [flatMap_length (k := 4) fun _ _ => by simp, hx]
  have e := memOfRows_bytes hl (i := i) (by simpa using hi) (j := 4 * j) (n := 4) (by simp only [List.getElem_map]; omega)
  rw [accMem, memNat_eq, Nat.mul_comm 512, e, List.getElem_map]
  have w := words_drop 4 ws[i] j (by omega)
  unfold words at w
  rw [w, leNat_toBytes, bytes4]

/-! ## Elements -/

theorem bits_mod {x m lo b : Nat} (h : lo + b ≤ m) : bits (x % 2 ^ m) lo b = bits x lo b := by
  apply Nat.eq_of_testBit_eq
  intro i
  simp only [bits, Nat.testBit_mod_two_pow, Nat.testBit_shiftRight]
  by_cases hi : i < b
  · simp [show lo + i < m by omega]
  · simp [hi]

theorem pack_testBit (b : Nat) (hb : 0 < b) (es : List Nat) (s a t : Nat) :
    ((es.zipIdx s).foldl (fun a e => a ||| (e.1 % 2 ^ b) <<< (e.2 * b)) a).testBit t =
      (a.testBit t || (decide (s ≤ t / b) && ((es.getD (t / b - s) 0) % 2 ^ b).testBit (t % b))) := by
  induction es generalizing s a with
  | nil => simp
  | cons e es ih =>
    rw [List.zipIdx_cons, List.foldl_cons, ih, Nat.testBit_or, Nat.testBit_shiftLeft, Bool.or_assoc]
    congr 1
    have hd := Nat.div_add_mod t b
    have hm := Nat.mod_lt t hb
    rw [Nat.mul_comm] at hd
    rcases Nat.lt_trichotomy (t / b) s with h | h | h
    · have : t < s * b := (Nat.div_lt_iff_lt_mul hb).1 h
      simp [show ¬ t ≥ s * b by omega, show ¬ s ≤ t / b by omega, show ¬ s + 1 ≤ t / b by omega]
    · subst h
      simp [show t ≥ t / b * b by omega, show t - t / b * b = t % b by omega]
    · have h1 : (s + 1) * b ≤ t := (Nat.le_div_iff_mul_le hb).1 h
      rw [Nat.succ_mul] at h1
      have h2 : ((e % 2 ^ b).testBit (t - s * b)) = false := by rw [Nat.testBit_mod_two_pow]; simp; omega
      rw [h2, Bool.and_false, Bool.false_or, show t / b - s = t / b - (s + 1) + 1 by omega, List.getD_cons_succ]
      simp [show s ≤ t / b by omega, show s + 1 ≤ t / b by omega]

/-- Element `k` of a packed row. -/
theorem packRow_elem {b n : Nat} (hb : 0 < b) (es : List Nat) {k : Nat} (hk : (k + 1) * b ≤ 8 * n) :
    elemOf (leNat (packRow b n es)) k b = es.getD k 0 % 2 ^ b := by
  rw [Nat.succ_mul] at hk
  rw [packRow, leNat_toBytes, show (256 : Nat) ^ n = 2 ^ (8 * n) by rw [Nat.pow_mul], elemOf, bits_mod hk]
  apply Nat.eq_of_testBit_eq
  intro i
  rw [bits, Nat.testBit_mod_two_pow, Nat.testBit_shiftRight, pack_testBit b hb, Nat.testBit_mod_two_pow]
  by_cases hi : i < b
  · have h1 : (k * b + i) / b = k := by rw [Nat.mul_comm, Nat.mul_add_div hb, Nat.div_eq_of_lt hi, Nat.add_zero]
    have h2 : (k * b + i) % b = i := by rw [Nat.mul_comm, Nat.mul_add_mod, Nat.mod_eq_of_lt hi]
    rw [h1, h2]; simp [hi]
  · simp [hi]

@[simp] theorem packRow_length (b n : Nat) (es : List Nat) : (packRow b n es).length = n := by simp [packRow]

theorem leNat_append (l k : List Byte) : leNat (l ++ k) = leNat l + 256 ^ l.length * leNat k := by
  induction l with
  | nil => simp [leNat]
  | cons b l ih => rw [List.cons_append, leNat, leNat, ih, List.length_cons, Nat.pow_succ', Nat.mul_add, Nat.mul_assoc, Nat.add_assoc]

theorem leNat_lt (l : List Byte) : leNat l < 256 ^ l.length := by
  induction l with
  | nil => simp [leNat]
  | cons b l ih =>
    have := b.isLt
    rw [leNat, List.length_cons, Nat.pow_succ']
    omega

theorem trimRow_length (c b : Nat) (l : List Byte) (h : l ≠ []) : (trimRow c b l).length = l.length := by
  have := List.length_pos_iff.2 h
  unfold trimRow
  split
  · simp; omega
  · rfl

theorem low_part {x y p q : Nat} (h : x < p) : x + p * (y % q) = (x + p * y) % (p * q) := by
  rw [Nat.mod_mul, Nat.add_mul_mod_self_left, Nat.mod_eq_of_lt h, Nat.add_mul_div_left _ _ (by omega), Nat.div_eq_of_lt h, Nat.zero_add]

/-- A trimmed row has the elements of the row. -/
theorem trimRow_elem {c b k : Nat} {l : List Byte} (hl : l.length = rowBytes c b) (hk : k < c) : elemOf (leNat (trimRow c b l)) k b = elemOf (leNat l) k b := by
  unfold trimRow
  split
  · rename_i h
    obtain ⟨h4, ho⟩ := by simpa using h
    subst h4
    have hn : l ≠ [] := by
      intro hz; rw [hz, List.length_nil] at hl; unfold rowBytes at hl; omega
    have hx := List.dropLast_append_getLast hn
    have hg : l.getLastD 0 = l.getLast hn := by rw [List.getLastD_eq_getLast?, List.getLast?_eq_getLast_of_ne_nil hn]; rfl
    have hd : l.dropLast.length = c / 2 := by rw [List.length_dropLast, hl]; unfold rowBytes; omega
    have hlo := leNat_lt l.dropLast
    rw [hd] at hlo
    have e1 : leNat l = leNat l.dropLast + 256 ^ (c / 2) * (l.getLast hn).toNat := by
      conv => lhs; rw [← hx]
      rw [leNat_append, hd]; simp [leNat]
    have e2 : leNat (l.dropLast ++ [l.getLastD 0 &&& 0x0F]) = leNat l % 2 ^ (8 * (c / 2) + 4) := by
      have hm : (l.getLast hn &&& 0x0F#8).toNat = (l.getLast hn).toNat % 2 ^ 4 := by
        rw [BitVec.toNat_and]; exact Nat.and_two_pow_sub_one_eq_mod (l.getLast hn).toNat 4
      rw [leNat_append, hd, hg, e1, show (256 : Nat) ^ (c / 2) = 2 ^ (8 * (c / 2)) by rw [Nat.pow_mul]]
      simp only [leNat, Nat.mul_zero, Nat.add_zero]
      rw [show (0x0F : Byte) = 0x0F#8 from rfl, hm, Nat.pow_add]
      exact low_part (by rwa [Nat.pow_mul])
    rw [e2, elemOf, elemOf, bits_mod (by omega)]
  · rfl

/-! ## Tiles -/

/-- Element (r, c) that a tile load gives is the one that scratch holds at its place. -/
theorem load_elem {g : TileGeo} (m : Mem) (hb : 0 < g.sh.width) (hn : rowBytes g.sh.cols g.sh.width ≤ 128) {r c : Nat} (hr : r < g.sh.rows)
    (hc : c < g.sh.cols) : elemOf (memNat (g.load m) (128 * r) (rowBytes g.sh.cols g.sh.width)) c g.sh.width =
      elemOf (memNat m (g.s + (if g.t then c else r) * g.p) g.len) (if g.t then r else c) g.sh.width := by
  have hcb : (c + 1) * g.sh.width ≤ g.sh.cols * g.sh.width := Nat.mul_le_mul_right _ hc
  have hrb : (r + 1) * g.sh.width ≤ g.sh.rows * g.sh.width := Nat.mul_le_mul_right _ hr
  unfold TileGeo.load
  cases ht : g.t
  · rw [if_neg (by simp)]
    have hne : ∀ q : Nat × Nat, q.2 = g.len → memBytes (memSlice m q.1 q.2) 0 q.2 ≠ [] := by
      intro q hq h0
      have := congrArg List.length h0
      rw [memBytes_length, hq, List.length_nil] at this
      unfold TileGeo.len rowBytes at this; rw [ht] at this; simp only [Bool.false_eq_true, if_false] at this
      have : 1 * 1 ≤ g.sh.cols * g.sh.width := Nat.mul_le_mul (by omega) hb
      omega
    have hlen : g.len = rowBytes g.sh.cols g.sh.width := by unfold TileGeo.len; rw [ht]; rfl
    have hrows : g.nrows = g.sh.rows := by unfold TileGeo.nrows; rw [ht]; rfl
    have hseg : ∀ q ∈ g.segs, q.2 = g.len := by intro q hq; obtain ⟨k, _, rfl⟩ := List.mem_map.1 hq; rfl
    have hl : ∀ x ∈ g.segs.map fun q => trimRow g.sh.cols g.sh.width (memBytes (memSlice m q.1 q.2) 0 q.2), x.length ≤ 128 := by
      intro x hx
      obtain ⟨q, hq, rfl⟩ := List.mem_map.1 hx
      rw [trimRow_length _ _ _ (hne q (hseg q hq)), memBytes_length, hseg q hq, hlen]; exact hn
    have hi : r < (g.segs.map fun q => trimRow g.sh.cols g.sh.width (memBytes (memSlice m q.1 q.2) 0 q.2)).length := by simp [TileGeo.segs, hrows, hr]
    have e := memOfRows_bytes hl hi (j := 0) (n := rowBytes g.sh.cols g.sh.width) (by
      rw [List.getElem_map, trimRow_length _ _ _ (hne _ (hseg _ (List.getElem_mem _))), memBytes_length, hseg _ (List.getElem_mem _), hlen]; omega)
    rw [Nat.add_zero, Nat.mul_comm] at e
    rw [memNat_eq, e, List.drop_zero, List.take_of_length_le (by
      rw [List.getElem_map, trimRow_length _ _ _ (hne _ (hseg _ (List.getElem_mem _))), memBytes_length, hseg _ (List.getElem_mem _), hlen])]
    rw [List.getElem_map, trimRow_elem (by rw [memBytes_length, hseg _ (List.getElem_mem _), hlen]) hc]
    simp only [TileGeo.segs, List.getElem_map, List.getElem_range, Bool.false_eq_true, if_false]
    rw [memSlice_bytes _ _ _ _ _ (by omega), ← memNat_eq]
    rfl
  · rw [if_pos rfl]
    have hlen : g.len = rowBytes g.sh.rows g.sh.width := by unfold TileGeo.len; rw [ht]; rfl
    have hrows : g.nrows = g.sh.cols := by unfold TileGeo.nrows; rw [ht]; rfl
    have e := memOfRows_bytes (p := 128) (rows := (List.range g.sh.rows).map fun r => packRow g.sh.width (rowBytes g.sh.cols g.sh.width)
      ((g.segs.map fun q => memRow m q.1 q.2).map fun n => elemOf n r g.sh.width)) (by
        intro x hx; obtain ⟨k, _, rfl⟩ := List.mem_map.1 hx; simpa using hn) (i := r) (by simpa using hr) (j := 0) (n := rowBytes g.sh.cols g.sh.width) (by simp)
    rw [Nat.add_zero, Nat.mul_comm] at e
    rw [memNat_eq, e, List.drop_zero, List.take_of_length_le (by simp), List.getElem_map, List.getElem_range,
      packRow_elem hb _ (by unfold rowBytes; omega)]
    simp only [TileGeo.segs, List.map_map, List.getD_eq_getElem?_getD, List.getElem?_map, hrows, List.getElem?_range hc, Option.map_some, Option.getD_some,
      Function.comp, if_true]
    rw [memRow_eq, elemOf, bits, Nat.mod_mod]

/-- Element `e` of scratch row `k` that a tile store gives is the one that the tile holds at its place. -/
theorem rowsOf_elem {g : TileGeo} (d : Mem) (hb : 0 < g.sh.width) {k e : Nat} (hk : k < g.nrows)
    (he : e < (if g.t then g.sh.rows else g.sh.cols)) : elemOf (leNat ((g.rowsOf d).getD k [])) e g.sh.width =
      elemOf (memNat d (128 * (if g.t then e else k)) (rowBytes g.sh.cols g.sh.width)) (if g.t then k else e) g.sh.width ∧
    ((g.rowsOf d).getD k []).length = g.len := by
  unfold TileGeo.rowsOf
  unfold TileGeo.nrows at hk
  cases ht : g.t
  · rw [ht] at hk he
    simp only [Bool.false_eq_true, if_false] at hk he ⊢
    have hlen : g.len = rowBytes g.sh.cols g.sh.width := by unfold TileGeo.len; rw [ht]; rfl
    have hpos : 0 < g.len := by
      have : 1 * 1 ≤ g.sh.cols * g.sh.width := Nat.mul_le_mul (by omega) hb
      rw [hlen]; unfold rowBytes; omega
    have hne : ∀ v, toBytes g.len v ≠ [] := fun v h0 => by have := congrArg List.length h0; simp at this; omega
    simp only [List.map_map, List.getD_eq_getElem?_getD, List.getElem?_map, List.getElem?_range hk, Option.map_some, Option.getD_some, Function.comp]
    refine ⟨?_, by rw [trimRow_length _ _ _ (hne _), toBytes_length]⟩
    rw [trimRow_elem (by rw [toBytes_length, hlen]) he, leNat_toBytes, memRow_eq, hlen, Nat.mod_eq_of_lt (memNat_lt _ _ _)]
  · rw [ht] at hk he
    simp only [if_true] at hk he ⊢
    have hlen : g.len = rowBytes g.sh.rows g.sh.width := by unfold TileGeo.len; rw [ht]; rfl
    have heb : (e + 1) * g.sh.width ≤ g.sh.rows * g.sh.width := Nat.mul_le_mul_right _ he
    simp only [List.map_map, List.getD_eq_getElem?_getD, List.getElem?_map, List.getElem?_range hk, Option.map_some, Option.getD_some, packRow_length, and_true]
    rw [packRow_elem hb _ (by rw [hlen]; unfold rowBytes; omega)]
    simp only [List.getD_eq_getElem?_getD, List.getElem?_map, List.getElem?_range he, Option.map_some, Option.getD_some, Function.comp]
    rw [memRow_eq, elemOf, bits, Nat.mod_mod]

theorem cellsAt_mem {o : Nat} {bs : List Byte} {c : Nat × Byte} : c ∈ cellsAt o bs ↔ ∃ j, ∃ h : j < bs.length, c = (o + j, bs[j]) := by
  induction bs generalizing o with
  | nil => simp [cellsAt]
  | cons b bs ih =>
    rw [cellsAt, List.mem_cons, ih]
    constructor
    · rintro (rfl | ⟨j, h, rfl⟩)
      · exact ⟨0, by simp, rfl⟩
      · exact ⟨j + 1, by simpa using h, by simp; omega⟩
    · rintro ⟨j, h, rfl⟩
      cases j with
      | zero => left; rfl
      | succ j => right; exact ⟨j, by simpa using h, by simp; omega⟩

/-! ## Products -/

theorem mmaWords_length (o : EngOp) (sa sb : Shape) (sparse : Bool) (f : Nat) (ta tb acc : Mem) :
    (mmaWords o sa sb sparse f ta tb acc).length = 128 ∧ ∀ r ∈ mmaWords o sa sb sparse f ta tb acc, r.length = 128 := by
  have hl : (accWords acc).length = 128 := by simp [accWords]
  have hr : ∀ r ∈ accWords acc, r.length = 128 := by
    intro r h
    obtain ⟨i, _, rfl⟩ := List.mem_map.1 h
    simp
  unfold mmaWords
  refine ⟨by simpa using hl, ?_⟩
  intro r h
  obtain ⟨w, hw, rfl⟩ := List.mem_map.1 h
  have := hr _ (List.fst_mem_of_mem_zipIdx hw)
  simp only
  split
  · exact this
  · simpa using this

/-- Word (i, j) of the product: the accumulation of row i and column j inside the product, else the old word. -/
theorem mmaWords_get (o : EngOp) (sa sb : Shape) (sparse : Bool) (f : Nat) (ta tb acc : Mem) {i j : Nat} (hi : i < 128) (hj : j < 128) :
    ((mmaWords o sa sb sparse f ta tb acc).getD i []).getD j 0 =
      if i < sa.rows ∧ j < sb.cols then
        accElem ((kGroup (mmaSides o.img f).1 (mmaSides o.img f).2.1).getD 0) (memNat acc (512 * i + 4 * j) 4)
          ((mmaSides o.img f).1.decode o.img i sb.rows
            (let codes := (List.range sa.cols).map fun c => elemOf (memNat ta (128 * i) 128) c sa.width
             if sparse then expandRow o.img (mmaSides o.img f).2.2 i sb.rows codes else codes))
          ((mmaSides o.img f).2.1.decode o.img j sb.rows ((List.range sb.rows).map fun r => elemOf (memNat tb (128 * r) 128) j sb.width))
      else memNat acc (512 * i + 4 * j) 4 := by
  have hl : (accWords acc).length = 128 := by simp [accWords]
  have hr : ((accWords acc)[i]'(by omega)).length = 128 := by simp [accWords]
  have hg := accWords_get acc hi hj
  have hw : (accWords acc).getD i [] = (accWords acc)[i]'(by omega) := by simp [hl, hi]
  rw [hw] at hg
  have hw2 : (accWords acc)[i]? = some ((accWords acc)[i]'(by omega)) := List.getElem?_eq_getElem _
  have hj2 : ((accWords acc)[i]'(by omega))[j]? = some (memNat acc (512 * i + 4 * j) 4) := by
    rw [← hg, List.getElem?_eq_getElem (by omega)]; simp [hr, hj]
  generalize (accWords acc)[i]'(by omega) = row at *
  simp only [mmaWords, List.getD_eq_getElem?_getD, List.getElem?_map, List.getElem?_zipIdx, hw2, Option.map_some, Option.getD_some, Nat.zero_add]
  by_cases h1 : i < sa.rows
  · rw [if_neg (by omega)]
    simp only [List.getElem?_map, List.getElem?_zipIdx, hj2, Option.map_some, Option.getD_some, Nat.zero_add]
    by_cases h2 : j < sb.cols
    · rw [if_pos (c := i < sa.rows ∧ j < sb.cols) ⟨h1, h2⟩, List.getElem?_range h2]
      simp only [Option.map_some, List.map_map, Function.comp_def, memRow_eq]
    · rw [if_neg (c := i < sa.rows ∧ j < sb.cols) (by omega), List.getElem?_eq_none (by simpa using h2)]
      rfl
  · rw [if_pos (by omega), if_neg (c := i < sa.rows ∧ j < sb.cols) (by omega)]; simp only [hj2]
    rfl

theorem pieces_fuel {α : Type} {n : Nat} (hn : 0 < n) (l : List α) : ∀ f, l.length < f → pieces n f l = pieces n (l.length + 1) l := by
  induction h : l.length using Nat.strong_induction_on generalizing l with
  | _ k ih =>
    intro f hf
    cases f with
    | zero => omega
    | succ f =>
      cases l with
      | nil => simp [pieces]
      | cons a l =>
        have hd : ((a :: l).drop n).length < k := by rw [List.length_drop]; simp at h ⊢; omega
        simp only [pieces, List.isEmpty_cons, Bool.false_eq_true, if_false]
        rw [ih _ hd _ rfl f (by omega), ih _ hd _ rfl k hd]

/-- A sum takes its first K-group, then the others (R185). -/
theorem accElem_group {kg acc : Nat} (hk : 0 < kg) {xs ys : List FVal} (hx : xs ≠ []) (hy : ys ≠ []) :
    accElem kg acc xs ys = accElem kg (accStep (kg == 16) acc (List.zipWith Num.mul (xs.take kg) (ys.take kg))) (xs.drop kg) (ys.drop kg) := by
  obtain ⟨x, xs, rfl⟩ := List.exists_cons_of_ne_nil hx
  obtain ⟨y, ys, rfl⟩ := List.exists_cons_of_ne_nil hy
  have h0 : (kg == 0) = false := by simp; omega
  unfold accElem
  simp only [h0, Bool.false_eq_true, if_false]
  rw [← List.take_zipWith, ← List.drop_zipWith]
  generalize hz : List.zipWith Num.mul (x :: xs) (y :: ys) = z
  have hne : z.isEmpty = false := by rw [← hz]; rfl
  conv => lhs; rw [pieces, hne]
  simp only [Bool.false_eq_true, if_false, List.foldl_cons]
  rw [pieces_fuel hk (z.drop kg) z.length (by rw [List.length_drop]; cases z <;> simp_all; omega)]

/-- Integers add exactly and wrap (R317). -/
theorem accElem_int (acc : Nat) (xs ys : List Int) : accElem 0 acc (xs.map Num.ofInt) (ys.map Num.ofInt) =
    wrapInt ((acc : Int) + (List.zipWith (· * ·) xs ys).sum) 32 := by
  have key : ∀ (xs ys : List Int) (a : Int), (List.zipWith Num.mul (xs.map Num.ofInt) (ys.map Num.ofInt)).foldl (fun (a : Int) t =>
      match t with | .fin n m e => if n then a - Num.shiftTo m e 0 else a + Num.shiftTo m e 0 | _ => a) a = a + (List.zipWith (· * ·) xs ys).sum := by
    intro xs
    induction xs with
    | nil => intro ys a; simp
    | cons x xs ih =>
      intro ys a
      cases ys with
      | nil => simp
      | cons y ys =>
        simp only [List.map_cons, List.zipWith_cons_cons, List.foldl_cons, List.sum_cons]
        rw [ih, ← Int.add_assoc]
        congr 1
        simp only [Num.ofInt, Num.mul, Num.shiftTo]
        have hn : ((x.natAbs * y.natAbs : Nat) : Int) = if (decide (x < 0) != decide (y < 0)) then -(x * y) else x * y := by
          push_cast
          rcases lt_or_ge x 0 with hx | hx <;> rcases lt_or_ge y 0 with hy | hy
          · simp [hx, hy, abs_of_neg]
          · simp [hx, not_lt.2 hy, abs_of_neg, abs_of_nonneg hy]
          · simp [hy, not_lt.2 hx, abs_of_neg, abs_of_nonneg hx]
          · simp [not_lt.2 hx, not_lt.2 hy, abs_of_nonneg hx, abs_of_nonneg hy]
        simp only [Int.add_zero, Int.sub_self, Int.toNat_zero, Nat.shiftLeft_zero, hn]
        split <;> omega
  unfold accElem
  simp only [beq_self_eq_true, if_true]
  exact congrArg (wrapInt · 32) (key xs ys acc)

end Sys2Proof.Machine
end

