-- ==== Sys2Proof/Laws/Mem.lean ====
section
/-! SUPPORT. Memory: reads after writes, and every operation keeps the canonical form. -/

namespace Sys2Proof.Machine

/-! ## The canonical form -/

/-- A form from `lo` on is one from any lower address on. -/
theorem memWfFrom_mono {lo lo' : Nat} (h : lo' ≤ lo) {m : Mem} (hm : memWfFrom lo m = true) : memWfFrom lo' m = true := by
  cases m with
  | nil => rfl
  | cons c m =>
    obtain ⟨a, b⟩ := c
    simp only [memWfFrom, Bool.and_eq_true, decide_eq_true_eq] at hm ⊢
    exact ⟨⟨h.trans hm.1.1, hm.1.2⟩, hm.2⟩

/-- The form names every entry's place and value. -/
theorem memWfFrom_mem {lo : Nat} {m : Mem} (hm : memWfFrom lo m = true) {c : Nat × Byte} (hc : c ∈ m) : lo ≤ c.1 ∧ c.2 ≠ unlisted := by
  induction m generalizing lo with
  | nil => cases hc
  | cons d m ih =>
    obtain ⟨a, b⟩ := d
    simp only [memWfFrom, Bool.and_eq_true, decide_eq_true_eq, bne_iff_ne, ne_eq] at hm
    rcases List.mem_cons.1 hc with rfl | hc
    · exact hm.1
    · obtain ⟨h1, h2⟩ := ih hm.2 hc; exact ⟨by omega, h2⟩

/-- A part of a canonical memory is canonical. -/
theorem memWfFrom_filter {lo : Nat} {m : Mem} (p : Nat × Byte → Bool) (hm : memWfFrom lo m = true) : memWfFrom lo (m.filter p) = true := by
  induction m generalizing lo with
  | nil => rfl
  | cons d m ih =>
    obtain ⟨a, b⟩ := d
    simp only [memWfFrom, Bool.and_eq_true, decide_eq_true_eq] at hm
    rw [List.filter_cons]
    split
    · simp only [memWfFrom, Bool.and_eq_true, decide_eq_true_eq]; exact ⟨hm.1, ih hm.2⟩
    · exact ih (memWfFrom_mono (by omega) hm.2)

/-- Entries shifted up. -/
theorem memWfFrom_shift {lo k : Nat} {m : Mem} (hm : memWfFrom lo m = true) : memWfFrom (k + lo) (m.map fun c => (k + c.1, c.2)) = true := by
  induction m generalizing lo with
  | nil => rfl
  | cons d m ih =>
    obtain ⟨a, b⟩ := d
    simp only [memWfFrom, Bool.and_eq_true, decide_eq_true_eq] at hm
    simp only [List.map_cons, memWfFrom, Bool.and_eq_true, decide_eq_true_eq]
    exact ⟨⟨by omega, hm.1.2⟩, memWfFrom_mono (by omega) (ih hm.2)⟩

/-- Entries shifted down. -/
theorem memWfFrom_down {lo k : Nat} {m : Mem} (hk : k ≤ lo) (hm : memWfFrom lo m = true) : memWfFrom (lo - k) (m.map fun c => (c.1 - k, c.2)) = true := by
  induction m generalizing lo with
  | nil => rfl
  | cons d m ih =>
    obtain ⟨a, b⟩ := d
    simp only [memWfFrom, Bool.and_eq_true, decide_eq_true_eq] at hm
    simp only [List.map_cons, memWfFrom, Bool.and_eq_true, decide_eq_true_eq]
    exact ⟨⟨by omega, hm.1.2⟩, memWfFrom_mono (by omega) (ih (by omega) hm.2)⟩

/-- Two forms joined, all of the first below the second. -/
theorem memWfFrom_append {lo mid : Nat} {m n : Mem} (hl : lo ≤ mid) (hm : memWfFrom lo m = true) (hb : ∀ c ∈ m, c.1 < mid) (hn : memWfFrom mid n = true) :
    memWfFrom lo (m ++ n) = true := by
  induction m generalizing lo with
  | nil => exact memWfFrom_mono hl hn
  | cons d m ih =>
    obtain ⟨a, b⟩ := d
    simp only [memWfFrom, Bool.and_eq_true, decide_eq_true_eq] at hm
    have ha : a < mid := hb (a, b) (List.mem_cons_self ..)
    simp only [List.cons_append, memWfFrom, Bool.and_eq_true, decide_eq_true_eq]
    exact ⟨hm.1, ih (by omega) hm.2 fun c hc => hb c (List.mem_cons_of_mem _ hc)⟩

/-- Entries of a form at and above an address. -/
theorem memWfFrom_above {lo k : Nat} {m : Mem} (hm : memWfFrom lo m = true) : memWfFrom k (m.filter fun c => decide (k ≤ c.1)) = true := by
  induction m generalizing lo with
  | nil => rfl
  | cons d m ih =>
    obtain ⟨a, b⟩ := d
    simp only [memWfFrom, Bool.and_eq_true, decide_eq_true_eq] at hm
    rw [List.filter_cons]
    by_cases h : k ≤ a
    · rw [if_pos (by simpa using h)]
      simp only [memWfFrom, Bool.and_eq_true, decide_eq_true_eq]
      exact ⟨⟨h, hm.1.2⟩, memWfFrom_filter _ hm.2⟩
    · rw [if_neg (by simpa using h)]; exact ih hm.2

theorem memSet_wfFrom {lo : Nat} {m : Mem} (i : Nat) (v : Byte) (hi : lo ≤ i) (hm : memWfFrom lo m = true) : memWfFrom lo (memSet m i v) = true := by
  induction m generalizing lo with
  | nil =>
    unfold memSet; split
    · rfl
    · rename_i h; simp only [memWfFrom, Bool.and_eq_true, decide_eq_true_eq, bne_iff_ne, ne_eq, and_true]; exact ⟨hi, by simpa using h⟩
  | cons d m ih =>
    obtain ⟨a, b⟩ := d
    have hm' := hm
    simp only [memWfFrom, Bool.and_eq_true, decide_eq_true_eq] at hm
    unfold memSet
    split
    · rename_i h
      simp only [memWfFrom, Bool.and_eq_true, decide_eq_true_eq]; exact ⟨hm.1, ih (by omega) hm.2⟩
    · split
      · rename_i h1 h2
        have h2 : a = i := by simpa using h2
        split
        · exact memWfFrom_mono (by omega) hm.2
        · rename_i h3
          simp only [memWfFrom, Bool.and_eq_true, decide_eq_true_eq, bne_iff_ne, ne_eq]
          exact ⟨⟨hi, by simpa using h3⟩, h2 ▸ hm.2⟩
      · rename_i h1 h2
        have h2 : a ≠ i := by simpa using h2
        split
        · exact hm'
        · rename_i h3
          simp only [memWfFrom, Bool.and_eq_true, decide_eq_true_eq, bne_iff_ne, ne_eq]
          exact ⟨⟨hi, by simpa using h3⟩, ⟨by omega, by simpa using hm.1.2⟩, hm.2⟩

/-- Writing a byte keeps the form. -/
theorem memSet_wf {m : Mem} (i : Nat) (v : Byte) (hm : Memory.wf m = true) : Memory.wf (memSet m i v) = true := memSet_wfFrom i v (Nat.zero_le i) hm

/-- Writing bytes keeps the form. -/
theorem memWrite_wf {m : Mem} (a : Nat) (bs : List Byte) (hm : Memory.wf m = true) : Memory.wf (memWrite m a bs) = true := by
  induction bs generalizing m a with
  | nil => exact hm
  | cons b bs ih => exact ih (a + 1) (memSet_wf a b hm)

/-- Writing listed bytes keeps the form. -/
theorem memMerge_wf {m : Mem} (off : Nat) (bs : Mem) (hm : Memory.wf m = true) : Memory.wf (memMerge m off bs) = true := by
  unfold memMerge
  induction bs generalizing m with
  | nil => exact hm
  | cons c bs ih => exact ih (memSet_wf _ _ hm)

/-- A slice is in the form. -/
theorem memSlice_wf {m : Mem} (a n : Nat) (hm : Memory.wf m = true) : Memory.wf (memSlice m a n) = true := by
  unfold memSlice Memory.wf memWf
  have h : (m.filter fun c => decide (a ≤ c.1) && decide (c.1 < a + n)) = (m.filter fun c => decide (a ≤ c.1)).filter fun c => decide (c.1 < a + n) := by
    rw [List.filter_filter]; congr 1; funext c; rw [Bool.and_comm]
  rw [h]
  have := memWfFrom_down (k := a) (lo := a) (Nat.le_refl a) (memWfFrom_filter (fun c => decide (c.1 < a + n)) (memWfFrom_above (k := a) hm))
  simpa using this

/-- Replacing a range by a canonical image keeps the form. -/
theorem memPut_wf {m d : Mem} (a n : Nat) (hm : Memory.wf m = true) (hd : Memory.wf d = true) : Memory.wf (memPut m a n d) = true := by
  unfold memPut Memory.wf memWf
  refine memWfFrom_append (mid := a + n) (by omega) (memWfFrom_append (mid := a) (by omega) (memWfFrom_filter _ hm) ?_ ?_) ?_ (memWfFrom_above hm)
  · intro c hc; simpa using (List.mem_filter.1 hc).2
  · simpa using memWfFrom_shift (k := a) (memWfFrom_filter (fun c => decide (c.1 < n)) hd)
  · intro c hc
    rcases List.mem_append.1 hc with hc | hc
    · have : c.1 < a := by simpa using (List.mem_filter.1 hc).2
      omega
    · obtain ⟨e, he, rfl⟩ := List.mem_map.1 hc
      have : e.1 < n := by simpa using (List.mem_filter.1 he).2
      simp only; omega

/-- Memory at reset is in the form. -/
theorem reset_mem_wf : Memory.wf State.reset.dram = true := rfl

/-- Below its first place a canonical memory lists nothing. -/
theorem memGet_below {lo i : Nat} {m : Mem} (hm : memWfFrom lo m = true) (h : i < lo) : memGet m i = unlisted := by
  induction m generalizing lo with
  | nil => rfl
  | cons d m ih =>
    obtain ⟨a, b⟩ := d
    simp only [memWfFrom, Bool.and_eq_true, decide_eq_true_eq] at hm
    unfold memGet
    rw [if_neg (by simp; omega)]
    exact ih hm.2 (by omega)

end Sys2Proof.Machine
end

