-- ==== Sys2Proof/Tests/Slice0.lean ====
section
/-! SUPPORT. Witnesses that meet the hypotheses of the statements, words of the spec's examples, an ill-formed term for each check of
well-formedness, and small tests with results from the spec's rules and worked examples. -/

set_option maxRecDepth 8000

open Sys2Proof Sys2Proof.Machine

namespace Sys2Proof.Tests

/-- A package in which one group of 16 lanes runs in supervisor mode at 0x2000. -/
def base : State := State.reset.withFetchWord 32 0x02000000
def userBase : State := { base with cur := { base.cur with user := true } }
/-- `s` with a poisoned uniform. -/
def withPoison (s : State) (r : BitVec 6) : State := s.setW r (tokElem 0x06000001)
def aRun : RunSt := { wi := 0, n := 0, resv := 0, q0 := 0, ctl := 0, skip := 0, stop := false, after := 0 }
def withRun (s : State) : State := { s with cur := { s.cur with run := some aRun } }
def withScratch (s : State) (bs : List Byte) : State := { s with teams := [{ fetchTeam with scratch := memWrite [] 0 bs }] }
/-- Bytes at 0x2000. -/
def withBytes (bs : List Byte) : State := { base with dram := memWrite base.dram 0x2000 bs }
/-- A launch record of one gang, one team, one group of 16 lanes and 8 vector registers (R393). -/
def record : List Byte := toBytes 8 0x0000000101001001 ++ toBytes 8 0x0000000800000001 ++ List.replicate 240 0

/-- `iadd.n32 v5, v1, v0` as the last word of its run. -/
def iaddWord : BitVec 96 := 0b1#1 ++ 0b0#1 ++ 0b0000010000#10 ++ 0b000000#6 ++ 0b00000000101#11 ++ 0b000000000100#12 ++ 0b000000000000#12 ++ 0b000000000000#12 ++
      0b000000#6 ++ 0b00001#5 ++ 0b0000#4 ++ 0#16
def laneBytes (w : BitVec 96) : List Byte := toBytes 4 (w.extractLsb' 64 32).toNat ++ toBytes 4 (w.extractLsb' 32 32).toNat ++ toBytes 4 (w.extractLsb' 0 32).toNat

/-! ## Witnesses -/

theorem witness_free_uniforms : base.Free [63, 0, 5] := rfl
theorem witness_clean_uniforms : base.Clean [63, 0, 5] := by unfold State.Clean; decide
theorem witness_poisoned_uniform : (withPoison base 1).Free [3, 1, 2] ∧ ((withPoison base 1).wreg 1).poison = true := ⟨rfl, rfl⟩
theorem witness_lane_block : ∃ u x, blockFits (withBytes (laneBytes iaddWord)) u 1 0 x := ⟨_, _, by decide, rfl, by decide, rfl⟩
/-- A word of a run that names three uniforms. -/
def unifWord (last : Bool) (a : Nat) : BitVec 96 :=
  (if last then 1#1 else 0#1) ++ 0b0#1 ++ 0b0011000011#10 ++ 0#6 ++ 0#11 ++ BitVec.ofNat 12 (0x800 + 4 * a) ++ BitVec.ofNat 12 (0x804 + 4 * a) ++
    BitVec.ofNat 12 (0x808 + 4 * a) ++ 0#6 ++ 0b01000#5 ++ 0#4 ++ 0#16
def nineUniforms : State := withBytes (laneBytes (unifWord false 0) ++ laneBytes (unifWord false 3) ++ laneBytes (unifWord true 6))
theorem witness_bad_block : ∃ u x, nineUniforms.cur.regs.laneq.length < 16 ∧ nineUniforms.scanBlock (32 * 24 + 1) (0#20).toNat (blockRuns 1) 0 ⟨[], []⟩ = (u, .ok x) ∧ 8 < x.nums.length :=
  ⟨_, _, by decide, rfl, by decide +kernel⟩
theorem witness_block_waits : 16 ≤ ({ base with cur := { base.cur with regs := { base.cur.regs with laneq := List.replicate 16 ⟨0, 1, 0, 1, [], [], 0, false⟩ } } } : State).cur.regs.laneq.length := by decide
theorem witness_yield_passed : ∃ u, base.Commits true u ∧ (u.cur.engAt .copy).passed ((u.wreg 1).val.setWidth 32) = true := ⟨_, ⟨rfl, fun _ => rfl, rfl, rfl⟩, by decide⟩
theorem witness_end_last : ∃ u, base.Commits true u ∧ ((u.endGroup u.cur.key).groupsOf u.cur.teamKey).all (fun g => g.phase == .ended) = true :=
  ⟨_, ⟨rfl, fun _ => rfl, rfl, rfl⟩, by decide⟩
theorem witness_end_other : ∃ u, { base with rest := [{ fetchGroup with key := 9 }] }.Commits true u ∧ ((u.endGroup u.cur.key).groupsOf u.cur.teamKey).all (fun g => g.phase == .ended) = false :=
  ⟨_, ⟨rfl, fun _ => rfl, rfl, rfl⟩, by decide⟩
theorem witness_brk_debug : ∃ u, { base with ctxs := [⟨0, 0, 0, 0, 2, true, true, false⟩] }.Commits false u ∧ u.debugOn = true := ⟨_, ⟨rfl, fun _ => rfl, rfl, rfl⟩, by decide⟩
theorem witness_brk_plain : ∃ u, base.Commits false u ∧ u.debugOn = false := ⟨_, ⟨rfl, fun _ => rfl, rfl, rfl⟩, by decide⟩
theorem witness_ldw : ∃ u bs, base.Free [0, 63] ∧ base.Clean [0] ∧ base.loadVa (uniformAddress base 0 0) 8 0 = (u, .bytes bs) := ⟨_, _, rfl, by unfold State.Clean; decide, rfl⟩
theorem witness_ldw_bad : ∃ u c, (base.setVal 1 4).loadVa (uniformAddress (base.setVal 1 4) 1 0) 8 0 = (u, .bad c) := ⟨_, _, rfl⟩
theorem witness_ldws : ∃ u bs, uniformAddress base 0 0 % 8 = 0 ∧ base.scratchLoad (uniformAddress base 0 0) 8 = (u, .ok bs) := ⟨_, _, rfl, rfl⟩
theorem witness_ldws_edge : ∃ u c, (base.setVal 1 65536).scratchLoad (uniformAddress (base.setVal 1 65536) 1 0) 8 = (u, .error (.cause c)) := ⟨_, _, rfl⟩
theorem witness_ldws_word : ∃ u k, ({ base with teams := [{ fetchTeam with scrPois := [(0, 0x06000001)] }] } : State).scratchLoad 0 8 = (u, .error (.word k)) := ⟨_, _, rfl⟩
theorem witness_ldws_odd : uniformAddress (base.setVal 1 4) 1 0 % 8 ≠ 0 := by decide
theorem witness_stw : ∃ u id vc, base.quarFree base.cur.core ≠ 0 ∧ base.storeVa (uniformAddress base 0 0) 8 .write = (u, .ok (id, vc)) := ⟨_, _, _, by decide, rfl⟩
theorem witness_stw_bad : ∃ u c, (base.setVal 1 4).storeVa (uniformAddress (base.setVal 1 4) 1 0) 8 .write = (u, .error c) := ⟨_, _, rfl⟩
theorem witness_stws : uniformAddress (base.setVal 1 65528) 1 0 % 8 = 0 ∧ (base.setVal 1 65528).scratchCheck (uniformAddress (base.setVal 1 65528) 1 0) 8 = .ok () := ⟨by decide, rfl⟩
theorem witness_stws_edge : ∃ c, (base.setVal 1 65536).scratchCheck (uniformAddress (base.setVal 1 65536) 1 0) 8 = .error c := ⟨_, rfl⟩
theorem witness_mts : base.Free [1] ∧ base.Clean [1] ∧ base.cur.inRun = false ∧ base.cur.regs.laneq = [] ∧ base.cur.user = false ∧ ∃ u, base.Commits false u :=
  ⟨rfl, by unfold State.Clean; decide, rfl, rfl, rfl, _, rfl, fun _ => rfl, rfl, rfl⟩
theorem witness_user : userBase.cur.user = true := rfl
theorem witness_fence : ∃ u, base.Commits true u ∧ u.engineBusy u.cur.key = false ∧ ((u.drainAll u.cur.core).engineBusy (u.drainAll u.cur.core).cur.key || (u.drainAll u.cur.core).remoteBusy (u.drainAll u.cur.core).cur.key) = false :=
   ⟨_, ⟨rfl, fun _ => rfl, rfl, rfl⟩, by decide, by decide⟩
theorem witness_cmt : ∃ u, base.Free [1] ∧ base.Clean [1] ∧ base.cur.inRun = false ∧ base.cur.regs.laneq = [] ∧
  ({ base with cur := { base.cur with chunk := { base.cur.chunk with live := (base.cur.chunk.live.filter fun l => l.src != .cmt) ++ base.cur.liveSet (base.wreg 1).val } } } : State).Commits true u :=
  ⟨_, rfl, by unfold State.Clean; decide, rfl, rfl, rfl, fun _ => rfl, rfl, rfl⟩
theorem witness_arrive : ∃ u w, (withScratch base [1]).Commits true u ∧ u.barrier (barAt u 1) = .ok w ∧ w.expect ≠ 0 ∧ (w.arrive 1).completed w.phase = true :=
  ⟨_, _, ⟨rfl, fun _ => rfl, rfl, rfl⟩, rfl, by decide, by decide⟩
theorem witness_arrive2 : ∃ u w, (withScratch base [2]).Commits true u ∧ u.barrier (barAt u 1) = .ok w ∧ w.expect ≠ 0 ∧ (w.arrive 1).completed w.phase = false :=
  ⟨_, _, ⟨rfl, fun _ => rfl, rfl, rfl⟩, rfl, by decide, by decide⟩
theorem witness_waitb : ∃ u w, (withScratch base [1, 0, 0, 0, 1]).Commits false u ∧ u.barrier (barAt u 1) = .ok w ∧ w.completed ((u.wreg 2).val.toNat % 2 ^ 31) = true :=
  ⟨_, _, ⟨rfl, fun _ => rfl, rfl, rfl⟩, rfl, by decide⟩
theorem witness_waitb2 : ∃ u w, (withScratch base [1]).Commits false u ∧ u.barrier (barAt u 1) = .ok w ∧ w.completed ((u.wreg 2).val.toNat % 2 ^ 31) = false :=
  ⟨_, _, ⟨rfl, fun _ => rfl, rfl, rfl⟩, rfl, by decide⟩
theorem witness_barrier_counts : (⟨65535, 65534, 2147483647, false⟩ : Bar).expect < 65536 ∧ (65534 + 1 = 65535) := by decide
theorem witness_watch : ∃ u v p, base.Commits false u ∧ u.translate u.cur.xl (u.wreg 1).val.toNat .read = (v, .ok p) ∧ ((v.fold (p.pa / 128)).times (p.pa / 128)).1 ≤ (v.fold (p.pa / 128)).pts (v.fold (p.pa / 128)).cur.core :=
  ⟨_, _, _, ⟨rfl, fun _ => rfl, rfl, rfl⟩, rfl, by decide⟩
theorem witness_vclaim : ∃ u, base.Commits false u ∧ u.cur.regs.v.length + 8 * 31 ≤ 256 := ⟨_, ⟨rfl, fun _ => rfl, rfl, rfl⟩, by decide⟩
theorem witness_vrel : ∃ u, base.Commits true u ∧ (0#7).toNat < u.cur.granules := ⟨_, ⟨rfl, fun _ => rfl, rfl, rfl⟩, by decide⟩
theorem witness_yield_waits : ∃ u, ({ base with cur := { base.cur with eng := [{ EngSt.fresh with openNum := 2, closedNum := 1, closed := [⟨1, none, []⟩] }] } } : State).Commits true u ∧ (u.cur.engAt .copy).passed 1 = false := ⟨_, ⟨rfl, fun _ => rfl, rfl, rfl⟩, by decide⟩
theorem witness_ldw_remote : ∃ u, (base.setVal 1 0xFF00000000000000).loadVa (uniformAddress (base.setVal 1 0xFF00000000000000) 1 0) 8 0 = (u, .remote) := ⟨_, rfl⟩
theorem witness_sigchk : ∃ p, ({ base with cur := { base.cur with checked := true } } : State).cur.regs.sigr.extractLsb' 0 24 = p := ⟨_, rfl⟩
theorem witness_efen : ∃ u, base.Commits false u ∧ barAt u 1 % 8 = 0 ∧ u.team.inside (barAt u 1) 256 = true := ⟨_, ⟨rfl, fun _ => rfl, rfl, rfl⟩, by decide, by decide⟩
theorem witness_cwait : ∃ u v t, (({ base with counters := [⟨0, some 0, 5, 0⟩] } : State).setVal 1 0x8000).Commits false u ∧ u.counter? u.cur.sysr.asid ((u.wreg 1).val.setWidth 16) = some (v, t) ∧ (u.wreg 2).val ≤ v := ⟨_, _, _, ⟨rfl, fun _ => rfl, rfl, rfl⟩, rfl, by decide⟩
theorem witness_cwait2 : ∃ u v t, ((({ base with counters := [⟨0, some 0, 5, 0⟩] } : State).setVal 1 0x8000).setVal 2 6).Commits false u ∧ u.counter? u.cur.sysr.asid ((u.wreg 1).val.setWidth 16) = some (v, t) ∧ v < (u.wreg 2).val := ⟨_, _, _, ⟨rfl, fun _ => rfl, rfl, rfl⟩, rfl, by decide⟩
theorem witness_launch_ok : ∃ u v w r, ((withBytes record).setVal 1 0x2000).Commits false u ∧ u.readVa u.cur.xl 0x2000 256 = (v, .ok record) ∧ v.checkRecord v.cur.xl record = (w, .ok r) ∧ w.queueFull v.cur.xl.asid (capped v r) = false :=
 ⟨_, _, _, _, ⟨rfl, fun _ => rfl, rfl, rfl⟩, rfl, rfl, by decide⟩
theorem witness_launch_badrec : ∃ v w bs, base.readVa base.cur.xl 0x2000 256 = (v, .ok bs) ∧ v.checkRecord v.cur.xl bs = (w, .error none) := ⟨_, _, _, rfl, rfl⟩
theorem witness_launch_fault : ∃ v c, base.readVa base.cur.xl 0x40000000 256 = (v, .error c) := ⟨_, _, rfl⟩
/-- The header of a host launch message of ASID 2. -/
def header : List Byte := toBytes 8 0x0000000200000001 ++ List.replicate 56 0
def ctxBase : State := { base with ctxs := [⟨2, 0, 0, 0, 2, true, false, false⟩] }
theorem witness_host_launch : ∃ w r, header.length = 64 ∧ word8 header 0 = 1 + (2#16).toNat <<< 32 ∧ word8 header 8 = (0#64).toNat ∧ (∀ b ∈ header.drop 16, b = 0) ∧ ctxBase.liveCtx 2 = true ∧ ctxBase.checkRecord (ctxBase.frontXl 2) record = (w, .ok r) ∧ w.queueFull (ctxBase.frontXl 2).asid r.prio = false :=
  ⟨_, _, rfl, by decide, by decide, by decide, rfl, rfl, by decide⟩
theorem witness_copy : ∃ u v o bs, (base.setVal 1 0x100001000080).Commits false u ∧ copyPlan u (.cpy true 0 1 10 11) = (v, .ok (o, bs)) ∧ (v.queued o.core .copy).length < 32 ∧ (v.coreAt o.core).boxes.length + bs.length ≤ 256 :=
  ⟨_, _, _, _, ⟨rfl, fun _ => rfl, rfl, rfl⟩, rfl, by decide, by decide⟩
theorem witness_copy_bad : ∃ u v st k, (base.setVal 3 0xFFFFFFFFFFFFFFFF).Commits false u ∧ copyPlan u (.cpy true 0 1 2 3) = (v, .error (st, k)) ∧ (v.queued u.cur.core .copy).length < 32 :=
  ⟨_, _, _, _, ⟨rfl, fun _ => rfl, rfl, rfl⟩, rfl, by decide⟩
/-- A group with two tiles and one accumulator. -/
def tileBase : State := { base with cur := { base.cur with tiles := [⟨[], false, 0⟩, ⟨[], false, 0⟩], accs := [⟨[], false, 0⟩] } }
theorem witness_matrix_none : base.cur.hasMatrix (.azr 0) = false := by decide
theorem witness_matrix : ∃ u o bs, tileBase.cur.hasMatrix (.tld 1 2 false) = true ∧ tileBase.Commits false u ∧
   u.planMatrix (u.newOp .matrix (.tld 1 2 false) ((matrixRegs (.tld 1 2 false)).map fun r => (u.wreg r).val)) = some (o, bs) ∧ (u.queued o.core .matrix).length < 32 := 
  ⟨_, _, _, by decide, ⟨rfl, fun _ => rfl, rfl, rfl⟩, rfl, by decide⟩
theorem witness_snap : ∃ u, base.Free [1] ∧ base.Commits false u := ⟨_, rfl, ⟨rfl, fun _ => rfl, rfl, rfl⟩⟩
theorem witness_sropen : ∃ u, base.Commits false u ∧ u.routeTo ((u.wreg 1).val.extractLsb' 0 8) = true := ⟨_, ⟨rfl, fun _ => rfl, rfl, rfl⟩, rfl⟩
theorem witness_srjoin : ∃ u x p, base.Commits false u ∧ (u.wreg 3).val.toNat % 16 = 0 ∧ u.translate u.cur.xl (u.wreg 3).val.toNat .write = (x, .ok p) ∧ x.routeTo ((u.wreg 1).val.extractLsb' 16 8) = true :=
  ⟨_, _, _, ⟨rfl, fun _ => rfl, rfl, rfl⟩, by decide, rfl, rfl⟩
/-- Every port is down. -/
def cutOff : State := { base with ports := (List.range 30).map fun n => ⟨n, 4, false, 0, 0⟩ }
theorem witness_sropen_unreach : ∃ u, (cutOff.setVal 1 1).Commits false u ∧ u.routeTo ((u.wreg 1).val.extractLsb' 0 8) = false := ⟨_, ⟨rfl, fun _ => rfl, rfl, rfl⟩, by decide⟩
def aSlot : Slot := ⟨0, 1, true, 0x200, []⟩
def aJoin : SlotJoin := { id := 9, src := 0, asid := 0, core := 0, grp := 0, slot := 0, gen := 1, value := 0, recVa := 0 }
theorem witness_slot_join : ({ base with slots := [aSlot] } : State).slot? aJoin.slot = some aSlot ∧ aSlot.isOpen = true ∧ aSlot.gen = aJoin.gen ∧ aSlot.joins.length + 1 < bits aSlot.desc.toNat 8 9 := by decide
theorem witness_slot_last : bits (0x100#64).toNat 8 9 ≤ ([] : List SlotJoin).length + 1 := by decide
theorem witness_slot_none : base.slot? aJoin.slot = none := by decide
def aRequest (b : ReqBody) (a : BitVec 64) : Req := { id := 9, src := 1, dst := 0, asid := 2, gang := none, win := 1, byVa := false, addr := a, body := b }
/-- The group waits for the handle of the slot it asked for. -/
def openingBase : State :=
  { base with outReqs := [⟨aRequest (.slotOpen 0) 0, .slot 2, false, [], false⟩], cur := { base.cur with phase := .wait (.slot 5) } }
theorem witness_slot_answer : ∃ o g, openingBase.outReqs.find? (fun o => o.q.id == 9) = some o ∧ o.owner = .slot 2 ∧
    ({ openingBase with outReqs := [] } : State).group? 2 = some g ∧ g.phase = .wait (.slot 5) ∧ g.frame = none := ⟨_, _, rfl, rfl, rfl, rfl, rfl⟩
theorem witness_slot_land : ∃ o t p, ({ base with outReqs := [⟨aRequest (.slotJoin aJoin) 0, .slot 2, false, [], false⟩] } : State).outReqs.find? (fun o => o.q.id == 9) = some o ∧
    o.q.body = .slotJoin aJoin ∧ base.translate (base.frontXl o.q.asid) aJoin.recVa.toNat .write = (t, .ok p) := ⟨_, _, _, rfl, rfl, rfl⟩
theorem witness_shoot : base.cur.user = false ∧ base.Free [1, 2, 3] ∧ base.Clean [1, 2, 3] ∧ ∃ u, base.Commits false u := ⟨rfl, rfl, by unfold State.Clean; decide, _, ⟨rfl, fun _ => rfl, rfl, rfl⟩⟩
def aShoot : Shoot := { id := 7, asid := 0, whole := true, lo := 0, hi := 0, removed := [], acked := [] }
theorem witness_remove : (({ base with shoots := [aShoot] } : State).shoots.find? fun x => x.id == aShoot.id && !x.removed.contains 4) = some aShoot ∧ (∀ c ∈ base.cores, ∀ x ∈ c.l1, x.st ≠ .u) ∧ (∀ g ∈ base.groups, g.heldBy aShoot = false) := by decide
theorem witness_ack : (({ base with shoots := [{ aShoot with removed := [0], acked := [1, 2, 3, 4] }] } : State).shoots.find? fun x => x.id == 7 && ({ base with shoots := [{ aShoot with removed := [0], acked := [1, 2, 3, 4] }] } : State).canAck x 0) = some { aShoot with removed := [0], acked := [1, 2, 3, 4] } := by decide
theorem witness_ack_first : (({ base with shoots := [{ aShoot with removed := [0] }] } : State).shoots.find? fun x => x.id == 7 && ({ base with shoots := [{ aShoot with removed := [0] }] } : State).canAck x 0) = some { aShoot with removed := [0] } := by decide
/-- The 64 bytes of a CDR: its header, SHARES, and group 0 of die 0. -/
def cdrBytes (header shares : Nat) : List Byte := toBytes 4 header ++ toBytes 4 shares ++ toBytes 8 0 ++ toBytes 8 1 ++ List.replicate 40 0
/-- The entry of VC 3 in the VC table holds `bs`, w1 names VC 3. -/
def vcBase (bs : List Byte) : State := ({ base with dram := memWrite base.dram (base.vcTable + 192) bs } : State).setVal 1 3
/-- VC 3 is defined. -/
def vcLive (bs : List Byte) (p : VPhase) (pool : Bool) : State := { vcBase bs with vcs := base.vcs ++ [{ Vc.fixed 3 4 0 with phase := p, pool := pool, shares := [16000] }] }
theorem witness_vcdef_fixed : ∃ u, (base.setVal 1 255).cur.user = false ∧ (base.setVal 1 255).Free [1, 2] ∧ (base.setVal 1 255).Commits false u ∧ u.Clean [1] ∧ (u.wreg 1).val.toNat % 256 = 255 :=
  ⟨_, rfl, rfl, ⟨rfl, fun _ => rfl, rfl, rfl⟩, by unfold State.Clean; decide, by decide⟩
theorem witness_vcdef_change : ∃ u, (vcLive [] .move false).Commits false u ∧ (u.wreg 1).val.toNat % 256 = 3 ∧ underChange u 3 :=
  ⟨_, ⟨rfl, fun _ => rfl, rfl, rfl⟩, by decide, _, rfl, by decide, by decide⟩
/-- `s` after its chunk has committed. -/
def closed (s : State) : State := (s.beforeClose false).closeChunk.state
/-- What `vcdef` of VC 3 reads of its CDR. -/
def cdrRead (s : State) : State × List Byte × Option (BitVec 32) := (closed s).peekBytes ((closed s).vcTable + 64 * 3) 64
theorem cdr_reads (s : State) (bs : List Byte) (h : (cdrRead s).2 = (bs, none)) :
    (closed s).peekBytes ((closed s).vcTable + 64 * 3) 64 = ((cdrRead s).1, bs, none) := Prod.ext rfl h
theorem witness_vcdef_absent : ∃ u v bs, (vcBase []).Commits false u ∧ u.vcs.find? (fun c => c.id == 3) = none ∧ u.peekBytes (u.vcTable + 64 * 3) 64 = (v, bs, none) ∧ (Cdr.ofBytes bs).valid = false ∧ v.vcs.find? (fun x => x.id == 3) = none :=
  ⟨closed (vcBase []), _, List.replicate 64 0, ⟨rfl, fun _ => rfl, rfl, rfl⟩, by decide, cdr_reads _ _ (by decide +kernel), by decide, by decide +kernel⟩
theorem witness_vcdef_remove : ∃ u v bs old, (vcLive [] .stable false).Commits false u ∧ ¬underChange u 3 ∧ u.peekBytes (u.vcTable + 64 * 3) 64 = (v, bs, none) ∧ (Cdr.ofBytes bs).valid = false ∧ v.vcs.find? (fun x => x.id == 3) = some old ∧ old.phase ≠ .undefined :=
  ⟨closed (vcLive [] .stable false), _, List.replicate 64 0, { Vc.fixed 3 4 0 with shares := [16000] }, ⟨rfl, fun _ => rfl, rfl, rfl⟩,
    fun ⟨_, h, k, _⟩ => k (by injection h with h; rw [← h]), cdr_reads _ _ (by decide +kernel), by decide, by decide +kernel, by decide⟩
theorem witness_vcdef_illegal : ∃ u v bs, (vcBase (cdrBytes 1 0)).Commits false u ∧ u.peekBytes (u.vcTable + 64 * 3) 64 = (v, bs, none) ∧ (Cdr.ofBytes bs).valid = true ∧ (Cdr.ofBytes bs).legal = false :=
  ⟨closed (vcBase (cdrBytes 1 0)), _, cdrBytes 1 0, ⟨rfl, fun _ => rfl, rfl, rfl⟩, cdr_reads _ _ (by decide +kernel), by decide, by decide⟩
theorem witness_vcdef_incompat : ∃ u v bs old, (vcLive (cdrBytes 3 1) .stable false).Commits false u ∧ u.peekBytes (u.vcTable + 64 * 3) 64 = (v, bs, none) ∧ (Cdr.ofBytes bs).valid = true ∧ (Cdr.ofBytes bs).legal = true ∧ v.vcs.find? (fun x => x.id == 3) = some old ∧ old.incompat (Cdr.ofBytes bs) = true :=
  ⟨closed (vcLive (cdrBytes 3 1) .stable false), _, cdrBytes 3 1, { Vc.fixed 3 4 0 with shares := [16000] }, ⟨rfl, fun _ => rfl, rfl, rfl⟩,
    cdr_reads _ _ (by decide +kernel), by decide, by decide, by decide +kernel, by decide⟩
/-- One share in group 0 of die 0: it finds a place. All shares of the package in that group find none. -/
theorem witness_vcdef_place : (Cdr.ofBytes (cdrBytes 0x441 1)).valid = true ∧ (Cdr.ofBytes (cdrBytes 0x441 1)).legal = true ∧ (base.placeShares (Cdr.ofBytes (cdrBytes 0x441 1)) 1).isSome = true := by decide +kernel
theorem witness_vcdef_nospace : (Cdr.ofBytes (cdrBytes 0x441 65536)).legal = true ∧ base.placeShares (Cdr.ofBytes (cdrBytes 0x441 65536)) 65536 = none := by decide +kernel
theorem witness_vcdef_resize : ({ Vc.fixed 3 4 0 with shares := [15] } : Vc).incompat (Cdr.ofBytes (cdrBytes 0x441 1)) = false ∧ (Cdr.ofBytes (cdrBytes 0x441 1)).kept [15] = [15] := by decide +kernel
theorem witness_vcflush_none : ∃ u, (base.setVal 1 3).Commits false u ∧ u.Clean [1] ∧ (u.wreg 1).val.toNat % 256 = 3 ∧ u.vc? 3 = none :=
  ⟨_, ⟨rfl, fun _ => rfl, rfl, rfl⟩, by unfold State.Clean; decide, by decide, by decide⟩
theorem witness_vcflush_waits : ∃ u c, (vcLive [] .move false).Commits false u ∧ u.vc? 3 = some c ∧ c.phase ≠ .stable := ⟨_, _, ⟨rfl, fun _ => rfl, rfl, rfl⟩, rfl, by decide⟩
theorem witness_vcflush_cache : ∃ u c, (vcLive [] .stable false).Commits false u ∧ u.vc? 3 = some c ∧ c.phase = .stable ∧ c.pool = false := ⟨_, _, ⟨rfl, fun _ => rfl, rfl, rfl⟩, rfl, rfl, rfl⟩
theorem witness_vcflush_pool : ∃ u c, (vcLive [] .stable true).Commits false u ∧ u.vc? 3 = some c ∧ c.phase = .stable ∧ c.pool = true := ⟨_, _, ⟨rfl, fun _ => rfl, rfl, rfl⟩, rfl, rfl, rfl⟩
def dropping : State := { base with cur := { base.cur with region := { base.cur.region with pol := .drop } } }
theorem witness_cache_poison : ∃ u t, (withPoison dropping 1).Commits false u ∧ (u.wreg 1).poison = true ∧ ((u.liveControl (u.wreg 1).token).setW 2 (tokElem (u.wreg 1).token)).takeStop = .ok t :=
  ⟨_, _, ⟨rfl, fun _ => rfl, rfl, rfl⟩, rfl, rfl⟩
theorem witness_cache_poison_stops : ∃ u t, (withPoison base 1).Commits false u ∧ (u.wreg 1).poison = true ∧ ((u.liveControl (u.wreg 1).token).setW 2 (tokElem (u.wreg 1).token)).takeStop = .stopped t :=
  ⟨_, _, ⟨rfl, fun _ => rfl, rfl, rfl⟩, rfl, rfl⟩
theorem witness_stset : ∃ u w gen, base.Commits false u ∧ scratchAddr (u.wreg 1).val % 8 = 0 ∧ u.team.inside 0 128 = true ∧ 0 < shardCount u.cur.sysr.stbase ∧ u.team.firstPoison 0 128 = none ∧
   u.installShard u.cur.core u.cur.sysr.asid u.cur.sysr.stbase 0 (memBytes u.team.scratch 0 128) false = (w, gen) :=
  ⟨_, _, _, ⟨rfl, fun _ => rfl, rfl, rfl⟩, by decide, by decide, by decide, rfl, rfl⟩
theorem witness_stset_done : ({ base with cur := { base.cur with phase := .wait (.stset 5 0 0 3) } } : State).shardBusy 0 0 3 = false := by decide
def movingVc (p : VPhase) : State := { base with vcs := [{ Vc.fixed 3 4 0 with phase := p }] }
theorem witness_vc_claim : (movingVc .claim).vc? 3 = some { Vc.fixed 3 4 0 with phase := .claim } := by decide
theorem witness_vc_move : (movingVc .move).vcMoves { Vc.fixed 3 4 0 with phase := .move } = [] := by decide
/-- A cached line of a pool in share 2. -/
def aLine (l : Nat) : BLine :=
  { line := poolBase + 3 * 0x4000000 + l, vc := 3, share := 2, ways := 16, st := .s, dirty := false, data := [], token := 0, wts := 0, rts := 0, uset := [], prot := 0, last := 0 }
def movedPool : Vc := { Vc.fixed 3 4 0 with phase := .move, pool := true, shares := [5] }
theorem witness_vc_line : ({ movingVc .move with bank := [aLine 1023], vcs := [movedPool] } : State).bank? (aLine 1023).line = some (aLine 1023) ∧
   ({ movingVc .move with bank := [aLine 1023], vcs := [movedPool] } : State).wantsMove movedPool (aLine 1023) = true ∧ poolLine (aLine 1023).line * 128 < movedPool.poolSize := by decide
theorem witness_vc_line_past : ({ movingVc .move with bank := [aLine 1024], vcs := [movedPool] } : State).wantsMove movedPool (aLine 1024) = true ∧ movedPool.poolSize ≤ poolLine (aLine 1024).line * 128 := by decide
theorem witness_retire : base.badShares.contains 0 = false ∧ ∃ c, base.vcs.find? (fun c => c.id == base.holderOf 0) = some c ∧ c.pool = false := ⟨rfl, _, rfl, rfl⟩
def aBlock : LBlock := { start := 0, nruns := 1, lpc := 0, left := 1, caps := [], dests := [], sig := 0, unchecked := false }
/-- One block of one word waits in the lane queue. -/
def blockBase : State := let s := withBytes (laneBytes iaddWord)
  { s with cur := { s.cur with regs := { s.cur.regs with laneq := [aBlock] } } }
theorem witness_run : ∃ g v m ds after b bs, blockBase.choose blockBase.cur.core = some g ∧ ((blockBase.decided g.core g.key).focus g.key).checkNext = (v, .ok m ds false after) ∧ v.cur.regs.laneq = b :: bs :=
  ⟨_, _, _, _, _, _, _, rfl, rfl, rfl⟩
/-- A word with a reserved OP. -/
def badBlock : State := let s := withBytes (laneBytes (0b1#1 ++ 0b0#1 ++ 0b1111111111#10 ++ 0#84))
  { s with cur := { s.cur with regs := { s.cur.regs with laneq := [aBlock] } } }
theorem witness_bad_run : ∃ g v i, badBlock.choose badBlock.cur.core = some g ∧ ((badBlock.decided g.core g.key).focus g.key).checkNext = (v, .illegal i) := ⟨_, _, _, rfl, rfl⟩
theorem witness_no_run : base.choose base.cur.core = none := by decide
def closingBase : State := { base with cur := { base.cur with chunk := { base.cur.chunk with closing := some .limit } } }
theorem witness_close : (closingBase.group? 2).isSome = true ∧ ∃ u why, closingBase.focus 2 = u ∧ u.cur.freads = [] ∧ u.cur.run = none ∧ u.cur.chunk.committing = false ∧ (u.cur.chunk.closing <|> u.mustClose) = some why ∧ u.cur.anyUnchecked = false ∧ u.cur.chunk.live = [] ∧ u.arbiters u.cur.chunk = [] :=
  ⟨rfl, _, _, rfl, rfl, rfl, rfl, rfl, rfl, rfl, rfl⟩
def anEntry : QEntry := { line := .scr 1 0, va := 0, ops := [.st [(0, 1)]], poison := none, vc := 0, r := true, w := true, u := false, hint := 0, lpc := 0 }
def storingBase : State := { closingBase with cur := { closingBase.cur with chunk := { closingBase.cur.chunk with quar := [anEntry] } } }
theorem witness_close_arbiter : ∃ u a as, storingBase.focus 2 = u ∧ u.arbiters u.cur.chunk = a :: as := ⟨_, _, _, rfl, rfl⟩
def admittingBase (as : List Nat) : State := { storingBase with cur := { storingBase.cur with chunk := { storingBase.cur.chunk with committing := true, pend := as } } }
theorem witness_admit : ∃ u, (admittingBase [256]).focus 2 = u ∧ u.cur.chunk.committing = true ∧ u.cur.chunk.pend = [256] ∧ u.blockedBy (some 256) = none ∧ u.admittedClash (some 256) = false ∧ u.queuedBefore 256 u.cur.chunk.arrive = false := ⟨_, rfl, rfl, rfl, rfl, by decide, by decide⟩
theorem witness_admit_more : ∃ u, (admittingBase [0, 256]).focus 2 = u ∧ u.cur.chunk.committing = true ∧ u.cur.chunk.pend = [0, 256] ∧ u.blockedBy (some 0) = none ∧ u.admittedClash (some 0) = false ∧ u.queuedBefore 0 u.cur.chunk.arrive = false := ⟨_, rfl, rfl, rfl, rfl, by decide, by decide⟩
/-- An older group holds a reservation on the line that the chunk writes, and the chunk holds one too. -/
def reservedBase : State := let s := admittingBase [0]
  { s with cur := { s.cur with reserve := some 5 }, rest := [{ fetchGroup with key := 9 }], reserved := [⟨.scr 1 0, 9, 0⟩] }
theorem witness_admit_squash : ∃ u t mine, reservedBase.focus 2 = u ∧ u.cur.chunk.committing = true ∧ u.cur.chunk.pend = [0] ∧ u.blockedBy (some 0) = some t ∧ u.cur.reserve = some mine ∧ t < u.cur.ageKey mine :=
  ⟨_, 9, 5, rfl, rfl, rfl, by decide, rfl, by decide⟩
def inPhase (p : Phase) : State := { base with cur := { base.cur with phase := p } }
theorem witness_group_stop : ∃ g, (inPhase .ending).group? 2 = some g ∧ g.phase = .ending ∧ (g.run.map RunSt.stop).getD true = true ∧ g.chunk.committing = false := ⟨_, rfl, rfl, rfl, rfl⟩
theorem witness_replay : ∃ g, (inPhase (.parked (.replay false [] []))).group? 2 = some g ∧ (inPhase (.parked (.replay false [] []))).serviced g = true ∧ (inPhase (.parked (.replay false [] []))).activeTeam g.teamKey = true := ⟨_, rfl, by decide, by decide⟩
theorem witness_fetch : ∃ g, (inPhase (.parked (.fetch false 0))).group? 2 = some g ∧ (inPhase (.parked (.fetch false 0))).serviced g = true := ⟨_, rfl, by decide⟩
def gapBase : State := { base with clock := 20480, cur := { base.cur with checked := true, chunk := { base.cur.chunk with begun := true }, regs := { base.cur.regs with unchecked := true } } }
theorem witness_gap : ∃ u, gapBase.focus 2 = u ∧ u.cur.anyUnchecked = true ∧ u.cur.inRun = false ∧ u.cur.chunk.committing = false ∧ u.cur.chunk.begun = true ∧ Config.chunkClocks + 4096 ≤ u.clock - u.cur.chunk.clock0 := ⟨_, rfl, by decide, rfl, rfl, rfl, by decide⟩
def aReq : LReq := ⟨0, 0, true, true, true, 64, 0, 0, 0⟩
def aCore : Core := { Core.idle 0 with reqs := [aReq], replies := [⟨aReq, none, [], 5, 9⟩] }
def lineBase : State := { base with cores := [aCore] }
theorem witness_line_request : ∃ v g, (lineBase.coreAt 0).reqs = [aReq] ∧ (lineBase.onCore 0 fun c => { c with reqs := [] }).grant 0 aReq.asid aReq.line aReq.vc aReq.hint = (v, .ok g) := ⟨_, _, rfl, rfl⟩
theorem witness_fill : (lineBase.coreAt 0).replies = [⟨aReq, none, [], 5, 9⟩] ∧ ((lineBase.onCore 0 fun c => { c with replies := [] }).coreAt 0).uCopy? 64 = none := ⟨rfl, rfl⟩
def bankLine (st : BSt) : BLine := { line := 64, vc := 0, share := 1, ways := 16, st := st, dirty := st == .m, data := [], token := 0, wts := 0, rts := 0, uset := [], prot := 0, last := 0 }
theorem witness_snoop : (({ base with bank := [bankLine .m], filters := [⟨0, 1, 2, 1⟩] } : State).filters.any fun f => f.peer == 1 && f.region == 64 / 32 && f.mask.getLsbD (64 % 32)) = true ∧ (({ base with bank := [bankLine .m], filters := [⟨0, 1, 2, 1⟩] } : State).fold 64).bank? 64 = some (bankLine .m) ∧ isPool 64 = false := by decide
theorem witness_scrub : ({ base with ue := [64] } : State).soft = [] ∧ ({ base with ue := [64] } : State).bank? 64 = none := by decide
theorem witness_scrub_copy : ({ base with ue := [64], bank := [bankLine .s] } : State).bank? 64 = some (bankLine .s) := by decide
theorem witness_port : (29 : Nat) < 30 ∧ ({ base with ports := [⟨29, 3, true, 0, 1⟩] } : State).ports = [⟨29, 3, true, 0, 1⟩] := by decide
def aWindow : Window := { n := 1, valid := true, r := true, w := true, a := true, host := false, asid := 2, base := 0x10000, size := 65536, peers := BitVec.allOnes 256, target := 0, origin := 0, ctime := 0 }
def windowBase : State := { base with dram := memWrite base.dram 0x1000 (toBytes 8 0x13F), ctxs := [⟨2, 0, 0, 0, 2, true, false, false⟩], windows := [aWindow] }
theorem witness_fabric_read : ∃ t p u bs, served windowBase t (aRequest (.read 8) 65528) aWindow 0x1FFF8 p ∧ t.peekBytes p.pa 8 = (u, bs, none) := ⟨_, _, _, _, ⟨rfl, rfl, rfl, rfl, rfl, rfl⟩, rfl⟩
theorem witness_put : ∃ t p u time, served windowBase t (aRequest (.put [(0, 1)] none) 0) aWindow 0x10000 p ∧ t.lineHeld none (.mem (p.pa / 128)) = false ∧ t.engineWrite none (p.pa / 128) p.vc [(0, 1)] none = (u, time) ∧ u.lineX (p.pa / 128) = none := ⟨_, _, _, _, ⟨rfl, rfl, rfl, rfl, rfl, rfl⟩, rfl, rfl, rfl⟩
/-- The line of the window's first byte is poisoned. -/
theorem witness_put_x : ∃ t p u time k, served { windowBase with synd := [0x200] } t (aRequest (.put [(0, 1)] none) 0) aWindow 0x10000 p ∧ t.lineHeld none (.mem (p.pa / 128)) = false ∧ t.engineWrite none (p.pa / 128) p.vc [(0, 1)] none = (u, time) ∧ u.lineX (p.pa / 128) = some k := ⟨_, _, _, _, _, ⟨rfl, rfl, rfl, rfl, rfl, rfl⟩, rfl, rfl, rfl⟩
/-- A group holds a reservation on that line. -/
theorem witness_put_held : ∃ t p, served { windowBase with reserved := [⟨.mem 0x200, 2, 0⟩] } t (aRequest (.put [(0, 1)] none) 0) aWindow 0x10000 p ∧ t.lineHeld none (.mem (p.pa / 128)) = true := ⟨_, _, ⟨rfl, rfl, rfl, rfl, rfl, rfl⟩, by decide⟩
theorem witness_pass_on : ({ aRequest (.read 8) 0 with dst := 5 } : Req).dst ≠ windowBase.chip := by decide
theorem witness_remote_atomic : ∃ t p u d, served windowBase t (aRequest (.atomic 0 .n32 1 0) 0) aWindow 0x10000 p ∧ t.lineHeld none (.mem (p.pa / 128)) = false ∧ (t.countRmw (p.pa / 128) p.vc).rmwRead (p.pa / 128) p.vc = (u, ⟨d, none⟩) := ⟨_, _, _, _, ⟨rfl, rfl, rfl, rfl, rfl, rfl⟩, rfl, rfl⟩
theorem witness_remote_red : ∃ t p u, served windowBase t (aRequest (.red 0 .n32 [(0, 1)]) 0) aWindow 0x10000 p ∧ t.lineHeld none (.mem (p.pa / 128)) = false ∧ t.reduceAt (p.pa / 128) p.vc 0 .n32 [(0, 1)] (t.nextTime (p.pa / 128) p.vc) = (u, none) := ⟨_, _, _, ⟨rfl, rfl, rfl, rfl, rfl, rfl⟩, rfl, rfl⟩
theorem witness_perm : (aRequest (.read 8) 65536).gang = none ∧ windowBase.window? 1 = some aWindow ∧ windowVa aWindow (aRequest (.read 8) 65536) = none := by decide
def aWrite : OutReq := ⟨aRequest (.put [] none) 0, .write [2] 1 2, false, [], false⟩
theorem witness_put_ack : ({ base with outReqs := [aWrite] } : State).outReqs.find? (fun o => o.q.id == 9) = some aWrite ∧ aWrite.owner = .write [2] 1 2 := by decide
def aLoad : OutReq := ⟨aRequest (.read 8) 0, .load 2, false, [], false⟩
def loadingBase : State := { base with outReqs := [aLoad], cur := { base.cur with phase := .wait (.rload 9 5 0) } }
theorem witness_read_response : loadingBase.outReqs.find? (fun o => o.q.id == 9) = some aLoad ∧ aLoad.owner = .load 2 ∧ aLoad.q.body = .read 8 ∧ loadingBase.cur.key = 2 ∧ loadingBase.cur.freads = [] ∧ loadingBase.cur.phase = .wait (.rload 9 5 0) ∧ (loadingBase.group? 2).isSome = true := by decide
def aFRead : FRead := { id := 9, keep := true, both := false, lat := true, lpc := 0, reg := 5, ws := false, dl := 0, lane := 0, ty := .n32, size := 4, va := 0 }
theorem witness_atomic_response : ({ base with outReqs := [⟨aRequest (.atomic 0 .n32 0 0) 0, .load 2, false, [], false⟩], cur := { base.cur with freads := [aFRead] } } : State).cur.freads = [aFRead] ∧ aFRead.id = 9 := by decide
theorem witness_response_none : base.outReqs.find? (fun o => o.q.id == 9) = none := rfl
theorem witness_hold : (aRequest (.read 8) 0).id = 9 ∧ (aRequest (.read 8) 0).src ≠ base.chip := by decide
theorem witness_retry : ({ base with outReqs := [{ aWrite with waiting := true }] } : State).outReqs = [{ aWrite with waiting := true }] ∧ aWrite.q.id = 9 := by decide
def aWcb : Wcb := { asid := 2, chip := 1, win := 1, line := 0, bytes := [(0, 1)], gang := none, gkeys := [2] }
theorem witness_wcb : (({ base with cores := [{ Core.idle 0 with wcb := [aWcb] }] } : State).coreAt 0).wcb[0]? = some aWcb := by decide
def aRec : LaunchRec := LaunchRec.ofBytes record
def aLaunch : Launch := { lid := 1, asid := 2, lrec := aRec, prio := 0, arrival := 3, nextGang := 0, passed := 0, started := false, counted := 0, origin := 0, olid := 1, stop := none, staged := 0, time := 0 }
def idleBase : State := { ctxBase with cur := Group.blank, rest := [], teams := [] }
theorem witness_admit_gang : ∃ t, ({ idleBase with launches := [aLaunch] } : State).admitGang = some t := ⟨_, rfl⟩
/-- A team of that launch that is placed on core 0 and has not started. -/
def newTeamHere : Team := { fetchTeam with key := 5, lid := 1, asid := 2, active := false, started := false, since := none, scrSize := 0 }
def waitingBase : State := { idleBase with launches := [{ aLaunch with started := true, nextGang := 1 }], teams := [newTeamHere] }
theorem witness_activate : waitingBase.team? 5 = some newTeamHere ∧ waitingBase.canActivate newTeamHere = true := by decide
def leavingBase : State := { base with teams := [{ fetchTeam with leaving := true }] }
theorem witness_preempt : ∃ g x, leavingBase.group? 2 = some g ∧ leavingBase.team? g.teamKey = some x ∧ x.leaving = true ∧ x.endSt = none := ⟨_, _, rfl, rfl, rfl, rfl⟩
/-- A parked active team and one that waits for its core. -/
def twoTeams : State := { waitingBase with cur := { base.cur with phase := .parked (.counter 0 1 0) }, teams := [fetchTeam, newTeamHere] }
theorem witness_parked_team : ∃ x, twoTeams.team? 1 = some x ∧ x.active = true ∧ x.leaving = false ∧ x.endSt = none ∧ (twoTeams.groupsOf 1).all Group.longParked = true ∧ twoTeams.teams.any (fun u => u.key != 1 && u.meets x && twoTeams.teamWaits u) = true :=
  ⟨_, rfl, rfl, rfl, rfl, by decide, by decide⟩
theorem witness_quantum : ∃ v vs, twoTeams.teamWaits newTeamHere = true ∧ sortBy (fun u => u.prio.toNat * 2 ^ 64 + u.activated) (twoTeams.teams.filter fun u => u.active && !u.leaving && u.endSt.isNone && u.meets newTeamHere && u.prio.ule newTeamHere.prio) = v :: vs :=
  ⟨_, _, by decide, rfl⟩
/-- The team has ended, its record lies at 0x3000. -/
def endedTeam : Team := { fetchTeam with lid := 1, asid := 2, endSt := some ⟨0, 0, 0, 0⟩ }
def endedBase : State := { ctxBase with cur := { base.cur with phase := .ended }, teams := [endedTeam], launches := [{ aLaunch with lrec := { aRec with crec := 0x3000 } }] }
theorem witness_team_complete : ∃ l t u p time, endedBase.team? 1 = some endedTeam ∧ endedBase.teamDone endedTeam = true ∧ endedBase.launch? 1 = some l ∧ teamEnded endedBase t u l endedTeam ⟨0, 0, 0, 0⟩ p time :=
  ⟨_, _, _, _, _, rfl, by decide, rfl, rfl, by decide, rfl, rfl⟩
def aGang : GangSt := ⟨1, 2, [1], [1], false⟩
theorem witness_gang : ({ base with gangs := [aGang] } : State).gangs = [aGang] ∧ aGang.lid = 1 ∧ aGang.aborted = false ∧ (1 : BitVec 8) ≠ base.chip := by decide
theorem witness_resume : ∃ t, (inPhase (.parked .brk)).cur.phase = .parked .brk ∧ (inPhase (.parked .brk)).team? (inPhase (.parked .brk)).cur.teamKey = some t ∧ t.asid = 0 ∧ (inPhase (.parked .brk)).activeTeam (inPhase (.parked .brk)).cur.teamKey = true ∧ (inPhase (.parked .brk)).dev = .running :=
  ⟨_, rfl, rfl, rfl, by decide, rfl⟩
theorem witness_resume_inactive : ({ inPhase (.parked .sysc) with teams := [{ fetchTeam with active := false }] } : State).activeTeam 1 = false := by decide
theorem witness_withdraw : ({ ctxBase with launches := [aLaunch] } : State).launches = [aLaunch] ∧ aLaunch.asid = 2 ∧ aLaunch.lid = 1 ∧ (ctxBase.ctx? 2).isSome = true := by decide
theorem witness_ctxcreate : base.dev = .running ∧ (65535 : BitVec 16) ≠ 0 ∧ base.ctx? 65535 = none ∧ 2 ≤ (2#16).toNat := by decide
theorem witness_ctxdestroy : ∃ x, ctxBase.ctx? 2 = some x ∧ ctxBase.launches.any (fun l => l.asid == 2) = false ∧ ctxBase.teams.any (fun t => t.asid == 2) = false := ⟨_, rfl, by decide, by decide⟩
theorem witness_winset : ∃ w, base.windows.find? (fun w => w.n == 4095) = none ∧ Window.of 4095 (List.replicate 64 0) 0 0 0 = w ∧ w.valid = false ∧ base.missed.any (fun m => m.q.win == 4095) = false := ⟨_, rfl, rfl, rfl, rfl⟩
def aBringUp (ok : Bool) : BringUp := { selfTestOk := ok, dieLinksOk := true, hbmOk := true, channels := List.replicate 16 0x400000000, badShares := [], badCores := [], ports := [], frames := [], etherGbps := 1600, etherAddr := 0, chip := 0, rows := 16, cols := 16, cool := true }
theorem witness_retest : (base.dev ≠ .closing ∧ base.ctxs = [] ∧ (base.hot = true → (aBringUp true).cool = true)) ∧ ({ base with dev := .off } : State).dev = .off ∧ base.launches.any Launch.started = false ∧ base.lostDies.contains 3 = false := by decide
theorem witness_pin : frameRange 0x10000 0x10000 = true ∧ base.corePinned.any (fun r => meets r (0x10000, 0x10000)) = false := by decide
/-- The page at 0 has this entry. -/
def pageBase (pte : Nat) : State := { ctxBase with dram := memWrite (memWrite [] 0 (toBytes 8 0x20001F)) 0x200000 (toBytes 8 pte) }
theorem witness_migrate : ∃ fs, (pageBase 0x400000003F).liveCtx 2 = true ∧ ctxBase.ddrCap ≠ 0 ∧ (pageBase 0x400000003F).pagesFrom 2 1 0 = some fs ∧
    fs.any (fun f => (pageBase 0x400000003F).isPinned f.frame f.size || (pageBase 0x400000003F).inRunning f || (pageBase 0x400000003F).movesPage 2 f.va) = false :=
  ⟨_, rfl, by decide, rfl, by decide⟩
/-- Its page stands in the DDR-5 tier and is not present. -/
def ddrBase : State := pageBase 0x1000000007E
def aMove : MigReq := ⟨.demand, 2, 0, 0, 0, (0, 0)⟩
def ddrLeaf : Leaf := ⟨2, 0, 0x40000000, 0x200000, 0x1000000007E⟩
theorem witness_migration_start : ddrBase.leaf? 2 0 = some ddrLeaf ∧ ddrLeaf.tier = 1 ∧ ddrLeaf.present = false ∧ ddrBase.isPinned ddrLeaf.frame ddrLeaf.size = false ∧
    ddrBase.inRunning ddrLeaf = false ∧ ddrBase.frameThere ddrLeaf = true ∧ ddrBase.frameLost ddrLeaf.frame = false ∧ ddrBase.migrations = [] ∧ (ddrBase.freeFrame 0 0 ddrLeaf.size).isSome = true := by decide +kernel
def aMigration : Migration := { id := 8, q := aMove, pte := 0x1000, size := 65536, src := 0, dst := 65536, srcTier := 1, switching := true, marked := [], shoot := none }
theorem witness_migration : ({ ctxBase with migrations := [aMigration] } : State).migrations = [aMigration] ∧ ({ ctxBase with migrations := [aMigration] } : State).moveReady aMigration = true ∧ ({ aMigration with switching := false } : Migration).switching = false := by decide
def issuing (i : Instr) : State := inPhase (.wait (.issue i 0x2000))
theorem witness_issue : ∃ t, ((issuing (.cpy true 0 1 10 11)).setVal 1 0x100001000080).issueCopy (.cpy true 0 1 10 11) = some t := ⟨_, rfl⟩
theorem witness_issue_matrix : ∃ t, State.issueMatrix (.tld 1 2 false) ({ tileBase with cur := { tileBase.cur with phase := .wait (.issue (.tld 1 2 false) 0x2000) } } : State) = some t := ⟨_, rfl⟩
def copyOp : EngOp := base.newOp .copy (.cpy false 0 1 10 11) [0x100001000080]
def copyBase : State := { base with ops := [copyOp], nextKey := 4 }
theorem witness_copy_line : ∃ seg a t p f, copyBase.op? 3 = some copyOp ∧ (copyBase.movingCopies 0).any (fun p => p.id == 3) = true ∧ copyBase.copySeg copyOp = some seg ∧ copyOp.failed.contains (pieceId seg.piece) = false ∧ seg.tok = none ∧ seg.src = .mem a ∧ copyBase.engRead copyOp a seg.n (copyHint copyOp.instr) = (t, p, .ok f) :=
  ⟨_, _, _, _, _, rfl, by decide, rfl, by decide, rfl, rfl, rfl⟩
def storeOp : EngOp := base.newOp .copy (.cpy true 0 1 10 11) [0x100001000080]
def storeBase : State := { base with ops := [storeOp], nextKey := 4 }
theorem witness_copy_store : ∃ seg a t p f, storeBase.op? 3 = some storeOp ∧ storeBase.copySeg storeOp = some seg ∧ storeOp.failed.contains (pieceId seg.piece) = false ∧ seg.tok = none ∧ seg.src = .scr a ∧ storeBase.engScrRead storeOp a seg.n = (t, p, f) :=
  ⟨_, _, _, _, _, rfl, rfl, by decide, rfl, rfl, rfl⟩
theorem witness_copy_end : ({ base with ops := [{ copyOp with pos := 4096 }] } : State).copySeg { copyOp with pos := 4096 } = none := by decide
theorem witness_copy_resume : ({ copyOp with suspended := some 0 } : EngOp).suspended = some 0 ∧ base.migrating 0 0 = false := by decide
def azrOp : EngOp := tileBase.newOp .matrix (.azr 0) []
theorem witness_matrix_start : ∃ p, ({ tileBase with ops := [azrOp] } : State).nextMatrix 0 (matrixUnit (.azr 0)) = some p ∧ p.id = 3 := ⟨_, rfl, rfl⟩
theorem witness_matrix_end : ({ azrOp with active := true } : EngOp).eng = .matrix ∧ ({ azrOp with active := true } : EngOp).suspended = none ∧ azrOp.instr = .azr 0 := by decide
def netOp1 : EngOp := base.newOp .network (.nread 1) []
theorem witness_net_local : ({ base with ops := [{ netOp1 with pos := 1 }] } : State).op? 3 = some { netOp1 with pos := 1 } ∧ netOp1.eng = .network ∧ netOp1.suspended = none := by decide
def aPend : NetPend := { op := 3, gkey := 2, kind := 1, asid := 0, cntr := 0, left := [7], ctime := 0 }
theorem witness_work_done : ({ base with netPend := [aPend], counters := [⟨0, some 0, 0, 0⟩] } : State).netPend.find? (fun q => q.op == 3) = some aPend ∧ ({ base with netPend := [aPend], counters := [⟨0, some 0, 0, 0⟩] } : State).ownsNet 0 0 = true := by decide
def aPacket : UetPkt := { src := 1, dst := 0, host := false, srcAsid := 2, res := 4, flow := ⟨0, 0⟩, seq := 7, opId := 3, kind := 1, ord := false, rod := 0, tag := 0, rkey := 0, roff := 0, total := 1, off := 0, len := 1, bytes := [(0, 1)], x := [] }
def aMessage : URx := { src := 1, srcAsid := 2, opId := 3, kind := 1, asid := 2, laddr := 0x3000, room := 1, cntr := none, win := none, op := none, got := [], bytes := 0, ctime := 0, bad := false, done := false }
def receiving : State := { ctxBase with urx := [aMessage] }
theorem witness_packet : ∃ t ps u time, receiving.rx? aPacket = some aMessage ∧ (aMessage.done || aMessage.got.contains 0) = false ∧ receiving.xlateSegs (receiving.frontXl 2) .write 0x3000 (lineSegs 0x3000 1) = (t, .ok ps) ∧ t.commitSegs ps aPacket.bytes (fun o n => (markOf aPacket.x o n).map bareToken) = (u, time) :=
  ⟨_, _, _, _, rfl, by decide, rfl, rfl⟩
theorem witness_packet_again : ({ receiving with urx := [{ aMessage with got := [0] }] } : State).rx? aPacket = some { aMessage with got := [0] } := by decide
def aTx : UTx := ⟨0, ⟨0, 0⟩, aPacket, 8, 0⟩
theorem witness_uet_ack : ({ base with utx := [aTx], netPend := [aPend] } : State).utx = [aTx] ∧ aTx.pkt.kind ≠ 4 ∧ aPend.op = aTx.pkt.opId ∧ aPend.left = [aTx.pkt.seq] ∧ 8 ≤ aTx.retries := by decide
def aLop : LOp := ⟨true, none, ⟨false, 0, 5⟩, .vec 1 .none, .vec 2 .none, .vec 3 .none, 0, .n32, 0, 0, none⟩
/-- A run is in flight at the block's word. -/
def laneBase : State := { blockBase with cur := { blockBase.cur with run := some aRun } }
theorem witness_lane : laneBase.cur.guardPoison aLop.guard = 0 ∧ laneBase.Fresh aLop (formOf (.iadd aLop)) := ⟨by decide, by unfold State.Fresh; decide⟩
theorem witness_lane_next : ∃ t, exec (.iadd aLop) laneBase = .next t := ⟨_, rfl⟩
theorem witness_quant : laneBase.cur.shadow = false ∧ ∀ l ∈ laneBase.laneIns { aLop with ty := .f32 } (formOf (.qblk { aLop with ty := .f32 })), l.lane < laneBase.cur.width := by decide
theorem witness_guard : ({ laneBase with cur := { laneBase.cur with regs := { laneBase.cur.regs with p := laneBase.cur.regs.p.set 15 ⟨0, 1, 0x06000001⟩ } } } : State).cur.guardPoison (some ⟨false, 15⟩) ≠ 0 := by decide
def masked (m : List MaskEntry) : State := { laneBase with cur := { laneBase.cur with regs := { laneBase.cur.regs with mask := m } } }
theorem witness_mif : (masked (List.replicate 31 ⟨0, 0⟩)).cur.regs.mask.length < 32 ∧ laneBase.cur.condDiffers 0 = false ∧ laneBase.cur.condPoison 0 = 0 := by decide
theorem witness_melse : (masked [⟨0xFFFF, 0⟩]).cur.regs.mask = [] ++ [⟨0xFFFF, 0⟩] ∧ 0#64 &&& (masked [⟨0xFFFF, 0⟩]).cur.regs.exm = 0 := by decide
theorem witness_mend : (masked [⟨0xFFFF, 0⟩]).cur.regs.exm ||| 0 = 0xFFFF#64 := by decide
theorem witness_mget : maskK aLop < (masked [⟨0xFFFF, 0⟩]).cur.regs.mask.length := by decide
theorem witness_mput : (laneBase.cur.regs.captured 0).poison = false ∧ laneBase.cur.skipped = 0 ∧ (masked [⟨0, 0⟩]).cur.regs.mask ≠ [] := by decide
theorem witness_mbrk : ((masked [⟨0xFFFF, 0⟩]).cur.regs.mbrk 0 ((masked [⟨0xFFFF, 0⟩]).cur.condMask 0 false)).2 = true := by decide
theorem witness_lsig : ({ laneBase with cur := { laneBase.cur with checked := true } } : State).cur.regs.laneq = [aBlock] ∧ aBlock.sig.extractLsb' 0 24 = 0 := by decide
theorem witness_store_pair : laneBase.cur.pairDiffers aLop (formOf (.st aLop)) (some ea64) = false ∧ laneBase.cur.stxDiffers aLop = false := by decide
def aLane (a : Nat) : LaneIn := ⟨0, .ok a, .ok 0, .ok 1⟩
theorem witness_ld : ∃ u bs, (aLane 0x3FFFFFFC).token = none ∧ laneBase.loadVa (ea64 0x3FFFFFFC 0) (Machine.sizeOf aLop) (hintOf aLop) = (u, .bytes bs) := ⟨_, _, rfl, rfl⟩
theorem witness_ld_bad : ∃ u c, laneBase.loadVa (ea64 0x40000000 0) (Machine.sizeOf aLop) (hintOf aLop) = (u, .bad c) := ⟨_, _, rfl⟩
theorem witness_lds : ∃ u bs, laneBase.scratchLoad (ea32 65532 0) (Machine.sizeOf aLop) = (u, .ok bs) := ⟨_, _, rfl⟩
theorem witness_st : ∃ u id vc, laneBase.storeVa (ea64 0 0) (Machine.sizeOf aLop) .write = (u, .ok (id, vc)) := ⟨_, _, _, rfl⟩
theorem witness_st_bad : ∃ u c, laneBase.storeVa (ea64 0x40000000 0) (Machine.sizeOf aLop) .write = (u, .error c) := ⟨_, _, rfl⟩
theorem witness_sts : laneBase.scratchCheck (ea32 65532 0) (Machine.sizeOf aLop) = .ok () := rfl
theorem witness_atom : ∃ c as, laneBase.cur.pairDiffers aLop (formOf (.atoms aLop)) none = false ∧ laneBase.atomChecks aLop (formOf (.atoms aLop)) true 0 [0] = (c, as) ∧ c.cur.chunk.live = [] := ⟨_, _, by decide, rfl, rfl⟩
theorem witness_atom_line : ∃ u cp, (laneBase.countRmw 100 0).rmwRead 100 0 = (u, cp) ∧ cp.x = none := ⟨_, _, rfl, rfl⟩
/-- `n` operations of an engine in the queue of core 0. -/
def queueOf (e : Engine) (i : Instr) (n : Nat) : State := { base with ops := List.replicate n (base.newOp e i []) }
theorem witness_copy_held : ∃ u v o bs, ((queueOf .copy (.cpy true 0 1 10 11) 32).setVal 1 0x100001000080).Commits false u ∧
    copyPlan u (.cpy true 0 1 10 11) = (v, .ok (o, bs)) ∧ 32 ≤ (v.queued o.core .copy).length :=
  ⟨_, _, _, _, ⟨rfl, fun _ => rfl, rfl, rfl⟩, rfl, by decide⟩
theorem witness_matrix_held : ∃ u o bs, ({ tileBase with ops := List.replicate 32 (base.newOp .matrix (.azr 0) []) } : State).Commits false u ∧
    u.planMatrix (u.newOp .matrix (.tld 1 2 false) ((matrixRegs (.tld 1 2 false)).map fun r => (u.wreg r).val)) = some (o, bs) ∧
    32 ≤ (u.queued o.core .matrix).length :=
  ⟨_, _, _, ⟨rfl, fun _ => rfl, rfl, rfl⟩, rfl, by decide⟩
theorem witness_net_held : ∃ u, (queueOf .network (.nsend 1) 64).Commits false u ∧ 64 ≤ (u.queued u.cur.core .network).length :=
  ⟨_, ⟨rfl, fun _ => rfl, rfl, rfl⟩, by decide⟩
theorem witness_launch_full : ({ base with launches := List.replicate 256 { aLaunch with asid := 0 } } : State).queueFull 0 0 = true := by decide +kernel
theorem witness_fence_waits : ∃ u, (queueOf .copy (.cpy true 0 1 10 11) 1).Commits true u ∧ u.engineBusy u.cur.key = true ∧
    ((u.drainAll u.cur.core).engineBusy (u.drainAll u.cur.core).cur.key || (u.drainAll u.cur.core).remoteBusy (u.drainAll u.cur.core).cur.key) = true :=
  ⟨_, ⟨rfl, fun _ => rfl, rfl, rfl⟩, by decide, by decide⟩
/-- A work request of a kind lies at scratch address 0; counter 0 and peer 0 belong to the context. -/
def netBase (kind : Nat) : State :=
  { withScratch base (toBytes 8 kind ++ toBytes 8 0x3000 ++ toBytes 8 8 ++ List.replicate 40 0) with
    counters := [⟨0, some 0, 0, 0⟩], peers := [⟨0, 0, ⟨1, 0, 0, 0, 4, some 1024⟩, 0, 0, 0, false⟩] }
theorem witness_nsend : ∃ u e, (netBase 1).Free [1] ∧ (netBase 1).Clean [1] ∧ (netBase 1).Commits false u ∧ netAccepts u (.nsend 1) 1 ∧
    u.peer? u.cur.sysr.asid (WorkReq.ofImage (netOp u (.nsend 1) 1).img).peer = some e :=
  ⟨_, _, rfl, by unfold State.Clean; decide, ⟨rfl, fun _ => rfl, rfl, rfl⟩, by unfold netAccepts; decide, rfl⟩
theorem witness_nread : ∃ u v e, (netBase 4).Commits false u ∧ netAccepts u (.nread 1) 1 ∧
    u.peer? u.cur.sysr.asid (WorkReq.ofImage (netOp u (.nread 1) 1).img).peer = some e ∧
    u.spanFault (netXl (netOp u (.nread 1) 1)) .write 0x3000 8 = (v, none) :=
  ⟨_, _, _, ⟨rfl, fun _ => rfl, rfl, rfl⟩, by unfold netAccepts; decide, rfl, rfl⟩
theorem witness_npost : ∃ u v, (netBase 5).Commits false u ∧ netAccepts u (.npost 1) 1 ∧
    u.spanFault (netXl (netOp u (.npost 1) 1)) .write 0x3000 8 = (v, none) :=
  ⟨_, _, ⟨rfl, fun _ => rfl, rfl, rfl⟩, by unfold netAccepts; decide, rfl⟩
def snapOp : EngOp := { base.newOp .snapshot (.snap 1) [0] with pos := 1 }
theorem witness_snapshot : ∃ t p, ({ base with ops := [snapOp] } : State).op? 3 = some snapOp ∧ ({ base with ops := [snapOp] } : State).snapReady snapOp = true ∧
    snapOp.suspended = none ∧ State.snapStep ({ base with ops := [snapOp] } : State) snapOp = (t, p, .ok true) :=
  ⟨_, _, by decide, by decide, by decide, rfl⟩
theorem witness_issue_waits : ∃ i, ((({ queueOf .copy (.cpy true 0 1 10 11) 32 with cur := { base.cur with phase := .wait (.issue i 0x2000) } } : State).goto 0x2000).setVal 1 0x100001000080).issueCopy i = none ∧
    i = .cpy true 0 1 10 11 := ⟨.cpy true 0 1 10 11, by decide, rfl⟩
theorem witness_atom_ready : ∃ c as u res, laneBase.cur.guardPoison aLop.guard = 0 ∧
    laneBase.atomChecks aLop (formOf (.atoms aLop)) true ((laneBase.cur.active aLop.guard).head?.getD 0) ((laneBase.cur.active aLop.guard).filter fun i => decide (i < laneBase.cur.laneW)) = (c, as) ∧
    atomReady c ∧ c.mustWait = false ∧
    c.settleChunk.atomAll aLop (maxNat ([c.settleChunk.pts c.settleChunk.cur.core + 1] ++ c.settleChunk.cur.chunk.quar.map fun q => (c.settleChunk.idTimes q.line).2 + 1)) as = (u, res) :=
  ⟨_, _, _, _, by decide, rfl, by unfold atomReady; decide, by decide, rfl⟩
theorem witness_step_lane : ∃ r t v m i, laneBase.dev = .running ∧ laneBase.cur.laneReady = true ∧ laneBase.cur.run = some r ∧
    ({ laneBase with rr := laneBase.rr + 16, engHeld := false } : State).fetchLane r.wi.toNat = (t, .ok (v, m)) ∧ decodeLane v m = some i ∧
    (∀ x F, laneForm i = some (x, F) → ∀ f ∈ t.cur.freads, f.hazard x F = false) :=
  ⟨_, _, _, _, _, rfl, by decide, rfl, rfl, rfl, fun _ _ _ f h => nomatch (show f ∈ ([] : List FRead) from h)⟩
theorem witness_step_agenda : base.cur.laneReady = false ∧ base.rest.find? Group.laneReady = none ∧
    ({ base with agenda := [.status] } : State).agenda = .status :: [] ∧ base.engHeld = false := by decide
theorem witness_step_control : ∃ t i, base.agenda = [] ∧ base.rest = [] ∧ base.rr % 16 = 0 ∧ ({ base with rr := base.rr + 1, engHeld := false } : State).controlReady base.cur = true ∧
    ({ base with rr := base.rr + 1, engHeld := false } : State).fetchControl base.cur.regs.cpc = (t, .ok 0x02000000) ∧ decodeControl 0x02000000 = some i :=
  ⟨_, _, rfl, rfl, by decide, by decide, rfl, rfl⟩
theorem witness_step_illegal : ∃ t w, ({ base with dram := memWrite base.dram 0x2000 [0, 0, 0, 0xFF] } : State).fetchControl 0x2000 = (t, .ok w) ∧ decodeControl w = none :=
  ⟨_, _, rfl, by decide⟩
theorem witness_step_fetch_fault : ∃ t c, base.fetchControl 0x40000000 = (t, .error c) := ⟨_, _, rfl⟩
theorem witness_step_next : ∃ t, step base = .next t := ⟨_, rfl⟩
theorem witness_step_off : step { base with dev := .off } = .fault .packageOff := rfl
theorem witness_control_round : (Instr.addw 3 1 2).WellFormed ∧ encodeControl (.addw 3 1 2) = some 0x20182100 := by
  unfold Instr.WellFormed; decide
theorem witness_lane_round : ∃ q, (Instr.iadd { aLop with s2 := .vec 0 .none }).WellFormed ∧ encodeLane (.iadd { aLop with s2 := .vec 0 .none }) = some q := ⟨_, by unfold Instr.WellFormed; decide, rfl⟩
theorem witness_memory : Memory.wf (memWrite [] 5 [1, 2]) = true := by decide

/-- The lane section stands on a page of the DDR-5 tier that is not present. -/
def absentCode : State :=
  { base with dram := memWrite (memWrite base.dram 0 (toBytes 8 0x20001F)) 0x200000 (toBytes 8 0x1000000007E), cur := { base.cur with lbase := 0 } }
theorem witness_block_absent : ∃ u w, absentCode.scanBlock (32 * 24 + 1) (0#20).toNat (blockRuns 1) 0 ⟨[], []⟩ = (u, .error w) := ⟨_, _, rfl⟩
theorem witness_store_in_run : (withRun base).cur.run ≠ none ∧ base.cur.run = none := by decide
theorem witness_gang_passed : ({ cls := .request, stage := 1, src := 1, dst := 5, asid := 2 } : Hdr).dst ≠ base.chip := by decide
theorem witness_gang_launch : ({ cls := .request, stage := 1, src := 1, dst := 0, asid := 2 } : Hdr).dst = ctxBase.chip ∧ ctxBase.abortKeys.contains (1, 7) = false ∧
    ctxBase.liveCtx 2 = true ∧ record.length = 256 ∧ ∃ w r, ctxBase.checkRecord (ctxBase.frontXl 2) record = (w, .ok r) ∧ w.queueFull (ctxBase.frontXl 2).asid r.prio = false :=
  ⟨rfl, rfl, rfl, by decide, _, _, rfl, by decide⟩
/-- The peer is known to be unreachable. -/
def lostPeer : State := { netBase 1 with peers := [⟨0, 0, ⟨1, 0, 0, 0, 4, some 1024⟩, 0, 0, 0, true⟩] }
theorem witness_lost_peer : ∃ u e, lostPeer.Commits false u ∧ netAccepts u (.nsend 1) 1 ∧
    u.peer? u.cur.sysr.asid (WorkReq.ofImage (netOp u (.nsend 1) 1).img).peer = some e ∧ e.lost = true :=
  ⟨_, _, ⟨rfl, fun _ => rfl, rfl, rfl⟩, by unfold netAccepts; decide, rfl, rfl⟩
theorem witness_slot_passed : (⟨⟨.response, 1, 3, 5, 2⟩, 9⟩ : RespTo).h.dst ≠ base.chip ∧ (⟨⟨.response, 1, 3, 0, 2⟩, 9⟩ : RespTo).h.dst = base.chip := by decide
theorem witness_slot_open : (aRequest (.slotOpen 0) 0).dst = base.chip ∧ (aRequest (.slotOpen 0) 0).gang = none := by decide
theorem witness_slot_closed : ({ base with slots := [{ aSlot with isOpen := false }] } : State).slot? aJoin.slot = some { aSlot with isOpen := false } ∧
    ({ base with slots := [{ aSlot with gen := 2 }] } : State).slot? aJoin.slot = some { aSlot with gen := 2 } ∧ (2 : BitVec 16) ≠ aJoin.gen := by decide
theorem witness_slot_timeout : ({ base with slots := [aSlot] } : State).slot? 0 = some aSlot ∧ aSlot.isOpen = true := by decide
theorem witness_vc_line_error : ({ movingVc .move with bank := [aLine 1023], vcs := [movedPool], bankErr := [(aLine 1023).line] } : State).bankErr.contains (aLine 1023).line = true ∧
    ({ movingVc .move with bank := [aLine 1023], vcs := [movedPool] } : State).bankErr.contains (aLine 1023).line = false := by decide
theorem witness_retire_good : base.goodShare 0 = true ∧ ({ base with badShares := [0] } : State).goodShare 0 = false ∧ ({ base with lostDies := [0] } : State).goodShare 0 = false := by decide
theorem witness_retire_pool : ∃ c, ({ base with vcs := [movedPool] } : State).vcs.find? (fun c => c.id == ({ base with vcs := [movedPool] } : State).holderOf 5) = some c ∧
    c.pool = true ∧ c.shares.contains 5 = true ∧ ({ movedPool with shares := [], leaving := [5] } : Vc).shares.contains 5 = false := ⟨_, rfl, rfl, by decide, by decide⟩
def inactiveBase (p : Phase) : State := { inPhase p with teams := [{ fetchTeam with active := false }] }
theorem witness_replay_inactive : ∃ g, (inactiveBase (.parked (.replay true [] []))).group? 2 = some g ∧ (inactiveBase (.parked (.replay true [] []))).activeTeam g.teamKey = false ∧
    g.asked = true ∧ g.phase = .parked (.replay true [] []) := ⟨_, rfl, by decide, rfl, rfl⟩
theorem witness_fetch_inactive : ∃ g, (inactiveBase (.parked (.fetch true 0))).group? 2 = some g ∧ (inactiveBase (.parked (.fetch true 0))).activeTeam g.teamKey = false ∧
    g.asked = true ∧ g.phase = .parked (.fetch true 0) := ⟨_, rfl, by decide, rfl, rfl⟩
def peerLine : BLine := { bankLine .m with share := 16385 }
theorem witness_snoop_modified : ∃ b, ({ base with bank := [peerLine], filters := [⟨0, 1, 2, 1⟩] } : State).filters.any (fun f => f.peer == 1 && f.region == 64 / 32 && f.mask.getLsbD (64 % 32)) = true ∧
    (({ base with bank := [peerLine], filters := [⟨0, 1, 2, 1⟩] } : State).fold 64).bank? 64 = some b ∧ b.st = .m ∧ shareDie b.share = 1 ∧ isPool 64 = false :=
  ⟨peerLine, by decide, by decide, by decide, by decide, by decide⟩
theorem witness_snoop_none : ∀ b, (({ base with filters := [⟨0, 1, 2, 1⟩] } : State).fold 64).bank? 64 = some b → b.st ≠ .m ∨ shareDie b.share ≠ 1 ∨ isPool 64 = true := by
  intro b h; rw [show (({ base with filters := [⟨0, 1, 2, 1⟩] } : State).fold 64).bank? 64 = none by decide] at h; cases h
theorem witness_scrub_soft : ({ base with soft := [64] } : State).ue = [] ∧ ({ base with soft := [64] } : State).soft = [64] := ⟨rfl, rfl⟩
theorem witness_link : base.dev = .running ∧ base.hasPartner 29 = true ∧ base.hasPartner 30 = false := by decide
theorem witness_winset_again : ∃ w, windowBase.windows.find? (fun w => w.n == 1) = some aWindow ∧ Window.of 1 (List.replicate 64 0) aWindow.target aWindow.origin aWindow.ctime = w ∧
    w.valid = false ∧ windowBase.missed.any (fun m => m.q.win == 1) = false ∧ ({ windowBase with missed := [⟨aRequest (.read 8) 0, aWindow⟩] } : State).missed.any (fun m => m.q.win == 1) = true :=
  ⟨_, rfl, rfl, rfl, rfl, by decide⟩
theorem witness_closing : ({ base with dev := .closing, agenda := [.powerOn (aBringUp true)] } : State).agenda = .powerOn (aBringUp true) :: [] ∧
    ({ base with dev := .closing } : State).agenda = [] := ⟨rfl, rfl⟩
/-- In state OFF a message waits before a bring-up. -/
theorem witness_bring_up_waits : (∀ r, Instr.powerOn r ∉ [Instr.status]) ∧ ∃ t, exec (.powerOn (aBringUp true)) { base with dev := .off, agenda := [.report] } = .next t :=
  ⟨fun _ h => (nomatch List.mem_singleton.mp h), _, rfl⟩
theorem witness_power_off : base.dev = .running ∧ ({ base with dev := .off } : State).agenda = [] := ⟨rfl, rfl⟩
theorem witness_gang_admission : ∃ u c, ({ idleBase with launches := [aLaunch] } : State).launches.find? (fun m => m.stop.isSome && decide (m.nextGang < m.lrec.gangs)) = none ∧
    ({ idleBase with launches := [aLaunch] } : State).working = true ∧ ({ idleBase with launches := [aLaunch] } : State).queueOrder.filter ({ idleBase with launches := [aLaunch] } : State).eligible = [aLaunch] ∧
    aLaunch.lrec.here 0 = [0] ∧ ({ idleBase with launches := [aLaunch] } : State).place aLaunch.lrec = some (u, c) :=
  ⟨_, _, by decide, by decide, by decide, by decide, rfl⟩
theorem witness_team_start : ∃ l c, waitingBase.team? 5 = some newTeamHere ∧ waitingBase.canActivate newTeamHere = true ∧ newTeamHere.started = false ∧
    waitingBase.launch? newTeamHere.lid = some l ∧ waitingBase.ctx? newTeamHere.asid = some c ∧ l.lrec.width = 16 ∧ l.lrec.shadow = false :=
  ⟨_, _, by decide, by decide, rfl, rfl, rfl, by decide, by decide⟩
theorem witness_framed : fetchGroup.Framed ∧ fetchGroup.AtBoundary := by
  unfold Group.Framed Group.AtBoundary; decide
theorem witness_frame_return : ∃ h : Group, h = fetchGroup ∧ h.width = fetchGroup.width ∧ h.regs.laneq.map LBlock.dests = fetchGroup.regs.laneq.map LBlock.dests := ⟨_, rfl, rfl, rfl⟩
theorem witness_no_frame : bits (memNat [] 0 8) 0 8 ≠ 1 := by decide
def framedBase : State := { base with cur := { base.cur with frame := some 0x10000 } }
theorem witness_frame_read : ∃ t m bad, framedBase.cur.frame = some 0x10000 ∧ framedBase.readImage 0x10000 framedBase.cur.frameSize = (t, m, bad) := ⟨_, _, _, rfl, rfl⟩
theorem witness_crumb : ∃ t hd, base.peekBytes 0x5000 16 = (t, hd, none) ∧ leNat (hd.take 3) < 16 := ⟨(base.peekBytes 0x5000 16).1, List.replicate 16 0, Prod.ext rfl (by decide +kernel), by decide⟩
/-- An operation that occupies its unit, tiles of 8-bit elements, and an accumulator with one word. -/
def atEnd (o : EngOp) : State := { tileBase with ops := [{ o with active := true }] }
theorem witness_tile_command : (atEnd (tileBase.newOp .matrix (.tld 1 2 false) [0])).op? 3 = some { tileBase.newOp .matrix (.tld 1 2 false) [0] with active := true } ∧
    (atEnd (tileBase.newOp .matrix (.tld 1 2 false) [0])).team? (tileBase.newOp .matrix (.tld 1 2 false) [0]).teamKey = some fetchTeam ∧
    (atEnd (tileBase.newOp .matrix (.tld 1 2 false) [0])).foreignLock { tileBase.newOp .matrix (.tld 1 2 false) [0] with active := true } 0 false [(0, 16384)] = false ∧
    fetchTeam.lowestPoison [(0, 16384)] = none ∧ ({ fetchTeam with scrPois := [(0, 0x06000001)] } : Team).lowestPoison [(0, 16384)] = some 0x06000001 ∧
    (atEnd (tileBase.newOp .matrix (.tst 1 2 false) [0])).boxWaits { tileBase.newOp .matrix (.tst 1 2 false) [0] with active := true } = false := by decide
theorem witness_tile_shape : ([(8, 128), (4, 128), (32, 32)] : List (Nat × Nat)).all (fun p => decide (p.1 ∈ [4, 8, 16, 32] ∧ (p.2 * p.1 + 7) / 8 ≤ 128)) = true := by decide
theorem witness_multiply : ∃ a x y, (atEnd (tileBase.newOp .matrix (.mma 0 1 2 0) [0])).accOf { tileBase.newOp .matrix (.mma 0 1 2 0) [0] with active := true } 0 = a ∧ a.poison = false ∧
    (atEnd (tileBase.newOp .matrix (.mma 0 1 2 0) [0])).tileOf { tileBase.newOp .matrix (.mma 0 1 2 0) [0] with active := true } 0 = x ∧ x.poison = false ∧
    (atEnd (tileBase.newOp .matrix (.mma 0 1 2 0) [0])).tileOf { tileBase.newOp .matrix (.mma 0 1 2 0) [0] with active := true } 1 = y ∧ y.poison = false ∧
    (tileBase.newOp .matrix (.mma 0 1 2 0) [0]).imgPois = [] ∧ (tileBase.newOp .matrix (.mma 0 1 2 0) [0]).status = 0 := ⟨_, _, _, rfl, rfl, rfl, rfl, rfl, rfl, rfl, rfl⟩
theorem witness_accumulator_load : (atEnd (tileBase.newOp .matrix (.ald 0 1) [0])).foreignLock { tileBase.newOp .matrix (.ald 0 1) [0] with active := true } 0 false [(0, 65536)] = false ∧
    fetchTeam.firstPoison 0 65536 = none ∧ ({ fetchTeam with scrPois := [(0, 0x06000001)] } : Team).firstPoison 0 65536 = some 0x06000001 := by decide +kernel
theorem witness_drain_elements : ∃ q : DrainRec, 0 < q.rows ∧ 0 < q.cols ∧ q.row0 + q.rows ≤ 128 ∧ q.col0 + q.cols ≤ 128 ∧ drainTy .bf16 = some .bf16x2 ∧ q.scaled .bf16 = false :=
  ⟨⟨128, 128, false, 0, 0, false, 0, 0, 0, 0, 0⟩, by decide⟩
theorem witness_drain : (atEnd (tileBase.newOp .matrix (.drn .scratch 0 1 2 .w32 true) [0])).boxWaits { tileBase.newOp .matrix (.drn .scratch 0 1 2 .w32 true) [0] with active := true } = false := by decide
def packetBase (r : Nat) (a : Nat) : State := { base with utx := [⟨0, ⟨0, 0⟩, aPacket, r, a⟩, ⟨0, ⟨0, 0⟩, { aPacket with seq := 8 }, 0, 0⟩] }
theorem witness_uet_counts : (packetBase 0 2).utx = [⟨0, ⟨0, 0⟩, aPacket, 0, 2⟩, ⟨0, ⟨0, 0⟩, { aPacket with seq := 8 }, 0, 0⟩] ∧ aPacket.seq < 8 ∧ aPacket.kind ≠ 4 ∧
    (packetBase 0 2).netPend = [] := by decide
theorem witness_uet_refused : aPacket.kind = 1 ∧ aPacket.ord = false ∧ aPacket.len ≤ 9216 ∧ ({ ctxBase with ctxs := [⟨2, 0, 0, 0, 4, true, false, false⟩] } : State).rx? aPacket = none ∧
    ({ ctxBase with ctxs := [⟨2, 0, 0, 0, 4, true, false, false⟩] } : State).ctxs.find? (fun c => c.res == aPacket.res && !c.killed) = some ⟨2, 0, 0, 0, 4, true, false, false⟩ ∧
    ctxBase.recvs = [] := by decide
theorem witness_red_lane : ∃ u id vc, (aLane 256).a.tok = none ∧ (aLane 256).b.tok = none ∧ laneBase.redVa 256 (tyBytes .n32) = (u, .ok (id, vc)) := ⟨_, _, _, rfl, rfl, rfl⟩
theorem witness_red_bad : ∃ u c, laneBase.redVa 0x40000000 (tyBytes .n32) = (u, .error c) := ⟨_, _, rfl⟩
theorem witness_reds_lane : laneBase.scratchCheck 65532 (tyBytes .n32) = .ok () ∧ ∃ c, laneBase.scratchCheck 65536 (tyBytes .n32) = .error c := ⟨rfl, _, rfl⟩
theorem witness_line_place : ([(32, 0x1000)] : List (Nat × Nat)).find? (fun q => q.1 / 32 == 63 / 32) = some (32, 0x1000) ∧ 4 * (32 % 32) ≤ 0x1000 := by decide
theorem witness_lds_word : ∃ u, ({ laneBase with teams := [{ fetchTeam with scrPois := [(0, 0x06000001)] }] } : State).scratchLoad 0 4 = (u, .error (.word 0x06000001)) := ⟨_, rfl⟩
theorem witness_sts_bad : ∃ c, laneBase.scratchCheck 65536 4 = .error c := ⟨_, rfl⟩
theorem witness_fragment : ∃ u vs, laneBase.fragRows 0 16 0 2 = (u, .ok vs) := ⟨_, _, rfl⟩
theorem witness_fragment_word : ∃ u, ({ laneBase with teams := [{ fetchTeam with scrPois := [(0, 0x06000001)] }] } : State).fragRows 0 16 0 2 = (u, .error (.word 0x06000001)) := ⟨_, rfl⟩
/-- Entry 0 of the sharding table at 0x10000 holds four 4-byte elements at 0x3000 whose only owner is chip `o`. -/
def shardBase (o : Byte) : State :=
  { laneBase with dram := memWrite laneBase.dram 0x10000 (toBytes 8 0x1A1 ++ toBytes 8 0x3000 ++ toBytes 4 4 ++ List.replicate 16 0 ++ toBytes 4 4 ++ List.replicate 16 0 ++ toBytes 8 1 ++ [o] ++ List.replicate 63 0),
                  cur := { laneBase.cur with sysr := { laneBase.cur.sysr with stbase := 0x10000 } } }
def shardOp : LOp := { aLop with s1 := .vec 1 .none }
theorem witness_shard_here : ∃ u e v p, (shardBase 0).shardLane shardOp 0 (aLane 0) = (u, .at [0] 0x3000 e) ∧ u.chip = (shardBase 0).chip ∧ u.nearest [0] = u.chip ∧
    ((e.esz == 3 && !shardOp.ty.wide) || 0x3000 % 2 ^ e.esz != 0) = false ∧ u.storeCheck 0x3000 4 .write = (v, .ok p) := ⟨_, _, _, _, rfl, rfl, rfl, by decide, rfl⟩
theorem witness_shard_far : ∃ u e, (shardBase 5).shardLane shardOp 0 (aLane 0) = (u, .at [5] 0x3000 e) ∧ u.nearest [5] ≠ u.chip ∧ u.routeTo 5 = true := ⟨_, _, rfl, by decide, by decide⟩
theorem witness_shard_cause : ∃ u c, laneBase.shardLane shardOp 0 ⟨0, .ok 0, .ok 0xFFFF, .ok 0⟩ = (u, .cause c) := ⟨_, _, rfl⟩
theorem witness_shard_token : ∃ u k r, laneBase.shardLane shardOp 0 ⟨0, .ok 0, .bad 7, .ok 0⟩ = (u, .token k r) := ⟨_, _, _, rfl⟩
theorem witness_atom_unchecked : ∃ s : State, s.cur.guardPoison aLop.guard = 0 ∧ s.cur.pairDiffers aLop (formOf (.atoms aLop)) none = false ∧ s.cur.anyUnchecked = true :=
  ⟨{ laneBase with cur := { laneBase.cur with checked := true, regs := { laneBase.cur.regs with unchecked := true } } }, by decide, by decide, by decide⟩

/-! ## Words of the spec's examples (R148, R193 to R218, R313 to R320, R430, R432) and of its tables -/

theorem test_word_nop : decodeControl 0x02000000 = some .nop := by decide
theorem test_word_brc : decodeControl 0x06810BF4 = some (.brc .lt 1 2 (-12)) := by decide
theorem test_word_lwait_end : decodeControl 0x16000000 = some .lwait ∧ decodeControl 0x1A000000 = some .endg := by decide
theorem test_word_addw : decodeControl 0x20182100 = some (.addw 3 1 2) := by decide
theorem test_word_addiw : decodeControl 0x22105FFF = some (.addiw 2 2 (-1)) := by decide
theorem test_word_ldw : decodeControl 0x3A284003 = some (.ldw 5 2 3) := by decide
theorem test_word_stw : decodeControl 0x3C280028 = some (.stw 5 0 40) := by decide
theorem test_word_mfs_mts : decodeControl 0x42180008 = some (.mfs 3 8) ∧ decodeControl 0x44280009 = some (.mts 5 9) := by decide
theorem test_word_fence : decodeControl 0x46000005 = some (.fence .sys) := by decide
theorem test_word_cmt : decodeControl 0x4A018000 = some (.cmt 12) := by decide
theorem test_word_arrive : decodeControl 0x4C210001 = some (.arrive 4 8 1) := by decide
theorem test_word_sigchk : decodeControl 0x5A3A5C11 = some (.sigchk 0x3A5C11) := by decide
theorem test_word_efen_ewait : decodeControl 0x5C024A00 = some (.efen .copy 9 10) ∧ decodeControl 0x5E090000 = some (.ewait .copy 9) := by decide
theorem test_word_lblk : decodeControl 0x12200000 = some (.lblk 2 0) := by decide
theorem test_word_tld : decodeControl 0x68014B02 = some (.tldP 0 5 11 false) ∧ decodeControl 0x68230000 = some (.tld 2 12 false) := by decide
theorem test_word_mma_azr : decodeControl 0x6C008D00 = some (.mma 0 2 13 0) ∧ decodeControl 0x72000000 = some (.azr 0) := by decide
theorem test_word_drn : decodeControl 0x70838F18 = some (.drn .mem 0 14 15 .x2m1 false) := by decide
theorem test_word_launch : decodeControl (0x2A#7 ++ 5#6 ++ 6#6 ++ 0#13) = some (.launch 5 6) := by decide
theorem test_word_cpy : decodeControl (0x31#7 ++ 0b01010#5 ++ 8#6 ++ 1#6 ++ 2#6 ++ 0#2) = some (.cpy true 1 8 1 2) := by decide
theorem test_word_reserved : decodeControl 0 = none ∧ decodeControl (0x48#7 ++ 0#25) = none ∧ decodeControl (0x7F#7 ++ 0#25) = none := by decide
theorem test_word_walu_reserved : decodeControl (0x10#7 ++ 0#18 ++ 18#7) = none ∧ decodeControl (0x1B#7 ++ 0#18 ++ 64#7) = none := by decide
theorem test_word_brc_reserved : decodeControl (0x03#7 ++ 6#3 ++ 0#22) = none ∧ decodeControl (0x0C#7 ++ 4#3 ++ 0#22) = none ∧ decodeControl (0x24#7 ++ 3#2 ++ 1#23) = none := by decide
theorem test_word_fmadd : decodeLane (0x0C300020#32 ++ 0x0200540C#32 ++ 0x00800000#32) 0 =
    some (.fmadd ⟨false, none, ⟨false, 0, 4⟩, .vec 1 .none, .vec 2 .first, .unif 6, 0, .f32, 0, 0, none⟩) := by decide
theorem test_word_fadd : decodeLane (0xCC08C02A#32 ++ 0x00006000#32 ++ 0x00800000#32) 0x02000000 =
    some (.fadd ⟨true, some ⟨false, 3⟩, ⟨false, 0, 5⟩, .lat 0, .vec 3 .none, .vec 0 .none, 0, .f32, 0, 0, some ⟨.none, 0, 2, 0, .rne⟩⟩) := by decide
theorem test_word_alignb : decodeLane (0x02700028#32 ++ 0x06008600#32 ++ 0x00100003#32) 0 =
    some (.alignb ⟨false, none, ⟨false, 0, 5⟩, .vec 3 .none, .vec 4 .none, .imm false, 0, .n32, 0, 3, none⟩) := by decide
theorem test_word_blut : decodeLane (0x02800040#32 ++ 0x0A414416#32 ++ 0x00510000#32) 0 =
    some (.blut ⟨false, none, ⟨false, 0, 8⟩, .vec 5 .none, .unif 10, .unif 11, 0, .n8x4, 1, 0, none⟩) := by decide
/-- G = 0b01_0011, invert without enable (R163). -/
theorem test_word_guard : decodeLane (0xCC04C02A#32 ++ 0x00006000#32 ++ 0x00800000#32) 0x02000000 = none := by decide
/-- TY 16 (R163). -/
theorem test_word_ty : decodeLane (0xCC08C02A#32 ++ 0x00006000#32 ++ 0x01000000#32) 0x02000000 = none := by decide
theorem test_lane_bytes_table : decodeTableWord 32 0x20182100 = some (.addw 3 1 2) ∧ decodeTableWord 32 0 = none := by decide

/-! ## An ill-formed term for each check of well-formedness -/

def good : LOp := ⟨true, none, ⟨false, 0, 5⟩, .vec 1 .none, .vec 2 .none, .vec 0 .none, 0, .n32, 0, 0, none⟩
def ill (i : Instr) : Bool := !legal i

theorem smoke_good : ill (.iadd good) = false := by decide
theorem smoke_type : ill (.fadd good) = true := by decide
theorem smoke_function : ill (.iadd { good with fn := 1 }) = true := by decide
theorem smoke_entry : ill (.lut3 { good with s2 := .vec 3 .none, imm := 0x100 }) = true := by decide
theorem smoke_guard : ill (.melse { good with dst := ⟨false, 0, 0⟩, s0 := .vec 0 .none, s1 := .vec 0 .none, guard := some ⟨false, 0⟩ }) = true := by decide
theorem smoke_unused_source : ill (.iadd { good with s2 := .vec 1 .none }) = true := by decide
theorem smoke_predicate_source : ill (.plog { good with s0 := .vec 16 .none, s1 := .vec 0 .none, imm := 0xFE }) = true := by decide
theorem smoke_odd_pair : ill (.iadd { good with ty := .i64, dst := ⟨false, 0, 4⟩ }) = true := by decide
theorem smoke_own_immediate : ill (.lut3 { good with s2 := .imm false, imm := 0x96 }) = true := by decide
theorem smoke_high_immediate : ill (.iadd { good with ty := .i64, dst := ⟨false, 0, 4⟩, s0 := .vec 2 .none, s1 := .imm true }) = true := by decide
theorem smoke_byte_immediate : ill (.iadd { good with ty := .n8x4, s1 := .imm false, imm := 0x100 }) = true := by decide
theorem smoke_index : ill (.ldx { good with s0 := .imm false, s1 := .imm false }) = true := by decide
theorem smoke_broadcast_lane : ill (.iadd { good with bl := 1 }) = true := by decide
theorem smoke_suppressed_number : ill (.iadd { good with dst := ⟨true, 1, 5⟩ }) = true := by decide
theorem smoke_odd_latch : ill (.iadd { good with ty := .i64, dst := ⟨false, 1, 4⟩, s0 := .vec 2 .none }) = true := by decide
theorem smoke_predicate_destination : ill (.iset { good with dst := ⟨false, 0, 16⟩ }) = true := by decide
theorem smoke_uniform_destination : ill (.vote { good with dst := ⟨false, 0, 64⟩, s1 := .vec 0 .none }) = true := by decide
theorem smoke_modifiers : ill (.and { good with mods := some ⟨.none, 0, 0, 0, .rne⟩ }) = true := by decide
theorem smoke_saturation : ill (.imin { good with mods := some ⟨.type, 0, 0, 0, .rne⟩ }) = true := by decide
theorem smoke_scale : ill (.imin { good with ty := .i32, mods := some ⟨.none, 1, 0, 1, .rne⟩ }) = true := by decide
theorem smoke_rounding : ill (.iadd { good with mods := some ⟨.none, 0, 0, 0, .rz⟩ }) = true := by decide
theorem smoke_signs : ill (.iadd { good with mods := some ⟨.none, 1, 0, 0, .rne⟩ }) = true := by decide
theorem smoke_rgn : ill (.rgn .recover 0) = true ∧ ill (.rgn .recover 1) = false := by decide
theorem smoke_claims : ill (.vclaim 0) = true ∧ ill (.vclaim 33) = true ∧ ill (.vrel 0) = true ∧ ill (.vrel 32) = true := by decide
theorem smoke_copy : ill (.cpy true 0 61 0 0) = true ∧ ill (.cpyg true 0 61 0 0) = true ∧ ill (.cpy true 0 60 0 0) = false := by decide

/-! ## One step or one operation with results from the spec's rules and worked examples -/

/-- The value of a uniform after an instruction. -/
def wAfter (i : Instr) (s : State) (r : BitVec 6) : BitVec 64 := match exec i s with | .next t => (t.wreg r).val | _ => 0
def two (x y : BitVec 64) : State := (base.setVal 1 x).setVal 2 y

theorem test_addw_wraps : wAfter (.addw 3 1 2) (two 0xFFFFFFFFFFFFFFFF 1) 3 = 0 := by decide
theorem test_shlw_takes_six_bits : wAfter (.shlw 3 1 2) (two 1 65) 3 = 2 := by decide
theorem test_sarw_sign : wAfter (.sarw 3 1 2) (two 0x8000000000000000 63) 3 = 0xFFFFFFFFFFFFFFFF := by decide
theorem test_mulhw_signed : wAfter (.mulhw 3 1 2) (two 0xFFFFFFFFFFFFFFFF 1) 3 = 0xFFFFFFFFFFFFFFFF := by decide
theorem test_mulhuw_unsigned : wAfter (.mulhuw 3 1 2) (two 0xFFFFFFFFFFFFFFFF 2) 3 = 1 := by decide
theorem test_minw_signed : wAfter (.minw 3 1 2) (two 0xFFFFFFFFFFFFFFFF 1) 3 = 0xFFFFFFFFFFFFFFFF := by decide
theorem test_orsw : wAfter (.orsw 6 0) (base.setVal 6 0x7F0) 6 = 0x3F800000 := by decide
theorem test_leaw : wAfter (.leaw 3 1 2 3) (two 0x1000 5) 3 = 0x1028 := by decide
theorem test_source_is_destination : wAfter (.subw 1 1 1) (two 7 0) 1 = 0 := by decide
/-- `call` at 0x2000 with off25 8 (R152). -/
theorem test_call : wAfter (.call 8) base 63 = 0x2004 := by decide
theorem test_call_target : (match exec (.call 8) base with | .next t => t.cur.regs.cpc | _ => 0) = 0x2020 := by decide
theorem test_ldw_little_endian : wAfter (.ldw 5 0 0) ((withBytes [0x11, 0x22, 0, 0, 0, 0, 0, 0x88]).setVal 0 0x2000) 5 = 0x8800000000002211 := by decide
theorem test_ldw_misaligned : (match exec (.ldw 5 0 0) (base.setVal 0 0x2004) with | .next t => (t.wreg 5).poison | _ => false) = true := by decide
theorem test_stw_is_quarantined : (match exec (.stw 5 0 0) ((base.setVal 0 0x3000).setVal 5 0xFF) with | .next t => t.byteAt 0x3000 | _ => 1) = 0 := by decide
/-- A taken branch to 0x100 from SIGR 0: 0x0200_0000_0000_0040 times 0x0000_0100_0000_01B3 (R341). -/
theorem test_mix : mix 0 (takenEvent 0x100) = 0x0200_0000_0000_0040#64 * 0x0000_0100_0000_01B3 := by decide
/-- The worked example of a barrier phase with a carry. -/
theorem test_barrier_t1 : (⟨3, 0, 5, false⟩ : Bar).arrive 2 = ⟨3, 2, 5, false⟩ := by decide
theorem test_barrier_t2 : (⟨3, 2, 5, false⟩ : Bar).arrive 1 = ⟨3, 0, 6, false⟩ := by decide
theorem test_barrier_t3 : (⟨3, 0, 6, false⟩ : Bar).arrive 4 = ⟨3, 1, 7, true⟩ := by decide
theorem test_barrier_t4 : (⟨3, 1, 7, true⟩ : Bar).completed 5 = true ∧ (⟨3, 2, 7, true⟩ : Bar).completed 7 = false := by decide
def plain : Mods := ⟨.none, 0, 0, 0, .rne⟩
theorem test_iabs : intArith .i32 plain (fun a _ _ => (a.natAbs : Int)) 0x80000000 0 0 = 0x80000000 ∧
    intArith .i32 { plain with sat := .type } (fun a _ _ => (a.natAbs : Int)) 0x80000000 0 0 = 0x7FFFFFFF := by decide
theorem test_isub_unsigned : intArith .n32 plain (fun a b _ => a - b) 0 1 0 = 0xFFFFFFFF ∧ intArith .n32 { plain with sat := .type } (fun a b _ => a - b) 0 1 0 = 0 := by decide
theorem test_lut3 : lut3 0x96 32 0xF0F0F0F0 0xCCCCCCCC 0xAAAAAAAA = 0xF0F0F0F0 ^^^ 0xCCCCCCCC ^^^ 0xAAAAAAAA ∧ lut3 0xE8 32 0xF0 0xCC 0xAA = 0xE8 := by decide
theorem test_shifts : shlElem 32 1 32 = 0 ∧ shrElem 32 0x80000000 32 = 0 ∧ sarElem 32 0x80000000 40 = 0xFFFFFFFF := by decide
theorem test_clz : clz 32 0 = 32 ∧ clz 32 1 = 31 ∧ popCount 32 0xFF00 = 8 ∧ brev 32 1 = 0x80000000 := by decide
theorem test_bfe : bfe .n32 0xABC0 0x0804 = 0xBC ∧ bfe .i32 0xABC0 0x0804 = 0xFFFFFFBC ∧ bfe .i32 0xABC0 0x0004 = 0 := by decide
theorem test_bfi : bfi 32 0 0xFFF 0x0804 = 0xFF0 := by decide
theorem test_blut : blutByte 0x0706050403020100 0x0F0E0D0C0B0A0908 9 = 9 := by decide
/-- 2^24, 1.0, 1.0 and -2^24 in lanes 0 to 3 (R187). -/
theorem test_gred_tree : treeSum ([some 0x4B800000, some 0x3F800000, some 0x3F800000, some 0xCB800000] ++ List.replicate 12 none) = 0x3F800000 := by decide +kernel
theorem test_cvt_e4m3 : Num.convert .e4m3x4 .f32 plain 0 0x3F800000 = 0x38 ∧ Num.convert .e4m3x4 .f32 plain 0 0xBE99999A = 0xAA ∧
    Num.convert .e4m3x4 .f32 plain 0 0x43FA0000 = 0x7E ∧ Num.convert .e4m3x4 .f32 plain 0 0x3A83126F = 0x01 := by decide +kernel
theorem test_cvt_e4m3_rz : Num.convert .e4m3x4 .f32 { plain with rm := .rz } 0 0xBE99999A = 0xA9 ∧
    Num.convert .e4m3x4 .f32 { plain with rm := .rz } 0 0x3A83126F = 0x00 ∧ Num.convert .e4m3x4 .f32 plain 0 0x7F800000 = 0x7F := by decide +kernel
/-- 0.5, 1.0, 1.5, 2.0, -0.75, 3.0, 0, 2.5, 0 and -40.0 in lanes 0 to 9 (R184). -/
def quantBlockIn : List FVal :=
  (([0x3F000000, 0x3F800000, 0x3FC00000, 0x40000000, 0xBF400000, 0x40400000, 0, 0x40200000, 0, 0xC2200000] : List Nat) ++ List.replicate 22 0).map (Num.decode Num.f32)
theorem test_qblk : Num.quantise .x2m1x8 quantBlockIn = ⟨0x7E, [2, 4, 5, 6, 0xB, 7, 0, 6, 0, 8] ++ List.replicate 22 0, 0xEA, some 9⟩ := by decide +kernel
theorem test_qblk_e2m1 : (Num.quantise .e2m1x8 quantBlockIn).s = 0x82 ∧ (Num.quantise .e2m1x8 quantBlockIn).codes.take 8 = [0, 0, 0, 0, 8, 1, 0, 1] := by decide +kernel
theorem test_fadd_ties_to_even : fpArith .f32 plain (fun a b _ => Machine.Num.add .rne a b) 0x3F800000 0x33800000 0 = 0x3F800000 := by decide +kernel
theorem test_fmin_nan : fpArith .f32 plain (fun a b _ => Num.minNum a b) 0x7FC00000 0x3F800000 0 = 0x3F800000 := by decide +kernel
theorem test_word_lsig : decodeLane (0x87400000#32 ++ 0#32 ++ 0x00A35C11#32) 0 = some (.lsig true 0x3A5C11) := by decide
def grid22 : Shard :=
  { rank := 2, esz := 1, valid := true, repl := 1, order := [1, 0, 0, 0, 0], gen := 4, win := 17, base := 0x40000000000, gdim := [3000, 5000, 0, 0, 0],
    shape := [1500, 2500, 0, 0, 0], grid := [2, 2, 0, 0, 0], chips := [0x12, 0x13, 0x22, 0x23] }
def grid14 : Shard := { grid22 with shape := [3000, 1250, 0, 0, 0], grid := [1, 4, 0, 0, 0], gen := 5 }
theorem test_shard_2x2 : grid22.legal = true ∧ grid22.resolve [2100, 700] = some ([0x13], 0x400002DCC38) ∧ grid22.resolve [100, 4999] = some ([0x22], 0x4000007B4A6) ∧
    grid22.resolve [3000, 10] = none ∧ grid22.resolve [0, 0] = some ([0x12], 0x40000000000) := by decide
theorem test_shard_1x4 : grid14.legal = true ∧ grid14.resolve [2100, 700] = some ([0x12], 0x40000502148) ∧ grid14.resolve [100, 4999] = some ([0x23], 0x4000003DA52) := by decide
theorem test_hops : hops 0x13 0x22 = 2 ∧ hops 0x13 0x12 = 1 ∧ hops 0x13 0x23 = 1 := by decide
/-- The digest of the three bytes `abc` (FIPS 180-4). -/
theorem test_sha256 : Sha.sha256 [0x61, 0x62, 0x63] = toBytes 8 0xEACF018FBF1678BA ++ toBytes 8 0x2322AE5DDE404141 ++ toBytes 8 0x9C7A1796A36103B0 ++ toBytes 8 0xAD1500F261FF10B4 := by decide +kernel

end Sys2Proof.Tests
end

/-! # PROOFS. The numbers that `mfs` and `mts` check (R145)

The proof says once which numbers are known, system and writable, then what each instruction answers in each case of R145. -/

section
namespace Sys2Proof.Machine

/-! ## The classes of state register numbers (R144) -/

theorem sregKnown_iff (n : Nat) :
    sregKnown n = true ↔ n ≤ 0x011 ∨ (0x020 ≤ n ∧ n ≤ 0x03F) ∨ (0x100 ≤ n ∧ n ≤ 0x107) := by
  simp only [sregKnown, Bool.or_eq_true, Bool.and_eq_true, decide_eq_true_eq]
  omega

theorem sregSystem_iff (n : Nat) : sregSystem n = true ↔ 0x100 ≤ n := by
  simp only [sregSystem, decide_eq_true_eq]

theorem sregWritable_iff (n : Nat) :
    sregWritable n = true ↔
      n = 0x009 ∨ n = 0x011 ∨ (0x020 ≤ n ∧ n ≤ 0x03F) ∨ ((0x100 ≤ n ∧ n ≤ 0x107) ∧ n ≠ 0x104) := by
  simp only [sregWritable, Bool.or_eq_true, Bool.and_eq_true, decide_eq_true_eq, beq_iff_eq, bne_iff_ne]
  omega

/-- R144 lists eight system registers. -/
theorem sregKnown_and_system_iff (n : Nat) :
    (sregKnown n = true ∧ sregSystem n = true) ↔ 0x100 ≤ n ∧ n ≤ 0x107 := by
  rw [sregKnown_iff, sregSystem_iff]
  omega

/-- A register with an RW field is one that R144 lists. -/
theorem sregKnown_of_writable {n : Nat} (h : sregWritable n = true) : sregKnown n = true := by
  rw [sregWritable_iff] at h
  rw [sregKnown_iff]
  omega

/-! ## Shared operations -/

/-- The first poisoned decision operand stops the chunk at the instruction, which has no other effect (R190). -/
theorem State.deciding_poisoned {s : State} {rs : List (BitVec 6)} {d : Option (BitVec 6)} {r : BitVec 6} (f : Ans)
    (hf : s.Free (rs ++ d.toList)) (hr : rs.find? (fun r => (s.wreg r).poison) = some r) :
    s.deciding rs d f = s.stopHere (fun u => u.liveControl (s.wreg r).token) (fun u => u.poisonDest d (s.wreg r).token) := by
  simp only [State.deciding, State.interlock_free _ hf, hr]

/-- A control instruction that is not allowed makes a crumb with cause ILLEGAL_OP and ends its team (R162). -/
theorem State.illegal_control_eq (s : State) (status : BitVec 8) :
    s.illegal status 0 false = (s.makePoison 0x10 0 0 true 0).1.teamStops status (s.makePoison 0x10 0 0 true 0).2 := rfl

/-! ## What `mfs` and `mts` answer in each case of R145 -/

theorem exec_mfs (d : BitVec 6) (r : BitVec 13) (s : State) : exec (.mfs d r) s = execMfs d r s := rfl

theorem exec_mts (a : BitVec 6) (r : BitVec 13) (s : State) : exec (.mts a r) s = execMts a r s := rfl

section

variable {s : State} {d a : BitVec 6} {r : BitVec 13}

theorem exec_mfs_reserved (hk : sregKnown r.toNat = false) : exec (.mfs d r) s = .next (s.illegal tsIllegal 0 false) := by
  simp [exec_mfs, execMfs, hk]

theorem exec_mfs_privileged (hk : sregKnown r.toNat = true) (hs : sregSystem r.toNat = true) (hl : r.toNat ≠ 0x106)
    (hu : s.cur.user = true) : exec (.mfs d r) s = .next (s.illegal tsPriv 0 false) := by
  simp [exec_mfs, execMfs, hk, hs, hl, hu]

theorem exec_mts_reserved (hk : sregKnown r.toNat = false) : exec (.mts a r) s = .next (s.illegal tsIllegal 0 false) := by
  simp [exec_mts, execMts, hk]

theorem exec_mts_privileged (hk : sregKnown r.toNat = true) (hs : sregSystem r.toNat = true) (hu : s.cur.user = true) :
    exec (.mts a r) s = .next (s.illegal tsPriv 0 false) := by
  simp [exec_mts, execMts, hk, hs, hu]

theorem exec_mts_readOnly (hk : sregKnown r.toNat = true) (hp : (sregSystem r.toNat && s.cur.user) = false)
    (hw : sregWritable r.toNat = false) : exec (.mts a r) s = .next (s.illegal tsIllegal 0 false) := by
  simp [exec_mts, execMts, hk, hp, hw]

/-- A poisoned source of an allowed `mts` is live and the register keeps its value: under DROP nothing is left to do (R190). -/
theorem exec_mts_poisoned (hp : (sregSystem r.toNat && s.cur.user) = false) (hw : sregWritable r.toNat = true)
    (hf : s.Free [a]) (ha : (s.wreg a).poison = true) :
    exec (.mts a r) s = s.stopHere (fun u => u.liveControl (s.wreg a).token) id := by
  have hfirst : [a].find? (fun q => (s.wreg q).poison) = some a := List.find?_cons_of_pos ha
  simp only [exec_mts, execMts, sregKnown_of_writable hw, hp, hw, Bool.not_true, Bool.false_eq_true, if_false]
  exact State.deciding_poisoned _ hf hfirst

end

/-- Settles O14: the classes of numbers give the case of R145, and the case gives the answer. -/
theorem stateRegisterNumbersAreChecked : Obligations.StateRegisterNumbersAreChecked := by
  intro s d a r n ends system known writable
  have known_iff : sregKnown n = true ↔ known := sregKnown_iff n
  have writable_iff : sregWritable n = true ↔ writable := sregWritable_iff n
  have system_iff : (sregKnown n = true ∧ sregSystem n = true) ↔ system := sregKnown_and_system_iff n
  have ends_eq (status : BitVec 8) : .next (s.illegal status 0 false) = ends status :=
    congrArg Host.Outcome.next (s.illegal_control_eq status)
  have allowed (hk : sregKnown n = true) (h : ¬(system ∧ s.cur.user = true)) : (sregSystem n && s.cur.user) = false := by
    rw [Bool.eq_false_iff, ne_eq, Bool.and_eq_true]
    exact fun ⟨hs, hu⟩ => h ⟨system_iff.1 ⟨hk, hs⟩, hu⟩
  refine ⟨?reserved, ?privileged, ?readOnly, ?poisoned⟩
  case reserved =>
    intro hreserved
    have hk : sregKnown n = false := Bool.eq_false_iff.2 (mt known_iff.1 hreserved)
    exact ⟨(exec_mfs_reserved hk).trans (ends_eq 0x40), (exec_mts_reserved hk).trans (ends_eq 0x40)⟩
  case privileged =>
    intro hsystem hu
    obtain ⟨hk, hs⟩ := system_iff.2 hsystem
    exact ⟨fun hlease => (exec_mfs_privileged hk hs hlease hu).trans (ends_eq 0x41),
      (exec_mts_privileged hk hs hu).trans (ends_eq 0x41)⟩
  case readOnly =>
    intro hknown hp hro
    have hk := known_iff.2 hknown
    have hw : sregWritable n = false := Bool.eq_false_iff.2 (mt writable_iff.1 hro)
    exact (exec_mts_readOnly hk (allowed hk hp) hw).trans (ends_eq 0x40)
  case poisoned =>
    intro hwritable hp hf ha
    have hw := writable_iff.2 hwritable
    exact exec_mts_poisoned (allowed (sregKnown_of_writable hw) hp) hw hf ha

end Sys2Proof.Machine
end

/-! # PROOFS. Uniform arithmetic, flow and `lwait`: words and effects (R193, R195, R200 to R202)

The words: each format's fields read back whole, and the decoder's answer for the operation code at hand. The effects: an equation per
instruction in terms of the shared operations (`wal1`, `wal2`, `deciding`, `interlock`), and a lemma that says what each of these answers. -/

section
namespace Sys2Proof

/-! ## Fields read back whole (R147) -/

section

variable (op fn : BitVec 7) (d a b : BitVec 6) (i : BitVec 13) (o : BitVec 25) (k : BitVec 19)

@[simp] theorem opField_wCR : fld (wCR op d a b fn) 25 7 = op := fld_wCR_op op d a b fn
@[simp] theorem dField_wCR : fld (wCR op d a b fn) 19 6 = d := (fld_wCR_d op d a b fn (by omega) (by omega)).trans BitVec.extractLsb'_eq_self
@[simp] theorem aField_wCR : fld (wCR op d a b fn) 13 6 = a := (fld_wCR_a op d a b fn (by omega) (by omega)).trans BitVec.extractLsb'_eq_self
@[simp] theorem bField_wCR : fld (wCR op d a b fn) 7 6 = b := (fld_wCR_b op d a b fn (by omega) (by omega)).trans BitVec.extractLsb'_eq_self
@[simp] theorem fnField_wCR : fld (wCR op d a b fn) 0 7 = fn := (fld_wCR_fn op d a b fn (by omega)).trans BitVec.extractLsb'_eq_self

@[simp] theorem opField_wCI : fld (wCI op d a i) 25 7 = op := fld_wCI_op op d a i
@[simp] theorem dField_wCI : fld (wCI op d a i) 19 6 = d := (fld_wCI_d op d a i (by omega) (by omega)).trans BitVec.extractLsb'_eq_self
@[simp] theorem aField_wCI : fld (wCI op d a i) 13 6 = a := (fld_wCI_a op d a i (by omega) (by omega)).trans BitVec.extractLsb'_eq_self
@[simp] theorem immField_wCI : fld (wCI op d a i) 0 13 = i := (fld_wCI_i op d a i (by omega)).trans BitVec.extractLsb'_eq_self

@[simp] theorem opField_wCJ : fld (wCJ op o) 25 7 = op := fld_wCJ_op op o
@[simp] theorem offField_wCJ : fld (wCJ op o) 0 25 = o := (fld_wCJ_o op o (by omega)).trans BitVec.extractLsb'_eq_self

@[simp] theorem opField_wCU : fld (wCU op d k) 25 7 = op := fld_wCU_op op d k
@[simp] theorem dField_wCU : fld (wCU op d k) 19 6 = d := (fld_wCU_d op d k (by omega) (by omega)).trans BitVec.extractLsb'_eq_self
@[simp] theorem immField_wCU : fld (wCU op d k) 0 19 = k := (fld_wCU_i op d k (by omega)).trans BitVec.extractLsb'_eq_self

end

/-- A CB word is CY's with the 16-bit field cut in two (R148). -/
theorem cb_eq_wCY (op : BitVec 7) (c : BitVec 3) (a b : BitVec 6) (p : BitVec 10) : op ++ c ++ a ++ b ++ p = wCY op c a (b ++ p) := by
  unfold wCY
  rw [BitVec.append_assoc (x₃ := p)]
  rfl

section

variable (op : BitVec 7) (c : BitVec 3) (a : BitVec 6) (o : BitVec 16)

@[simp] theorem opField_wCY : fld (wCY op c a o) 25 7 = op := fld_wCY_op op c a o
@[simp] theorem codeField_wCY : fld (wCY op c a o) 22 3 = c := (fld_wCY_e op c a o (by omega) (by omega)).trans BitVec.extractLsb'_eq_self
@[simp] theorem aField_wCY : fld (wCY op c a o) 16 6 = a := (fld_wCY_a op c a o (by omega) (by omega)).trans BitVec.extractLsb'_eq_self

end

/-! A field cut in two. -/

@[simp] theorem bField_wCY_append (op : BitVec 7) (c : BitVec 3) (a b : BitVec 6) (p : BitVec 10) :
    fld (wCY op c a (b ++ p)) 10 6 = b := (fld_wCY_o op c a (b ++ p) (by omega)).trans BitVec.extractLsb'_append_eq_left

@[simp] theorem offField_wCY_append (op : BitVec 7) (c : BitVec 3) (a b : BitVec 6) (p : BitVec 10) :
    fld (wCY op c a (b ++ p)) 0 10 = p := (fld_wCY_o op c a (b ++ p) (by omega)).trans BitVec.extractLsb'_append_eq_right

@[simp] theorem highField_wCI_append (op h : BitVec 7) (d a n : BitVec 6) : fld (wCI op d a (h ++ n)) 6 7 = h :=
  (fld_wCI_i op d a (h ++ n) (by omega)).trans BitVec.extractLsb'_append_eq_left

@[simp] theorem countField_wCI_append (op h : BitVec 7) (d a n : BitVec 6) : fld (wCI op d a (h ++ n)) 0 6 = n :=
  (fld_wCI_i op d a (h ++ n) (by omega)).trans BitVec.extractLsb'_append_eq_right

@[simp] theorem highField_wCR_append (op : BitVec 7) (d a b n : BitVec 6) (h : BitVec 1) : fld (wCR op d a b (h ++ n)) 6 1 = h :=
  (fld_wCR_fn op d a b (h ++ n) (by omega)).trans BitVec.extractLsb'_append_eq_left

@[simp] theorem countField_wCR_append (op : BitVec 7) (d a b n : BitVec 6) (h : BitVec 1) : fld (wCR op d a b (h ++ n)) 0 6 = n :=
  (fld_wCR_fn op d a b (h ++ n) (by omega)).trans BitVec.extractLsb'_append_eq_right

/-! ## What a word decodes to -/

theorem decodeControl_of_parse {w : BitVec 32} {j : Instr} (h : parseControl w = some j) (hl : controlLegal j = true) :
    decodeControl w = some j := by
  simp [decodeControl, h, only, hl]

/-- A word with fields that must be zero is an instruction where `c` says that they are. -/
theorem decodeControl_of_parse_only {w : BitVec 32} {c : Prop} [Decidable c] {j : Instr} (h : parseControl w = only c j)
    (hl : controlLegal j = true) : decodeControl w = if c then some j else none := by
  split
  case isTrue hc => exact decodeControl_of_parse (by simp [h, only, hc]) hl
  case isFalse hc => simp [decodeControl, h, only, hc]

/-- No function of R151 has a limit on its operands. -/
theorem controlLegal_of_walu {d a b : BitVec 6} {n : Nat} {j : Instr} (h : walu d a b n = some j) : controlLegal j = true := by
  unfold walu at h
  split at h <;> cases h <;> rfl

/-- OP 0x10 selects by `fn` (R151). -/
theorem decodeControl_walu {d a b : BitVec 6} {fn : BitVec 7} {j : Instr} (h : walu d a b fn.toNat = some j) :
    decodeControl (wCR 0x10 d a b fn) = some j :=
  decodeControl_of_parse (by simpa [parseControl] using h) (controlLegal_of_walu h)

/-- `fn` is the place of the function in the table of R200. -/
theorem walu_uniformOps (d a b : BitVec 6) : ∀ q ∈ uniformOps.zipIdx, walu d a b (BitVec.ofNat 7 q.2).toNat = some (q.1.1 d a b) := by
  simp [uniformOps, walu]

/-- The operation codes 0x11 to 0x14 (R201). -/
theorem decodeControl_immediateOps (d a : BitVec 6) (i : BitVec 13) :
    ∀ q ∈ immediateOps.zipIdx 0x11, decodeControl (wCI (BitVec.ofNat 7 q.2) d a i) = some (q.1.1 d a i) := by
  intro q hq
  simp only [immediateOps, List.zipIdx_cons, List.zipIdx_nil, List.mem_cons, List.not_mem_nil, or_false] at hq
  rcases hq with rfl | rfl | rfl | rfl <;> exact decodeControl_of_parse (by simp [parseControl]) rfl

/-- The operation codes 0x15 to 0x17 (R201): `h` is imm13[12:6]. -/
theorem decodeControl_immediateShifts (d a n : BitVec 6) (h : BitVec 7) :
    ∀ q ∈ immediateShifts.zipIdx 0x15, decodeControl (wCI (BitVec.ofNat 7 q.2) d a (h ++ n)) =
      if h = 0 then some (q.1.1 d a n) else none := by
  intro q hq
  simp only [immediateShifts, List.zipIdx_cons, List.zipIdx_nil, List.mem_cons, List.not_mem_nil, or_false] at hq
  rcases hq with rfl | rfl | rfl <;> exact decodeControl_of_parse_only (by simp [parseControl, beq_eq_decide]) rfl

/-- The conditions of `brc` have their codes in order (R152). -/
theorem cond_ofCode?_zipIdx : ∀ c ∈ [Cond.eq, .ne, .lt, .ge, .ltu, .geu].zipIdx, Cond.ofCode? (BitVec.ofNat 3 c.2).toNat = some c.1 := by
  decide

theorem decodeControl_brc {c : Cond} {m : BitVec 3} (a b : BitVec 6) (p : BitVec 10) (h : Cond.ofCode? m.toNat = some c) :
    decodeControl (0x03#7 ++ m ++ a ++ b ++ p) = some (.brc c a b p) := by
  rw [cb_eq_wCY]
  exact decodeControl_of_parse (by simp [parseControl, h]) rfl

end Sys2Proof

namespace Sys2Proof.Machine

/-! ## Uniform arithmetic: results and poison (R190, R200 to R202) -/

theorem valueOf_clean {es : List UElem} {v : BitVec 64} (h : ∀ e ∈ es, e.poison = false) : valueOf es v = ⟨v, false⟩ := by
  have hnone : es.find? UElem.poison = none := List.find?_eq_none.2 fun e he => by simp [h e he]
  simp [valueOf, hnone]

theorem valueOf_first {es : List UElem} {e : UElem} {v : BitVec 64} (h : es.find? UElem.poison = some e) :
    valueOf es v = tokElem e.token := by
  simp [valueOf, h]

/-- Clean sources give no token. -/
theorem State.Clean.valueOf_eq {s : State} {rs : List (BitVec 6)} (h : s.Clean rs) (v : BitVec 64) :
    valueOf (rs.map s.wreg) v = ⟨v, false⟩ :=
  valueOf_clean (List.forall_mem_map.2 h)

/-- A form that waits for its uniforms and then writes `w[d]` (R191). -/
theorem State.interlock_setW {s : State} {rs : List (BitVec 6)} (d : BitVec 6) (e : UElem) (h : s.Free rs) :
    s.interlock rs (s.setW d e).done = .next (s.wroteElem d e) := by
  rw [State.interlock_free _ h, State.done_eq, State.setW_advance]

/-- The same with a value of clean sources. -/
theorem State.interlock_setW_clean {s : State} {rs : List (BitVec 6)} (qs : List (BitVec 6)) (d : BitVec 6) (v : BitVec 64)
    (h : s.Free rs) (hc : s.Clean qs) :
    s.interlock rs (s.setW d (valueOf (qs.map s.wreg) v)).done = .next (s.wrote d v) := by
  rw [hc.valueOf_eq v, State.interlock_setW d _ h]
  rfl

section

variable {s : State} {d a b : BitVec 6}

theorem State.wal2_clean (f : BitVec 64 → BitVec 64 → BitVec 64) (h : s.Free [d, a, b]) (hc : s.Clean [a, b]) :
    s.wal2 d a b f = .next (s.wrote d (f (s.wreg a).val (s.wreg b).val)) :=
  State.interlock_setW_clean [a, b] d _ h hc

/-- The first poisoned source gives its token to the destination (R190). -/
theorem State.wal2_poisoned (f : BitVec 64 → BitVec 64 → BitVec 64) {e : UElem} (h : s.Free [d, a, b])
    (he : [s.wreg a, s.wreg b].find? UElem.poison = some e) : s.wal2 d a b f = .next (s.wroteElem d (tokElem e.token)) := by
  rw [State.wal2, valueOf_first he, State.interlock_setW d _ h]

theorem State.wal1_clean (f : BitVec 64 → BitVec 64) (h : s.Free [d, a]) (hc : s.Clean [a]) :
    s.wal1 d a f = .next (s.wrote d (f (s.wreg a).val)) :=
  State.interlock_setW_clean [a] d _ h hc

end

/-- Each register form computes the function of its row (R200). -/
theorem exec_uniformOps (s : State) (d a b : BitVec 6) : ∀ p ∈ uniformOps, exec (p.1 d a b) s = s.wal2 d a b p.2 := by
  have seqw_eq : wSeqw = fun x y => if x = y then 1 else 0 := by
    funext x y
    simp [wSeqw, flagWord]
  have hseqw : exec (.seqw d a b) s = s.wal2 d a b fun x y => if x = y then 1 else 0 := congrArg (s.wal2 d a b) seqw_eq
  simp only [uniformOps, List.forall_mem_cons]
  exact ⟨rfl, rfl, rfl, rfl, rfl, rfl, rfl, rfl, rfl, rfl, rfl, rfl, rfl, rfl, rfl, rfl, rfl, hseqw, List.forall_mem_nil _⟩

/-- Each immediate form computes the function of R200 with the sign-extended immediate (R201). -/
theorem exec_immediateOps (s : State) (d a : BitVec 6) (i : BitVec 13) :
    ∀ p ∈ immediateOps, exec (p.1 d a i) s = s.wal1 d a fun x => p.2 x (i.signExtend 64) := by
  simp only [immediateOps, List.forall_mem_cons]
  exact ⟨rfl, rfl, rfl, rfl, List.forall_mem_nil _⟩

/-- A count of six bits is the shift (R201). -/
theorem shiftOf_setWidth (n : BitVec 6) : shiftOf (n.setWidth 64) = n.toNat := by
  have hlt := n.isLt
  simp only [shiftOf, BitVec.toNat_setWidth]
  omega

theorem exec_immediateShifts (s : State) (d a n : BitVec 6) :
    ∀ p ∈ immediateShifts, exec (p.1 d a n) s = s.wal1 d a fun x => p.2 x n.toNat := by
  rw [← shiftOf_setWidth n]
  simp only [immediateShifts, List.forall_mem_cons]
  exact ⟨rfl, rfl, rfl, List.forall_mem_nil _⟩

theorem exec_sltiw (s : State) (d a : BitVec 6) (i : BitVec 13) :
    exec (.sltiw d a i) s = s.wal1 d a fun x => if x.slt (i.signExtend 64) then 1 else 0 := rfl

theorem exec_liw (s : State) (d : BitVec 6) (k : BitVec 19) :
    exec (.liw d k) s = s.interlock [d] (s.setW d ⟨k.signExtend 64, false⟩).done := rfl

theorem exec_orsw (s : State) (d : BitVec 6) (k : BitVec 19) :
    exec (.orsw d k) s = s.interlock [d] (s.setW d (valueOf [s.wreg d] ((s.wreg d).val <<< 19 ||| k.setWidth 64))).done := rfl

theorem exec_leaw (s : State) (d a b n : BitVec 6) : exec (.leaw d a b n) s = s.wal2 d a b fun x y => x + y <<< n.toNat := rfl

theorem exec_selw (s : State) (d a b : BitVec 6) :
    exec (.selw d a b) s = s.interlock [d, a, b] (s.setW d (valueOf [s.wreg d, s.wreg a, s.wreg b]
      (if (s.wreg d).val ≠ 0 then (s.wreg a).val else (s.wreg b).val))).done := by
  simp only [← bne_iff_ne]
  rfl

/-- Settles O1: the decoder finds the row of R200 by `fn`, and every row is `wal2` of its function. -/
theorem uniformRegisterFormsComplete : Obligations.UniformRegisterFormsComplete := by
  intro s d a b
  refine ⟨fun q hq => decodeControl_walu (walu_uniformOps d a b q hq), by decide, fun hfree p hp => ?_⟩
  rw [exec_uniformOps s d a b p hp]
  exact ⟨State.wal2_clean p.2 hfree,
    fun ha => State.wal2_poisoned p.2 hfree (List.find?_cons_of_pos ha),
    fun ha hb => State.wal2_poisoned p.2 hfree (by rw [List.find?_cons_of_neg (by simp [ha]), List.find?_cons_of_pos hb])⟩

/-- Settles O2: the words by their operation codes, the results through `wal1`, `wal2` and the forms that write `w[d]` themselves. -/
theorem uniformImmediateFormsComplete : Obligations.UniformImmediateFormsComplete := by
  intro s d a b i n k x y im
  refine ⟨decodeControl_immediateOps d a i, fun q hq => ⟨?shift, fun h hh => ?shiftReserved⟩, ?sltiwWord, by decide, ?liwWord, ?orswWord,
    ?leawWord, ?selwWord, fun hfree hclean => ⟨fun p hp => ?immediate, fun p hp => ?count, ?sltiw⟩, fun hfree => ?liw,
    fun hfree hclean => ?orsw, fun hfree hclean => ?leaw, fun hfree hclean => ?selw⟩
  case shift => exact (decodeControl_immediateShifts d a n 0 q hq).trans (if_pos rfl)
  case shiftReserved => exact (decodeControl_immediateShifts d a n h q hq).trans (if_neg hh)
  case sltiwWord => exact decodeControl_of_parse (w := wCI 0x18 d a i) (by simp [parseControl]) rfl
  case liwWord => exact decodeControl_of_parse (w := wCU 0x19 d k) (by simp [parseControl]) rfl
  case orswWord => exact decodeControl_of_parse (w := wCU 0x1A d k) (by simp [parseControl]) rfl
  case leawWord => exact decodeControl_of_parse (w := wCR 0x1B d a b (0#1 ++ n)) (by simp [parseControl, only]) rfl
  case selwWord => exact decodeControl_of_parse (w := wCR 0x1C d a b 0) (by simp [parseControl, only]) rfl
  case immediate => exact (exec_immediateOps s d a i p hp).trans (State.wal1_clean _ hfree hclean)
  case count => exact (exec_immediateShifts s d a n p hp).trans (State.wal1_clean _ hfree hclean)
  case sltiw => exact (exec_sltiw s d a i).trans (State.wal1_clean _ hfree hclean)
  case liw => exact (exec_liw s d k).trans (State.interlock_setW d _ hfree)
  case orsw => exact (exec_orsw s d k).trans (State.interlock_setW_clean [d] d _ hfree hclean)
  case leaw => exact (exec_leaw s d a b n).trans (State.wal2_clean _ hfree hclean)
  case selw => exact (exec_selw s d a b).trans (State.interlock_setW_clean [d, a, b] d _ hfree hclean)

/-! ## Flow (R193) -/

/-- A branch is taken where its condition holds, else the next word follows. -/
theorem State.branchIf_eq (s : State) {c : Bool} {p : Prop} [Decidable p] (t : BitVec 64) (h : c = true ↔ p) :
    s.branchIf c t = .next (if p then s.tookBranch t else s.atPc (s.cur.regs.cpc + 4)) := by
  simp only [State.branchIf, h, State.transfer_eq, State.done_eq, State.advance_eq]
  split <;> rfl

theorem condHolds_eq (c : Cond) (x y : BitVec 64) : condHolds c x y = branchTaken c x y := by
  cases c <;> rfl

section

variable (s : State) (d a b : BitVec 6)

theorem exec_nop : exec .nop s = s.done := rfl

theorem exec_br (o : BitVec 25) : exec (.br o) s = .next (s.transfer (s.target o)) := rfl

theorem exec_call (o : BitVec 25) : exec (.call o) s = s.interlock [63] (.next ((s.setVal 63 (s.pc + 4)).transfer (s.target o))) := rfl

theorem exec_jmpr : exec (.jmpr a) s = s.deciding [a] none (.next (s.transfer (pcOf (s.wreg a).val))) := rfl

theorem exec_callr :
    exec (.callr d a) s = s.deciding [a] (some d) (.next ((s.setVal d (s.pc + 4)).transfer (pcOf (s.wreg a).val))) := rfl

theorem exec_brc (c : Cond) (o : BitVec 10) :
    exec (.brc c a b o) s = s.deciding [a, b] none (s.branchIf (condHolds c (s.wreg a).val (s.wreg b).val) (s.target o)) := rfl

theorem exec_brz (o : BitVec 19) : exec (.brz a o) s = s.deciding [a] none (s.branchIf ((s.wreg a).val == 0) (s.target o)) := rfl

theorem exec_brnz (o : BitVec 19) : exec (.brnz a o) s = s.deciding [a] none (s.branchIf ((s.wreg a).val != 0) (s.target o)) := rfl

end

/-- Each transfer goes to its target, and a call leaves the return address first (R193). -/
theorem transfers_complete : transfersComplete := by
  intro s d a o ret
  refine ⟨exec_nop s, ?br, fun hfree => ?call, fun hfree hclean => ?jmpr, fun hfree hclean => ?callr⟩
  case br => rw [exec_br, State.transfer_eq, State.target_eq]
  case call => rw [exec_call, State.interlock_free _ hfree, State.transfer_eq, State.target_eq]; rfl
  case jmpr => rw [exec_jmpr, State.deciding_clean _ hfree hclean, State.transfer_eq]
  case callr => rw [exec_callr, State.deciding_clean _ hfree hclean, State.transfer_eq]; rfl

/-- A conditional branch on clean operands goes where its condition says (R193). -/
theorem conditional_branches_complete : conditionalBranchesComplete := by
  intro s a b c o p next
  refine ⟨fun hfree hclean => ?brc, fun hfree hclean => ⟨?brz, ?brnz⟩⟩
  case brc => rw [exec_brc, State.deciding_clean _ hfree hclean, State.branchIf_eq s _ (by rw [condHolds_eq]), State.target_eq]
  case brz => rw [exec_brz, State.deciding_clean _ hfree hclean, State.branchIf_eq s _ beq_iff_eq, State.target_eq]
  case brnz => rw [exec_brnz, State.deciding_clean _ hfree hclean, State.branchIf_eq s _ bne_iff_ne, State.target_eq]

theorem flow_words_decode : flowWords := by
  intro d a b o p q f
  refine ⟨?nop, by decide, ?br, ?call, fun c hc => decodeControl_brc a b p (cond_ofCode?_zipIdx c hc), ?brz, ?brnz, ?jmpr, ?callr⟩
  case nop => exact decodeControl_of_parse_only (w := wCJ 0x01 o) (by simp [parseControl, beq_eq_decide]) rfl
  case br => exact decodeControl_of_parse (w := wCJ 0x02 o) (by simp [parseControl]) rfl
  case call => exact decodeControl_of_parse (w := wCJ 0x06 o) (by simp [parseControl]) rfl
  case brz => exact decodeControl_of_parse (w := wCU 0x04 a q) (by simp [parseControl]) rfl
  case brnz => exact decodeControl_of_parse (w := wCU 0x05 a q) (by simp [parseControl]) rfl
  case jmpr => exact decodeControl_of_parse_only (w := wCR 0x07 d a b f) (by simp [parseControl, beq_eq_decide, Bool.and_assoc]) rfl
  case callr => exact decodeControl_of_parse_only (w := wCR 0x08 d a b f) (by simp [parseControl, beq_eq_decide]) rfl

/-- Settles O5: the words, the transfers and the conditional branches, each proved above. -/
theorem controlTransfersComplete : Obligations.ControlTransfersComplete :=
  ⟨flow_words_decode, transfers_complete, conditional_branches_complete⟩

/-! ## `lwait` (R195) -/

theorem exec_lwait_waits {s : State} (h : s.cur.inRun = true ∨ s.cur.regs.laneq ≠ []) : exec .lwait s = .next s.stalled := by
  have hbusy : (s.cur.inRun || !s.cur.regs.laneq.isEmpty) = true := by simpa using h
  exact if_pos hbusy

theorem exec_lwait_goes_on {s : State} (hrun : s.cur.inRun = false) (hq : s.cur.regs.laneq = []) :
    exec .lwait s = (s.onRegs Regs.foldSigs).done := by
  have hidle : ¬(s.cur.inRun || !s.cur.regs.laneq.isEmpty) = true := by simp [hrun, hq]
  exact if_neg hidle

/-- Settles O7: with a run or a block left `lwait` waits, without one it folds and goes on. -/
theorem laneWaitHoldsTheControlStream : Obligations.LaneWaitHoldsTheControlStream := by
  intro s
  refine ⟨by decide, exec_lwait_waits, fun hrun hq => ⟨_, exec_lwait_goes_on hrun hq, ?next, rfl⟩⟩
  case next => exact State.advance_eq _

end Sys2Proof.Machine
end

/-! # PROOFS. The round trips of control words and of lane words (R146 to R159, R260)

Each format's fields are read back whole, also where a format cuts a field in two; the decoder's answer for the word of an instruction follows
from the fields, and the checks of its operands from well-formedness. -/

section
namespace Sys2Proof

/-! ## Fields of a CE word (R147) -/

section
variable (op : BitVec 7) (sub : BitVec 5) (a b c : BitVec 6) (fl : BitVec 2)

@[simp] theorem opField_wCE : fld (wCE op sub a b c fl) 25 7 = op := fld_wCE_op op sub a b c fl
@[simp] theorem subField_wCE : fld (wCE op sub a b c fl) 20 5 = sub := (fld_wCE_sub op sub a b c fl (by omega) (by omega)).trans BitVec.extractLsb'_eq_self
@[simp] theorem aField_wCE : fld (wCE op sub a b c fl) 14 6 = a := (fld_wCE_a op sub a b c fl (by omega) (by omega)).trans BitVec.extractLsb'_eq_self
@[simp] theorem bField_wCE : fld (wCE op sub a b c fl) 8 6 = b := (fld_wCE_b op sub a b c fl (by omega) (by omega)).trans BitVec.extractLsb'_eq_self
@[simp] theorem cField_wCE : fld (wCE op sub a b c fl) 2 6 = c := (fld_wCE_c op sub a b c fl (by omega) (by omega)).trans BitVec.extractLsb'_eq_self
@[simp] theorem flField_wCE : fld (wCE op sub a b c fl) 0 2 = fl := (fld_wCE_fl op sub a b c fl (by omega)).trans BitVec.extractLsb'_eq_self

/-- A CE word with its last two, three and four fields joined. -/
theorem wCE_eq_joined : wCE op sub a b c fl = op ++ sub ++ a ++ b ++ (c ++ fl) ∧
    wCE op sub a b c fl = op ++ sub ++ a ++ (b ++ (c ++ fl)) ∧ wCE op sub a b c fl = op ++ sub ++ (a ++ (b ++ (c ++ fl))) := by
  have h2 : wCE op sub a b c fl = op ++ sub ++ a ++ b ++ (c ++ fl) := BitVec.append_assoc
  have h3 : op ++ sub ++ a ++ b ++ (c ++ fl) = op ++ sub ++ a ++ (b ++ (c ++ fl)) := BitVec.append_assoc
  have h4 : op ++ sub ++ a ++ (b ++ (c ++ fl)) = op ++ sub ++ (a ++ (b ++ (c ++ fl))) := BitVec.append_assoc
  exact ⟨h2, h2.trans h3, h2.trans (h3.trans h4)⟩

@[simp] theorem low8_wCE : fld (wCE op sub a b c fl) 0 8 = c ++ fl := by
  rw [(wCE_eq_joined op sub a b c fl).1]; exact BitVec.extractLsb'_append_eq_right

@[simp] theorem low14_wCE : fld (wCE op sub a b c fl) 0 14 = b ++ (c ++ fl) := by
  rw [(wCE_eq_joined op sub a b c fl).2.1]; exact BitVec.extractLsb'_append_eq_right

@[simp] theorem low20_wCE : fld (wCE op sub a b c fl) 0 20 = a ++ (b ++ (c ++ fl)) := by
  rw [(wCE_eq_joined op sub a b c fl).2.2]; exact BitVec.extractLsb'_append_eq_right

end

/-! ## Fields of a CE word that are cut in two or more (R148) -/

section
variable (op : BitVec 7) (sub : BitVec 5) (a b c : BitVec 6) (fl : BitVec 2)

/-- The copy commands cut SUB into two bits, H and a zero. -/
@[simp] theorem copyTop_wCE (g h : BitVec 2) (z : BitVec 1) : fld (wCE op (g ++ h ++ z) a b c fl) 24 1 = g.extractLsb' 1 1 :=
  (fld_wCE_sub op _ a b c fl (by omega) (by omega)).trans ((extract_hi _ _ (by omega)).trans (extract_hi _ _ (by omega)))
@[simp] theorem copyStore_wCE (g h : BitVec 2) (z : BitVec 1) : fld (wCE op (g ++ h ++ z) a b c fl) 23 1 = g.extractLsb' 0 1 :=
  (fld_wCE_sub op _ a b c fl (by omega) (by omega)).trans ((extract_hi _ _ (by omega)).trans (extract_hi _ _ (by omega)))
@[simp] theorem copyHint_wCE (g h : BitVec 2) (z : BitVec 1) : fld (wCE op (g ++ h ++ z) a b c fl) 21 2 = h :=
  (fld_wCE_sub op _ a b c fl (by omega) (by omega)).trans ((extract_hi _ _ (by omega)).trans BitVec.extractLsb'_append_eq_right)
@[simp] theorem copyZero_wCE (g h : BitVec 2) (z : BitVec 1) : fld (wCE op (g ++ h ++ z) a b c fl) 20 1 = z :=
  (fld_wCE_sub op _ a b c fl (by omega) (by omega)).trans BitVec.extractLsb'_append_eq_right

/-- The batch commands cut SUB into the engine and two zeros. -/
@[simp] theorem engineField_wCE (e : BitVec 3) (z : BitVec 2) : fld (wCE op (e ++ z) a b c fl) 22 3 = e :=
  (fld_wCE_sub op _ a b c fl (by omega) (by omega)).trans BitVec.extractLsb'_append_eq_left
@[simp] theorem engineZero_wCE (e : BitVec 3) (z : BitVec 2) : fld (wCE op (e ++ z) a b c fl) 20 2 = z :=
  (fld_wCE_sub op _ a b c fl (by omega) (by omega)).trans BitVec.extractLsb'_append_eq_right

/-- The accumulator commands cut SUB into two bits and the accumulator. -/
@[simp] theorem accHigh_wCE (k : BitVec 2) (d : BitVec 3) : fld (wCE op (k ++ d) a b c fl) 23 2 = k :=
  (fld_wCE_sub op _ a b c fl (by omega) (by omega)).trans BitVec.extractLsb'_append_eq_left
@[simp] theorem accField_wCE (k : BitVec 2) (d : BitVec 3) : fld (wCE op (k ++ d) a b c fl) 20 3 = d :=
  (fld_wCE_sub op _ a b c fl (by omega) (by omega)).trans BitVec.extractLsb'_append_eq_right

@[simp] theorem tileZero_wCE (z : BitVec 1) (y : BitVec 5) : fld (wCE op sub (z ++ y) b c fl) 19 1 = z :=
  (fld_wCE_a op sub _ b c fl (by omega) (by omega)).trans BitVec.extractLsb'_append_eq_left
@[simp] theorem tileField_wCE (z : BitVec 1) (y : BitVec 5) : fld (wCE op sub (z ++ y) b c fl) 14 5 = y :=
  (fld_wCE_a op sub _ b c fl (by omega) (by omega)).trans BitVec.extractLsb'_append_eq_right

@[simp] theorem cHigh_wCE (z d : BitVec 3) : fld (wCE op sub a b (z ++ d) fl) 5 3 = z :=
  (fld_wCE_c op sub a b _ fl (by omega) (by omega)).trans BitVec.extractLsb'_append_eq_left
@[simp] theorem cLow_wCE (z d : BitVec 3) : fld (wCE op sub a b (z ++ d) fl) 2 3 = d :=
  (fld_wCE_c op sub a b _ fl (by omega) (by omega)).trans BitVec.extractLsb'_append_eq_right

@[simp] theorem flHigh_wCE (f : BitVec 2) : fld (wCE op sub a b c f) 1 1 = f.extractLsb' 1 1 := fld_wCE_fl op sub a b c f (by omega)

/-- A bit is the field of that bit. -/
theorem getLsbD_eq_fld (w : BitVec 32) (i : Nat) : w.getLsbD i = (fld w i 1).getLsbD 0 := by simp [fld]

theorem lowBit_wCE : (wCE op sub a b c fl).getLsbD 0 = fl.getLsbD 0 := by
  rw [getLsbD_eq_fld, fld_wCE_fl op sub a b c fl (by omega)]; simp

theorem flBit_wCE (z : BitVec 1) (t : Bool) : (wCE op sub a b c (z ++ BitVec.ofBool t)).getLsbD 0 = t := by
  rw [lowBit_wCE, BitVec.getLsbD_append]
  cases t <;> rfl

theorem storeBit_wCE (z o : BitVec 1) (t : Bool) (h : BitVec 2) :
    (wCE op (z ++ BitVec.ofBool t ++ h ++ o) a b c fl).getLsbD 23 = t := by
  have h : fld (wCE op (z ++ BitVec.ofBool t ++ h ++ o) a b c fl) 23 1 = BitVec.ofBool t :=
    (copyStore_wCE op a b c fl _ h o).trans BitVec.extractLsb'_append_eq_right
  rw [getLsbD_eq_fld, h]
  cases t <;> rfl

end

@[simp] theorem highBit_append (x y : BitVec 1) : (x ++ y : BitVec 2).extractLsb' 1 1 = x := BitVec.extractLsb'_append_eq_left

/-! ## Words that are written out: CB, the lane block, the region, the praline -/

section
variable (op : BitVec 7)

/-- A word of an operation code, a field of five bits and one of twenty. -/
@[simp] theorem opField_lblk (n : BitVec 5) (i : BitVec 20) : fld (op ++ n ++ i) 25 7 = op :=
  (extract_hi _ _ (by omega)).trans BitVec.extractLsb'_append_eq_left
@[simp] theorem runsField_lblk (n : BitVec 5) (i : BitVec 20) : fld (op ++ n ++ i) 20 5 = n :=
  (extract_hi _ _ (by omega)).trans BitVec.extractLsb'_append_eq_right
@[simp] theorem indexField_lblk (n : BitVec 5) (i : BitVec 20) : fld (op ++ n ++ i) 0 20 = i := BitVec.extractLsb'_append_eq_right

@[simp] theorem opField_rgn (p : BitVec 2) (o : BitVec 23) : fld (op ++ p ++ o) 25 7 = op :=
  (extract_hi _ _ (by omega)).trans BitVec.extractLsb'_append_eq_left
@[simp] theorem policyField_rgn (p : BitVec 2) (o : BitVec 23) : fld (op ++ p ++ o) 23 2 = p :=
  (extract_hi _ _ (by omega)).trans BitVec.extractLsb'_append_eq_right
@[simp] theorem offField_rgn (p : BitVec 2) (o : BitVec 23) : fld (op ++ p ++ o) 0 23 = o := BitVec.extractLsb'_append_eq_right

@[simp] theorem opField_sigchk (z : BitVec 1) (p : BitVec 24) : fld (op ++ z ++ p) 25 7 = op :=
  (extract_hi _ _ (by omega)).trans BitVec.extractLsb'_append_eq_left
@[simp] theorem zeroField_sigchk (z : BitVec 1) (p : BitVec 24) : fld (op ++ z ++ p) 24 1 = z :=
  (extract_hi _ _ (by omega)).trans BitVec.extractLsb'_append_eq_right
@[simp] theorem pralineField_sigchk (z : BitVec 1) (p : BitVec 24) : fld (op ++ z ++ p) 0 24 = p := BitVec.extractLsb'_append_eq_right

@[simp] theorem offField_wCY (e : BitVec 3) (a : BitVec 6) (o : BitVec 16) : fld (wCY op e a o) 0 16 = o :=
  (fld_wCY_o op e a o (by omega)).trans BitVec.extractLsb'_eq_self

@[simp] theorem immHigh_wCU (d : BitVec 6) (z : BitVec 16) (c : BitVec 3) : fld (wCU op d (z ++ c)) 3 16 = z :=
  (fld_wCU_i op d _ (by omega)).trans BitVec.extractLsb'_append_eq_left
@[simp] theorem immLow_wCU (d : BitVec 6) (z : BitVec 16) (c : BitVec 3) : fld (wCU op d (z ++ c)) 0 3 = c :=
  (fld_wCU_i op d _ (by omega)).trans BitVec.extractLsb'_append_eq_right

end

/-! ## Codes -/

@[simp] theorem Cond.ofCode?_code (c : Cond) : Cond.ofCode? c.code.toNat = some c := by cases c <;> rfl
@[simp] theorem Engine.ofCode?_code (e : Engine) : Engine.ofCode? e.code.toNat = some e := by cases e <;> rfl
@[simp] theorem Policy.ofCode?_code (p : Policy) : Policy.ofCode? p.code.toNat = some p := by cases p <;> rfl
@[simp] theorem Scope.ofCode?_code (c : Scope) : Scope.ofCode? c.code.toNat = some c := by cases c <;> rfl
@[simp] theorem FlushMode.ofCode?_code (m : FlushMode) : FlushMode.ofCode? m.code.toNat = some m := by cases m <;> rfl
@[simp] theorem DrainKind.ofCode?_code (k : DrainKind) : DrainKind.ofCode? k.code.toNat = some k := by cases k <;> rfl
@[simp] theorem DrainFmt.ofCode?_code (f : DrainFmt) : DrainFmt.ofCode? f.code.toNat = some f := by cases f <;> rfl

/-! ## The round trip -/

/-- The fields of a control word give back the instruction whose word it is (R150 to R152). -/
theorem parseControl_of_encode {i : Instr} {w : BitVec 32} (h : encodeControl i = some w) : parseControl w = some i := by
  cases i
  case addw | subw | andw | orw | xorw | shlw | shrw | sarw | minw | maxw | minuw | maxuw | mulw | mulhw | mulhuw | sltw | sltuw | seqw =>
    cases h; unfold parseControl
    rw [opField_wCR, dField_wCR, aField_wCR, bField_wCR, fnField_wCR]; rfl
  case jmpr | callr | lblkr | selw | cmt | arrive | waitb | bars | watch | launch | vclaim | vrel | vcdef | stset =>
    cases h; unfold parseControl
    rw [opField_wCR, dField_wCR, aField_wCR, bField_wCR, fnField_wCR]; rfl
  case leaw =>
    cases h; unfold parseControl
    rw [opField_wCR, dField_wCR, aField_wCR, bField_wCR, highField_wCR_append, countField_wCR_append]; rfl
  case addiw | andiw | oriw | xoriw | sltiw | ldw | stw | ldws | stws | mfs | mts =>
    cases h; unfold parseControl
    rw [opField_wCI, dField_wCI, aField_wCI, immField_wCI]; rfl
  case shliw | shriw | sariw =>
    cases h; unfold parseControl
    rw [opField_wCI, dField_wCI, aField_wCI, highField_wCI_append, countField_wCI_append]; rfl
  case vcflush m =>
    cases h; unfold parseControl
    rw [opField_wCI, dField_wCI, aField_wCI, immField_wCI]; cases m <;> rfl
  case nop | br | call | lwait | endg =>
    cases h; unfold parseControl
    rw [opField_wCJ, offField_wCJ]; rfl
  case brz | brnz | brk | sysc | liw | orsw =>
    cases h; unfold parseControl
    rw [opField_wCU, dField_wCU, immField_wCU]; rfl
  case fence sc =>
    cases h; unfold parseControl
    rw [opField_wCU, dField_wCU, immHigh_wCU, immLow_wCU]; cases sc <;> rfl
  case brc c a b o =>
    cases h; unfold parseControl
    rw [cb_eq_wCY, opField_wCY, codeField_wCY, aField_wCY, bField_wCY_append, offField_wCY_append]; cases c <;> rfl
  case yield e _ _ | ewait e _ =>
    cases h; unfold parseControl
    rw [opField_wCY, codeField_wCY, aField_wCY, offField_wCY]; cases e <;> rfl
  case lblk =>
    cases h; unfold parseControl
    rw [opField_lblk, runsField_lblk, indexField_lblk]; rfl
  case rgn p _ =>
    cases h; unfold parseControl
    rw [opField_rgn, policyField_rgn, offField_rgn]; cases p <;> rfl
  case sigchk =>
    cases h; unfold parseControl
    rw [opField_sigchk, zeroField_sigchk, pralineField_sigchk]; rfl
  case efen e _ _ =>
    cases h; unfold parseControl
    rw [opField_wCE, engineField_wCE, engineZero_wCE, aField_wCE, bField_wCE, low8_wCE]; cases e <;> rfl
  case cpy | cpyg | cpyx =>
    cases h; unfold parseControl
    rw [opField_wCE, copyTop_wCE, copyZero_wCE, copyHint_wCE, storeBit_wCE, aField_wCE, bField_wCE, cField_wCE, flField_wCE, highBit_append]; rfl
  case cpyxTt =>
    cases h; unfold parseControl
    rw [opField_wCE, copyTop_wCE, copyStore_wCE, copyZero_wCE, copyHint_wCE, aField_wCE, bField_wCE, cField_wCE, flField_wCE]; rfl
  case tld | tldP | tst | tstP =>
    cases h; unfold parseControl
    rw [opField_wCE, subField_wCE, aField_wCE, bField_wCE, cField_wCE, flHigh_wCE, highBit_append, flBit_wCE]; rfl
  case mma | mmas =>
    cases h; unfold parseControl
    rw [opField_wCE, subField_wCE, tileZero_wCE, tileField_wCE, bField_wCE, cHigh_wCE, cLow_wCE, flField_wCE]; rfl
  case drn k _ _ _ f _ =>
    cases h; unfold parseControl
    rw [opField_wCE, accHigh_wCE, accField_wCE, aField_wCE, bField_wCE, cHigh_wCE, cLow_wCE, flHigh_wCE, highBit_append, flBit_wCE,
      DrainKind.ofCode?_code, DrainFmt.ofCode?_code]; rfl
  case azr =>
    cases h; unfold parseControl
    rw [opField_wCE, accHigh_wCE, accField_wCE, low20_wCE]; rfl
  case ald | aldMem =>
    cases h; unfold parseControl
    rw [opField_wCE, accHigh_wCE, accField_wCE, aField_wCE, bField_wCE, cField_wCE, flHigh_wCE, lowBit_wCE]; rfl
  case cwait | sropen | srjoin | shoot =>
    cases h; unfold parseControl
    rw [opField_wCE, subField_wCE, aField_wCE, bField_wCE, cField_wCE, flField_wCE]; rfl
  case nsend | nwrite | nread | npost | snap | sload | manif =>
    cases h; unfold parseControl
    rw [opField_wCE, subField_wCE, aField_wCE, low14_wCE]; rfl
  all_goals cases h

/-- Settles O55: the fields give the instruction back, and a well-formed one keeps the limits on its operands. -/
theorem controlWordsRoundTrip : Obligations.ControlWordsRoundTrip := by
  intro i w hwf hw
  have hlegal : controlLegal i = true := (Bool.and_eq_true_iff.1 hwf).1
  exact decodeControl_of_parse (parseControl_of_encode hw) hlegal

end Sys2Proof
end

section
namespace Sys2Proof

/-! ## Lane words: the parts (R153 to R157) -/

@[simp] theorem Bc.ofCode?_code (b : Bc) : Bc.ofCode? b.code.toNat = some b := by cases b <;> rfl
@[simp] theorem Sat.ofCode_code (m : Sat) : Sat.ofCode m.code.toNat = m := by cases m <;> rfl
@[simp] theorem Rm.ofCode?_code (r : Rm) : Rm.ofCode? r.code.toNat = some r := by cases r <;> rfl
@[simp] theorem Ty.ofCode?_code (t : Ty) : Ty.ofCode? (BitVec.ofNat 5 t.code).toNat = some t := by cases t <;> rfl

/-- A bit of the high part of two joined fields. -/
theorem getLsbD_append_hi {n m i : Nat} (x : BitVec n) (y : BitVec m) (h : m ≤ i) : (x ++ y).getLsbD i = x.getLsbD (i - m) := by
  rw [BitVec.getLsbD_append, if_neg (by omega)]

/-- A bit of the low part. -/
theorem getLsbD_append_lo {n m i : Nat} (x : BitVec n) (y : BitVec m) (h : i < m) : (x ++ y).getLsbD i = y.getLsbD i := by
  rw [BitVec.getLsbD_append, if_pos h]

@[simp] theorem getLsbD_ofBool_zero (b : Bool) : (BitVec.ofBool b).getLsbD 0 = b := by cases b <;> rfl

/-- KIND, NUM and BC of a source field. -/
theorem srcFields (k : BitVec 2) (n : BitVec 8) (b : BitVec 2) :
    (k ++ n ++ b).extractLsb' 10 2 = k ∧ (k ++ n ++ b).extractLsb' 2 8 = n ∧ (k ++ n ++ b).extractLsb' 0 2 = b :=
  ⟨(extract_hi _ _ (by omega)).trans BitVec.extractLsb'_append_eq_left,
    (extract_hi _ _ (by omega)).trans BitVec.extractLsb'_append_eq_right, BitVec.extractLsb'_append_eq_right⟩

theorem parseSrc_encode (r : Src) : parseSrc r.encode = some r := by
  unfold parseSrc
  cases r with
  | vec n b =>
    obtain ⟨hk, hn, hb⟩ := srcFields 0#2 n b.code
    rw [show (Src.vec n b).encode = 0#2 ++ n ++ b.code from rfl, hk, hn, hb]
    cases b <;> rfl
  | lat n =>
    obtain ⟨hk, hn, hb⟩ := srcFields 1#2 (0#6 ++ n) 0#2
    rw [show (Src.lat n).encode = 1#2 ++ (0#6 ++ n) ++ 0#2 from rfl, hk, hn, hb]
    have h1 : (0#6 ++ n : BitVec 8).extractLsb' 2 6 = 0#6 := BitVec.extractLsb'_append_eq_left
    have h2 : (0#6 ++ n : BitVec 8).extractLsb' 0 2 = n := BitVec.extractLsb'_append_eq_right
    dsimp only
    rw [h1, h2]; rfl
  | unif n =>
    obtain ⟨hk, hn, hb⟩ := srcFields 2#2 (0#2 ++ n) 0#2
    rw [show (Src.unif n).encode = 2#2 ++ (0#2 ++ n) ++ 0#2 from rfl, hk, hn, hb]
    have h1 : (0#2 ++ n : BitVec 8).extractLsb' 6 2 = 0#2 := BitVec.extractLsb'_append_eq_left
    have h2 : (0#2 ++ n : BitVec 8).extractLsb' 0 6 = n := BitVec.extractLsb'_append_eq_right
    dsimp only
    rw [h1, h2]; rfl
  | imm high => cases high <;> rfl

theorem parseGuard_encode (g : Option Guard) : parseGuard (encodeGuard g) = some g := by
  cases g with
  | none => rfl
  | some g =>
    obtain ⟨inv, p⟩ := g
    have h : (1#1 ++ BitVec.ofBool inv ++ p).extractLsb' 0 4 = p := BitVec.extractLsb'_append_eq_right
    have hEn : (1#1 ++ BitVec.ofBool inv ++ p).getLsbD 5 = true := (getLsbD_append_hi _ _ (by omega)).trans (getLsbD_append_hi _ _ (by omega))
    have hInv : (1#1 ++ BitVec.ofBool inv ++ p).getLsbD 4 = inv :=
      (getLsbD_append_hi _ _ (by omega)).trans ((getLsbD_append_lo _ _ (by omega)).trans (getLsbD_ofBool_zero inv))
    unfold parseGuard encodeGuard
    rw [hEn, hInv, h]
    rfl

theorem parseDst_encode (d : Dst) : parseDst d.encode = d := by
  obtain ⟨ws, dl, num⟩ := d
  have h1 : (BitVec.ofBool ws ++ dl ++ num).extractLsb' 8 2 = dl := (extract_hi _ _ (by omega)).trans BitVec.extractLsb'_append_eq_right
  have h2 : (BitVec.ofBool ws ++ dl ++ num).extractLsb' 0 8 = num := BitVec.extractLsb'_append_eq_right
  have h0 : (BitVec.ofBool ws ++ dl ++ num).getLsbD 10 = ws :=
    (getLsbD_append_hi _ _ (by omega)).trans ((getLsbD_append_hi _ _ (by omega)).trans (getLsbD_ofBool_zero ws))
  unfold parseDst Dst.encode
  rw [h0, h1, h2]

/-- SAT, NEG, ABS, SCALE, RM and the zeros of a modifier word. -/
theorem modsFields (a : BitVec 2) (b c : BitVec 3) (d : BitVec 6) (e : BitVec 3) (z : BitVec 15) :
    (a ++ b ++ c ++ d ++ e ++ z).extractLsb' 30 2 = a ∧ (a ++ b ++ c ++ d ++ e ++ z).extractLsb' 27 3 = b ∧
    (a ++ b ++ c ++ d ++ e ++ z).extractLsb' 24 3 = c ∧ (a ++ b ++ c ++ d ++ e ++ z).extractLsb' 18 6 = d ∧
    (a ++ b ++ c ++ d ++ e ++ z).extractLsb' 15 3 = e ∧ (a ++ b ++ c ++ d ++ e ++ z).extractLsb' 0 15 = z := by
  refine ⟨?_, ?_, ?_, ?_, ?_, BitVec.extractLsb'_append_eq_right⟩
  · iterate 4 refine (extract_hi _ _ (by omega)).trans ?_
    exact BitVec.extractLsb'_append_eq_left
  · iterate 4 refine (extract_hi _ _ (by omega)).trans ?_
    exact BitVec.extractLsb'_append_eq_right
  · iterate 3 refine (extract_hi _ _ (by omega)).trans ?_
    exact BitVec.extractLsb'_append_eq_right
  · iterate 2 refine (extract_hi _ _ (by omega)).trans ?_
    exact BitVec.extractLsb'_append_eq_right
  · exact (extract_hi _ _ (by omega)).trans BitVec.extractLsb'_append_eq_right

theorem parseMods_encode (m : Mods) : parseMods m.encode = some m := by
  obtain ⟨sat, neg, abs, scale, rm⟩ := m
  obtain ⟨hsat, hneg, habs, hscale, hrm, hzero⟩ := modsFields sat.code neg abs scale rm.code 0#15
  unfold parseMods Mods.encode
  rw [hzero, hrm, hsat, hneg, habs, hscale, Rm.ofCode?_code, Sat.ofCode_code]
  rfl

/-! ## Lane words: the fields of R153 -/

section

variable (x : LOp) (op : BitVec 10)

/-- The lane word by its fields, the upper two bits as bit vectors. -/
theorem LOp.encode_fields :
    laneOp (x.encode op) = op ∧ (x.encode op).extractLsb' 78 6 = encodeGuard x.guard ∧ (x.encode op).extractLsb' 67 11 = x.dst.encode ∧
    (x.encode op).extractLsb' 55 12 = x.s0.encode ∧ (x.encode op).extractLsb' 43 12 = x.s1.encode ∧
    (x.encode op).extractLsb' 31 12 = x.s2.encode ∧ (x.encode op).extractLsb' 25 6 = x.bl ∧
    (x.encode op).extractLsb' 20 5 = BitVec.ofNat 5 x.ty.code ∧ (x.encode op).extractLsb' 16 4 = x.fn ∧ (x.encode op).extractLsb' 0 16 = x.imm := by
  unfold laneOp LOp.encode
  refine ⟨?_, ?_, ?_, ?_, ?_, ?_, ?_, ?_, ?_, BitVec.extractLsb'_append_eq_right⟩
  · iterate 9 refine (extract_hi _ _ (by omega)).trans ?_
    exact BitVec.extractLsb'_append_eq_right
  · iterate 8 refine (extract_hi _ _ (by omega)).trans ?_
    exact BitVec.extractLsb'_append_eq_right
  · iterate 7 refine (extract_hi _ _ (by omega)).trans ?_
    exact BitVec.extractLsb'_append_eq_right
  · iterate 6 refine (extract_hi _ _ (by omega)).trans ?_
    exact BitVec.extractLsb'_append_eq_right
  · iterate 5 refine (extract_hi _ _ (by omega)).trans ?_
    exact BitVec.extractLsb'_append_eq_right
  · iterate 4 refine (extract_hi _ _ (by omega)).trans ?_
    exact BitVec.extractLsb'_append_eq_right
  · iterate 3 refine (extract_hi _ _ (by omega)).trans ?_
    exact BitVec.extractLsb'_append_eq_right
  · iterate 2 refine (extract_hi _ _ (by omega)).trans ?_
    exact BitVec.extractLsb'_append_eq_right
  · exact (extract_hi _ _ (by omega)).trans BitVec.extractLsb'_append_eq_right

theorem laneHasMods_encode : laneHasMods (x.encode op) = x.mods.isSome := by
  unfold laneHasMods LOp.encode
  iterate 10 refine (getLsbD_append_hi _ _ (by omega)).trans ?_
  exact (getLsbD_append_lo _ _ (by omega)).trans (getLsbD_ofBool_zero _)

theorem laneEndsRun_encode : laneEndsRun (x.encode op) = x.last := by
  unfold laneEndsRun LOp.encode
  iterate 11 refine (getLsbD_append_hi _ _ (by omega)).trans ?_
  exact getLsbD_ofBool_zero _

/-- The operand fields read back whole, with the modifier word where bit M says that one follows. -/
theorem parseLOp_encode : parseLOp (x.encode op) ((x.mods.map Mods.encode).getD 0) = some x := by
  obtain ⟨-, hg, hd, h0, h1, h2, hbl, hty, hfn, himm⟩ := x.encode_fields op
  unfold parseLOp
  rw [laneHasMods_encode, laneEndsRun_encode, hg, hd, h0, h1, h2, hbl, hty, hfn, himm, parseGuard_encode, parseSrc_encode, parseSrc_encode,
    parseSrc_encode, Ty.ofCode?_code, parseDst_encode]
  obtain ⟨last, guard, dst, s0, s1, s2, bl, ty, fn, imm, mods⟩ := x
  cases mods with
  | none => rfl
  | some m => simp [parseMods_encode]

end

/-! ## Lane words: opcodes (R159) -/

/-- Each form's opcode is the instruction's own, fits its ten bits and is not that of `lsig`. -/
theorem mkLane_of_form {i : Instr} {x : LOp} {F : Form} (h : laneForm i = some (x, F)) :
    mkLane F.op x = some i ∧ (BitVec.ofNat 10 F.op).toNat = F.op ∧ (BitVec.ofNat 10 F.op == 0x074) = false := by
  cases i
  case movp y =>
    obtain ⟨rfl, rfl⟩ := Prod.mk.inj (Option.some.inj h)
    split <;> exact ⟨rfl, rfl, rfl⟩
  all_goals cases h
  all_goals exact ⟨rfl, rfl, rfl⟩

/-- The lane words of an instruction that has a form. -/
theorem encodeLane_of_form {i : Instr} {x : LOp} {F : Form} (h : laneForm i = some (x, F)) :
    encodeLane i = some (x.encode (BitVec.ofNat 10 F.op), x.mods.map Mods.encode) := by
  cases i
  case lsig => cases h
  all_goals exact congrArg (Option.map fun q : LOp × Form => (q.1.encode (BitVec.ofNat 10 q.2.op), q.1.mods.map Mods.encode)) h

/-- `lsig` and the instructions with a form are the ones that have lane words. -/
theorem lsig_or_form_of_encodeLane {i : Instr} {p : BitVec 96 × Option (BitVec 32)} (h : encodeLane i = some p) :
    (∃ last q, i = .lsig last q) ∨ ∃ x F, laneForm i = some (x, F) := by
  cases hf : laneForm i with
  | some f => exact .inr ⟨f.1, f.2, rfl⟩
  | none =>
    left
    cases i
    case lsig last q => exact ⟨last, q, rfl⟩
    all_goals
      replace h := (congrArg (Option.map fun q : LOp × Form => (q.1.encode (BitVec.ofNat 10 q.2.op), q.1.mods.map Mods.encode)) hf).symm.trans h
      cases h

/-- The fields of a word with the layout of `lsig` (R260). -/
theorem lsigFields (b m : BitVec 1) (op : BitVec 10) (z : BitVec 60) (f t : BitVec 4) (i : BitVec 16) :
    (b ++ m ++ op ++ z ++ f ++ t ++ i).getLsbD 95 = b.getLsbD 0 ∧ (b ++ m ++ op ++ z ++ f ++ t ++ i).getLsbD 94 = m.getLsbD 0 ∧
    (b ++ m ++ op ++ z ++ f ++ t ++ i).extractLsb' 84 10 = op ∧ (b ++ m ++ op ++ z ++ f ++ t ++ i).extractLsb' 24 60 = z ∧
    (b ++ m ++ op ++ z ++ f ++ t ++ i).extractLsb' 20 4 = f ∧ (b ++ m ++ op ++ z ++ f ++ t ++ i).extractLsb' 16 4 = t ∧
    (b ++ m ++ op ++ z ++ f ++ t ++ i).extractLsb' 0 16 = i := by
  refine ⟨?_, ?_, ?_, ?_, ?_, ?_, BitVec.extractLsb'_append_eq_right⟩
  · iterate 5 refine (getLsbD_append_hi _ _ (by omega)).trans ?_
    exact getLsbD_append_hi _ _ (by omega)
  · iterate 5 refine (getLsbD_append_hi _ _ (by omega)).trans ?_
    exact getLsbD_append_lo _ _ (by omega)
  · iterate 4 refine (extract_hi _ _ (by omega)).trans ?_
    exact BitVec.extractLsb'_append_eq_right
  · iterate 3 refine (extract_hi _ _ (by omega)).trans ?_
    exact BitVec.extractLsb'_append_eq_right
  · iterate 2 refine (extract_hi _ _ (by omega)).trans ?_
    exact BitVec.extractLsb'_append_eq_right
  · exact (extract_hi _ _ (by omega)).trans BitVec.extractLsb'_append_eq_right

/-- The three parts of a praline joined again. -/
theorem praline_fields (p : BitVec 24) : p.extractLsb' 20 4 ++ p.extractLsb' 16 4 ++ p.extractLsb' 0 16 = p := by
  apply BitVec.eq_of_getLsbD_eq
  intro i hi
  rcases lt_or_ge i 16 with h16 | h16
  · rw [getLsbD_append_lo _ _ h16]; simp [h16]
  · rw [getLsbD_append_hi _ _ h16]
    rcases lt_or_ge (i - 16) 4 with h20 | h20
    · rw [getLsbD_append_lo _ _ h20]; simp [h20, Nat.add_sub_cancel' h16]
    · rw [getLsbD_append_hi _ _ h20]; simp [show i - 16 - 4 < 4 by omega, show 20 + (i - 16 - 4) = i by omega]

/-- The praline of `lsig` stands in three fields (R260). -/
theorem decodeLane_lsig (last : Bool) (p : BitVec 24) (m : BitVec 32) :
    decodeLane (BitVec.ofBool last ++ 0#1 ++ 0x074#10 ++ 0#60 ++ p.extractLsb' 16 4 ++ p.extractLsb' 20 4 ++ p.extractLsb' 0 16) m =
      some (.lsig last p) := by
  obtain ⟨hlast, hmods, hop, hzero, hfn, hty, himm⟩ :=
    lsigFields (BitVec.ofBool last) 0#1 0x074#10 0#60 (p.extractLsb' 16 4) (p.extractLsb' 20 4) (p.extractLsb' 0 16)
  unfold decodeLane laneOp
  have hcode : ((0x074#10 : BitVec 10) == 0x074) = true := rfl
  rw [hop, if_pos hcode]
  unfold parseLsig laneHasMods laneEndsRun
  rw [hzero, hmods, hlast, hfn, hty, himm, praline_fields, getLsbD_ofBool_zero]
  rfl

/-- A legal instruction with a form comes back from its words. -/
theorem decodeLane_of_form {i : Instr} {x : LOp} {F : Form} (h : laneForm i = some (x, F)) (hl : legal i = true) :
    decodeLane (x.encode (BitVec.ofNat 10 F.op)) ((x.mods.map Mods.encode).getD 0) = some i := by
  obtain ⟨hmk, hop, hne⟩ := mkLane_of_form h
  obtain ⟨hcode, -⟩ := x.encode_fields (BitVec.ofNat 10 F.op)
  unfold decodeLane
  rw [hcode, if_neg (Bool.eq_false_iff.1 hne), parseLOp_encode, hop]
  simp only [hmk, hl, only, if_true]

/-- Settles O56: `lsig` by its own layout, every other lane instruction by its form's opcode and the fields of R153. -/
theorem laneWordsRoundTrip : Obligations.LaneWordsRoundTrip := by
  intro i w m hwf hw
  rcases lsig_or_form_of_encodeLane hw with ⟨last, p, rfl⟩ | ⟨x, F, hform⟩
  · cases hw
    exact ⟨decodeLane_lsig last p _, (lsigFields (BitVec.ofBool last) 0#1 0x074#10 0#60 _ _ _).2.1⟩
  · rw [encodeLane_of_form hform] at hw
    cases hw
    exact ⟨decodeLane_of_form hform hwf, (laneHasMods_encode x _).trans (by cases x.mods <;> rfl)⟩

end Sys2Proof
end

section
namespace Sys2Proof.Machine

/-! # PROOFS. Every step leaves legal registers (R133, R141)

Every turn that goes on ends in `endTurn`, whose last change of the groups is `Group.tidy`. -/

/-- A tidied group holds only bits that it has: tidying twice is tidying once. -/
theorem Group.tidy_legal (g : Group) : g.tidy.Legal := by
  refine ⟨pcOf_pcOf _, ?_⟩
  have lanes (m : BitVec 64) : g.regs.exm &&& m &&& m = g.regs.exm &&& m := by rw [BitVec.and_assoc, BitVec.and_self]
  exact lanes _

/-- The last change that a turn makes to the groups. -/
theorem State.endTurn_groups (s old : State) (waits : Bool) :
    (s.endTurn old waits).groups =
      (if waits then s.onCur Group.unbegun else s.mapGroups fun g => { g with stall := false, lstall := false }).publishCounts.stampTeams.groups.map
        Group.tidy := by
  cases waits <;> rfl

/-- Every group is legal at the end of a turn, whatever the turn left. -/
theorem State.endTurn_legal (s old : State) (waits : Bool) : (s.endTurn old waits).Legal := by
  intro g hg
  rw [State.endTurn_groups] at hg
  obtain ⟨g', -, rfl⟩ := List.mem_map.1 hg
  exact g'.tidy_legal

/-- A step that goes on is the end of some turn. -/
theorem step_next {s t : State} (h : step s = .next t) : ∃ (u : State) (waits : Bool), t = u.endTurn s waits := by
  unfold step at h
  split at h
  case h_1 => cases h
  case h_2 u _ =>
    cases h
    split
    · exact ⟨_, _, rfl⟩
    · exact ⟨_, _, rfl⟩
  case h_3 k i u _ =>
    split at h
    case h_1 v _ =>
      cases h
      split
      · exact ⟨_, _, rfl⟩
      · exact ⟨_, _, rfl⟩
    case h_2 => cases h
    case h_3 => cases h

/-- Settles O58: a step that goes on is the end of a turn, and that leaves every group legal. -/
theorem stepKeepsLegal : Obligations.StepKeepsLegal := by
  intro s t h
  obtain ⟨u, waits, rfl⟩ := step_next h
  exact u.endTurn_legal s waits

/-! # PROOFS. Memory reads what was written (R2) -/

theorem memGet_cons (x : Nat) (v : Byte) (m : Mem) (i : Nat) : memGet ((x, v) :: m) i = if i = x then v else memGet m i := by
  simp only [memGet, beq_iff_eq, eq_comm (a := i)]

/-- A byte written is read back, every other byte stays. -/
theorem memGet_memSet {m : Mem} {lo : Nat} (hm : memWfFrom lo m = true) (a i : Nat) (b : Byte) :
    memGet (memSet m a b) i = if i = a then b else memGet m i := by
  induction m generalizing lo with
  | nil =>
    unfold memSet
    split
    case isTrue hb => simp [memGet, ← beq_iff_eq.1 hb]
    case isFalse => exact memGet_cons a b [] i
  | cons c m ih =>
    obtain ⟨x, v⟩ := c
    simp only [memWfFrom, Bool.and_eq_true] at hm
    have below (h : i ≤ x) : memGet m i = unlisted := memGet_below hm.2 (by omega)
    unfold memSet
    split
    case isTrue hlt =>
      rw [memGet_cons, memGet_cons, ih hm.2]
      by_cases hx : i = x
      · rw [if_pos hx, if_neg (by omega), if_pos hx]
      · rw [if_neg hx, if_neg hx]
    case isFalse hge =>
      split
      case isTrue hx =>
        obtain rfl : x = a := beq_iff_eq.1 hx
        rw [memGet_cons]
        split
        case isTrue hb =>
          by_cases hi : i = x
          · rw [if_pos hi, below hi.le, beq_iff_eq.1 hb]
          · rw [if_neg hi, if_neg hi]
        case isFalse =>
          rw [memGet_cons]
          by_cases hi : i = x
          · rw [if_pos hi, if_pos hi]
          · rw [if_neg hi, if_neg hi, if_neg hi]
      case isFalse hx =>
        have hax : a < x := by have := beq_eq_false_iff_ne.1 (Bool.eq_false_iff.2 hx); omega
        split
        case isTrue hb =>
          by_cases hi : i = a
          · rw [if_pos hi, memGet_cons, if_neg (by omega), below (by omega), beq_iff_eq.1 hb]
          · rw [if_neg hi]
        case isFalse => exact memGet_cons a b _ i

/-- Bytes written from an address on are read back, every other byte stays. -/
theorem memGet_memWrite {m : Mem} (hm : Memory.wf m = true) (a i : Nat) (bs : List Byte) :
    memGet (memWrite m a bs) i = if a ≤ i ∧ i < a + bs.length then bs.getD (i - a) 0 else memGet m i := by
  induction bs generalizing m a with
  | nil => simp only [memWrite, List.length_nil]; rw [if_neg (by omega)]
  | cons b bs ih =>
    simp only [memWrite, ih (memSet_wf a b hm), memGet_memSet hm, List.length_cons]
    rcases lt_trichotomy i a with h | rfl | h
    · rw [if_neg (by omega), if_neg (by omega), if_neg (by omega)]
    · rw [if_neg (by omega), if_pos rfl, if_pos (by omega), Nat.sub_self, List.getD_cons_zero]
    · obtain ⟨k, rfl⟩ : ∃ k, i = a + 1 + k := ⟨i - (a + 1), by omega⟩
      have hk : a + 1 + k - a = k + 1 := by omega
      rw [Nat.add_sub_cancel_left, hk, List.getD_cons_succ]
      by_cases hlt : k < bs.length
      · rw [if_pos (by omega), if_pos (by omega)]
      · rw [if_neg (by omega), if_neg (by omega), if_neg (by omega)]

/-- Settles O59: the byte rule, its iteration over a list of bytes, and the bytes of the range one by one. -/
theorem memoryReadsWhatWasWritten : Obligations.MemoryReadsWhatWasWritten := by
  intro m a i b bs hm
  refine ⟨memGet_memSet hm a i b, memGet_memWrite hm a i bs, List.ext_getElem (memBytes_length _ _ _) fun j h1 h2 => ?_⟩
  rw [memBytes_get, memGet_memWrite hm, if_pos (by omega), Nat.add_sub_cancel_left]
  simp [h2]

end Sys2Proof.Machine
end

section
namespace Sys2Proof.Machine

/-! # PROOFS. Uniform arithmetic: poison and frame; yielding, ending, trapping, waiting, fences, barriers, checks (R190 to R218)

A control instruction is read as a shared operation around an action; the operation's law (Laws/Ops.lean) leaves the action, and what the
action leaves is the state that the statement names. -/

/-! ## Shared operations -/

/-- Decision operands that are free and clean, then a commit: the action remains, in the state after the commit (R189, R190). -/
theorem State.deciding_closing {s u : State} {rs : List (BitVec 6)} {drain : Bool} (act : State → Ans) (hf : s.Free rs) (hc : s.Clean rs)
    (hu : s.Commits drain u) : s.deciding rs none (s.closing drain act) = act u := by
  rw [State.deciding_clean _ (by simpa using hf) hc, State.closing_commits act hu]

/-- The same for an instruction that also waits for its destination. -/
theorem State.deciding_closing_dest {s u : State} {rs : List (BitVec 6)} {d : BitVec 6} {drain : Bool} (act : State → Ans)
    (hf : s.Free (rs ++ [d])) (hc : s.Clean rs) (hu : s.Commits drain u) : s.deciding rs (some d) (s.closing drain act) = act u := by
  rw [State.deciding_clean _ hf hc, State.closing_commits act hu]

/-- Uniforms among free ones are free. -/
theorem State.Free.subset {s : State} {rs qs : List (BitVec 6)} (h : s.Free rs) (hsub : qs ⊆ rs) : s.Free qs := by
  simp only [State.Free, List.any_eq_false] at h ⊢
  exact fun r hr => h r (hsub hr)

/-- Waiting in a phase: the PC goes on, a new chunk opens (R189). -/
theorem State.await_eq (s : State) (w : Wait) : s.await w = s.waitsIn (.wait w) := rfl

theorem State.park_advance_eq (s : State) (p : Park) : s.advance.park p = s.waitsIn (.parked p) := rfl

/-! ## Poison through the immediate forms (R190) -/

/-- A one-source form gives the token of its poisoned source to the destination. -/
theorem State.wal1_poisoned {s : State} {d a : BitVec 6} (f : BitVec 64 → BitVec 64) (h : s.Free [d, a]) (ha : (s.wreg a).poison = true) :
    s.wal1 d a f = .next (s.wroteElem d (tokElem (s.wreg a).token)) := by
  rw [State.wal1, valueOf_first (List.find?_cons_of_pos ha), State.interlock_setW d _ h]

/-- `selw` gives the token of the first poisoned one of its condition and its two operands (log 15). -/
theorem exec_selw_poisoned {s : State} {d a b : BitVec 6} {e : UElem} (h : s.Free [d, a, b])
    (he : [s.wreg d, s.wreg a, s.wreg b].find? UElem.poison = some e) :
    exec (.selw d a b) s = .next (s.wroteElem d (tokElem e.token)) := by
  rw [exec_selw, valueOf_first he, State.interlock_setW d _ h]

/-- Settles O3: each form is `wal1`, `wal2` or an interlocked write, whose first poisoned source decides. -/
theorem uniformPoisonPasses : Obligations.UniformPoisonPasses := by
  intro s d a b i n k hfree gives
  have free_da : s.Free [d, a] := hfree.subset (by simp)
  have free_d : s.Free [d] := hfree.subset (by simp)
  refine ⟨fun ha => ⟨fun p hp => ?immediate, fun p hp => ?shift, ?sltiw, ?leawFirst⟩, fun ha hb => ?leawSecond, fun hd => ⟨?orsw, ?condition⟩,
    fun hd ha => ?first, fun hd ha hb => ?second⟩
  case immediate => exact (exec_immediateOps s d a i p hp).trans (State.wal1_poisoned _ free_da ha)
  case shift => exact (exec_immediateShifts s d a n p hp).trans (State.wal1_poisoned _ free_da ha)
  case sltiw => exact (exec_sltiw s d a i).trans (State.wal1_poisoned _ free_da ha)
  case leawFirst => exact (exec_leaw s d a b n).trans (State.wal2_poisoned _ hfree (List.find?_cons_of_pos ha))
  case leawSecond => exact (exec_leaw s d a b n).trans (State.wal2_poisoned _ hfree (by simp [ha, hb]))
  case orsw =>
    show exec (.orsw d k) s = _
    rw [exec_orsw, valueOf_first (List.find?_cons_of_pos hd), State.interlock_setW d _ free_d]
  case condition => exact exec_selw_poisoned hfree (by simp [hd])
  case first => exact exec_selw_poisoned hfree (by simp [hd, ha])
  case second => exact exec_selw_poisoned hfree (by simp [hd, ha, hb])

/-! ## The frame of the uniform arithmetic (R200 to R202) -/

/-- What a uniform form leaves: only `w[d]`, the PC and the mark of a waiting stream may differ. -/
def State.SameButUniform (s t : State) (d : BitVec 6) : Prop :=
  t = { s with cur := { s.cur with stall := t.cur.stall, regs := { s.cur.regs with w := t.cur.regs.w, cpc := t.cur.regs.cpc } } } ∧
  ∀ r : Nat, r ≠ d.toNat → t.cur.regs.w[r]? = s.cur.regs.w[r]?

/-- An interlocked write waits or writes: either way it keeps the frame. -/
theorem State.interlock_setW_frame {s t : State} {rs : List (BitVec 6)} {d : BitVec 6} {e : UElem}
    (h : s.interlock rs (s.setW d e).done = .next t) : s.SameButUniform t d := by
  unfold State.interlock at h
  split at h
  case isTrue => cases h; exact ⟨rfl, fun _ _ => rfl⟩
  case isFalse => cases h; exact ⟨rfl, fun r hr => List.getElem?_set_ne hr.symm⟩

/-- Every uniform form is an interlocked write of `w[d]`. -/
theorem exec_uniformForms_write (s : State) (d a b : BitVec 6) (i : BitVec 13) (n : BitVec 6) (k : BitVec 19) :
    ∀ j ∈ uniformForms d a b i n k, ∃ rs e, exec j s = s.interlock rs (s.setW d e).done := by
  intro j hj
  rcases List.mem_append.1 hj with hop | himm
  · obtain ⟨p, hp, rfl⟩ := List.mem_map.1 hop
    exact ⟨_, _, exec_uniformOps s d a b p hp⟩
  · simp only [List.mem_cons, List.not_mem_nil, or_false] at himm
    rcases himm with rfl | rfl | rfl | rfl | rfl | rfl | rfl | rfl | rfl | rfl | rfl | rfl <;> exact ⟨_, _, rfl⟩

/-- The bytes of memory do not depend on the current group. -/
theorem State.byteAt_cur (s : State) (g : Group) (m : Nat) : ({ s with cur := g } : State).byteAt m = s.byteAt m := rfl

/-- Settles O4: every form is an interlocked write of `w[d]`, which keeps the frame. -/
theorem uniformFormsFrame : Obligations.UniformFormsFrame := by
  intro s t d a b i n k j hj h
  obtain ⟨rs, e, hwrite⟩ := exec_uniformForms_write s d a b i n k j hj
  obtain ⟨hframe, hothers⟩ := State.interlock_setW_frame (hwrite.symm.trans h)
  refine ⟨hframe, hothers, ?v, ?p, fun m => ?bytes⟩
  case v => rw [hframe]
  case p => rw [hframe]
  case bytes => rw [hframe]; exact State.byteAt_cur s _ m

/-! ## `yield` and `end` (R196, R197) -/

theorem exec_yield (s : State) (e : Engine) (a : BitVec 6) (o : BitVec 16) :
    exec (.yield e a o) s = s.deciding [a] none (s.closing true fun u =>
      if (u.cur.engAt e).passed ((u.wreg a).val.setWidth 32) then .next ((u.sawEngine e).goto (u.target o)).newChunk
      else .next ((u.goto (u.target o)).park (.batch e ((u.wreg a).val.setWidth 32) (u.target o)))) := rfl

theorem exec_endg (s : State) :
    exec .endg s = s.closing true fun u =>
      if ((u.endGroup u.cur.key).groupsOf u.cur.teamKey).all fun g => g.phase == .ended then
        .next ((u.endGroup u.cur.key).onTeam u.cur.teamKey fun t =>
          if t.endSt.isSome then t else { t with endSt := some ⟨tsOk, 0, 0, (u.endGroup u.cur.key).pts t.core⟩ })
      else .next (u.endGroup u.cur.key) := rfl

/-- Settles O8: after the commit the batch decides where `yield` goes, and the team's other groups what `end` ends. -/
theorem yieldAndEndComplete : Obligations.YieldAndEndComplete := by
  intro s u e a o hu
  refine ⟨fun hf hc => ?yield, ?alone, ?last⟩
  case yield =>
    rw [exec_yield, State.deciding_closing _ hf hc hu]
    exact ⟨fun hpassed => if_pos hpassed, fun hpassed => if_neg (by simp [hpassed])⟩
  case alone =>
    intro hothers
    rw [exec_endg, State.closing_commits _ hu]
    exact if_neg (by simp [hothers])
  case last =>
    intro hall
    rw [exec_endg, State.closing_commits _ hu]
    exact if_pos hall

/-! ## `brk`, `sysc` and what is illegal (R149, R161, R162, R198, R199) -/

theorem exec_brk (s : State) (k : BitVec 19) :
    exec (.brk k) s = if s.debugOn && s.matrixBusy s.cur.key then .next s.stalled else s.closing false fun u =>
      if u.debugOn then .next (let v := (u.waitsIn (.parked .brk)).saveFrame 1 0
                               v.emit (.breakpoint k v.team.asid v.cur.lid v.cur.team v.cur.grp v.pc))
      else .next (u.endHere tsBreak 0) := rfl

theorem exec_sysc (s : State) (k : BitVec 19) :
    exec (.sysc k) s = if s.matrixBusy s.cur.key then .next s.stalled else s.closing false fun u =>
      .next (let v := (u.waitsIn (.parked .sysc)).saveFrame 1 0
             v.emit (.sysRequest k v.team.asid v.cur.key (v.cur.frame.getD 0))) := rfl

/-- Settles O9: a busy matrix engine holds the frame back; else the commit is followed by the frame and its report. -/
theorem breakAndSystemCallTakeTheirEntries : Obligations.BreakAndSystemCallTakeTheirEntries := by
  intro s u k wait
  refine ⟨fun hbusy => ⟨?syscWaits, fun hdebug => ?brkWaits⟩, fun hu hfree => ⟨fun hdebug => ?ends, fun hdebug => ?breaks⟩, fun hu hidle => ?calls⟩
  case syscWaits => rw [exec_sysc, if_pos hbusy]; rfl
  case brkWaits => rw [exec_brk, if_pos (by simp [hbusy, hdebug])]; rfl
  case ends =>
    rw [exec_brk, if_neg (by simpa [← Bool.not_eq_true, imp_iff_not_or] using hfree), State.closing_commits _ hu]
    exact if_neg (by simp [hdebug])
  case breaks =>
    rw [exec_brk, if_neg (by simpa [← Bool.not_eq_true, imp_iff_not_or] using hfree), State.closing_commits _ hu]
    exact if_pos hdebug
  case calls => rw [exec_sysc, if_neg (by simp [hidle]), State.closing_commits _ hu]

/-! ## Lane blocks (R161, R194) -/

/-- The runs that a block's field names. -/
theorem blockRuns_eq (f : BitVec 5) : (if f == 0 then 32 else f.toNat) = blockRuns f := by
  simp [blockRuns, beq_iff_eq]

theorem exec_lblk (s : State) (f : BitVec 5) (i : BitVec 20) : exec (.lblk f i) s = s.withEntry (s.queueBlock f i) := rfl

theorem exec_lblkr (s : State) (a : BitVec 6) : exec (.lblkr a) s =
    s.withEntry (s.deciding [a] none (s.queueBlock ((s.wreg a).val.extractLsb' 20 5) ((s.wreg a).val.extractLsb' 0 20))) := rfl

/-- A lane queue with room for one block more lets it in; a full one holds the stream (R194). -/
theorem State.withEntry_room {s : State} (f : Ans) (h : s.cur.regs.laneq.length < 16) : s.withEntry f = f := if_neg (by omega)

theorem State.withEntry_full {s : State} (f : Ans) (h : 16 ≤ s.cur.regs.laneq.length) : s.withEntry f = .next s.stalled := if_pos h

section

variable {s u : State} {f : BitVec 5} {i : BitVec 20} {x : Scan}

/-- A block whose words are read and name at most eight uniforms, all free, is queued (R161, R191, R194). -/
theorem State.queueBlock_queued (hscan : s.scanBlock (32 * 24 + 1) i.toNat (blockRuns f) 0 ⟨[], []⟩ = (u, .ok x)) (hnum : x.nums.length ≤ 8)
    (hfree : u.Free x.nums) : s.queueBlock f i = .next (blockQueued u f i x) := by
  unfold State.queueBlock
  simp only [blockRuns_eq, hscan]
  rw [if_neg (by omega), State.interlock_free _ hfree]
  rfl

/-- One that names more is illegal (R161). -/
theorem State.queueBlock_illegal (hscan : s.scanBlock (32 * 24 + 1) i.toNat (blockRuns f) 0 ⟨[], []⟩ = (u, .ok x)) (hnum : 8 < x.nums.length) :
    s.queueBlock f i = .next (u.illegal tsIllegal 0 false) := by
  unfold State.queueBlock
  simp only [blockRuns_eq, hscan]
  rw [if_pos hnum]

/-- A word on a page that is not present is served first (log 99). -/
theorem State.queueBlock_miss {w : Nat} (hscan : s.scanBlock (32 * 24 + 1) i.toNat (blockRuns f) 0 ⟨[], []⟩ = (u, .error w)) :
    s.queueBlock f i = .next (u.fetchFault Cause.pageMiss (u.cur.laneAddr w) false 0) := by
  unfold State.queueBlock
  simp only [blockRuns_eq, hscan]

end

/-- Settles O6: room in the lane queue, then what the scan of the block's words finds. -/
theorem laneBlockInstructionsComplete : Obligations.LaneBlockInstructionsComplete := by
  intro s u f i a x w
  refine ⟨fun hfits => ?queued, fun hfull => ⟨?lblk, ?lblkr⟩, fun hroom hscan => ?miss, fun hfits hf hc => ?queuedR⟩
  case queued =>
    obtain ⟨hroom, hscan, hnum, hfree⟩ := hfits
    rw [exec_lblk, State.withEntry_room _ hroom, State.queueBlock_queued hscan hnum hfree]
  case lblk => exact State.withEntry_full _ hfull
  case lblkr => exact State.withEntry_full _ hfull
  case miss => rw [exec_lblk, State.withEntry_room _ hroom, State.queueBlock_miss hscan]
  case queuedR =>
    obtain ⟨hroom, hscan, hnum, hfree⟩ := hfits
    rw [exec_lblkr, State.withEntry_room _ hroom, State.deciding_clean (d := none) _ hf hc, State.queueBlock_queued hscan hnum hfree]

/-- Settles O10: the block by its scan, the control word by its meaning. -/
theorem illegalOperationsEndTheTeam : Obligations.IllegalOperationsEndTheTeam := by
  refine ⟨fun s u f i x hroom hscan hnum => ?block, fun s w => rfl⟩
  case block => rw [exec_lblk, State.withEntry_room _ hroom, State.queueBlock_illegal hscan hnum]

/-- Settles O15: user mode is the first thing each of the three asks for. -/
theorem privilegedInstructionsTrapInUserMode : Obligations.PrivilegedInstructionsTrapInUserMode := by
  intro s d a b m hu out
  exact ⟨if_pos hu, if_pos hu, if_pos hu⟩

end Sys2Proof.Machine
end

section
namespace Sys2Proof.Machine

/-! # PROOFS. Fences, regions, barriers, watches, claims, checks, batches and counters (R205 to R218) -/

theorem State.doneNew_next (s : State) : s.doneNew = .next s.nextChunk := rfl

/-! ## Fences and regions (R205 to R207) -/

theorem exec_fence (s : State) (sc : Scope) :
    exec (.fence sc) s = s.closing true fun u =>
      let v := if sc == .sys then u.drainAll u.cur.core else u
      if v.fenceWaits v.cur.key sc then .next (v.waitsIn (.wait (.fence sc)))
      else match sc with
        | .pkg | .sys => (v.raisePts v.cur.core v.cur.engineTime).doneNew
        | _ => v.doneNew := rfl

theorem exec_rgn (s : State) (p : Policy) (o : BitVec 23) :
    exec (.rgn p o) s = s.closing true fun u =>
      (u.onCur fun g => { g with region := ⟨p, true, if o == 0 then noLabel else g.wordIndex (u.target o)⟩ }).doneNew := rfl

theorem exec_cmt (s : State) (a : BitVec 6) :
    exec (.cmt a) s = s.deciding [a] none
      (if s.cur.inRun || !s.cur.regs.laneq.isEmpty then .next s.stalled
       else (s.onChunk fun c => { c with live := (c.live.filter fun l => l.src != .cmt) ++ s.cur.liveSet (s.wreg a).val }).closing true fun u =>
         (u.onCur fun g => { g with region := g.defaultRegion }).doneNew) := rfl

/-- Settles O16: the commit, then the scope, the label or the default region. -/
theorem fencesAndRegionsComplete : Obligations.FencesAndRegionsComplete := by
  intro s u p o a
  refine ⟨fun hu => ⟨fun sc hpkg hsys => ?group, fun hidle => ?pkg, fun hbusy => ?pkgWaits, ⟨fun hidle => ?sys, fun hbusy => ?sysWaits⟩, ?rgn⟩,
    fun hf hc hrun hq hu => ?cmt⟩
  case group =>
    rw [exec_fence, State.closing_commits _ hu]
    cases sc
    case pkg => exact absurd rfl hpkg
    case sys => exact absurd rfl hsys
    all_goals rfl
  case pkg =>
    rw [exec_fence, State.closing_commits _ hu]
    exact if_neg (by simpa [State.fenceWaits] using hidle)
  case pkgWaits =>
    rw [exec_fence, State.closing_commits _ hu]
    exact if_pos hbusy
  case sys =>
    rw [exec_fence, State.closing_commits _ hu]
    exact if_neg (by simpa [State.fenceWaits] using hidle)
  case sysWaits =>
    rw [exec_fence, State.closing_commits _ hu]
    exact if_pos hbusy
  case rgn =>
    rw [exec_rgn, State.closing_commits _ hu]
    simp only [beq_iff_eq]
    rfl
  case cmt =>
    rw [exec_cmt, State.deciding_clean _ (by simpa using hf) hc, if_neg (by simp [hrun, hq])]
    exact State.closing_commits _ hu

/-! ## Barriers (R208 to R210) -/

theorem exec_arrive (s : State) (d a : BitVec 6) (n : BitVec 7) :
    exec (.arrive d a n) s = s.deciding [a] (some d) (s.closing true fun u =>
      match u.barrier (barAt u a) with
      | .error c => u.failLive c (barAt u a) (some d)
      | .ok w =>
        if w.expect == 0 then u.failLive Cause.invalid (barAt u a) (some d)
        else ((u.arriveAt (barAt u a) (n.toNat + 1) w).setVal d (BitVec.ofNat 64 w.phase)).doneNew) := rfl

theorem exec_waitb (s : State) (a b : BitVec 6) :
    exec (.waitb a b) s = s.deciding [a, b] none (s.closing false fun u =>
      match u.barrier (barAt u a) with
      | .error c => u.failLive c (barAt u a) none
      | .ok w => u.waitPhase (barAt u a) ((u.wreg b).val.toNat % 2 ^ 31) w) := rfl

theorem exec_bars (s : State) (a : BitVec 6) (n : BitVec 7) :
    exec (.bars a n) s = s.deciding [a] none (s.closing true fun u =>
      match u.barrier (barAt u a) with
      | .error c => u.failLive c (barAt u a) none
      | .ok w =>
        if w.expect == 0 then u.failLive Cause.invalid (barAt u a) none
        else (u.arriveAt (barAt u a) (n.toNat + 1) w).waitPhase (barAt u a) w.phase (w.arrive (n.toNat + 1))) := rfl

/-- A completed phase lets the stream go on; an open one parks it (R210). -/
theorem State.waitPhase_completed (s : State) (a p : Nat) {w : Bar} (h : w.completed p = true) :
    s.waitPhase a p w = .next (s.raisePts s.cur.core (s.team.lineTimes (a / 128)).1).nextChunk := if_pos h

theorem State.waitPhase_open (s : State) (a p : Nat) {w : Bar} (h : w.completed p = false) :
    s.waitPhase a p w = .next ((s.waitsIn (.parked (.barrier a (BitVec.ofNat 31 p)))).checkDeadlock s.cur.teamKey) := if_neg (by simp [h])

theorem barriers_complete : barriersComplete := by
  intro s u d a b n w
  refine ⟨fun hf hc hu hbar hexp => ?arrive, fun hf hc hu hbar => ⟨fun hdone => ?past, fun hopen => ?waits⟩,
    fun hf hc hu hbar hexp => ⟨fun hdone => ?through, fun hopen => ?parks⟩⟩
  case arrive =>
    rw [exec_arrive, State.deciding_closing_dest _ hf hc hu, hbar]
    exact if_neg (by simpa using hexp)
  case past => rw [exec_waitb, State.deciding_closing _ hf hc hu, hbar]; exact State.waitPhase_completed u _ _ hdone
  case waits => rw [exec_waitb, State.deciding_closing _ hf hc hu, hbar]; exact State.waitPhase_open u _ _ hopen
  case through =>
    rw [exec_bars, State.deciding_closing _ hf hc hu, hbar]
    exact (if_neg (by simpa using hexp)).trans (State.waitPhase_completed _ _ _ hdone)
  case parks =>
    rw [exec_bars, State.deciding_closing _ hf hc hu, hbar]
    exact (if_neg (by simpa using hexp)).trans (State.waitPhase_open _ _ _ hopen)

/-- The phase after `p` completes `p`, modulo 2^31 (R208). -/
theorem Bar.completed_next {w : Bar} {p : Nat} (hw : w.phase = (p + 1) % 2 ^ 31) : w.completed p = true := by
  simp only [Bar.completed, hw, Bool.and_eq_true, decide_eq_true_eq]
  omega

/-- The phase that a word is in has not completed. -/
theorem Bar.not_completed_own (w : Bar) : w.completed w.phase = false := by
  simp only [Bar.completed, Bool.and_eq_false_iff, decide_eq_false_iff_not]
  omega

theorem barrier_arithmetic : barrierArithmetic := by
  intro w n hexp _
  refine ⟨fun hbelow => ?below, fun heq => ?full, fun habove => ?above⟩
  case below =>
    have harrive : w.arrive n = { w with arrived := w.arrived + n } := by
      unfold Bar.arrive
      rw [if_neg (by omega), Nat.min_eq_left (by omega)]
    exact ⟨harrive, by rw [harrive]; exact Bar.not_completed_own _⟩
  case full =>
    have harrive : w.arrive n = { w with phase := (w.phase + 1) % 2 ^ 31, arrived := 0 } := by
      unfold Bar.arrive
      rw [if_pos (by omega)]
      simp [heq]
    exact ⟨harrive, by rw [harrive]; exact Bar.completed_next rfl⟩
  case above =>
    have harrive : w.arrive n = { w with phase := (w.phase + 1) % 2 ^ 31, ovf := true, arrived := min (w.arrived + n - w.expect) 65535 } := by
      unfold Bar.arrive
      rw [if_pos (by omega)]
      simp [habove]
    rw [harrive]
    exact ⟨rfl, rfl, rfl, Bar.completed_next rfl⟩

/-- Settles O17: the instructions around the barrier word, and the word's arithmetic. -/
theorem barriersWork : Obligations.BarriersWork := ⟨barriers_complete, barrier_arithmetic⟩

/-! ## Watches, claims (R102, R211, R213, R214) -/

theorem exec_watch (s : State) (a : BitVec 6) :
    exec (.watch a) s = s.deciding [a] none (s.closing false fun u =>
      match u.translate u.cur.xl (u.wreg a).val.toNat .read with
      | (v, .error c) => v.failLive c (u.wreg a).val.toNat none
      | (v, .ok p) =>
        let f := v.fold (p.pa / 128)
        if f.pts f.cur.core < (f.times (p.pa / 128)).1 then f.doneNew
        else .next (({ f with watches := f.watches ++
          [⟨f.home (p.pa / 128), p.pa / 128, f.cur.key, decide (f.tableCount (f.home (p.pa / 128)) < 64)⟩] } : State).waitsIn
            (.parked (.watch (p.pa / 128))))) := rfl

/-- Settles O18: the line's write time against the core's time. -/
theorem watchCompletes : Obligations.WatchCompletes := by
  intro s u v a p hf hc hu htr f full
  rw [exec_watch, State.deciding_closing _ hf hc hu, htr]
  exact ⟨fun hnew => if_pos hnew, fun hold => if_neg (Nat.not_lt.2 hold)⟩

theorem exec_vclaim (s : State) (n : BitVec 7) :
    exec (.vclaim n) s = s.closing false fun u =>
      if 256 < u.cur.regs.v.length + 8 * n.toNat then .next (u.illegal tsIllegal 0 false)
      else .next ((({ u.waitsIn (.parked (.claim n.toNat)) with claims := u.claims ++ [(u.cur.core, ⟨u.cur.key, n.toNat, 0⟩)] } : State).freedBlocks
        u.cur.core).checkDeadlock u.cur.teamKey) := rfl

theorem exec_vrel (s : State) (n : BitVec 7) :
    exec (.vrel n) s = s.closing true fun u =>
      if u.cur.granules ≤ n.toNat then .next (u.illegal tsIllegal 0 false)
      else .next ((withRegs u { u.cur.regs with v := u.cur.regs.v.take (u.cur.regs.v.length - 8 * n.toNat) }).nextChunk.freedBlocks u.cur.core) := rfl

/-- Settles O19: the commit, then the claim in the queue or the granules given back. -/
theorem registerClaimsComplete : Obligations.RegisterClaimsComplete := by
  intro s u n
  refine ⟨fun hu hroom => ?claim, fun hu hkeep => ?release⟩
  case claim => rw [exec_vclaim, State.closing_commits _ hu]; exact if_neg (by omega)
  case release => rw [exec_vrel, State.closing_commits _ hu]; exact if_neg (by omega)

/-! ## Checks, batches, counters (R215 to R218) -/

theorem exec_sigchk (s : State) (p : BitVec 24) :
    exec (.sigchk p) s = if !s.cur.checked then s.done
      else if s.cur.regs.sigr.extractLsb' 0 24 == p then (s.onRegs fun r => { r with unchecked := false }).done
      else .next (s.mismatch 0) := rfl

theorem exec_efen (s : State) (e : Engine) (d r : BitVec 6) :
    exec (.efen e d r) s = s.deciding [r] (some d) (s.closing false fun u =>
      if barAt u r % 8 != 0 || !u.team.inside (barAt u r) 256 then u.failLive Cause.bounds (barAt u r) (some d)
      else (((u.onEng u.cur.key e fun st => { st with cursor := some (barAt u r + 256) }).closeBatch u.cur.key e (some (barAt u r))).setVal d
        ((u.cur.engAt e).openNum.setWidth 64)).doneNew) := rfl

theorem exec_ewait (s : State) (e : Engine) (a : BitVec 6) :
    exec (.ewait e a) s = s.deciding [a] none
      (if (s.cur.engAt e).passed ((s.wreg a).val.setWidth 32) then (s.raisePts s.cur.core (s.cur.engAt e).seen).done else .next s.stalled) := rfl

theorem exec_cwait (s : State) (a b d : BitVec 6) :
    exec (.cwait a b d) s = s.deciding [a, b] (some d) (s.closing false fun u =>
      match u.counter? u.cur.sysr.asid ((u.wreg a).val.setWidth 16) with
      | none => u.failLive Cause.bounds 0 (some d)
      | some (v, t) =>
        if (u.wreg b).val.ule v then ((u.raisePts u.cur.core t).setVal d v).doneNew
        else .next (u.waitsIn (.parked (.counter ((u.wreg a).val.setWidth 16) (u.wreg b).val d)))) := rfl

/-- A group's first mismatch squashes its chunk (R346). -/
theorem State.mismatch_first {s : State} (lpc : Nat) (h : s.cur.mism = 0) : s.mismatch lpc = s.squash.onCur fun g => { g with mism := 1 } :=
  if_pos (by simp [h])

/-- Settles O20: the signature, the batch, the batch's number and the counter's value decide. -/
theorem checksBatchesCountersComplete : Obligations.ChecksBatchesCountersComplete := by
  intro s u p e d a b r v t next
  refine ⟨fun hoff => ?unchecked, fun hon heq => ?agrees, fun hon hne hfirst => ?differs, fun hf hc hu halign hin => ?efen,
    fun hf hc hpassed => ?passed, fun hf hc hopen => ?waits, fun hf hc hu hcnt => ⟨fun hle => ?reached, fun hlt => ?parks⟩⟩
  case unchecked => rw [exec_sigchk, if_pos (by simp [hoff])]; rfl
  case agrees => rw [exec_sigchk, if_neg (by simp [hon]), if_pos (by simp [heq])]; rfl
  case differs => rw [exec_sigchk, if_neg (by simp [hon]), if_neg (by simpa using hne), State.mismatch_first 0 hfirst]; rfl
  case efen =>
    rw [exec_efen, State.deciding_closing_dest _ hf hc hu]
    exact if_neg (by simp [halign, hin])
  case passed => rw [exec_ewait, State.deciding_clean _ (by simpa using hf) hc, if_pos hpassed]; rfl
  case waits => rw [exec_ewait, State.deciding_clean _ (by simpa using hf) hc, if_neg (by simp [hopen])]; rfl
  case reached =>
    rw [exec_cwait, State.deciding_closing_dest _ hf hc hu, hcnt]
    exact if_pos (BitVec.ule_iff_le.2 hle)
  case parks =>
    rw [exec_cwait, State.deciding_closing_dest _ hf hc hu, hcnt]
    exact if_neg (by simpa [BitVec.ule_iff_le] using hlt)

end Sys2Proof.Machine
end

section
namespace Sys2Proof.Machine

/-! # PROOFS. Uniform memory, state registers, launches (R203, R204, R212) -/

/-! ## Uniform memory (R203) -/

theorem uniformAddress_eq (s : State) (a : BitVec 6) (i : BitVec 13) : uniformAddress s a i = (s.uniEa a i).toNat := rfl

theorem exec_ldw (s : State) (d a : BitVec 6) (i : BitVec 13) :
    exec (.ldw d a i) s = s.deciding [a] (some d)
      (match s.loadVa (uniformAddress s a i) 8 0 with
       | (v, .bytes bs) => .next (v.wrote d (BitVec.ofNat 64 (leNat bs)))
       | (v, .bad c) =>
         .next ((v.makePoison c (uniformAddress s a i) 0 true 0).1.wroteElem d (tokElem (v.makePoison c (uniformAddress s a i) 0 true 0).2))
       | (v, .remote) => .next ((v.fabricRead (remChip (uniformAddress s a i)) (remWin (uniformAddress s a i)) false (remOff (uniformAddress s a i)) 8).inPhase
           (.wait (.rload v.nextKey d (BitVec.ofNat 64 (uniformAddress s a i)))))) := by
  rw [uniformAddress_eq]; rfl

theorem exec_ldws (s : State) (d a : BitVec 6) (i : BitVec 13) :
    exec (.ldws d a i) s = s.deciding [a] (some d)
      (let bad (v : State) (c : Cause) : Ans := .next ((v.makePoison c (uniformAddress s a i) 0 true 0).1.wroteElem d
        (tokElem (v.makePoison c (uniformAddress s a i) 0 true 0).2))
       if uniformAddress s a i % 8 != 0 then bad s Cause.invalid
       else match s.scratchLoad (uniformAddress s a i) 8 with
         | (v, .ok bs) => .next (v.wrote d (BitVec.ofNat 64 (leNat bs)))
         | (v, .error (.word k)) => .next ((v.makePoison (tokenCause k) (uniformAddress s a i) 0 true 0).1.wroteElem d (tokElem k))
         | (v, .error (.cause c)) => bad v c) := by
  rw [uniformAddress_eq]; rfl

/-- Settles O11: what the chunk or the scratch answers decides what w[d] gets. -/
theorem uniformLoadsComplete : Obligations.UniformLoadsComplete := by
  intro s u d a i bs c k hf hc ea
  have ldw := (exec_ldw s d a i).trans (State.deciding_clean _ hf hc)
  have ldws := (exec_ldws s d a i).trans (State.deciding_clean _ hf hc)
  refine ⟨fun h => ?bytes, fun h => ?bad, fun h => ?remote, fun hal h => ?scratch, fun hal h => ?scratchWord, fun hal h => ?scratchCause,
    fun hal => ?misaligned⟩
  case bytes => rw [ldw, h]
  case bad => rw [ldw, h]
  case remote => rw [ldw, h]
  case misaligned => rw [ldws]; exact if_pos (by simpa using hal)
  all_goals
    rw [ldws]
    refine (if_neg (by simpa using hal)).trans ?_
    rw [h]

/-- A uniform store with a free quarantine entry charges what it enters to the control stream (R126). -/
theorem State.reserveOne_free {s : State} (t : State) (h : s.quarFree s.cur.core ≠ 0) :
    s.reserveOne (.next t) = .next (t.chargeCtl s) := if_pos (by simpa using h)

theorem exec_stw (s : State) (r a : BitVec 6) (i : BitVec 13) :
    exec (.stw r a i) s = s.deciding [a, r] none (s.reserveOne (.next
      (match s.storeVa (uniformAddress s a i) 8 .write with
       | (v, .ok (id, vc)) => (v.quarantine (wordEntry v id vc (uniformAddress s a i) r)).advance
       | (v, .error c) =>
         let p := v.makePoison c (uniformAddress s a i) 0 true 0
         (p.1.poisonStore (uniformAddress s a i) p.2 (p.1.failedAt .control none p.2) 0).advance))) := by
  show s.deciding [a, r] none (s.reserveOne _) = _
  rw [uniformAddress_eq]
  congr 2
  show (match s.storeVa (s.uniEa a i).toNat 8 .write with | (v, .ok (id, vc)) => _ | (v, .error c) => _) = _
  rcases s.storeVa (s.uniEa a i).toNat 8 .write with ⟨v, _ | ⟨id, vc⟩⟩ <;> rfl

theorem exec_stws (s : State) (r a : BitVec 6) (i : BitVec 13) :
    exec (.stws r a i) s = s.deciding [a, r] none (s.reserveOne (.next
      (match if uniformAddress s a i % 8 != 0 then Except.error Cause.invalid else s.scratchCheck (uniformAddress s a i) 8 with
       | .ok _ => (s.quarantine (wordEntry s (.scr s.team.key (uniformAddress s a i / 128)) 0 (uniformAddress s a i) r)).advance
       | .error c =>
         let p := s.makePoison c (uniformAddress s a i) 0 true 0
         (p.1.poisonScratch (uniformAddress s a i) p.2 (p.1.failedAt .control none p.2) 0).advance))) := by
  show s.deciding [a, r] none (s.reserveOne _) = _
  rw [uniformAddress_eq]
  congr 2
  show (match if (s.uniEa a i).toNat % 8 != 0 then Except.error Cause.invalid else s.scratchCheck ((s.uniEa a i).toNat) 8 with
    | .ok _ => _ | .error c => _) = _
  rcases (if (s.uniEa a i).toNat % 8 != 0 then Except.error Cause.invalid else s.scratchCheck ((s.uniEa a i).toNat) 8) with _ | _ <;> rfl

/-- A quarantined store changes the chunk alone. -/
theorem State.byteAt_quarantine (s : State) (q : QEntry) (m : Nat) : (s.quarantine q).byteAt m = s.byteAt m := by
  have hvia : ∀ (id : LineId) (va : Nat), (s.noteVia id va).byteAt m = s.byteAt m := by
    intro id va
    unfold State.noteVia
    cases id
    case mem => dsimp only; split <;> rfl
    all_goals rfl
  exact hvia q.line q.va.toNat

/-- With no run in flight nothing is charged. -/
theorem State.chargeCtl_of_no_run (s : State) {t : State} (h : t.cur.run = none) : t.chargeCtl s = t := by
  cases t with | mk cur =>
  cases cur
  cases h
  rfl

/-- Settles O12: the checks decide whether bytes or poison enter the quarantine. -/
theorem uniformStoresComplete : Obligations.UniformStoresComplete := by
  intro s u r a i id vc c hf hc hq ea
  have stw := (exec_stw s r a i).trans ((State.deciding_clean _ (by simpa using hf) hc).trans (State.reserveOne_free _ hq))
  have stws := (exec_stws s r a i).trans ((State.deciding_clean _ (by simpa using hf) hc).trans (State.reserveOne_free _ hq))
  refine ⟨fun h => ⟨?bytes, State.byteAt_quarantine u _⟩, fun h => ?bad, fun hal h => ?scratch, fun h => ?badScratch,
    fun _ t ht => State.chargeCtl_of_no_run s ht⟩
  case bytes => rw [stw, h]; rfl
  case bad => rw [stw, h]; rfl
  case scratch => rw [stws, if_neg (by simpa using hal), h]; rfl
  case badScratch =>
    have hcause : (if uniformAddress s a i % 8 != 0 then Except.error Cause.invalid else s.scratchCheck (uniformAddress s a i) 8) = .error c := by
      obtain ⟨hal, rfl⟩ | ⟨hal, h⟩ := h
      · exact if_pos (by simpa using hal)
      · exact (if_neg (by simpa using hal)).trans h
    rw [stws, hcause]; rfl

/-! ## State registers (R144, R204) -/

/-- Registers that `mfs` reads without waiting for the lanes (R191, R204). -/
def readsAtOnce (n : Nat) : Bool := sregKnown n && !(n == 0x009 || n == 0x00A || n == 0x00B) && decide (n < 2 ^ 13)

theorem exec_mfs_atOnce {s : State} {d : BitVec 6} {n : Nat} (hf : s.Free [d]) (hn : readsAtOnce n = true)
    (hu : (sregSystem n && n != 0x106 && s.cur.user) = false) :
    exec (.mfs d (BitVec.ofNat 13 n)) s = .next (s.wrote d (s.sreg n)) := by
  simp only [readsAtOnce, Bool.and_eq_true, Bool.not_eq_true', decide_eq_true_eq] at hn
  obtain ⟨⟨hknown, hlane⟩, hsmall⟩ := hn
  rw [exec_mfs, execMfs, show (BitVec.ofNat 13 n).toNat = n from (BitVec.toNat_ofNat n 13).trans (Nat.mod_eq_of_lt hsmall), hknown, hu, hlane, State.interlock_free _ hf]
  rfl

theorem exec_mfs_lanes {s : State} {d : BitVec 6} {r : BitVec 13} (hf : s.Free [d]) (hrun : s.cur.inRun = false) (hq : s.cur.regs.laneq = [])
    (hr : r = 0x009 ∨ r = 0x00A ∨ r = 0x00B) :
    exec (.mfs d r) s = .next ((s.onRegs Regs.foldSigs).wrote d ((s.onRegs Regs.foldSigs).sreg r.toNat)) := by
  have hidle : (s.cur.inRun || !s.cur.regs.laneq.isEmpty) = false := by simp [hrun, hq]
  have hclass : sregKnown r.toNat = true ∧ sregSystem r.toNat = false ∧
      (r.toNat == 0x009 || r.toNat == 0x00A || r.toNat == 0x00B) = true := by
    obtain rfl | rfl | rfl := hr <;> decide
  obtain ⟨hknown, hsystem, hlane⟩ := hclass
  rw [exec_mfs, execMfs, hknown, hsystem, hlane, hidle, State.interlock_free _ hf]
  rfl

theorem tileShape_sreg (s : State) {k : Nat} (hk : k < 32) : s.sreg (0x020 + k) = ((s.cur.regs.tsh[k]?).getD 0).setWidth 64 := by
  interval_cases k <;> rfl

theorem stateRegisters_sreg (s : State) : ∀ p ∈ stateRegisters, s.sreg p.1 = p.2 s := by
  simp only [stateRegisters, List.forall_mem_append, List.forall_mem_cons, List.forall_mem_map, List.mem_range]
  exact ⟨⟨⟨rfl, rfl, rfl, rfl, rfl, rfl, rfl, rfl, rfl, rfl, rfl, rfl, rfl, rfl, rfl, by simp⟩, fun k hk => tileShape_sreg s hk⟩, rfl, by simp⟩

theorem systemRegisters_sreg (s : State) : ∀ p ∈ systemRegisters, s.sreg p.1 = p.2 s := by
  simp only [systemRegisters, List.forall_mem_cons]
  exact ⟨rfl, rfl, rfl, rfl, rfl, rfl, rfl, by simp⟩

theorem stateRegisters_numbers : ∀ n ∈ stateRegisters.map Prod.fst, readsAtOnce n = true ∧ (sregSystem n && n != 0x106) = false := by decide

theorem systemRegisters_numbers : ∀ n ∈ systemRegisters.map Prod.fst, readsAtOnce n = true := by decide

theorem state_register_reads_complete : stateRegisterReadsComplete := by
  intro s d hf
  refine ⟨fun p hp => ?user, fun hsuper p hp => ?system, fun hrun hq => ⟨?exm, ?depth, ?sigr⟩⟩
  case user =>
    obtain ⟨hn, hs⟩ := stateRegisters_numbers _ (List.mem_map_of_mem hp)
    rw [exec_mfs_atOnce hf hn (by simp [hs]), stateRegisters_sreg s p hp]
  case system =>
    rw [exec_mfs_atOnce hf (systemRegisters_numbers _ (List.mem_map_of_mem hp)) (by simp [hsuper]), systemRegisters_sreg s p hp]
  case exm => exact exec_mfs_lanes hf hrun hq (.inl rfl)
  case depth => exact exec_mfs_lanes hf hrun hq (.inr (.inl rfl))
  case sigr => exact exec_mfs_lanes hf hrun hq (.inr (.inr rfl))

/-- A write of `EXM` with no lane block left takes effect (R133). -/
theorem State.writeExm_idle {s : State} (v : BitVec 64) (f : State → Ans) (hrun : s.cur.inRun = false) (hq : s.cur.regs.laneq = []) :
    s.writeExm v f = f (withRegs s { s.cur.regs with exm := v &&& s.cur.exmMask }) := if_neg (by simp [hrun, hq])

/-- `mts` of a register of the group's own. -/
theorem exec_mts_group {s : State} {a : BitVec 6} {r : BitVec 13} (hf : s.Free [a]) (hc : s.Clean [a]) (hw : sregWritable r.toNat = true)
    (hs : sregSystem r.toNat = false) :
    exec (.mts a r) s = (if r.toNat == 0x009 then s.writeExm (s.wreg a).val State.done
      else if r.toNat == 0x011 then (s.writePrio (s.wreg a).val).done
      else (s.writeTsh (r.toNat - 0x20) (s.wreg a).val).done) := by
  rw [exec_mts, execMts, sregKnown_of_writable hw, hs, hw, State.deciding_clean _ (by simpa using hf) hc]
  rfl

/-- `mts` of a system register acts after the commit (R204). -/
theorem exec_mts_system {s u : State} {a : BitVec 6} {r : BitVec 13} (hf : s.Free [a]) (hc : s.Clean [a]) (hw : sregWritable r.toNat = true)
    (hs : sregSystem r.toNat = true) (huser : s.cur.user = false) (hu : s.Commits false u) :
    exec (.mts a r) s = (u.writeSys r.toNat (s.wreg a).val).doneNew := by
  rw [exec_mts, execMts, sregKnown_of_writable hw, hs, hw, huser, State.deciding_clean _ (by simpa using hf) hc]
  exact State.closing_commits _ hu

theorem tileShape_number (k : BitVec 5) :
    sregWritable ((0x020 : BitVec 13) + k.setWidth 13).toNat = true ∧ sregSystem ((0x020 : BitVec 13) + k.setWidth 13).toNat = false ∧
    (((0x020 : BitVec 13) + k.setWidth 13).toNat == 0x009) = false ∧ (((0x020 : BitVec 13) + k.setWidth 13).toNat == 0x011) = false ∧
    ((0x020 : BitVec 13) + k.setWidth 13).toNat - 0x20 = k.toNat := by
  revert k; decide

theorem state_register_writes_complete : stateRegisterWritesComplete := by
  intro s u a k hf hc v next
  refine ⟨fun hrun hq => ?exm, ?prio, ?tsh, fun huser hu => ⟨?asid, ?ptbase, ?crumbbase, ?stbase, ?wcbage, ?lease, ?placeb⟩⟩
  case exm => exact (exec_mts_group hf hc rfl rfl).trans (State.writeExm_idle _ _ hrun hq)
  case prio => exact exec_mts_group hf hc rfl rfl
  case tsh =>
    obtain ⟨hw, hs, hexm, hprio, hk⟩ := tileShape_number k
    rw [exec_mts_group hf hc hw hs, hexm, hprio, hk]
    rfl
  all_goals exact exec_mts_system hf hc rfl rfl huser hu

theorem register_write_steps_complete : registerWriteStepsComplete := by
  intro s v k
  exact ⟨fun hrun hq => State.writeExm_idle v .next hrun hq, rfl, rfl, rfl, rfl⟩

/-- Settles O13: the reads, the writes by `mts`, and the writes as steps of their own. -/
theorem stateRegistersComplete : Obligations.StateRegistersComplete :=
  ⟨state_register_reads_complete, state_register_writes_complete, register_write_steps_complete⟩

/-! ## Launches (R212, R387, R389, R390) -/

theorem exec_launch (d a : BitVec 6) (s : State) : exec (.launch d a) s = execLaunch d a s := rfl

theorem launch_completes : launchCompletes := by
  intro s u v w d a bs r c va hf hc hu hva
  rw [exec_launch, execLaunch, State.deciding_closing_dest _ hf hc hu]
  dsimp only
  rw [hva]
  refine ⟨fun hal => ?misaligned, fun hal hread => ?unreadable, fun hal hread => ⟨fun hrec => ?bad, fun hrec hq => ?full, fun hrec hq => ?queued⟩⟩
  case misaligned => exact if_pos (by simpa using hal)
  all_goals
    refine (if_neg (by simpa using hal)).trans ?_
    rw [hread]
  case unreadable => rfl
  case bad => dsimp only; rw [State.submit_bad hrec]; rfl
  case full => dsimp only; rw [State.submit_full hrec hq]; rfl
  case queued => dsimp only; rw [State.submit_ok hrec hq]; rfl

theorem exec_hostLaunchMessage {s : State} {hdr : List Byte} {asid : BitVec 16} {cookie : BitVec 64} (bs : List Byte) (hdev : s.dev = .running)
    (hlen : hdr.length = 64) (hkind : word8 hdr 0 = 1 + asid.toNat <<< 32) (hcookie : word8 hdr 8 = cookie.toNat) (hzero : ∀ b ∈ hdr.drop 16, b = 0)
    (hasid : asid ≠ 0) (hlive : s.liveCtx asid = true) :
    exec (.hostLaunchMessage hdr bs) s =
      let p := s.submit (s.frontXl asid) 7 bs
      .next (p.1.emit (.launchReply cookie (hostStatus p.2.1) p.2.2.1)) := by
  have hfield : BitVec.ofNat 16 (word8 hdr 0 >>> 32) = asid := by
    apply BitVec.eq_of_toNat_eq
    simp only [BitVec.toNat_ofNat, hkind, Nat.shiftLeft_eq, Nat.shiftRight_eq_div_pow]
    omega
  have hanswer : BitVec.ofNat 64 (word8 hdr 8) = cookie := by rw [hcookie, BitVec.ofNat_toNat, BitVec.setWidth_eq]
  have hformed : (hdr.length == 64 && word8 hdr 0 == 1 + asid.toNat <<< 32 && (hdr.drop 16).all fun b => b == 0) = true := by
    simpa [hlen, hkind] using hzero
  show execHostLaunchMessage hdr bs s = _
  unfold execHostLaunchMessage
  simp only [hfield, hanswer, hformed, hdev, hlive, beq_false_of_ne hasid]
  rfl

theorem exec_syslaunch {s : State} (bs : List Byte) (hdev : s.dev = .running) :
    exec (.syslaunch 0 bs) s =
      let p := s.submit (s.frontXl 0) 7 bs
      .next (p.1.emit (.answer 13 (hostStatus p.2.1) (p.2.2.1.setWidth 64))) := by
  show execSyslaunch 0 bs s = _
  simp [execSyslaunch, hdev]

theorem State.frontXl_core (s : State) (a : BitVec 16) : (s.frontXl a).core = none := by
  unfold State.frontXl
  split <;> rfl

theorem exec_gangLaunchReceive_here {s : State} {h : Hdr} (lid : BitVec 32) (asid : BitVec 16) (bs : List Byte) (hdst : h.dst = s.chip) :
    exec (.gangLaunchReceive h lid asid bs) s = .next
      (let ack (t : State) (st : BitVec 8) : State := t.toChip .response h.src asid (.gangAck lid st)
       if s.dev != .running then ack s ansSafe
       else if s.abortKeys.contains (h.src, lid) then ack s tsAborted
       else if asid != 0 && !s.liveCtx asid then ack s ansBadctx
       else match s.checkRecord (s.frontXl asid) bs with
         | (t, .error _) => ack t ansBadrec
         | (t, .ok r) =>
           if t.queueFull asid r.prio then ack t ansFull else ack (t.queueLaunch asid r r.prio (some (h.src, lid)) 0) ansOk) :=
  congrArg Host.Outcome.next (if_pos (by simp [hdst]))

theorem launch_messages_complete : launchMessagesComplete := by
  intro s w hdr bs asid cookie h lid r hdev
  refine ⟨fun hlen hkind hcookie hzero hasid hlive hrec hroom => ?host, fun hrec hroom => ?system, fun hdst hkey hctx hrec hroom => ?gang,
    fun hdst => ?passedOn⟩
  case host =>
    rw [exec_hostLaunchMessage bs hdev hlen hkind hcookie hzero hasid hlive, State.submit_front hrec (s.frontXl_core asid) hroom]
    rfl
  case system => rw [exec_syslaunch bs hdev, State.submit_front hrec (s.frontXl_core 0) hroom]; rfl
  case gang =>
    have hlive : (asid != 0 && !s.liveCtx asid) = false := by obtain rfl | hlive := hctx <;> simp [*]
    rw [exec_gangLaunchReceive_here lid asid bs hdst]
    simp only [hdev, hkey, hlive, hrec, hroom]
    rfl
  case passedOn => exact congrArg Host.Outcome.next (if_neg (by simpa using hdst))

/-- Settles O21: the instruction, and the messages. -/
theorem launchesComplete : Obligations.LaunchesComplete := ⟨launch_completes, launch_messages_complete⟩

end Sys2Proof.Machine
end

section
namespace Sys2Proof.Machine

/-! # PROOFS. Engine commands (R105, R219 to R221, R224, R306) -/

/-! ## Copy commands (R219) -/

/-- What issue does with a copy's plan, where the queue and the table have room (R105, R110). -/
def State.enterCopy (u : State) (i : Instr) (v : State) : CopyPlan → Option State
  | .error (st, k) =>
    if v.roomFor u.cur.core .copy 32 0 then some (v.deadOp (u.newOp .copy i ((copyRegs i).map fun r => (u.wreg r).val)) (copyKind i) st k) else none
  | .ok (o, bs) => if v.roomFor o.core .copy 32 bs.length then some ((v.lockBoxes o.core bs).startOp o (copyKind i)) else none

theorem State.issueCopy_of_plan {u v : State} {i : Instr} {plan : CopyPlan} (h : copyPlan u i = (v, plan)) :
    State.issueCopy i u = u.enterCopy i v plan := by
  have hsplit : State.issueCopy i u = u.enterCopy i (copyPlan u i).1 (copyPlan u i).2 := rfl
  rw [hsplit, h]

theorem exec_copyCommand {s : State} {i : Instr}
    (h : (∃ x h a b c, i = .cpy x h a b c ∨ i = .cpyg x h a b c ∨ i = .cpyx x h a b c) ∨ ∃ h a b, i = .cpyxTt h a b) :
    exec i s = s.deciding (copyRegs i) none (s.closing false fun u => u.issueOrHold i (State.issueCopy i)) := by
  obtain ⟨x, h, a, b, c, rfl | rfl | rfl⟩ | ⟨h, a, b, rfl⟩ := h <;> rfl

/-- Settles O22: the plan and the room decide. -/
theorem copyCommandsComplete : Obligations.CopyCommandsComplete := by
  intro s u v i o bs st k hi hf hc hu
  rw [exec_copyCommand hi, State.deciding_closing _ hf hc hu]
  refine ⟨fun hplan hq hb => ?enters, fun hplan hfull => ?held, fun hplan hq hb => ?dead⟩
  case enters => exact State.issueOrHold_some ((State.issueCopy_of_plan hplan).trans (if_pos (State.roomFor_true hq hb)))
  case held => exact State.issueOrHold_none ((State.issueCopy_of_plan hplan).trans (if_neg (by simp [State.roomFor_false hfull])))
  case dead => exact State.issueOrHold_some ((State.issueCopy_of_plan hplan).trans (if_pos (State.roomFor_true hq hb)))

/-! ## Matrix commands (R220) -/

theorem exec_matrixCommand {s : State} {i : Instr} {x y : BitVec 5} {r p : BitVec 6} {acc : BitVec 3} {b : Bool} {k : DrainKind} {f : DrainFmt}
    (h : i ∈ matrixCommands x y r p acc b k f) :
    exec i s = if !s.cur.hasMatrix i then .next (s.illegal tsIllegal 0 false)
      else s.deciding (matrixRegs i) none (s.closing false fun u => u.issueOrHold i (State.issueMatrix i)) := by
  simp only [matrixCommands, List.mem_cons, List.not_mem_nil, or_false] at h
  obtain rfl | rfl | rfl | rfl | rfl | rfl | rfl | rfl | rfl | rfl := h <;> rfl

theorem State.issueMatrix_of_plan {u : State} {i : Instr} {o : EngOp} {bs : List Box}
    (h : u.planMatrix (u.newOp .matrix i ((matrixRegs i).map fun r => (u.wreg r).val)) = some (o, bs)) :
    State.issueMatrix i u = if !u.roomFor o.core .matrix 32 bs.length then none else some ((u.startOp o (matrixKind i)).lockBoxes o.core bs) := by
  unfold State.issueMatrix
  dsimp only
  rw [h]

/-- Settles O23: the allocation, then the room, decide. -/
theorem matrixCommandsComplete : Obligations.MatrixCommandsComplete := by
  intro s u x y r p acc b k f o bs i hi
  refine ⟨fun hnot => ?illegal, fun hhas hf hc hu hplan => ⟨fun hq hb => ?enters, fun hfull => ?held⟩⟩
  case illegal => exact (exec_matrixCommand hi).trans (if_pos (by simp [hnot]))
  all_goals
    refine ((exec_matrixCommand hi).trans (if_neg (by simp [hhas]))).trans ((State.deciding_closing _ hf hc hu).trans ?_)
  case enters => exact State.issueOrHold_some ((State.issueMatrix_of_plan hplan).trans (if_neg (by simp [State.roomFor_true hq hb])))
  case held => exact State.issueOrHold_none ((State.issueMatrix_of_plan hplan).trans (if_pos (by simp [State.roomFor_false hfull])))

/-! ## Snapshot commands (R224) -/

/-- Settles O25: the chunk commits and the command waits for its engine. -/
theorem snapshotCommandsComplete : Obligations.SnapshotCommandsComplete := by
  intro s u a hf hc hu i hi
  have hexec : exec i s = s.deciding [a] none (s.closing false fun v => .next (v.await (.issue i v.pc))) := by
    simp only [List.mem_cons, List.not_mem_nil, or_false] at hi
    obtain rfl | rfl | rfl := hi <;> rfl
  rw [hexec, State.deciding_closing _ hf hc hu]
  rfl

/-! ## Network commands (R221, R384 to R386) -/

/-- Issue of a command whose work request is accepted, as the kind decides (R384). -/
theorem issueNet_accepted {u : State} {i : Instr} {a : BitVec 6} (hreg : (netCommand i).2 = a) (h : netAccepts u i a) :
    State.issueNet i u =
      let o := netOp u i a
      let w := WorkReq.ofImage o.img
      let fail (t : State) (st : BitVec 8) : State := (t.deadOp o w.kind st 0).countNet w.cntr true 0
      if 5 ≤ w.kind then
        match u.spanFault (netXl o) .write w.laddr w.len with
        | (t, some c) => some (fail t c)
        | (t, none) => some ((({ t with recvs := t.recvs ++ [posted o w] } : State).deadOp o w.kind 0 0).pendNet o w [])
      else match u.peer? u.cur.sysr.asid w.peer with
        | none => some (fail u stBadPeer)
        | some e =>
          if e.lost then some (fail u Cause.remoteUnreach)
          else if w.kind == 4 then
            match u.spanFault (netXl o) .write w.laddr w.len with
            | (t, some c) => some (fail t c)
            | (t, none) => some (({ (t.startOp o w.kind).pendNet o w [] with urx := ((t.startOp o w.kind).pendNet o w []).urx ++ [readAnswer o w e] } :
                State).sendPackets o w e [(0, 0)] ⟨[], []⟩).1
          else some (u.startOp o w.kind) := by
  subst hreg
  obtain ⟨hroom, hboxes, halign, hinside, hclean, hmbz, hkind, hlen, howned⟩ := h
  have hfree : (!u.roomFor u.cur.core .network 64 0) = false := by simp [State.roomFor_true (n := 0) hroom hboxes]
  have hplace : (scratchAddr (u.wreg (netCommand i).2).val % 64 != 0 || !u.team.inside (scratchAddr (u.wreg (netCommand i).2).val) 64) = false := by
    simp [halign, hinside]
  have hform : (!(WorkReq.ofImage (netOp u i (netCommand i).2).img).mbz || !(netCommand i).1.contains (WorkReq.ofImage (netOp u i (netCommand i).2).img).kind ||
      decide (2 ^ 30 < (WorkReq.ofImage (netOp u i (netCommand i).2).img).len)) = false := by
    simp only [hmbz, hkind, Bool.not_true, Bool.false_or, decide_eq_false_iff_not]
    omega
  refine (if_neg (ne_true_of_eq_false hfree)).trans ((if_neg (ne_true_of_eq_false hplace)).trans ?_)
  show (match u.team.firstPoison (scratchAddr (u.wreg (netCommand i).2).val) 64 with | some k => _ | none => _) = _
  rw [hclean]
  refine (if_neg (ne_true_of_eq_false hform)).trans ((if_neg (ne_true_of_eq_false (congrArg not howned))).trans ?_)
  rfl

theorem exec_netCommand {s : State} {i : Instr} {a : BitVec 6} (h : i = .nsend a ∨ i = .nwrite a ∨ i = .nread a ∨ i = .npost a) :
    exec i s = s.deciding [a] none (s.closing false fun u => u.issueOrHold i (State.issueNet i)) := by
  obtain rfl | rfl | rfl | rfl := h <;> rfl

/-- The kind of an accepted request is one of its command's. -/
theorem netAccepts_kind {u : State} {i : Instr} {a : BitVec 6} (h : netAccepts u i a) :
    (WorkReq.ofImage (netOp u i a).img).kind ∈ (netCommand i).1 := by
  obtain ⟨_, _, _, _, _, _, hkind, _, _⟩ := h
  exact List.contains_iff_mem.1 hkind

/-- A request whose kind names a peer. -/
theorem issueNet_peer {u : State} {i : Instr} {a : BitVec 6} {e : PeerEnt} (hreg : (netCommand i).2 = a) (h : netAccepts u i a)
    {o : EngOp} (ho : o = netOp u i a) {w : WorkReq} (hw : w = WorkReq.ofImage o.img)
    (hkind : w.kind < 5) (hpeer : u.peer? u.cur.sysr.asid w.peer = some e) :
    State.issueNet i u =
      if e.lost then some ((u.deadOp o w.kind Cause.remoteUnreach 0).countNet w.cntr true 0)
      else if w.kind == 4 then
        match u.spanFault (netXl o) .write w.laddr w.len with
        | (t, some c) => some ((t.deadOp o w.kind c 0).countNet w.cntr true 0)
        | (t, none) => some (({ (t.startOp o w.kind).pendNet o w [] with urx := ((t.startOp o w.kind).pendNet o w []).urx ++ [readAnswer o w e] } :
            State).sendPackets o w e [(0, 0)] ⟨[], []⟩).1
      else some (u.startOp o w.kind) := by
  rw [issueNet_accepted hreg h, ← ho]
  dsimp only
  rw [← hw, if_neg (by omega), hpeer]

/-- The kinds of `nsend`, `nwrite` and `nread` name a peer, and only `nread` has kind 4 (R384). -/
theorem netCommand_kind_lt {i : Instr} {a : BitVec 6} (hi : i = .nsend a ∨ i = .nwrite a ∨ i = .nread a) {k : Nat} (hk : k ∈ (netCommand i).1) :
    k < 5 := by
  obtain rfl | rfl | rfl := hi <;> simp [netCommand] at hk <;> omega

theorem netCommand_kind_ne {i : Instr} {a : BitVec 6} (hi : i = .nsend a ∨ i = .nwrite a) {k : Nat} (hk : k ∈ (netCommand i).1) : k ≠ 4 := by
  obtain rfl | rfl := hi <;> simp [netCommand] at hk <;> omega

theorem netCommand_reg {i : Instr} {a : BitVec 6} (h : i = .nsend a ∨ i = .nwrite a ∨ i = .nread a ∨ i = .npost a) : (netCommand i).2 = a := by
  obtain rfl | rfl | rfl | rfl := h <;> rfl

theorem issueNet_enters {u : State} {i : Instr} {a : BitVec 6} {e : PeerEnt} (hi : i = .nsend a ∨ i = .nwrite a) (h : netAccepts u i a)
    {o : EngOp} (ho : o = netOp u i a) {w : WorkReq} (hw : w = WorkReq.ofImage o.img)
    (hpeer : u.peer? u.cur.sysr.asid w.peer = some e) (hup : e.lost = false) : State.issueNet i u = some (u.startOp o w.kind) := by
  have hkind : w.kind ∈ (netCommand i).1 := by rw [hw, ho]; exact netAccepts_kind h
  rw [issueNet_peer (netCommand_reg (by tauto)) h ho hw (netCommand_kind_lt (by tauto) hkind) hpeer, if_neg (by simp [hup]),
    if_neg (by simpa using netCommand_kind_ne hi hkind)]

theorem issueNet_unreachable {u : State} {i : Instr} {a : BitVec 6} {e : PeerEnt} (hi : i = .nsend a ∨ i = .nwrite a ∨ i = .nread a)
    (h : netAccepts u i a) {o : EngOp} (ho : o = netOp u i a) {w : WorkReq} (hw : w = WorkReq.ofImage o.img)
    (hpeer : u.peer? u.cur.sysr.asid w.peer = some e) (hlost : e.lost = true) :
    State.issueNet i u = some ((u.deadOp o w.kind Cause.remoteUnreach 0).countNet w.cntr true 0) := by
  have hkind : w.kind ∈ (netCommand i).1 := by rw [hw, ho]; exact netAccepts_kind h
  rw [issueNet_peer (netCommand_reg (by tauto)) h ho hw (netCommand_kind_lt hi hkind) hpeer, if_pos hlost]

theorem issueNet_read {u v : State} {a : BitVec 6} {e : PeerEnt} (h : netAccepts u (.nread a) a) {o : EngOp} (ho : o = netOp u (.nread a) a)
    {w : WorkReq} (hw : w = WorkReq.ofImage o.img)
    (hpeer : u.peer? u.cur.sysr.asid w.peer = some e) (hup : e.lost = false) (hspan : u.spanFault (netXl o) .write w.laddr w.len = (v, none)) :
    State.issueNet (.nread a) u = some (({ (v.startOp o w.kind).pendNet o w [] with
      urx := ((v.startOp o w.kind).pendNet o w []).urx ++ [readAnswer o w e] } : State).sendPackets o w e [(0, 0)] ⟨[], []⟩).1 := by
  have hkind : w.kind = 4 := by
    rw [hw, ho]
    simpa only [netCommand, List.mem_singleton] using netAccepts_kind h
  rw [issueNet_peer rfl h ho hw (by omega) hpeer, if_neg (by simp [hup]), if_pos (beq_iff_eq.2 hkind), hspan]

theorem issueNet_post {u v : State} {a : BitVec 6} (h : netAccepts u (.npost a) a) {o : EngOp} (ho : o = netOp u (.npost a) a)
    {w : WorkReq} (hw : w = WorkReq.ofImage o.img) (hspan : u.spanFault (netXl o) .write w.laddr w.len = (v, none)) :
    State.issueNet (.npost a) u = some ((({ v with recvs := v.recvs ++ [posted o w] } : State).deadOp o w.kind 0 0).pendNet o w []) := by
  have hkind : w.kind = 5 ∨ w.kind = 6 := by
    rw [hw, ho]
    simpa only [netCommand, List.mem_cons, List.not_mem_nil, or_false] using netAccepts_kind h
  rw [issueNet_accepted (a := a) rfl h, ← ho]
  dsimp only
  rw [← hw, if_pos (by omega), hspan]

theorem issueNet_full {u : State} {i : Instr} (h : 64 ≤ (u.queued u.cur.core .network).length) : State.issueNet i u = none :=
  if_pos (congrArg not (State.roomFor_false (n := 0) (.inl h)))

/-- Settles O24: the room, the peer and the local span decide. -/
theorem networkCommandsComplete : Obligations.NetworkCommandsComplete := by
  intro s u v a e hf hc hu
  have exec_eq {i : Instr} (hi : i = .nsend a ∨ i = .nwrite a ∨ i = .nread a ∨ i = .npost a) :
      exec i s = u.issueOrHold i (State.issueNet i) := (exec_netCommand hi).trans (State.deciding_closing _ hf hc hu)
  refine ⟨fun i hi hacc hpeer hup => ?enters, fun i hi hacc hpeer hlost => ?unreachable, fun hacc hpeer hup hspan => ?read,
    fun hacc hspan => ?post, fun i hi hfull => ?held⟩
  case enters => rw [exec_eq (hi.imp_right .inl)]; exact State.issueOrHold_some (f := State.issueNet _) (issueNet_enters hi hacc rfl rfl hpeer hup)
  case unreachable => rw [exec_eq (hi.imp_right (.imp_right .inl))]; exact State.issueOrHold_some (f := State.issueNet _) (issueNet_unreachable hi hacc rfl rfl hpeer hlost)
  case read => rw [exec_eq (.inr (.inr (.inl rfl)))]; exact State.issueOrHold_some (f := State.issueNet _) (issueNet_read hacc rfl rfl hpeer hup hspan)
  case post => rw [exec_eq (.inr (.inr (.inr rfl)))]; exact State.issueOrHold_some (f := State.issueNet _) (issueNet_post hacc rfl rfl hspan)
  case held => rw [exec_eq hi]; exact State.issueOrHold_none (f := State.issueNet _) (issueNet_full hfull)

end Sys2Proof.Machine
end

section
namespace Sys2Proof.Machine

/-! # PROOFS. Reduction slots, shootdowns, virtual caches, sharding entries (R45 to R57, R77 to R85, R222 to R227, R378 to R380) -/

/-! ## Packets for this chip and for others -/

theorem State.here_own {s : State} {h : Hdr} (o : Out) (f : State → State) (hd : h.dst = s.chip) : s.here h o f = f s := if_pos (by simp [hd])

theorem State.here_other {s : State} {h : Hdr} (o : Out) (f : State → State) (hd : h.dst ≠ s.chip) : s.here h o f = s.passOn h o :=
  if_neg (by simpa using hd)

/-- A request without a gang key is served at once (R401). -/
theorem State.gated_without_gang {s : State} {q : Req} (f : State → State) (hg : q.gang = none) : s.gated q f = f s := by
  unfold State.gated
  rw [hg]
  rfl

/-! ## Reduction slots (R222, R223, R378, R379) -/

theorem State.sendSlot_eq (t : State) (root : BitVec 8) {body : ReqBody} (hb : (∃ v, body = .slotOpen v) ∨ ∃ j, body = .slotJoin j) :
    t.sendSlot root body = slotSent t (slotMessage t root body) := by
  obtain ⟨v, rfl⟩ | ⟨j, rfl⟩ := hb <;> rfl

theorem exec_sropen (a d : BitVec 6) (s : State) : exec (.sropen a d) s = execSropen a d s := rfl

theorem exec_srjoin (h v r : BitVec 6) (s : State) : exec (.srjoin h v r) s = execSrjoin h v r s := rfl

theorem slot_instructions_complete : slotInstructionsComplete := by
  intro s u x a d h v r p hu
  refine ⟨fun hf hc => ?sropen, fun hf hc hal htr => ?srjoin⟩
  case sropen =>
    rw [exec_sropen, execSropen, State.deciding_closing_dest _ hf hc hu]
    dsimp only
    rw [State.sendSlot_eq _ _ (.inl ⟨_, rfl⟩)]
    rfl
  case srjoin =>
    rw [exec_srjoin, execSrjoin, State.deciding_closing _ hf hc hu]
    refine (if_neg (by simpa using hal)).trans ?_
    rw [htr]
    dsimp only
    rw [State.sendSlot_eq _ _ (.inr ⟨_, rfl⟩)]
    rfl

theorem exec_slotOpenRequest {s : State} {q : Req} {desc : BitVec 64} (hd : q.dst = s.chip) (hg : q.gang = none) (hb : q.body = .slotOpen desc) :
    exec (.slotOpenRequest q) s = .next (opened s q desc) := by
  show execSlotOpenRequest q s = _
  unfold execSlotOpenRequest
  rw [hb]
  dsimp only
  rw [State.here_own _ _ (show (reqHdr q).dst = s.chip from hd), State.gated_without_gang _ hg]
  unfold opened
  cases s.freeSlot with
  | none => rfl
  | some n => rfl

/-- A contribution at its root meets its slot (R378). -/
theorem exec_slotContribution {s : State} {q : Req} {j : SlotJoin} (hd : q.dst = s.chip) (hg : q.gang = none) (hb : q.body = .slotJoin j) :
    exec (.slotContribution q) s = .next (match s.slot? j.slot with
      | none => s.sendSlotResult j 0 3
      | some x =>
        if x.isOpen && x.gen == j.gen then
          if bits x.desc.toNat 8 9 ≤ (x.joins ++ [j]).length then s.combineSlot { x with joins := x.joins ++ [j] } 0
          else s.putSlot { x with joins := x.joins ++ [j] }
        else if !x.isOpen && x.gen == j.gen then s.sendSlotResult j 0 2
        else s.sendSlotResult j 0 3) := by
  show execSlotContribution q s = _
  unfold execSlotContribution
  rw [hb]
  dsimp only
  rw [State.here_own _ _ (show (reqHdr q).dst = s.chip from hd), State.gated_without_gang _ hg] <;> rfl

theorem exec_slotTimeout_open {s : State} {n : BitVec 9} {x : Slot} (h : s.slot? n = some x) (ho : x.isOpen = true) :
    exec (.slotTimeout n) s = .next (s.combineSlot x 1) := by
  show execSlotTimeout n s = _
  unfold execSlotTimeout
  rw [h]
  exact if_pos ho

theorem exec_slotAnswer {s : State} {m : RespTo} (ans : BitVec 64) (hd : m.h.dst = s.chip) :
    exec (.slotAnswer m ans) s = .next (match (s.outReqs.find? fun o => o.q.id == m.id).map OutReq.owner with
      | some (.slot k) =>
        let u := s.takeReq m.id
        match (u.group? k).map Group.phase with
        | some (.wait (.slot d)) => u.answerCmd k d ⟨ans, false⟩
        | _ => u
      | _ => s) :=
  congrArg Host.Outcome.next (State.here_own _ _ hd)

theorem exec_slotResultLand {s : State} {h : Hdr} (id : Nat) (value : BitVec 64) (st : BitVec 8) (hd : h.dst = s.chip) :
    exec (.slotResultLand h id value st) s = .next (match (s.outReqs.find? fun o => o.q.id == id).map OutReq.q with
      | some q => match q.body with
        | .slotJoin j =>
          let u := s.takeReq id
          match u.translate (u.frontXl q.asid) j.recVa.toNat .write with
          | (t, .error c) => t.emit (.note 4 c.toNat)
          | (t, .ok p) => (t.putAt none p (toBytes 8 value.toNat ++ [st] ++ List.replicate 7 0)).1
        | _ => s
      | none => s) :=
  congrArg Host.Outcome.next (State.here_own _ _ hd)

/-- The answer of a command whose group has no frame (R405). -/
theorem State.answerCmd_running {s : State} {k : Nat} {g : Group} (d : BitVec 6) (e : UElem) (hg : s.group? k = some g) (hframe : g.frame = none) :
    s.answerCmd k d e = (s.answerW k d e).onGroup k fun g => { g with phase := .run } := if_neg (by simp [hg, hframe])

theorem slot_events_complete : slotEventsComplete := by
  intro s t q desc j x n k d m ans value st p o g u
  refine ⟨fun hd hg => ⟨fun hb => exec_slotOpenRequest hd hg hb, fun hb => ?contribution⟩, exec_slotTimeout_open, fun hd => ⟨fun ho => ⟨?answer, ?land⟩, fun hn => ⟨?noAnswer, ?noLand⟩⟩,
    fun hd => ⟨congrArg Host.Outcome.next (State.here_other _ _ hd), congrArg Host.Outcome.next (State.here_other _ _ hd)⟩⟩
  case contribution =>
    rw [exec_slotContribution hd hg hb]
    refine ⟨fun hslot hopen hgen => ⟨fun hmore => ?adds, fun hlast => ?combines⟩, fun hslot hclosed hgen => ?closed, fun hslot hgen => ?otherGen, fun hslot => ?never⟩
    all_goals rw [hslot]
    case adds =>
      refine congrArg Host.Outcome.next ((if_pos (by simp [hopen, hgen])).trans (if_neg ?_))
      rw [List.length_append, List.length_singleton]
      omega
    case combines =>
      refine congrArg Host.Outcome.next ((if_pos (by simp [hopen, hgen])).trans (if_pos ?_))
      rw [List.length_append, List.length_singleton]
      omega
    case closed => exact congrArg Host.Outcome.next ((if_neg (by simp [hclosed])).trans (if_pos (by simp [hclosed, hgen])))
    case otherGen => exact congrArg Host.Outcome.next ((if_neg (by simp [hgen])).trans (if_neg (by simp [hgen])))
  case answer =>
    intro howner hgroup hphase hframe
    have hgroup' : (s.takeReq m.id).group? k = some g := hgroup
    rw [exec_slotAnswer ans hd, ho]
    simp only [Option.map_some, howner, hgroup', hphase, State.answerCmd_running d _ hgroup' hframe]
    rfl
  case land =>
    intro hbody htr
    have htr' : (s.takeReq m.id).translate ((s.takeReq m.id).frontXl o.q.asid) j.recVa.toNat .write = (t, .ok p) := htr
    rw [exec_slotResultLand m.id value st hd, ho]
    simp only [Option.map_some, hbody, htr']
  case noAnswer => rw [exec_slotAnswer ans hd, hn]; rfl
  case noLand => rw [exec_slotResultLand m.id value st hd, hn]; rfl

/-- Settles O26: the instructions at the origin, and the events at the root and the origin. -/
theorem slotsComplete : Obligations.SlotsComplete := ⟨slot_instructions_complete, slot_events_complete⟩

/-! ## Shootdowns (R45, R46, R225) -/

theorem exec_shoot (a b c : BitVec 6) (s : State) : exec (.shoot a b c) s = execShoot a b c s := rfl

theorem filter_of_false {α : Type} {p : α → Bool} {l : List α} (h : ∀ x ∈ l, p x = false) : l.filter p = [] :=
  List.filter_eq_nil_iff.2 fun x hx => by simp [h x hx]

/-- Settles O27: the broadcast, the removal at each kind of recipient, and the acknowledgements. -/
theorem shootdownsComplete : Obligations.ShootdownsComplete := by
  intro s u a b c t r
  refine ⟨fun huser hf hc hu => ?broadcast, fun ht hr => ?network, fun ht hr hcopies hholds => ?cores, fun ht => ⟨fun hmore => ?ack, fun hlast => ?done⟩⟩
  case broadcast =>
    rw [exec_shoot, execShoot, if_neg (by simp [huser]), State.deciding_closing _ hf hc hu]
    simp only [beq_iff_eq]
    rfl
  case network =>
    show execShootdownRemove t.id r s = _
    unfold execShootdownRemove
    rw [ht]
    exact if_pos hr
  case cores =>
    show execShootdownRemove t.id r s = _
    unfold execShootdownRemove
    rw [ht]
    refine (if_neg (by omega)).trans ?_
    have hlines : ((s.cores.filter fun c => c.id / 64 == r).flatMap fun c =>
        (c.l1.filter fun x => x.st == .u && t.covers x.asid (x.vline * 128) 128).map L1Line.line) = [] := by
      refine List.flatMap_eq_nil_iff.2 fun c hcore => ?_
      rw [filter_of_false fun x hx => by simp [hcopies c (List.mem_of_mem_filter hcore) x hx], List.map_nil]
    have hsquashed : (s.groups.filter fun g => g.alive && g.core / 64 == r && !g.chunk.committing && g.heldBy t) = [] :=
      filter_of_false fun g hg => by simp [hholds g hg]
    dsimp only
    rw [hlines]
    show Host.Outcome.next (List.foldl _ _ (s.groups.filter fun g => g.alive && g.core / 64 == r && !g.chunk.committing && g.heldBy t)) = _
    rw [hsquashed]
    rfl
  case ack =>
    show execShootdownAck t.id r s = _
    unfold execShootdownAck
    rw [ht]
    exact if_pos hmore
  case done =>
    show execShootdownAck t.id r s = _
    unfold execShootdownAck
    rw [ht]
    exact if_neg (by omega)

/-! ## Virtual caches (R77 to R85) -/

/-- A clean operand of `vcdef` or `vcflush` names a VC after the commit. -/
theorem State.onVcOperand_clean {s u : State} {d r : BitVec 6} {n : Nat} (f : State → Nat → Ans) (hf : s.Free [r, d]) (hu : s.Commits false u)
    (hc : u.Clean [r]) (hn : (u.wreg r).val.toNat % 256 = n) : s.onVcOperand d r f = f u n := by
  have hclean : ¬(u.wreg r).poison = true := by simp [hc r (List.mem_singleton_self r)]
  rw [State.onVcOperand, State.interlock_free _ hf, State.closing_commits _ hu, if_neg hclean, hn]

/-- A poisoned one is live after the commit (R190). -/
theorem State.onVcOperand_poisoned {s u : State} {d r : BitVec 6} (f : State → Nat → Ans) (hf : s.Free [r, d]) (hu : s.Commits false u)
    (hp : (u.wreg r).poison = true) : s.onVcOperand d r f = u.failToken (u.wreg r).token d := by
  rw [State.onVcOperand, State.interlock_free _ hf, State.closing_commits _ hu, if_pos hp]

theorem exec_vcdef {s : State} (d r : BitVec 6) (huser : s.cur.user = false) :
    exec (.vcdef d r) s = s.onVcOperand d r fun u n =>
      if n == 0 || n == 254 || n == 255 then cacheAnswer u d vcFixed 0
      else if ((u.vcs.find? fun c => c.id == n).map fun c => c.phase != .stable && c.phase != .undefined).getD false then cacheAnswer u d vcBusy 0
      else match u.peekBytes (u.vcTable + 64 * n) 64 with
        | (v, _, some t) => let (v, k) := v.ctrlPoison (lineCause t) 0; v.failToken k d
        | (v, bs, none) => let (v, st, m) := v.defineVc n (Cdr.ofBytes bs); cacheAnswer v d st m :=
  if_neg (by simp [huser])

theorem exec_vcflush {s : State} (d r : BitVec 6) (m : FlushMode) (huser : s.cur.user = false) :
    exec (.vcflush d r m) s = s.onVcOperand d r fun u n =>
      if ((u.vc? n).map fun c => c.phase != .stable).getD false then .next (u.waitsIn (.wait (.flush d n m)))
      else cacheAnswer (u.flushVc n m).1 d (u.flushVc n m).2 0 :=
  if_neg (by simp [huser])

theorem underChange_iff (u : State) (n : Nat) :
    underChange u n ↔ ((u.vcs.find? fun c => c.id == n).map fun c => c.phase != .stable && c.phase != .undefined).getD false = true := by
  unfold underChange
  cases u.vcs.find? fun c => c.id == n <;> simp

/-- The virtual cache that `VCDEF` finds at an id; one that was never defined has the reset's fields. -/
def State.oldVc (s : State) (n : Nat) : Vc := (s.vcs.find? fun x => x.id == n).getD { Vc.fixed n 0 0 with phase := .undefined, cen := false }

theorem State.defineVc_remove {s : State} {n : Nat} {c : Cdr} (hval : c.valid = false) :
    s.defineVc n c = if (s.oldVc n).phase == .undefined then
        ((s.putVc { s.oldVc n with mcount := (s.oldVc n).mcount + 1 }).writeStatus n, vcOk, (s.oldVc n).mcount + 1)
      else ((s.putVc { s.oldVc n with phase := .removing, leaving := (s.oldVc n).shares }).writeStatus n, vcOk, (s.oldVc n).mcount + 1) := by
  unfold State.defineVc
  exact if_pos (by simp [hval])

theorem State.defineVc_illegal {s : State} {n : Nat} {c : Cdr} (hval : c.valid = true) (hleg : c.legal = false) :
    s.defineVc n c = (s, vcBadcdr, 0) := by
  unfold State.defineVc
  exact (if_neg (by simp [hval])).trans (if_pos (by simp [hleg]))

theorem State.defineVc_incompat {s : State} {n : Nat} {c : Cdr} {old : Vc} (hold : s.oldVc n = old) (hval : c.valid = true)
    (hleg : c.legal = true) (hlive : old.phase ≠ .undefined) (hinc : old.incompat c = true) : s.defineVc n c = (s, vcIncompat, 0) := by
  have hbad : ((s.oldVc n).phase != .undefined && (s.oldVc n).incompat c) = true := by simp [hold, hlive, hinc]
  unfold State.defineVc
  exact (if_neg (by simp [hval])).trans ((if_neg (by simp [hleg])).trans (if_pos hbad))

/-- A legal CDR of a VC that is not defined places all its shares. -/
theorem State.defineVc_new {s : State} {n : Nat} {c : Cdr} {old : Vc} (hold : s.oldVc n = old) (hval : c.valid = true)
    (hleg : c.legal = true) (hundef : old.phase = .undefined) :
    s.defineVc n c = match s.placeShares c c.shares with
      | none => (s, vcNospace, 0)
      | some js => (((s.putVc { old.take c with
          hits := 0, misses := 0, evicts := 0, retired := 0, phase := .claim, shares := [], joining := sortBy id js,
          leaving := [] }).writeStatus n).writeStatus 0, vcOk, old.mcount + 1) := by
  have hfresh : (old.phase == .undefined) = true := by simp [hundef]
  have hgood : ((s.oldVc n).phase != .undefined && (s.oldVc n).incompat c) = false := by simp [hold, hundef]
  unfold State.defineVc
  refine (if_neg (by simp [hval])).trans ((if_neg (by simp [hleg])).trans ((if_neg (ne_true_of_eq_false hgood)).trans ?_))
  rw [State.oldVc] at hold
  simp only [hold, hfresh, if_true, List.length_nil, Nat.sub_zero, List.filter_nil] <;>
    (rcases s.placeShares c c.shares with _ | js <;> rfl)

/-- One of a live VC keeps the old shares that its candidates hold and places the rest (R79). -/
theorem State.defineVc_resize {s : State} {n : Nat} {c : Cdr} {old : Vc} (hold : s.oldVc n = old) (hval : c.valid = true)
    (hleg : c.legal = true) (hlive : old.phase ≠ .undefined) (hcomp : old.incompat c = false) :
    s.defineVc n c = match s.placeShares c (c.shares - (c.kept old.shares).length) with
      | none => (s, vcNospace, 0)
      | some js => (((s.putVc { old.take c with
          phase := .claim, joining := sortBy id js,
          leaving := old.shares.filter fun g => !(c.kept old.shares).contains g }).writeStatus n).writeStatus 0, vcOk, old.mcount + 1) := by
  have hdefined : (old.phase == .undefined) = false := by simp [hlive]
  have hgood : ((s.oldVc n).phase != .undefined && (s.oldVc n).incompat c) = false := by simp [hold, hcomp]
  unfold State.defineVc
  refine (if_neg (by simp [hval])).trans ((if_neg (by simp [hleg])).trans ((if_neg (ne_true_of_eq_false hgood)).trans ?_))
  rw [State.oldVc] at hold
  simp only [hold, hdefined, Bool.false_eq_true, if_false] <;>
    (rcases s.placeShares c (c.shares - (c.kept old.shares).length) with _ | js <;> rfl)

theorem vcdef_completes : vcdefCompletes := by
  intro s u v d r bs n huser hf hu hc hn old c kept
  have vcdef := (exec_vcdef d r huser).trans (State.onVcOperand_clean _ hf hu hc hn)
  refine ⟨fun hfix => ?fixed, fun h0 h254 h255 => ⟨fun hbusy => ?busy, fun hidle hread => ?_⟩⟩
  case fixed => exact vcdef.trans (if_pos (by simpa [or_assoc] using hfix))
  case busy => exact vcdef.trans ((if_neg (by simp [h0, h254, h255])).trans (if_pos ((underChange_iff u n).1 hbusy)))
  have defines : exec (.vcdef d r) s = cacheAnswer (v.defineVc n c).1 d (v.defineVc n c).2.1 (v.defineVc n c).2.2 := by
    refine vcdef.trans ((if_neg (by simp [h0, h254, h255])).trans ((if_neg (mt (underChange_iff u n).2 hidle)).trans ?_))
    rw [hread]
  have hold : v.oldVc n = old := rfl
  rw [defines]
  refine ⟨fun hval hundef => ?noop, fun hval hlive => ?removes, fun hval hleg => ?illegal, fun hval hleg hlive hinc => ?incompat,
    fun hval hleg hundef => ⟨fun hnone => ?newNospace, fun js hjs => ?new⟩,
    fun hval hleg hlive hcomp => ⟨fun hnone => ?resizeNospace, fun js hjs => ?resize⟩⟩
  case noop => rw [State.defineVc_remove hval, hold, if_pos (beq_iff_eq.2 hundef)]; rfl
  case removes => rw [State.defineVc_remove hval, hold, if_neg (ne_true_of_eq_false (beq_false_of_ne hlive))]; rfl
  case illegal => rw [State.defineVc_illegal hval hleg]; rfl
  case incompat => rw [State.defineVc_incompat hold hval hleg hlive hinc]; rfl
  case newNospace => rw [State.defineVc_new hold hval hleg hundef, hnone]; rfl
  case new => rw [State.defineVc_new hold hval hleg hundef, hjs]; rfl
  case resizeNospace => rw [State.defineVc_resize hold hval hleg hlive hcomp, hnone]; rfl
  case resize => rw [State.defineVc_resize hold hval hleg hlive hcomp, hjs]; rfl

theorem vcflush_completes : vcflushCompletes := by
  intro s u d r m c n huser hf hu hc hn lines
  have vcflush (m : FlushMode) := (exec_vcflush d r m huser).trans (State.onVcOperand_clean _ hf hu hc hn)
  refine ⟨fun hnone => ?undefined, fun hvc hphase => ?waits, fun hvc hphase hpool => ⟨?cacheZero, ?cacheInval, ?cacheClean⟩,
    fun hvc hphase hpool => ⟨?poolClean, ?poolInval, ?poolZero⟩⟩
  case undefined =>
    refine (vcflush m).trans ((if_neg (by simp [hnone])).trans ?_)
    simp only [State.flushVc, hnone]
    rfl
  case waits => exact (vcflush m).trans (if_pos (by simp [hvc, hphase]))
  all_goals
    refine (vcflush _).trans ((if_neg (by simp [hvc, hphase])).trans ?_)
    simp only [State.flushVc, hvc, Option.map_some, Option.getD_some, hpool]
    rfl

theorem cache_operand_poison : cacheOperandPoison := by
  intro s u t d r m huser hf hu hp v
  have vcdef := (exec_vcdef d r huser).trans (State.onVcOperand_poisoned _ hf hu hp)
  have vcflush := (exec_vcflush d r m huser).trans (State.onVcOperand_poisoned _ hf hu hp)
  have hfail : u.failToken (u.wreg r).token d = match v.takeStop with
      | .ok w => .next w.nextChunk
      | .wait w => .next w.held
      | .stopped w => .next w := rfl
  rw [vcdef, vcflush, hfail]
  refine ⟨fun h => ?drop, fun h => ?stops, fun h => ?waits⟩
  all_goals rw [h]; exact ⟨rfl, rfl⟩

/-- Settles O28: the CDR, the state of the VC and the poison of the operand decide. -/
theorem virtualCacheInstructionsComplete : Obligations.VirtualCacheInstructionsComplete :=
  ⟨vcdef_completes, vcflush_completes, cache_operand_poison⟩

/-! ## Sharding entries (R50, R57, R226) -/

theorem exec_stset (d h r : BitVec 6) (s : State) : exec (.stset d h r) s = execStset d h r s := rfl

/-- A clean aligned image for a handle of the table: the wait takes the next number before the next chunk starts. -/
theorem exec_stset_installs {s u w : State} {d h r : BitVec 6} {gen : BitVec 16} {a : Nat} {hd : BitVec 16} {bs : List Byte} {ok : Bool}
    (hf : s.Free [h, r, d]) (hc : s.Clean [h, r]) (hu : s.Commits false u) (ha : scratchAddr (u.wreg r).val = a)
    (hhd : (u.wreg h).val.setWidth 16 = hd) (hbs : memBytes u.team.scratch a 128 = bs)
    (hok : ((Shard.ofBytes bs).legal && (Shard.ofBytes bs).valid) = ok) (hal : a % 8 = 0) (hin : u.team.inside a 128 = true)
    (hcount : hd.toNat < shardCount u.cur.sysr.stbase) (hclean : u.team.firstPoison a 128 = none)
    (hinst : u.installShard u.cur.core u.cur.sysr.asid u.cur.sysr.stbase hd bs ok = (w, gen)) :
    exec (.stset d h r) s =
      .next (({ w with nextKey := w.nextKey + 1 } : State).waitsIn
        (.wait (.stset d hd (stsetAnswer (if ok then 0 else 1) gen.toNat) w.nextKey))) := by
  rw [exec_stset, execStset, State.deciding_closing_dest _ hf hc hu]
  dsimp only
  rw [ha, hhd, hbs, hok, if_neg (by simp [hal, hin]), if_neg (Nat.not_le.2 hcount), if_neg (by simp [hclean]), hinst]
  rfl

/-- A package after reset in which one group of 16 lanes runs in supervisor mode, with every uniform 0. -/
def oneGroup : State := State.reset.withFetchWord 32 0x02000000

/-- The chunk that starts while `stset` waits counts from the number after the wait's; the statement's counts from the wait's own. -/
theorem not_shard_entry_replacement_completes : ¬shardEntryReplacementCompletes := by
  intro h
  have hfree : oneGroup.Free [0, 1, 2] := rfl
  have hclean : oneGroup.Clean [0, 1] := by intro r hr; simp only [List.mem_cons, List.not_mem_nil, or_false] at hr; obtain rfl | rfl := hr <;> rfl
  obtain ⟨u, hu, hplace⟩ : ∃ u, oneGroup.Commits false u ∧ scratchAddr (u.wreg 1).val = 0 ∧ (u.wreg 0).val.setWidth 16 = (0 : BitVec 16) ∧
      u.team.inside 0 128 = true ∧ 0 < shardCount u.cur.sysr.stbase ∧ u.team.firstPoison 0 128 = none :=
    ⟨_, ⟨rfl, fun _ => rfl, rfl, rfl⟩, by decide, by decide, by decide, by decide, by decide⟩
  obtain ⟨ha, hhd, hin, hcount, hpoison⟩ := hplace
  obtain ⟨w, gen, hinst⟩ : ∃ w gen, u.installShard u.cur.core u.cur.sysr.asid u.cur.sysr.stbase 0 (memBytes u.team.scratch 0 128)
      ((Shard.ofBytes (memBytes u.team.scratch 0 128)).legal && (Shard.ofBytes (memBytes u.team.scratch 0 128)).valid) = (w, gen) := ⟨_, _, rfl⟩
  have hmodel := exec_stset_installs (d := 2) hfree hclean hu ha hhd rfl rfl rfl hin hcount hpoison hinst
  have hstated := (h oneGroup u w 2 0 1 gen 0 0 0 oneGroup.cur 0).1 hfree hclean hu
  rw [ha, hhd] at hstated
  have hsame := (hstated rfl hin hcount hpoison hinst).symm.trans hmodel
  have hkey := congrArg (fun o : Ans => match o with | .next t => t.cur.chunk.key0 | _ => 0) hsame
  exact absurd (hkey : w.nextKey = w.nextKey + 1) (Nat.succ_ne_self _).symm

/-- Refutes O29: from `oneGroup`, `stset` with w[0] = w[1] = 0 installs the empty image, and the chunk that starts after it has a `key0` one above the
stated one. -/
theorem not_cacheAndShardReconfigurationCompletes : ¬Obligations.CacheAndShardReconfigurationCompletes :=
  fun h => not_shard_entry_replacement_completes h.1

end Sys2Proof.Machine
end

section
namespace Sys2Proof.Machine

/-! # PROOFS. Runs, chunks, arbiters, stops (R44, R126, R162, R163, R324 to R344, R404, R407) -/

/-! ## The stable sort -/

theorem mem_insertBy {α : Type} {key : α → Nat} {x y : α} {l : List α} : y ∈ insertBy key x l ↔ y = x ∨ y ∈ l := by
  induction l with
  | nil => simp [insertBy]
  | cons a as ih =>
    unfold insertBy
    split
    · simp only [List.mem_cons, ih]; tauto
    · simp

/-- No key of a list is below the first one's. -/
def LeastFirst {α : Type} (key : α → Nat) (l : List α) : Prop := ∀ a ∈ l.head?, ∀ b ∈ l, key a ≤ key b

theorem LeastFirst.insertBy {α : Type} {key : α → Nat} {l : List α} (h : LeastFirst key l) (x : α) : LeastFirst key (insertBy key x l) := by
  cases l with
  | nil => intro a ha b hb; simp_all [Machine.insertBy]
  | cons a as =>
    have hleast : ∀ b ∈ a :: as, key a ≤ key b := h a rfl
    unfold Machine.insertBy
    split
    next hle =>
      rintro _ ⟨⟩ b hb
      rcases List.mem_cons.1 hb with rfl | hb
      · exact Nat.le_refl _
      · rcases mem_insertBy.1 hb with rfl | hb
        · exact hle
        · exact hleast b (List.mem_cons_of_mem _ hb)
    next hlt =>
      rintro _ ⟨⟩ b hb
      rcases List.mem_cons.1 hb with rfl | hb
      · exact Nat.le_refl _
      · exact Nat.le_trans (Nat.le_of_not_le hlt) (hleast b hb)

theorem leastFirst_foldl {α : Type} {key : α → Nat} (l acc : List α) (h : LeastFirst key acc) :
    LeastFirst key (l.foldl (fun acc x => insertBy key x acc) acc) ∧
    ∀ y, y ∈ l.foldl (fun acc x => insertBy key x acc) acc ↔ y ∈ acc ∨ y ∈ l := by
  induction l generalizing acc with
  | nil => exact ⟨h, by simp⟩
  | cons x xs ih =>
    obtain ⟨hleast, hmem⟩ := ih (insertBy key x acc) (h.insertBy x)
    refine ⟨hleast, fun y => (hmem y).trans ?_⟩
    rw [mem_insertBy, List.mem_cons]
    tauto

/-- The first of a sorted list is one of its elements with the least key. -/
theorem sortBy_head {α : Type} {key : α → Nat} {l : List α} {a : α} (h : (sortBy key l).head? = some a) : a ∈ l ∧ ∀ b ∈ l, key a ≤ key b := by
  obtain ⟨hleast, hmem⟩ := leastFirst_foldl l [] (key := key) (by simp [LeastFirst])
  have hin (y : α) : y ∈ sortBy key l ↔ y ∈ l := (hmem y).trans (by simp)
  exact ⟨(hin a).1 (List.mem_of_mem_head? h), fun b hb => hleast a h b ((hin b).2 hb)⟩

/-! ## The issue decision (R404) -/

/-- A ready run whose words are good fits the quarantine (R126). -/
theorem State.runReady_quarantine {u : State} {m : Nat} {ds : List Nat} {atomic : Bool} {after : Nat} (h : u.runReady = true)
    (hok : u.checkNext.2 = .ok m ds atomic after) : u.cur.width * m ≤ u.quarFree u.cur.core := by
  simp only [State.runReady, hok, Bool.and_eq_true, decide_eq_true_eq] at h
  exact h.2

/-- And, unless its chunk is new, the register limit (R325), in a chunk that is not an atomic's own. -/
theorem State.runReady_registers {u : State} {m : Nat} {ds : List Nat} {atomic : Bool} {after : Nat} (h : u.runReady = true)
    (hok : u.checkNext.2 = .ok m ds atomic after) :
    u.cur.pristine = true ∨ (atomic = false ∧ u.cur.chunk.vw.length + u.cur.chunk.fresh ds ≤ 32) := by
  simp only [State.runReady, State.hasRun, hok, Bool.and_eq_true, Bool.not_eq_true', Option.isNone_iff_eq_none] at h
  obtain ⟨⟨⟨⟨hbound, hqueue⟩, _⟩, hopen⟩, _⟩ := h
  rcases hp : u.cur.pristine
  · right
    simp only [State.mustClose, hbound, hp, hok, hqueue] at hopen
    cases atomic <;> simp_all <;> grind
  · exact .inl rfl

theorem exec_runIssue {s : State} (slot : BitVec 2) {g : Group} (h : s.choose s.cur.core = some g) :
    exec (.runIssue slot) s = .next ((s.decided g.core g.key).focus g.key).issueRun := by
  show execRunIssue slot s = _
  unfold execRunIssue
  rw [h]

/-- Settles O30: the first of the order, its check, and its start. -/
theorem runIssueCompletes : Obligations.RunIssueCompletes := by
  intro s v slot m i after ds atomic g b bs
  refine ⟨fun h => ⟨sortBy_head h, fun hok => ?fits, fun hcheck hqueue => ?starts, fun hcheck => ?illegal⟩, fun h => ?none⟩
  case fits =>
    have hready : (s.focus g.key).runReady = true := by
      have := (List.mem_filter.1 (sortBy_head h).1).2
      simp only [Bool.and_eq_true] at this
      exact this.2
    exact ⟨State.runReady_quarantine hready hok, State.runReady_registers hready hok⟩
  case starts =>
    rw [exec_runIssue slot h]
    unfold State.issueRun
    rw [hcheck]
    dsimp only [State.onCur]
    rw [hqueue]
  case illegal =>
    rw [exec_runIssue slot h]
    unfold State.issueRun
    rw [hcheck]
    rfl
  case none =>
    show execRunIssue slot s = _
    unfold execRunIssue
    rw [h]

/-! ## Close and commit (R324, R327 to R329, R332) -/

/-- CHUNK_CLOSE of a group that exists. -/
theorem exec_chunkClose {s : State} {k : Nat} (h : (s.group? k).isSome = true) :
    exec (.chunkClose k) s = .next ((let u := s.focus k
      if !u.cur.freads.isEmpty || u.cur.chunk.committing then u
      else match u.cur.run with
        | some r => if r.stop then u.takeStop.state else u
        | none =>
          match u.cur.chunk.closing <|> u.mustClose with
          | some r => u.closeFor r
          | none => u).focus s.cur.key) := by
  obtain ⟨g, hg⟩ := Option.isSome_iff_exists.1 h
  show execChunkClose k s = _
  unfold execChunkClose
  rw [hg] <;> rfl

theorem exec_arbiterAdmit {s : State} {k : Nat} (h : (s.group? k).isSome = true) :
    exec (.arbiterAdmit k) s = .next ((let u := s.focus k
      match u.cur.chunk.committing, u.cur.chunk.pend with
      | true, a :: as =>
        match u.blockedBy (some a) with
        | some t => match u.cur.reserve with
          | some mine => if t < u.cur.ageKey mine then u.squash else u
          | none => u
        | none =>
          if u.admittedClash (some a) || u.queuedBefore a u.cur.chunk.arrive then u
          else
            let v := u.onChunk fun c => { c with pend := as, got := c.got ++ [a] }
            if !as.isEmpty then v.arriveNext
            else if (v.cur.run.map fun (r : RunSt) => !r.stop).getD false then v
            else v.commitNow.state
      | _, _ => u).focus s.cur.key) := by
  obtain ⟨g, hg⟩ := Option.isSome_iff_exists.1 h
  show execArbiterAdmit k s = _
  unfold execArbiterAdmit
  rw [hg] <;> rfl

/-- Settles O31: the arbiters of the closed chunk, and what an arbiter finds, decide. -/
theorem chunksCloseAndCommit : Obligations.ChunksCloseAndCommit := by
  intro s u k a t mine as why hgroup hfocus
  refine ⟨fun hreads hrun hopen hwhy hchecked hlive => ?close, fun hcommitting hpend hfree hclash hfirst => ?admitted,
    fun hcommitting hpend hblocked hmine holder => ?squashed⟩
  case close =>
    intro v
    have hstart : exec (.chunkClose k) s = .next (v.startCommit.focus s.cur.key) := by
      rw [exec_chunkClose hgroup, hfocus]
      dsimp only
      rw [if_neg (by simp [hreads, hopen]), hrun, hwhy]
      have hcheckedv : v.cur.anyUnchecked = false := hchecked
      have hlivev : v.cur.chunk.live = [] := hlive
      refine congrArg (fun t => Host.Outcome.next (State.focus t s.cur.key)) ?_
      exact (if_neg (ne_true_of_eq_false hcheckedv)).trans (if_pos (congrArg List.isEmpty hlivev))
    refine ⟨fun hnone => ?atOnce, fun hsome => ?queued⟩
    case atOnce => rw [hstart, State.startCommit, hnone]; rfl
    case queued =>
      rw [hstart, State.startCommit, if_neg (by simp [hsome]), ← hsome]
      rfl
  case admitted =>
    intro v
    have hadmit : exec (.arbiterAdmit k) s = .next ((if !as.isEmpty then v.arriveNext
        else if (v.cur.run.map fun (r : RunSt) => !r.stop).getD false then v else v.commitNow.state).focus s.cur.key) := by
      rw [exec_arbiterAdmit hgroup, hfocus]
      dsimp only
      rw [hcommitting, hpend]
      dsimp only
      rw [hfree]
      dsimp only
      rw [if_neg (by simp [hclash, hfirst])]
    refine ⟨fun hmore => ?next, fun hlast hstopped => ?commits, fun hlast hrunning => ?waits⟩
    case next => rw [hadmit, if_pos (by simpa using hmore)]; rfl
    case commits =>
      have hnorun : ¬(v.cur.run.map fun (r : RunSt) => !r.stop).getD false = true := by
        show ¬(u.cur.run.map fun r => !r.stop).getD false = true
        cases hr : u.cur.run with
        | none => simp
        | some r => simp [hstopped r hr]
      rw [hadmit, if_neg (by simp [hlast]), if_neg hnorun]
    case waits =>
      obtain ⟨r, hr, hstop⟩ := hrunning
      have hrun : (v.cur.run.map fun (r : RunSt) => !r.stop).getD false = true := by
        show (u.cur.run.map fun r => !r.stop).getD false = true
        simp [hr, hstop]
      rw [hadmit, if_neg (by simp [hlast]), if_pos hrun]
  case squashed =>
    rw [exec_arbiterAdmit hgroup, hfocus]
    dsimp only
    rw [hcommitting, hpend]
    dsimp only
    rw [hblocked]
    dsimp only
    rw [hmine]
    dsimp only
    rw [if_pos holder]

/-! ## Stops, returns, gaps (R44, R162, R337, R344, R407) -/

/-- Where a group waits for system software, and its team does not run or more is awaited, the step is the answer (R400). -/
theorem exec_replayResume_answered {s : State} {k : Nat} {g : Group} (h : s.group? k = some g) (hwaits : (s.serviced g && s.activeTeam g.teamKey) = false)
    (hasked : g.asked = true) : exec (.replayResume k) s = .next (s.onGroup k Group.answered) := by
  show execReplayResume k s = _
  unfold execReplayResume
  rw [h]
  exact (if_neg (ne_true_of_eq_false hwaits)).trans (if_pos hasked)

/-- A parked group that waits for system software, and another group under its number. -/
def twiceNumbered : State :=
  { State.reset with cur := { State.reset.cur with phase := .parked (.replay true [] []) }, rest := [{ State.reset.cur with phase := .run }] }

/-- Refutes O32: in `twiceNumbered` two groups share a number, as nothing forbids; the answer reaches the parked one alone, where the statement
parks the running one too. -/
theorem not_stopsAndReturnsComplete : ¬Obligations.StopsAndReturnsComplete := by
  intro h
  have hgroup : twiceNumbered.group? twiceNumbered.cur.key = some twiceNumbered.cur := rfl
  obtain ⟨-, -, hanswer, -⟩ := h twiceNumbered twiceNumbered twiceNumbered.cur.key twiceNumbered.cur true [] [] 0 0
  have hstated := (hanswer hgroup rfl rfl).1 rfl
  have hmodel := exec_replayResume_answered hgroup (by decide) rfl
  have hphases := congrArg (fun o : Ans => match o with | .next t => t.rest.map Group.phase | _ => []) (hstated.symm.trans hmodel)
  exact absurd (hphases : [Phase.parked (.replay false [] [])] = [Phase.run]) (by decide)

/-! ## Lines (R22, R23, R91, R97, R101) -/

theorem exec_lineRequest {s v : State} {core : Nat} {q : LReq} {qs : List LReq} {g : Grant} (hq : (s.coreAt core).reqs = q :: qs)
    (hg : (s.onCore core fun c => { c with reqs := qs }).grant core q.asid q.line q.vc q.hint = (v, .ok g)) :
    exec (.lineRequest core) s =
      .next (v.onCore core fun c => { c with replies := c.replies ++ [⟨q, g.view.x, g.view.data, g.wts, g.rts⟩] }) := by
  show execLineRequest core s = _
  unfold execLineRequest
  rw [hq]
  dsimp only
  rw [hg]

theorem exec_fillReply {s : State} {core : Nat} {r : LReply} {rs : List LReply} (hr : (s.coreAt core).replies = r :: rs) :
    exec (.fillReply core) s =
      (let u := s.onCore core fun c => { c with replies := rs }
       if ((u.coreAt core).uCopy? r.req.line).isSome then .next (u.raisePts core r.wts)
       else .next (u.install core r.req.tag ⟨⟨r.data, r.x⟩, r.wts, r.rts⟩)) := by
  show execFillReply core s = _
  unfold execFillReply
  rw [hr]

theorem exec_snoop {s : State} {peer l : Nat} (h : (s.filters.any fun f => f.peer == peer && f.region == l / 32 && f.mask.getLsbD (l % 32)) = true) :
    exec (.snoop peer l) s = .next (((s.fold l).cleanAt peer l).filterClearFor (fun p => p == peer) l) :=
  congrArg Host.Outcome.next (if_neg (by rw [h]; decide))

/-- The patrol scrubber at the frame of the only bad line. -/
theorem exec_patrolScrub {s : State} {l : Nat} (h : s.ue = [l]) :
    exec (.patrolScrub (l / 512)) s =
      .next (((s.soft.filter fun x => x / 512 == l / 512 && !s.ue.contains x).foldl State.correct s).scrubLine l) := by
  have hfilter : (s.ue.filter fun x => x / 512 == l / 512) = [l] := by simp [h]
  show Host.Outcome.next (((s.ue.filter fun x => x / 512 == l / 512)).foldl State.scrubLine _) = _
  rw [hfilter]
  rfl

theorem State.scrubLine_uncached {s : State} {l : Nat} (h : s.bank? l = none) : s.scrubLine l = (s.dramPoison l).faultEvent 6 11 l := by
  unfold State.scrubLine
  rw [h]

theorem State.scrubLine_cached {s : State} {l : Nat} {b : BLine} (h : s.bank? l = some b) :
    s.scrubLine l = (if b.st == .s then (s.putBank { b with st := .m, dirty := true }).refilter { b with st := .m, dirty := true } else s).faultEvent 6 10 l := by
  unfold State.scrubLine
  rw [h]

theorem line_events_complete : lineEventsComplete := by
  intro s v core peer l q qs r rs g b
  refine ⟨exec_lineRequest, fun hr => ⟨fun hcopy => ?installs, fun hcopy => ?keeps⟩, fun hbit => ⟨fun hb hm hpeer hpool => ?writesBack, fun hother => ?leaves⟩,
    rfl, fun hue => ⟨fun hb => ?poisons, fun hb hshared => ?rewrites, fun hb hkept => ?reports⟩, fun hue hsoft => ?corrects⟩
  case installs => rw [exec_fillReply hr]; exact if_neg (by simp [hcopy])
  case keeps => rw [exec_fillReply hr]; exact if_pos hcopy
  case writesBack =>
    rw [exec_snoop hbit, State.cleanAt, hb]
    refine congrArg (fun t => Host.Outcome.next (State.filterClearFor t (fun p => p == peer) l)) (if_pos ?_)
    simp [hm, hpeer, hpool]
  case leaves =>
    have hclean : (s.fold l).cleanAt peer l = s.fold l := by
      unfold State.cleanAt
      cases hb : (s.fold l).bank? l with
      | none => rfl
      | some b =>
        refine if_neg ?_
        obtain hst | hshare | hpool := hother b hb <;> simp [*]
    rw [exec_snoop hbit, hclean]
  case poisons => rw [exec_patrolScrub hue, State.scrubLine_uncached hb]
  case rewrites => rw [exec_patrolScrub hue, State.scrubLine_cached hb, if_pos (by simp [hshared])]
  case reports => rw [exec_patrolScrub hue, State.scrubLine_cached hb, if_neg (by simpa using hkept)]
  case corrects =>
    have hcorrect : s.correct l = ({ s with soft := [] } : State).faultEvent 6 16 (dramSite (l * 128)).code := by
      unfold State.correct
      rw [if_pos (by simp [hsoft]), show (s.soft.filter fun x => x != l) = [] by simp [hsoft]]
    show Host.Outcome.next ((s.ue.filter fun x => x / 512 == l / 512).foldl State.scrubLine
      ((s.soft.filter fun x => x / 512 == l / 512 && !s.ue.contains x).foldl State.correct s)) = _
    rw [← hcorrect, hue, hsoft, show ([l].filter fun x => x / 512 == l / 512 && !([] : List Nat).contains x) = [l] by simp]
    rfl

/-! ## Links (R367, R368) -/

/-- A change of the only port listed. -/
theorem State.onPort_only {s : State} {p : Port} (h : s.ports = [p]) (f : Port → Port) : s.onPort p.n f = { s with ports := [f p] } := by
  unfold State.onPort
  rw [if_pos (by simp [h]), h]
  simp

theorem link_events_complete : linkEventsComplete := by
  rintro s _ p hn hports rfl
  refine ⟨?falls, ?retrained, ?replayed, fun hrun hpartner => ?retrains⟩
  case falls =>
    show execLinkLaneFailure p.n s = _
    unfold execLinkLaneFailure
    rw [if_neg (by omega), State.onPort_only hports]
  case retrained =>
    show execLinkRetrainComplete p.n s = _
    simp [execLinkRetrainComplete, hports]
  case replayed =>
    show execFlitCrcReplay p.n s = _
    unfold execFlitCrcReplay
    rw [if_neg (by omega), State.onPort_only hports]
  case retrains =>
    show execLink p.n s = _
    unfold execLink State.unlessSafe
    rw [if_neg (by simp [hrun])]
    dsimp only
    rw [if_neg (by simp [hpartner]), State.onPort_only hports]

/-- Settles O33: the lines and the scrubber, and the links. -/
theorem linesAndLinksComplete : Obligations.LinesAndLinksComplete := ⟨line_events_complete, link_events_complete⟩

end Sys2Proof.Machine
end

section
namespace Sys2Proof.Machine

/-! # PROOFS. Remote requests, responses and their timers (R55, R265, R275, R277, R359, R366, R370 to R377, R401) -/

/-! ## Requests at their target -/

/-- A reply to a request that belongs to no slot (R55, R365). -/
theorem State.reply_eq {q : Req} (s : State) (cause : Cause) (x : Bool) (data : List Byte) (ho : ∀ v, q.body ≠ .slotOpen v)
    (hj : ∀ v, q.body ≠ .slotJoin v) : s.reply q cause x data = responds s q cause x data := by
  unfold State.reply responds
  cases hb : q.body
  case slotOpen v => exact absurd hb (ho v)
  case slotJoin v => exact absurd hb (hj v)
  all_goals rfl

/-- A served request acts at its line. -/
theorem State.arrive_served {s t : State} {q : Req} {w : Window} {va : Nat} {p : Phys} (h : served s t q w va p) : s.arrive q = t.applyReq q p := by
  obtain ⟨hdst, hgang, hwin, hva, hlive, hx⟩ := h
  unfold State.arrive
  rw [State.here_own _ _ (show (reqHdr q).dst = s.chip from hdst), State.gated_without_gang _ hgang, hwin]
  dsimp only
  unfold State.serveAt
  rw [hva]
  dsimp only
  rw [if_neg (by simp [hlive]), hx]

theorem exec_fabricReadRequest {q : Req} {n : Nat} (s : State) (h : q.body = .read n) : exec (.fabricReadRequest q) s = .next (s.arrive q) := by
  show execFabricReadRequest q s = _
  unfold execFabricReadRequest
  rw [h]

theorem exec_putReceive {q : Req} {bs : Mem} {x : Option Cause} (s : State) (h : q.body = .put bs x) :
    exec (.putReceive q) s = .next (s.arrive q) := by
  show execPutReceive q s = _
  unfold execPutReceive
  rw [h]

theorem exec_remoteAtomicReceive {q : Req} {fn : BitVec 4} {ty : Ty} {a b : BitVec 64} (s : State) (h : q.body = .atomic fn ty a b) :
    exec (.remoteAtomicReceive q) s = .next (s.arrive q) := by
  show execRemoteAtomicReceive q s = _
  unfold execRemoteAtomicReceive
  rw [h]

theorem exec_remoteRedReceive {q : Req} {fn : BitVec 4} {ty : Ty} {els : List (Nat × BitVec 64)} (s : State) (h : q.body = .red fn ty els) :
    exec (.remoteRedReceive q) s = .next (s.arrive q) := by
  show execRemoteRedReceive q s = _
  unfold execRemoteRedReceive
  rw [h]

/-- A change waits for its line's arbiter (R115, R329). -/
theorem State.applyReq_held {s : State} {q : Req} {p : Phys} (hbody : ∀ n, q.body ≠ .read n) (hheld : s.lineHeld none (.mem (p.pa / 128)) = true) :
    s.applyReq q p = { s with engHeld := true } := by
  unfold State.applyReq
  refine if_pos ?_
  cases hb : q.body
  case read n => exact absurd hb (hbody n)
  all_goals simp [hheld]

theorem State.applyReq_read {s u : State} {q : Req} {p : Phys} {n : Nat} {bs : List Byte} (hb : q.body = .read n)
    (hread : s.peekBytes p.pa n (some p.vc) = (u, bs, none)) : s.applyReq q p = u.reply q 0 false bs := by
  unfold State.applyReq
  rw [hb]
  refine (if_neg (by simp)).trans ?_
  dsimp only
  rw [hread]

theorem State.applyReq_put {s u : State} {q : Req} {p : Phys} {bs : Mem} {x : Option Cause} {time : Nat} (hb : q.body = .put bs x)
    (hheld : s.lineHeld none (.mem (p.pa / 128)) = false) (hwrite : s.engineWrite none (p.pa / 128) p.vc bs (x.map bareToken) = (u, time)) :
    s.applyReq q p = match if x.isSome then none else u.lineX (p.pa / 128) with
      | some k => (u.countTarget q.win time).reply q (lineCause k) true []
      | none => (u.countTarget q.win time).reply q 0 false [] := by
  unfold State.applyReq
  rw [hb]
  refine (if_neg (by simp [hheld])).trans ?_
  dsimp only
  rw [hwrite] <;>
    (dsimp only; rcases (if x.isSome then none else u.lineX (p.pa / 128)) with _ | k <;> rfl)

theorem State.applyReq_atomic {s u : State} {q : Req} {p : Phys} {fn : BitVec 4} {ty : Ty} {a b : BitVec 64} {d : Mem} (hb : q.body = .atomic fn ty a b)
    (hheld : s.lineHeld none (.mem (p.pa / 128)) = false) (hread : (s.countRmw (p.pa / 128) p.vc).rmwRead (p.pa / 128) p.vc = (u, ⟨d, none⟩)) :
    s.applyReq q p =
      let old := memNat d (p.pa % 128) (tyBytes ty)
      let v := u.writePlace (p.pa / 128) p.vc (cellsAt (p.pa % 128) (toBytes (tyBytes ty) (atomOp fn.toNat ty old a.toNat b.toNat))) none
        (s.nextTime (p.pa / 128) p.vc)
      (v.countTarget q.win (s.nextTime (p.pa / 128) p.vc)).reply q 0 false (toBytes (tyBytes ty) old) := by
  unfold State.applyReq
  rw [hb]
  refine (if_neg (by simp [hheld])).trans ?_
  dsimp only
  rw [hread]

theorem State.applyReq_red {s u : State} {q : Req} {p : Phys} {fn : BitVec 4} {ty : Ty} {els : List (Nat × BitVec 64)} (hb : q.body = .red fn ty els)
    (hheld : s.lineHeld none (.mem (p.pa / 128)) = false)
    (hred : (s.countRmw (p.pa / 128) p.vc).reduceAt (p.pa / 128) p.vc fn ty (els.map fun e => (e.1, e.2.toNat)) (s.nextTime (p.pa / 128) p.vc) = (u, none)) :
    s.applyReq q p = (u.countTarget q.win (s.nextTime (p.pa / 128) p.vc)).reply q 0 false [] := by
  unfold State.applyReq
  rw [hb]
  refine (if_neg (by simp [hheld])).trans ?_
  dsimp only
  rw [hred]

theorem remote_requests_complete : remoteRequestsComplete := by
  intro s t u q w va p
  refine ⟨State.here_other (h := reqHdr q) _ _, fun n bs hb hserved hread => ?read, fun bs x time hb hserved hheld hwrite => ⟨fun hx => ?put, fun k hx hline => ?putX⟩,
    fun fn ty a b d hb hserved hheld hread => ?atomic, fun fn ty els hb hserved hheld hred => ?red, fun bs x hb hserved hheld => ?held,
    fun hdst hgang hwin hva ho hj => ?refused⟩
  case read =>
    rw [exec_fabricReadRequest s hb, State.arrive_served hserved, State.applyReq_read hb hread, State.reply_eq] <;> simp [hb]
  case put =>
    have hclean : (if x.isSome then none else u.lineX (p.pa / 128)) = none := by obtain hx | hx := hx <;> simp [hx]
    rw [exec_putReceive s hb, State.arrive_served hserved, State.applyReq_put hb hheld hwrite, hclean]
    dsimp only
    rw [State.reply_eq] <;> simp [hb]
  case putX =>
    rw [exec_putReceive s hb, State.arrive_served hserved, State.applyReq_put hb hheld hwrite, hx, if_neg (by simp), hline]
    dsimp only
    rw [State.reply_eq] <;> simp [hb]
  case atomic =>
    rw [exec_remoteAtomicReceive s hb, State.arrive_served hserved, State.applyReq_atomic hb hheld hread]
    dsimp only
    rw [State.reply_eq] <;> simp [hb]
  case red =>
    rw [exec_remoteRedReceive s hb, State.arrive_served hserved, State.applyReq_red hb hheld hred, State.reply_eq] <;> simp [hb]
  case held => rw [exec_putReceive s hb, State.arrive_served hserved, State.applyReq_held (by simp [hb]) hheld]
  case refused =>
    unfold State.arrive
    rw [State.here_own _ _ (show (reqHdr q).dst = s.chip from hdst), State.gated_without_gang _ hgang, hwin]
    dsimp only
    unfold State.serveAt
    rw [hva]
    exact State.reply_eq s _ _ _ ho hj

/-! ## Responses at the origin -/

theorem State.responded_own {s : State} {r : Resp} (h : r.dst = s.chip) : s.responded r = s.answered r := State.here_own (h := respHdr r) _ _ h

theorem State.answered_of_none {s : State} {r : Resp} (h : s.outReqs.find? (fun o => o.q.id == r.id) = none) : s.answered r = s := by
  unfold State.answered
  rw [h]

/-- The answer to a write counts at the origin (R377). -/
theorem State.answered_write {s : State} {r : Resp} {o : OutReq} {ks : List Nat} {win : BitVec 12} {asid : BitVec 16}
    (h : s.outReqs.find? (fun o => o.q.id == r.id) = some o) (howner : o.owner = .write ks win asid) :
    s.answered r = ({ s with outReqs := s.outReqs.filter fun p => p.q.id != r.id } : State).countOrigin win asid (r.cause != 0 && !r.x) := by
  unfold State.answered
  rw [h]
  dsimp only
  rw [howner]
  rfl

/-- The group that is current is so again after something is done for it, where it keeps its number. -/
theorem State.withGroup_cur {s : State} {k : Nat} (f : State → State) (h : s.cur.key = k) : s.withGroup k f = (f s).focus k := by
  subst h
  unfold State.withGroup
  rw [show s.focus s.cur.key = s from if_pos (by simp)]

theorem State.focus_cur {s : State} {k : Nat} (h : s.cur.key = k) : s.focus k = s := if_pos (by simp [h])

/-- The answer to a load reaches the current group. -/
theorem State.answered_load {s : State} {r : Resp} {o : OutReq} {k n : Nat} {g : Group} (h : s.outReqs.find? (fun o => o.q.id == r.id) = some o)
    (howner : o.owner = .load k) (hbody : o.q.body = .read n) (hk : s.cur.key = k) (hg : s.group? k = some g) :
    s.answered r = (({ s with outReqs := s.outReqs.filter fun p => p.q.id != r.id } : State).landLoad r).focus k := by
  have hg' : ({ s with outReqs := s.outReqs.filter fun p => p.q.id != r.id } : State).group? k = some g := hg
  unfold State.answered
  rw [h]
  dsimp only
  rw [howner, hbody]
  dsimp only [State.tookResult]
  rw [hg']
  exact State.withGroup_cur _ hk

/-- The answer to an atomic counts and reaches the current group. -/
theorem State.answered_atomic {s : State} {r : Resp} {o : OutReq} {k : Nat} {g : Group} {fn : BitVec 4} {ty : Ty} {a b : BitVec 64}
    (h : s.outReqs.find? (fun o => o.q.id == r.id) = some o) (howner : o.owner = .load k) (hbody : o.q.body = .atomic fn ty a b)
    (hk : s.cur.key = k) (hg : s.group? k = some g) :
    s.answered r = ((({ s with outReqs := s.outReqs.filter fun p => p.q.id != r.id } : State).countOrigin o.q.win o.q.asid
      (r.cause != 0 && !r.x)).landLoad r).focus k := by
  have hg' : (({ s with outReqs := s.outReqs.filter fun p => p.q.id != r.id } : State).countOrigin o.q.win o.q.asid
      (r.cause != 0 && !r.x)).group? k = some g := hg
  unfold State.answered
  rw [h]
  dsimp only
  rw [howner, hbody]
  dsimp only [State.tookResult]
  rw [hg']
  exact State.withGroup_cur _ hk

/-- The control stream that waited for the answer goes on. -/
theorem State.landLoad_control {s : State} {r : Resp} {d : BitVec 6} {va : BitVec 64} (hf : s.cur.freads = []) (hp : s.cur.phase = .wait (.rload r.id d va))
    (hc : r.cause = 0) : s.landLoad r = (s.wrote d (BitVec.ofNat 64 (leNat r.data))).inPhase .run := by
  unfold State.landLoad
  rw [hf]
  dsimp only [List.find?_nil]
  rw [hp]
  dsimp only
  rw [if_pos (by simp), if_pos (by simp [hc])]
  rfl

/-- The lane that waited for it takes it. -/
theorem State.landLoad_lane {s : State} {r : Resp} {f : FRead} (hf : s.cur.freads = [f]) (hid : f.id = r.id) : s.landLoad r = s.landLane f r := by
  unfold State.landLoad
  rw [hf, List.find?_cons_of_pos (by simp [hid])]

theorem responses_complete : responsesComplete := by
  intro s r o ks win asid k g d va f u
  refine ⟨fun hreqs hid howner => ⟨fun hd => ?ack, fun hheld => ?timesOut, fun hheld => ?again⟩,
    fun hd hfind howner hbody hk hg hf hp hc => ?load, fun hd hnone => ?nothing, fun hd => ?passedOn,
    fun hd hfind howner hbody hk hg hf hid => ?atomic⟩
  case ack =>
    refine congrArg Host.Outcome.next ((State.responded_own hd).trans (State.answered_write (ks := ks) (o := o) ?_ howner))
    simp [hreqs, hid]
  case timesOut =>
    show execRequestTimeout r.id s = _
    unfold execRequestTimeout
    rw [if_neg (by simp [hreqs, hheld])]
    refine congrArg Host.Outcome.next (State.answered_write (ks := ks) (o := o) ?_ howner)
    simp [hreqs, hid]
  case again =>
    show execRequestTimeout r.id s = _
    unfold execRequestTimeout
    rw [if_pos (by simp [hreqs, hheld, hid])]
    simp [State.onReq, hreqs, hid]
  case load =>
    obtain ⟨n, hn⟩ := hbody
    refine congrArg Host.Outcome.next ((State.responded_own hd).trans ((State.answered_load hfind howner hn hk hg).trans ?_))
    have hland : u.landLoad r = (u.wrote d (BitVec.ofNat 64 (leNat r.data))).inPhase .run := State.landLoad_control (va := va) hf hp hc
    exact (congrArg (fun t => State.focus t k) hland).trans (State.focus_cur hk)
  case nothing =>
    have hkeep : Host.Outcome.next (s.responded r) = (.next s : Ans) :=
      congrArg Host.Outcome.next ((State.responded_own hd).trans (State.answered_of_none hnone))
    exact ⟨hkeep, hkeep, hkeep⟩
  case passedOn =>
    have hpass : Host.Outcome.next (s.responded r) = (.next (s.passOn (respHdr r) (.resp r)) : Ans) :=
      congrArg Host.Outcome.next (State.here_other (h := respHdr r) _ _ hd)
    exact ⟨hpass, hpass, hpass⟩
  case atomic =>
    obtain ⟨fn, ty, a, b, hb⟩ := hbody
    refine congrArg Host.Outcome.next ((State.responded_own hd).trans ((State.answered_atomic hfind howner hb hk hg).trans ?_))
    exact congrArg (fun t => State.focus t k)
      (State.landLoad_lane (s := u.countOrigin o.q.win o.q.asid (r.cause != 0 && !r.x)) hf hid)

/-! ## Timers (R366, R373, R401) -/

theorem request_timers_complete : requestTimersComplete := by
  intro s id q o core n e m
  refine ⟨fun hholds hid => ?held, fun hd => ⟨congrArg Host.Outcome.next (State.here_other _ _ hd), congrArg Host.Outcome.next (State.here_other _ _ hd)⟩,
    fun hreqs hid => ⟨fun hd hm => ⟨?holdAgain, ?retry⟩, fun hwaiting => ?resend⟩, fun hwcb => ?ages⟩
  case held =>
    have htimer : exec (.holdResponseTimer id) s = .next (s.respond q.src q.asid id .holdResponseReceive (.hold id)) := by
      show Host.Outcome.next ((s.holds.filter fun q => q.id == id).foldl _ s) = _
      rw [hholds, List.filter_cons_of_pos (by simp [hid]), List.filter_nil, ← hid]
      rfl
    rw [htimer]
    exact ⟨fun hown => congrArg Host.Outcome.next (if_pos (by simp [hown])), fun hother => congrArg Host.Outcome.next (if_neg (by simpa using hother))⟩
  case holdAgain =>
    refine congrArg Host.Outcome.next ((State.here_own _ _ hd).trans ?_)
    simp [State.onReq, hreqs, hid, hm]
  case retry =>
    refine congrArg Host.Outcome.next ((State.here_own _ _ hd).trans ?_)
    simp [State.onReq, hreqs, hid, hm]
  case resend =>
    show execRetryResend id s = _
    unfold execRetryResend
    rw [hreqs, List.find?_cons_of_pos (by simp [hid, hwaiting])]
    simp [State.onReq, hreqs, hid]
  case ages =>
    show execWcbAgeExpiry core n s = _
    unfold execWcbAgeExpiry
    rw [hwcb]
    rfl

/-- Settles O34: the requests, the responses and the timers. -/
theorem fabricEventsComplete : Obligations.FabricEventsComplete := ⟨remote_requests_complete, responses_complete, request_timers_complete⟩

end Sys2Proof.Machine
end

section
namespace Sys2Proof.Machine

/-! # PROOFS. Teams and gangs (R389 to R391, R397 to R401, R406, R408, R409) -/

/-! ## Admission (R397, R398, R403) -/

theorem State.bestUnit_mem {s : State} {pair : Bool} {ks : List Nat} {k : Nat} (h : s.bestUnit pair ks = some k) : k ∈ ks := by
  cases ks with
  | nil => simp [State.bestUnit] at h
  | cons x xs =>
    simp only [State.bestUnit, Option.some.injEq] at h
    subst h
    have hfold (l : List Nat) (a : Nat) :
        l.foldl (fun a b => if s.score pair (unitCore pair a) < s.score pair (unitCore pair b) then b else a) a ∈ a :: l := by
      induction l generalizing a with
      | nil => simp
      | cons y ys ih =>
        rw [List.foldl_cons]
        rcases List.mem_cons.1 (ih (if s.score pair (unitCore pair a) < s.score pair (unitCore pair y) then y else a)) with hl | hr
        · rw [hl]; split <;> simp
        · simp [hr]
    exact hfold xs x

/-- The unit that `Place` chooses passes R398. -/
theorem State.canAdmit_of_place {s u : State} {r : LaunchRec} {c : Nat} (h : s.place r = some (u, c)) : s.canAdmit r c = true := by
  unfold State.place at h
  dsimp only at h
  split at h
  · exact absurd h (by simp)
  · next k hk =>
    simp only [Option.some.injEq, Prod.mk.injEq] at h
    obtain ⟨-, rfl⟩ := h
    have hmem : k ∈ ((s.ringFrom (decide (32 < r.teamg))).take 8).filter fun k => s.canAdmit r (unitCore (decide (32 < r.teamg)) k) := by
      rcases (Option.orElse_eq_some _ _ _).1 hk with hfind | ⟨-, hbest⟩
      · exact List.mem_of_find?_eq_some hfind
      · split at hbest
        · exact State.bestUnit_mem hbest
        · exact List.mem_of_head? hbest
    exact (List.mem_filter.1 hmem).2

theorem State.canAdmit_iff {s : State} {r : LaunchRec} {c : Nat} :
    s.canAdmit r c = true ↔ s.admittedOn c + min r.teamg 32 ≤ 256 ∧ (32 < r.teamg → s.admittedOn (c + 1) + (r.teamg - 32) ≤ 256) ∧
      s.scratchUsed c + roundUp r.scratch 4096 ≤ 524288 ∧ (s.findSlot r.slotBytes).isSome = true := by
  simp only [State.canAdmit, Bool.and_eq_true, Bool.or_eq_true, decide_eq_true_eq, and_assoc]
  constructor
  · rintro ⟨h1, h2, h3, h4⟩
    exact ⟨h1, fun h => by omega, h3, h4⟩
  · rintro ⟨h1, h2, h3, h4⟩
    exact ⟨h1, by omega, h3, h4⟩

/-- GANG_ADMIT where the first launch's next gang has one team here, and its placement finds a core. -/
theorem gang_admission : gangAdmission := by
  intro s u l ls n c hstopped hworks hqueue hhere hplace
  refine ⟨?admits, State.canAdmit_iff.1 (State.canAdmit_of_place hplace)⟩
  show Host.Outcome.next (s.admitGang.getD s) = _
  unfold State.admitGang
  rw [hstopped]
  dsimp only
  rw [if_pos hworks, hqueue]
  unfold State.admitNext
  rw [hhere]
  unfold State.admitTeams
  rw [hplace]
  dsimp only
  unfold State.admitTeams
  rfl

/-! ## Activation (R399) -/

theorem exec_teamActivate {s : State} {k : Nat} {x : Team} (hteam : s.team? k = some x) (hcan : s.canActivate x = true) :
    exec (.teamActivate k) s = .next (s.activate x) := by
  show execTeamActivate k s = _
  unfold execTeamActivate
  rw [hteam]
  exact if_pos hcan

/-- The lanes of a started group (R133). -/
theorem startLanes {w : Nat} {shadow : Bool} (hw : w ∈ [16, 32, 64]) (hs : shadow = true → w = 64) :
    (if shadow || w == 32 then 0xFFFFFFFF#64 else if w == 16 then 0xFFFF#64 else 0xFFFFFFFFFFFFFFFF#64) =
      BitVec.ofNat 64 (2 ^ (if shadow then 32 else w) - 1) := by
  simp only [List.mem_cons, List.not_mem_nil, or_false] at hw
  cases shadow
  · obtain rfl | rfl | rfl := hw <;> rfl
  · rfl

/-- A group at its start is the one that the statement spells out. -/
theorem State.newGroup_eq {s : State} {t : Team} {l : Launch} {c : Ctx} (key i : Nat) (hc : s.ctx? t.asid = some c)
    (hw : l.lrec.width ∈ [16, 32, 64]) (hs : l.lrec.shadow = true → l.lrec.width = 64) :
    s.newGroup t l key i = startedGroup t l c key s.nextKey s.clock i := by
  have hcore : t.coreOf i = if i < 32 then t.core else t.core + 1 := by
    by_cases h : i < 32
    · exact (if_neg (by omega)).trans (if_pos h).symm
    · exact (if_pos (by omega)).trans (if_neg h).symm
  have huser : (t.asid != 0) = decide (t.asid ≠ 0) := (decide_not (p := t.asid = 0)).symm
  unfold State.newGroup startedGroup
  dsimp only
  rw [hc, startLanes hw hs, hcore, huser]
  rfl

/-- Raising a core's time changes the cores alone. -/
theorem State.foldl_raisePts {s : State} (cs : List Nat) (time : Nat) : ∃ xs, cs.foldl (fun b n => b.raisePts n time) s = { s with cores := xs } := by
  induction cs generalizing s with
  | nil => exact ⟨s.cores, rfl⟩
  | cons n ns ih =>
    have hone : ∃ xs, s.raisePts n time = { s with cores := xs } := by
      unfold State.raisePts State.onCore
      split
      · exact ⟨s.cores, rfl⟩
      · split <;> exact ⟨_, rfl⟩
    obtain ⟨xs, hxs⟩ := hone
    rw [List.foldl_cons, hxs]
    obtain ⟨ys, hys⟩ := ih (s := { s with cores := xs })
    exact ⟨ys, hys⟩

/-- The groups of a team that starts follow those that exist. -/
theorem State.startTeam_eq {s : State} {t : Team} {l : Launch} {c : Ctx} (hc : s.ctx? t.asid = some c) (hw : l.lrec.width ∈ [16, 32, 64])
    (hs : l.lrec.shadow = true → l.lrec.width = 64) :
    let b := t.cores.foldl (fun b n => b.raisePts n l.time) s
    s.startTeam t l = { b with
      rest := b.rest ++ (List.range t.ngroups).map fun i => startedGroup t l c (s.nextKey + i) s.nextKey s.clock i
      nextKey := s.nextKey + t.ngroups } := by
  intro b
  obtain ⟨xs, hxs⟩ : ∃ xs, b = { s with cores := xs } := State.foldl_raisePts t.cores l.time
  have hcb : b.ctx? t.asid = some c := by rw [hxs]; exact hc
  have hkey : b.nextKey = s.nextKey := by rw [hxs]
  have hclock : b.clock = s.clock := by rw [hxs]
  have hgroups : (List.range t.ngroups).map (fun i => b.newGroup t l (b.nextKey + i) i) =
      (List.range t.ngroups).map fun i => startedGroup t l c (s.nextKey + i) s.nextKey s.clock i := by
    refine List.map_congr_left fun i _ => ?_
    rw [State.newGroup_eq _ _ hcb hw hs, hkey, hclock]
  show ({ b with rest := b.rest ++ (List.range t.ngroups).map fun i => b.newGroup t l (b.nextKey + i) i, nextKey := b.nextKey + t.ngroups } : State) = _
  rw [hgroups, hkey]

theorem team_start : teamStart := by
  intro s k x l c hteam hcan hnew hlaunch hctx hw hs a b gs
  rw [exec_teamActivate hteam hcan]
  unfold State.activate
  dsimp only
  rw [if_neg (by simp [hnew])]
  have hl : ({ a with nextKey := s.nextKey + 1 } : State).launch? x.lid = some l := hlaunch
  have hc : ({ a with nextKey := s.nextKey + 1 } : State).ctx? x.asid = some c := hctx
  show Host.Outcome.next (match ({ a with nextKey := s.nextKey + 1 } : State).launch? x.lid with | none => _ | some l => _) = _
  rw [hl]
  exact congrArg (fun t : State => Host.Outcome.next ((t.onLaunch x.lid fun m => { m with started := true }).releaseHeld (l.origin, l.olid)))
    (State.startTeam_eq hc hw hs)

/-! ## Leaving and completion (R400, R406, R408, R409) -/

theorem exec_preempt {s : State} {k : Nat} {g : Group} {x : Team} (hg : s.group? k = some g) (hteam : s.team? g.teamKey = some x)
    (hleaving : x.leaving = true) (hend : x.endSt = none) :
    exec (.preempt k) s = .next ((((s.focus k).leave).focus s.cur.key).finishLeave g.teamKey) := by
  show execPreempt k s = _
  unfold execPreempt
  rw [hg]
  exact if_pos (by simp [hteam, hleaving, hend])

theorem exec_parkedTeamTimeout {s : State} {k : Nat} {x : Team} (hteam : s.team? k = some x) (hactive : x.active = true) (hstays : x.leaving = false)
    (hend : x.endSt = none) (hparked : (s.groupsOf k).all Group.longParked = true)
    (hwaits : s.teams.any (fun u => u.key != k && u.meets x && s.teamWaits u) = true) :
    exec (.parkedTeamTimeout k) s = .next (s.deactivate k) := by
  show execParkedTeamTimeout k s = _
  unfold execParkedTeamTimeout
  rw [hteam]
  refine if_pos ?_
  rw [hactive, hstays, hend, hparked, hwaits]
  rfl

theorem exec_quantumExpiry {s : State} {k : Nat} {x v : Team} {vs : List Team} (hteam : s.team? k = some x) (hwaits : s.teamWaits x = true)
    (hleast : sortBy (fun u => u.prio.toNat * 2 ^ 64 + u.activated)
      (s.teams.filter fun u => u.active && !u.leaving && u.endSt.isNone && u.meets x && u.prio.ule x.prio) = v :: vs) :
    exec (.quantumExpiry k) s = .next ((s.onTeam k fun t => { t with quantum := true, since := t.since <|> some t.admitted }).deactivate v.key) := by
  show execQuantumExpiry k s = _
  unfold execQuantumExpiry
  rw [hteam]
  refine (if_pos hwaits).trans ?_
  rw [hleast]
  rfl

theorem exec_teamComplete {s : State} {k : Nat} {x : Team} {e : EndSt} (hteam : s.team? k = some x) (hdone : s.teamDone x = true)
    (hend : x.endSt = some e) : exec (.teamComplete k) s = .next (s.completeTeam x e) := by
  show execTeamComplete k s = _
  unfold execTeamComplete
  rw [hteam]
  refine (if_pos hdone).trans ?_
  rw [hend]
  rfl

/-- A record that can be written is, and the end is counted at the time of its commit. -/
theorem State.completeTeam_written {s t u : State} {l : Launch} {x : Team} {e : EndSt} {p : Phys} {time : Nat} (hlaunch : s.launch? x.lid = some l)
    (h : teamEnded s t u l x e p time) :
    s.completeTeam x e = ((u.countEnd l (e.status != tsOk) time).dropTeam x).countTeam l := by
  obtain ⟨htr, hdie, hput, hline⟩ := h
  have hrecord : s.putRecord x.asid ((l.lrec.crec.toNat + 16 * (x.gang.toNat * l.lrec.teams + x.num.toNat)) % 2 ^ 64) e.bytes = (u, .ok time) := by
    unfold State.putRecord
    rw [htr]
    refine (if_neg (ne_true_of_eq_false hdie)).trans ?_
    rw [EndSt.bytes, hput]
    dsimp only
    rw [hline]
  unfold State.completeTeam
  rw [hlaunch]
  dsimp only
  rw [hrecord]

/-- Settles O35: admission, the start, and the events of teams. -/
theorem teamEventsComplete : Obligations.TeamEventsComplete := by
  refine ⟨gang_admission, team_start, fun s t u k time x v vs g l e p => ⟨fun h => ?admits, exec_teamActivate, exec_preempt, exec_parkedTeamTimeout,
    exec_quantumExpiry, fun hteam hdone hend hlaunch h => ?completes⟩⟩
  case admits =>
    show Host.Outcome.next (s.admitGang.getD s) = _
    rw [h]
    rfl
  case completes => rw [exec_teamComplete hteam hdone hend, State.completeTeam_written hlaunch h]

/-! ## Gangs across chips (R390, R391) -/

theorem State.abortGang_only {s : State} {g : GangSt} (hg : s.gangs = [g]) (habort : g.aborted = false) :
    s.abortGang g.lid = (g.chips.foldl (fun (s : State) c => s.toChip .request c g.asid (.gangAbort g.lid))
      { s with gangs := [{ g with left := g.chips, aborted := true }] }).abortHere (s.chip, g.lid) := by
  unfold State.abortGang
  rw [hg, List.find?_cons_of_pos (by simp [habort])]
  dsimp only
  rw [List.map_cons, List.map_nil, if_pos (beq_self_eq_true g.lid)]

theorem exec_gangAckReceive {s : State} {h : Hdr} {g : GangSt} (st : BitVec 8) (hdst : h.dst = s.chip) (hg : s.gangs = [g])
    (habort : g.aborted = false) :
    exec (.gangAckReceive g.lid h st) s = .next (if st == ansOk then
        { s with gangs := ([{ g with left := g.left.filter fun c => c != h.src }] : List GangSt).filter fun h => h.lid != g.lid || !h.left.isEmpty }
      else s.abortGang g.lid) := by
  refine congrArg Host.Outcome.next ((State.here_own _ _ hdst).trans ?_)
  dsimp only
  rw [hg, List.find?_cons_of_pos (by simp)]
  refine (if_neg (by simp [habort])).trans ?_
  rw [List.map_cons, List.map_nil, if_pos (beq_self_eq_true g.lid)]

theorem exec_gangAbortResend {s : State} {g : GangSt} (hg : s.gangs = [g]) (habort : g.aborted = true) :
    exec (.gangAbortResend g.lid) s = .next (g.left.foldl (fun (s : State) c => s.toChip .request c g.asid (.gangAbort g.lid)) s) := by
  show execGangAbortResend g.lid s = _
  unfold execGangAbortResend
  rw [hg, List.find?_cons_of_pos (by simp [habort])]

/-- Settles O36: what the origin and another chip do at an acknowledgement, a time-out, an abort and its expiry. -/
theorem gangEventsComplete : Obligations.GangEventsComplete := by
  intro s lid h origin st g
  refine ⟨fun hg hlid habort => ?acks, fun hg hlid habort => ?resends, fun hdst => congrArg Host.Outcome.next (State.here_own _ _ hdst),
    fun hdst => ⟨congrArg Host.Outcome.next (State.here_other _ _ hdst), congrArg Host.Outcome.next (State.here_other _ _ hdst)⟩, fun hother => ?expires⟩
  case acks =>
    subst hlid
    refine ⟨fun hdst => ⟨exec_gangAckReceive 0 hdst hg habort, fun hst => ?refused⟩, rfl, State.abortGang_only hg habort⟩
    rw [exec_gangAckReceive st hdst hg habort, if_neg (by simpa [ansOk] using hst)]
  case resends => subst hlid; exact exec_gangAbortResend hg habort
  case expires =>
    refine congrArg Host.Outcome.next ?_
    rw [if_neg (by simpa using hother)]

end Sys2Proof.Machine
end

section
/-! # PROOFS. Messages of the host, pinned frames and migrations, engine issues (R25 to R30, R363 to R390, R411, R426 to R429): O38 to O41. -/

namespace Sys2Proof.Machine

/-! ## Messages about contexts, windows, peers, counters and the configuration -/

/-- While the device runs, a message has its effect (R426). -/
theorem State.unlessSafe_running {s : State} (hrun : s.dev = .running) (code : Nat) (f : State → State) : s.unlessSafe code f = .next (f s) := by
  unfold State.unlessSafe
  exact if_neg (by simp [hrun])

theorem exec_ctxcreate {s : State} (hrun : s.dev = .running) {asid res : BitVec 16} (pt crumb shard : BitVec 64) (h0 : asid ≠ 0) (hnew : s.ctx? asid = none)
    (hres : 2 ≤ res.toNat) : exec (.ctxcreate asid pt crumb shard res) s =
      .next (({ s with ctxs := s.ctxs ++ [⟨asid, pt &&& 0xFFFFFFFE00000, crumb &&& 0xFFFFFFFFFF01F, shard &&& 0xFFFFFFFFFFFFF, res,
        true, false, false⟩] } : State).answerMsg 1 0 0) := by
  show execCtxcreate asid pt crumb shard res s = _
  unfold execCtxcreate
  rw [State.unlessSafe_running hrun, if_neg (by simpa using h0), if_neg (by simp [hnew]; omega)]
  rfl

theorem exec_ctxdestroy {s : State} (hrun : s.dev = .running) {asid : BitVec 16} {x : Ctx} (hctx : s.ctx? asid = some x)
    (hl : s.launches.any (fun l => l.asid == asid) = false) (ht : s.teams.any (fun t => t.asid == asid) = false) :
    exec (.ctxdestroy asid) s =
      .next (({ s with ctxs := s.ctxs.filter fun c => c.asid != asid, peers := s.peers.filter fun p => p.asid != asid,
                              counters := s.counters.map fun c => if c.owner == some asid then { c with owner := none } else c, recvs := s.recvs.filter fun v => v.asid != asid,
                              urx := s.urx.filter fun r => r.asid != asid, utx := s.utx.filter fun u => u.asid != asid, netPend := s.netPend.filter fun p => p.asid != asid } : State).answerMsg 2 0 0) := by
  show execCtxdestroy asid s = _
  unfold execCtxdestroy
  rw [State.unlessSafe_running hrun, if_neg (by simp [hctx]), if_neg (by simp [hl, ht])]
  rfl

theorem exec_winset_new {s : State} (hrun : s.dev = .running) {n : BitVec 12} {desc : List Byte} {w : Window}
    (hold : s.windows.find? (fun w => w.n == n) = none) (hw : Window.of n desc 0 0 0 = w) (hlegal : w.valid = true → w.legal = true)
    (hmiss : s.missed.any (fun m => m.q.win == n) = false) :
    exec (.winset n desc) s = .next (({ s with windows := s.windows ++ [w] } : State).answerMsg 3 0 0) := by
  subst hw
  show execWinset n desc s = _
  unfold execWinset
  rw [State.unlessSafe_running hrun]
  dsimp only
  rw [hold]
  dsimp only [Option.map, Option.getD, Option.isSome]
  rw [if_neg (by simpa using hlegal), if_neg (by simp [hmiss]), if_neg Bool.false_ne_true]
  rfl

theorem exec_winset_old {s : State} (hrun : s.dev = .running) {n : BitVec 12} {desc : List Byte} {old w : Window}
    (hold : s.windows.find? (fun w => w.n == n) = some old) (hw : Window.of n desc old.target old.origin old.ctime = w)
    (hlegal : w.valid = true → w.legal = true) {t : State} (ht : t = { s with windows := s.windows.map fun x => if x.n == n then w else x }) :
    exec (.winset n desc) s = .next (if s.missed.any fun m => m.q.win == n then { t with winAnswers := t.winAnswers ++ [n] } else t.answerMsg 3 0 0) := by
  subst hw ht
  show execWinset n desc s = _
  unfold execWinset
  rw [State.unlessSafe_running hrun]
  dsimp only
  rw [hold]
  dsimp only [Option.map, Option.getD, Option.isSome]
  rw [if_neg (by simpa using hlegal)]
  rfl

theorem exec_peerset {s : State} (hrun : s.dev = .running) {asid : BitVec 16} {x : Ctx} (hctx : s.ctx? asid = some x) (n : BitVec 12) {p : Peer}
    (hp : (p.payload.all fun k => [1024, 2048, 4096, 8192].contains k) = true) : exec (.peerset asid n p) s =
      .next (({ s with nextKey := s.nextKey + 1, peers := (s.peers.filter fun q => !(q.asid == asid && q.n == n)) ++
        [⟨asid, n, p, s.nextKey, 0, 0, false⟩] } : State).answerMsg 4 0 0) := by
  show execPeerset asid n p s = _
  unfold execPeerset
  rw [State.unlessSafe_running hrun, if_neg (by simp [hctx]), if_neg (by rw [hp]; decide)]
  rfl

theorem exec_cntrset {s : State} (hrun : s.dev = .running) (n : BitVec 12) {owner : Option (BitVec 16)} (v : BitVec 64)
    (ho : ∀ a, owner = some a → (s.ctx? a).isSome = true) : exec (.cntrset n owner v) s =
      .next (({ s with counters := (s.counters.filter fun c => c.n != n) ++ [⟨n, owner, v, 0⟩] } : State).answerMsg 5 0 0) := by
  show execCntrset n owner v s = _
  unfold execCntrset
  rw [State.unlessSafe_running hrun]
  cases owner with
  | none => rfl
  | some a => exact congrArg Host.Outcome.next (if_neg (by simpa [Option.isSome_iff_ne_none] using ho a rfl))

/-- CONFIG answers OK for an item that changes `s` to `t` (R388). -/
theorem exec_config {s : State} (hrun : s.dev = .running) (c : ConfigItem) : exec (.config c) s = .next (
    match c with
    | .wcbage v => State.answerMsg { s with wcbage := v } 6 0 0
    | .lease v => (s.writeLease (v.setWidth 64)).answerMsg 6 0 0
    | .placeb v => State.answerMsg { s with placeb := v } 6 0 0
    | .demotion a p => if (s.ctx? a).isSome then (s.onCtx a fun c => { c with inPlace := p }).answerMsg 6 0 0 else s.answerMsg 6 ansBadctx 0
    | .debug a b => if (s.ctx? a).isSome then (s.onCtx a fun c => { c with debug := b }).answerMsg 6 0 0 else s.answerMsg 6 ansBadctx 0
    | .gangTimeout ms => if 1 ≤ ms && ms ≤ 1000 then State.answerMsg { s with gangMs := ms } 6 0 0 else s.answerMsg 6 ansBadarg 0
    | .etherRate g => if etherRates.contains g then State.answerMsg { s with etherGbps := g } 6 0 0 else s.answerMsg 6 ansBadarg 0) := by
  show execConfig c s = _
  unfold execConfig
  rw [State.unlessSafe_running hrun]
  cases c <;> rfl

theorem exec_link {s : State} (hrun : s.dev = .running) (port : Nat) : exec (.link port) s = .next (
    if s.hasPartner port then s.onPort port fun p => { p with level := 0, retraining := true, owed := p.owed + 1 } else s.answerMsg 7 ansBadarg 0) := by
  show execLink port s = _
  unfold execLink
  rw [State.unlessSafe_running hrun]
  cases s.hasPartner port <;> rfl

/-- Settles O38: each message by the lemma about it. -/
theorem contextMessagesComplete : Obligations.ContextMessagesComplete := by
  unfold Obligations.ContextMessagesComplete
  intro s asid res pt crumb shard v n desc p owner w old x wc le pb b ms g port hrun
  refine ⟨exec_ctxcreate hrun pt crumb shard, exec_ctxdestroy hrun, exec_winset_new hrun, ?_, fun hctx => exec_peerset hrun hctx n, exec_cntrset hrun n v,
    exec_config hrun _, exec_config hrun _, exec_config hrun _, fun hctx => ⟨?_, ?_⟩, fun h1 h2 => ?_, fun hg => ?_, fun hp => ?_, fun hp => ?_⟩
  case refine_1 =>
    intro hold hw hlegal t
    exact ⟨fun hmiss => (exec_winset_old hrun hold hw hlegal rfl).trans (congrArg Host.Outcome.next (if_neg (by simp [hmiss]))),
      fun hmiss => (exec_winset_old hrun hold hw hlegal rfl).trans (congrArg Host.Outcome.next (if_pos hmiss))⟩
  case refine_2 | refine_3 => exact (exec_config hrun _).trans (congrArg Host.Outcome.next (if_pos (by simp [hctx])))
  case refine_4 => exact (exec_config hrun _).trans (congrArg Host.Outcome.next (if_pos (by simp [h1, h2])))
  case refine_5 => exact (exec_config hrun _).trans (congrArg Host.Outcome.next (if_pos (by simpa [etherRates] using hg)))
  case refine_6 => exact (exec_link hrun port).trans (congrArg Host.Outcome.next (if_pos hp))
  case refine_7 => exact (exec_link hrun port).trans (congrArg Host.Outcome.next (if_neg (by simp [hp])))

/-! ## Messages and events of the device -/

theorem exec_status (s : State) :
    exec .status s = .next (s.emit (.status (statusCodes s).1 (statusCodes s).2 ((List.range 256).map fun k => Config.temperature k s.clock) s.counts)) := by
  show execStatus s = _
  unfold execStatus statusCodes Dev.code powerCode State.temperatures
  cases s.dev <;> cases s.power <;> rfl

/-- Events of bring-up are logged and counted alone. -/
theorem State.broughtUp_faultEvent {s z : State} {r : BringUp} (h : broughtUp s z r) (a b c : Nat) : broughtUp s (z.faultEvent a b c) r := h

theorem State.broughtUp_bringUp (s : State) (r : BringUp) : broughtUp s (s.bringUp r) r := by
  have base : broughtUp s { State.reset with
      flash := bootFlash s.fwNew s.flash, log := s.log, counts := s.counts, out := s.out, chip := r.chip, rows := min 16 (max 1 r.rows), cols := min 16 (max 1 r.cols),
      channels := r.channels, ddrCap := min ((ddrUsable r.channels).getD 0) 0x40000000000, free := freePool (min ((ddrUsable r.channels).getD 0) 0x40000000000),
      badShares := r.badShares, badCores := r.badCores, per254 := framesOf r,
      ports := (r.ports.filter fun p => decide (p.1 < 30)).map fun p => ⟨p.1, min 4 p.2, false, 0, 0⟩,
      etherAddr := if bringUpWorks s r then r.etherAddr else s.flashAddr, flashAddr := s.flashAddr, agenda := s.agenda.filter fromHost,
      etherGbps := if !bringUpWorks s r then 100 else if etherRates.contains r.etherGbps then r.etherGbps else 1600,
      dev := if bringUpWorks s r then .running else .safe, dram := s.dram, synd := s.synd, ue := s.ue, soft := s.soft, nextKey := s.nextKey, fresh := s.fresh,
      clock := s.clock } r := by
    refine ⟨rfl, ?_, rfl, rfl, rfl, rfl, rfl, rfl, rfl, rfl, rfl, rfl, rfl, rfl, rfl, rfl, rfl, rfl, rfl, rfl⟩
    cases bringUpWorks s r <;> rfl
  have ports : ∀ (ps : List Port) (z : State), broughtUp s z r → broughtUp s (ps.foldl (fun z p => if p.level == 0 then z else z.faultEvent 6 8 p.n) z) r := by
    intro ps
    induction ps with
    | nil => exact fun z h => h
    | cons p ps ih =>
      intro z h
      refine ih _ ?_
      dsimp only
      split
      · exact h
      · exact State.broughtUp_faultEvent h 6 8 p.n
  unfold State.bringUp
  extract_lets flash image ok cap z0 z1 z2 z3
  have h2 : broughtUp s z2 r := ports _ _ base
  have h3 : broughtUp s z3 r := by
    simp only [z3]
    split
    · exact h2
    · exact State.broughtUp_faultEvent h2 5 14 0
  split
  · exact State.broughtUp_faultEvent h3 5 15 0
  · exact h3

theorem exec_retest {s : State} (r : BringUp) (hclosing : s.dev ≠ .closing) (hsafe : s.dev = .safe ∨ s.ctxs = []) (hcool : s.hot = true → r.cool = true) :
    exec (.retest r) s = .next ((s.bringUp r).answerMsg 10 0 0) := by
  show execRetest r s = _
  unfold execRetest
  refine if_neg ?_
  have h1 : (s.dev == .closing) = false := by simpa using hclosing
  have h2 : (s.dev != .safe && !s.ctxs.isEmpty) = false := by rcases hsafe with h | h <;> simp [h]
  have h3 : (s.hot && !r.cool) = false := by cases hs : s.hot <;> simp [hcool, hs]
  rw [h1, h2, h3]
  decide

theorem exec_powerOn {s : State} (r : BringUp) (hoff : s.dev = .off) : exec (.powerOn r) s = .next (s.bringUp r) := by
  show execPowerOn r s = _
  exact if_pos (by rw [hoff]; rfl)

theorem exec_power {s : State} (hrun : s.dev = .running) (p : Power) : exec (.power p) s = .next (
    match p with
    | .p0 | .p1 | .p2 | .p3 => State.answerMsg { s with power := p } 12 0 0
    | .s1 => if s.anyRunning then s.answerMsg 12 ansBusy 0 else State.answerMsg { s with power := p } 12 0 0
    | .s2 => if s.anyRunning then s.answerMsg 12 ansBusy 0 else State.answerMsg { s.dropBank with power := p } 12 0 0
    | .off => State.answerMsg { s.diesOff with ctxs := s.ctxs.map (fun c => { c with killed := true }), dev := .closing, power := p } 12 0 0) := by
  show execPower p s = _
  unfold execPower
  rw [State.unlessSafe_running hrun]
  cases p <;> rfl

/-- A pending OFF takes effect when nothing that it still answers waits (R428). -/
theorem State.turn_closing {s : State} (hc : s.dev = .closing) (ha : s.agenda.head?.all isPowerOn = true) :
    s.turn = .quiet { s.cutPower with rr := s.rr + classes.length } := by
  unfold State.turn
  rw [if_neg (by rw [hc]; decide), if_pos (by rw [hc, ha]; rfl)]

theorem exec_overtempTrip {s : State} (h : s.dev = .running ∨ s.dev = .safe) : exec .overtempTrip s = .next (
    ({ s.diesOff with ctxs := s.ctxs.map (fun c => { c with killed := true }), dev := .safe, hot := true, etherGbps := 100, etherAddr := s.flashAddr } : State).faultEvent
      5 13 0) := by
  show execOvertempTrip s = _
  unfold execOvertempTrip
  rw [if_neg (by rcases h with h | h <;> rw [h] <;> decide)]
  dsimp only [State.diesOff]
  rcases h with h | h <;> rw [h] <;> rfl

/-- Settles O39: each message and event by the lemma about it. -/
theorem deviceMessagesComplete : Obligations.DeviceMessagesComplete := by
  unfold Obligations.DeviceMessagesComplete
  intro s r img digest d is
  refine ⟨exec_status s, rfl, fun h1 h2 h3 => ⟨_, exec_retest r h1 h2 h3, State.broughtUp_bringUp s r⟩, fun hoff => ⟨_, exec_powerOn r hoff, State.broughtUp_bringUp s r⟩,
    rfl, fun hrun => ⟨?_, fun hidle => ?_, exec_power hrun .off⟩, fun hc ha => ?_, fun h => ?_, fun _ _ _ => ⟨rfl, rfl, rfl⟩⟩
  case refine_1 =>
    intro p hp
    rw [exec_power hrun]
    simp only [List.mem_cons, List.not_mem_nil, or_false] at hp
    rcases hp with rfl | rfl | rfl | rfl <;> rfl
  case refine_2 =>
    exact ⟨(exec_power hrun .s1).trans (congrArg Host.Outcome.next (if_neg (by simp [State.anyRunning, hidle]))),
      (exec_power hrun .s2).trans (congrArg Host.Outcome.next (if_neg (by simp [State.anyRunning, hidle])))⟩
  case refine_3 =>
    have hturn := State.turn_closing hc (by rcases ha with h | h <;> rw [h] <;> rfl)
    refine ⟨_, hturn, ?_, rfl, rfl, rfl, rfl, rfl, rfl, rfl, rfl, rfl⟩
    unfold step
    rw [hturn]
    rfl
  case refine_4 =>
    refine ⟨_, exec_overtempTrip h, rfl, rfl, rfl, rfl, rfl, rfl, rfl, ?_, rfl, rfl, rfl⟩
    intro c hc
    obtain ⟨c', _, rfl⟩ := List.mem_map.mp hc
    rfl

/-! ## Pinned frames and migrations -/

theorem exec_pin {s : State} (hrun : s.dev = .running) {pa size : BitVec 64} (hr : frameRange pa size = true) :
    exec (.pin pa size) s = .next (({ s with pinned := s.pinned ++ [(pa.toNat, size.toNat)] } : State).answerMsg 16 0 0) := by
  show execPin pa size s = _
  unfold execPin
  rw [State.unlessSafe_running hrun, if_neg (by simp [hr])]
  rfl

theorem exec_unpin {s : State} (hrun : s.dev = .running) {pa size : BitVec 64} (hr : frameRange pa size = true)
    (hcore : s.corePinned.any (fun r => meets r (pa.toNat, size.toNat)) = false) : exec (.unpin pa size) s =
      .next (({ s with pinned := s.pinned.flatMap fun r => cutRange r (pa.toNat, size.toNat) } : State).answerMsg 17 0 0) := by
  show execUnpin pa size s = _
  unfold execUnpin
  rw [State.unlessSafe_running hrun]
  dsimp only
  rw [hcore, hr, if_neg (by decide)]
  rfl

theorem exec_migrate_ddr {s : State} (hrun : s.dev = .running) {asid : BitVec 16} {va : BitVec 64} {n : Nat} {fs : List Leaf} (hctx : s.liveCtx asid = true)
    (hcap : s.ddrCap ≠ 0) (hfs : s.pagesFrom asid n va.toNat = some fs)
    (hfree : fs.any (fun f => s.isPinned f.frame f.size || s.inRunning f || s.movesPage asid f.va) = false) : exec (.migrate asid va n 1 0) s =
      .next (let qs := fs.map fun f => (⟨.host, asid, BitVec.ofNat 64 f.va, 1, 0, (0, 0)⟩ : MigReq)
             (qs.foldl (fun (s : State) q => s.later (.migrationStart q)) { s with migOwed := s.migOwed ++ [qs] }).payOwed) := by
  show execMigrate asid va n 1 0 s = _
  unfold execMigrate
  rw [State.unlessSafe_running hrun, if_neg (by simp [hctx]), if_neg (by simp [hcap])]
  dsimp only
  rw [hfs]
  dsimp only
  rw [hfree, if_neg Bool.false_ne_true]
  rfl

/-- A wanted move of a page that nothing holds begins where a frame is free (R25 to R28). -/
theorem State.startMove_demand {s : State} {q : MigReq} {f : Leaf} {a : Nat} (hleaf : s.leaf? q.asid q.va.toNat = some f) (htier : f.tier = 1)
    (habsent : f.present = false) (hcause : q.cause = .demand) (hthere : s.frameThere f = true) (hlost : s.frameLost f.frame = false)
    (hnew : s.migrations.any (fun m => m.covers q.asid q.va.toNat) = false) (hpin : s.isPinned f.frame f.size = false) (hrun : s.inRunning f = false)
    (hfree : s.freeFrame q.tier q.die f.size = some a) : s.startMove q = s.beginMove q f a := by
  unfold State.startMove
  rw [hleaf]
  dsimp only
  rw [hcause, hthere, hlost, hnew, hpin, hrun, hfree, htier, habsent]
  rfl

theorem exec_migrationStart (q : MigReq) (s : State) : exec (.migrationStart q) s = .next (s.startMove q).payOwed := rfl

/-- Settles O40: each message and event with the one branch of its definition that the hypotheses leave. -/
theorem framesAndMigrationsComplete : Obligations.FramesAndMigrationsComplete := by
  unfold Obligations.FramesAndMigrationsComplete
  intro s pa size va asid n a id fs q f m
  refine ⟨fun hrun hr => ⟨exec_pin hrun hr, exec_unpin hrun hr⟩, fun hrun => exec_migrate_ddr hrun, ?_, ?_, ?_⟩
  case refine_1 =>
    intro h1 h2 h3 h4 h5 h6 h7 h8 h9 h10
    rw [exec_migrationStart, State.startMove_demand h1 h2 h3 h4 h5 h6 h7 h8 h9 h10]
  case refine_2 =>
    intro hm hid hsw
    show execMigrationSwitch id s = _
    unfold execMigrationSwitch
    rw [hm, List.find?_cons_of_pos (by simp [hid, hsw])]
    rfl
  case refine_3 =>
    intro hm hid hready
    show execMigrationDone id s = _
    unfold execMigrationDone
    rw [hm, List.find?_cons_of_pos (by simp [hid, hready])]

/-! ## Engine issues of a group that stands in its frame -/

/-- A package whose current group, saved in a frame, has an `nsend` that waits for its issue. -/
def savedIssuer : State := { State.reset with cur := { Group.blank with phase := .wait (.issue (.nsend 0) 0), frame := some 0 } }

/-- The state with that `nsend` in the queue: there is room. -/
def savedIssuerIssued : State := (State.issueNet (.nsend 0) (savedIssuer.goto 0)).getD savedIssuer

theorem issueNet_savedIssuer : State.issueNet (.nsend 0) (savedIssuer.goto 0) = some savedIssuerIssued := rfl

/-- Refutes O41: an `nsend` of a group that stands in its frame waits for the team to return (R400), so its issue leaves it waiting although there is room. -/
theorem not_engineIssuesComplete : ¬ Obligations.EngineIssuesComplete := by
  unfold Obligations.EngineIssuesComplete
  intro h
  have hnet : (Instr.networkIssue 0, decide ((Machine.netCommand (.nsend 0)).1 ≠ []), State.issueNet (.nsend 0)) ∈ engineIssues savedIssuer.cur.key (.nsend 0) :=
    List.mem_cons_of_mem _ (List.mem_cons_of_mem _ List.mem_cons_self)
  have hissued := (h savedIssuer savedIssuerIssued (.nsend 0) 0 rfl _ hnet rfl).1 issueNet_savedIssuer rfl
  have hwaits : exec (.networkIssue 0) savedIssuer = .next savedIssuer := rfl
  have hphase : savedIssuer.cur.phase = Phase.run := congrArg (fun t => t.cur.phase) (Host.Outcome.next.inj (hwaits.symm.trans hissued))
  exact absurd hphase (by decide)

end Sys2Proof.Machine
end

section
/-! # PROOFS. The engines' steps: tiles, products, accumulators, drains, copies and snapshots (R104, R117, R307 to R321): O42. -/

namespace Sys2Proof.Machine

/-! ## Elements of a tile in scratch -/

theorem mem_dedup {α : Type} [BEq α] [LawfulBEq α] {x : α} {l : List α} : x ∈ dedup l ↔ x ∈ l := by
  have key : ∀ (l acc : List α), x ∈ l.foldl (fun acc x => if acc.contains x then acc else acc ++ [x]) acc ↔ x ∈ acc ∨ x ∈ l := by
    intro l
    induction l with
    | nil => simp
    | cons y l ih =>
      intro acc
      rw [List.foldl_cons, ih]
      split
      next hc =>
        rw [List.contains_iff_mem] at hc
        constructor
        · rintro (h | h)
          · exact .inl h
          · exact .inr (List.mem_cons_of_mem _ h)
        · rintro (h | h)
          · exact .inl h
          · rcases List.mem_cons.mp h with rfl | h
            · exact .inl hc
            · exact .inr h
      next => rw [List.mem_append, List.mem_singleton, List.mem_cons, or_assoc]
  simpa [dedup] using key l []

/-- Every byte that a tile store lists, rows that overlap included. -/
def TileGeo.cells (g : TileGeo) (d : Mem) : Mem := (g.rowsOf d).zipIdx.flatMap fun r => cellsAt (g.s + r.2 * g.p) r.1

theorem TileGeo.mem_cells {g : TileGeo} {d : Mem} {x : Nat × Byte} : x ∈ g.cells d ↔
    ∃ (k j : Nat) (row : List Byte), (g.rowsOf d)[k]? = some row ∧ j < row.length ∧ x = (g.s + k * g.p + j, row.getD j 0) := by
  unfold TileGeo.cells
  rw [List.mem_flatMap]
  constructor
  · rintro ⟨⟨row, k⟩, hrow, hx⟩
    obtain ⟨j, hj, rfl⟩ := cellsAt_mem.mp hx
    exact ⟨k, j, row, by simpa using List.mem_zipIdx_iff_getElem?.mp hrow, hj, by simp [hj]⟩
  · rintro ⟨k, j, row, hrow, hj, rfl⟩
    exact ⟨(row, k), List.mem_zipIdx_iff_getElem?.mpr (by simpa using hrow), cellsAt_mem.mpr ⟨j, hj, by simp [hj]⟩⟩

/-- One of the bytes that are listed for an address. -/
theorem pick_mem {c : Mem} {a : Nat} (h : ∃ x ∈ c, x.1 = a) (n : Nat) :
    (a, ((c.filter fun x => x.1 == a).getD (n % (c.filter fun x => x.1 == a).length) (0, 0)).2) ∈ c := by
  obtain ⟨x, hx, rfl⟩ := h
  have hpos : 0 < (c.filter fun y => y.1 == x.1).length := List.length_pos_of_mem (List.mem_filter.mpr ⟨hx, by simp⟩)
  have hlt := Nat.mod_lt n hpos
  rw [List.getD_eq_getElem?_getD, List.getElem?_eq_getElem hlt, Option.getD_some]
  have hpair : ∀ z ∈ c.filter (fun y => y.1 == x.1), (x.1, z.2) ∈ c := by
    intro z hz
    obtain ⟨hmem, heq⟩ := List.mem_filter.mp hz
    rw [← eq_of_beq heq]
    exact hmem
  exact hpair _ (List.getElem_mem hlt)

theorem TileGeo.store_eq (g : TileGeo) (d : Mem) (free : Nat → Nat) : g.store d free =
    if g.len ≤ g.p || g.nrows == 1 then g.cells d
    else (dedup ((g.cells d).map Prod.fst)).map fun a =>
      (a, (((g.cells d).filter fun x => x.1 == a).getD (free a % ((g.cells d).filter fun x => x.1 == a).length) (0, 0)).2) := rfl

theorem TileGeo.store_subset (g : TileGeo) (d : Mem) (free : Nat → Nat) : ∀ x ∈ g.store d free, x ∈ g.cells d := by
  intro x hx
  rw [TileGeo.store_eq] at hx
  split at hx
  · exact hx
  · obtain ⟨a, ha, rfl⟩ := List.mem_map.mp hx
    obtain ⟨y, hy, hya⟩ := List.mem_map.mp (mem_dedup.mp ha)
    exact pick_mem ⟨y, hy, hya⟩ _

/-- A tile store gives every address of a row a byte. -/
theorem TileGeo.store_covers (g : TileGeo) (d : Mem) (free : Nat → Nat) {x : Nat × Byte} (hx : x ∈ g.cells d) : ∃ y ∈ g.store d free, y.1 = x.1 := by
  rw [TileGeo.store_eq]
  split
  · exact ⟨x, hx, rfl⟩
  · exact ⟨_, List.mem_map_of_mem (mem_dedup.mpr (List.mem_map_of_mem hx)), rfl⟩

theorem tileElements_hold : tileElements := by
  intro g m d hw hn b rb
  have hb : 0 < g.sh.width := by
    simp only [List.mem_cons, List.not_mem_nil, or_false] at hw
    omega
  refine ⟨fun r c hr hc => ?_, fun k e hk he => ?_, fun free => ⟨fun x hx => TileGeo.mem_cells.mp (TileGeo.store_subset g d free x hx), ?_⟩⟩
  case refine_1 =>
    have h := load_elem m hb hn hr hc
    unfold TileGeo.len at h
    cases ht : g.t <;> rw [ht] at h <;> exact h
  case refine_2 =>
    obtain ⟨helem, hlen⟩ := rowsOf_elem (g := g) d hb hk he
    refine ⟨hlen, ?_⟩
    cases ht : g.t <;> rw [ht] at helem <;> exact helem
  case refine_3 =>
    intro k j row hrow hj
    exact TileGeo.store_covers g d free (TileGeo.mem_cells.mpr ⟨k, j, row, hrow, hj, rfl⟩)

/-! ## The sums of the matrix engine -/

theorem accElem_nil {kg : Nat} (hk : 0 < kg) (acc : Nat) (ys : List FVal) : accElem kg acc [] ys = acc := by
  unfold accElem
  rw [if_neg (by simp; omega)]
  rfl

theorem accStep_nan {short : Bool} {acc : Nat} {ts : List FVal} (h : groupSum short ts = .nan) : accStep short acc ts = 0x7FC00000 := by
  unfold accStep
  dsimp only
  rw [h]
  rfl

theorem accStep_zero {short : Bool} {acc : Nat} {ts : List FVal} (h : Num.isZero (groupSum short ts) = true) : accStep short acc ts = acc := by
  have hnan : Num.isNan (groupSum short ts) = false := by
    cases hs : groupSum short ts <;> rw [hs] at h
    case nan => exact absurd h (by decide)
    all_goals rfl
  unfold accStep
  dsimp only
  rw [hnan, h]
  rfl

theorem accStep_value {short : Bool} {acc : Nat} {ts : List FVal} (hnan : Num.isNan (groupSum short ts) = false) (hzero : Num.isZero (groupSum short ts) = false) :
    accStep short acc ts = Num.toF32 (Num.add .rne (Num.decode Num.f32 acc) (Num.roundTo Num.f32 .rne (groupSum short ts))) := by
  unfold accStep
  dsimp only
  rw [hnan, hzero]
  rfl

/-- The operand that a side decodes from code `c` at place `x`, for its element type (R179, R304). -/
theorem MmaSide.decode_get {side : MmaSide} {ty : Ty} {n : Nat} (hty : mmaTy side.code = some (ty, n)) (hint : ty.isInt = true) (m : Mem) (i k : Nat) {x c : Nat}
    {codes : List Nat} (hc : codes[x]? = some c) : (side.decode m i k codes)[x]? = some (Num.ofInt (Num.intVal ty c)) := by
  unfold MmaSide.decode
  rw [hty]
  dsimp only
  rw [List.getElem?_map, List.getElem?_zipIdx, hc]
  simp [hint]

theorem expandRow_get (m : Mem) (md i k : Nat) (kept : List Nat) {x : Nat} (hx : x < k) : (expandRow m md i k kept).getD x 0 =
    if metaCode m md i (2 * (x / 4)) = x % 4 then kept.getD (2 * (x / 4)) 0
    else if metaCode m md i (2 * (x / 4) + 1) = x % 4 then kept.getD (2 * (x / 4) + 1) 0 else 0 := by
  unfold expandRow
  rw [List.getD_eq_getElem?_getD, List.getElem?_map, List.getElem?_range hx]
  simp only [Option.map_some, Option.getD_some, beq_iff_eq]

theorem matrixSums_hold : matrixSums := by
  refine ⟨fun acc xs ys => accElem_int acc xs ys, fun kg acc xs ys hk => ⟨accElem_nil hk acc ys, accElem_group hk⟩,
    fun short acc ts => ⟨accStep_nan, accStep_zero, accStep_value⟩, fun side m i k x c codes hc => ⟨fun h => ?_, fun h => ?_⟩,
    fun m md i k x kept hx => expandRow_get m md i k kept hx⟩
  · exact MmaSide.decode_get (n := 8) (by rw [h]; rfl) rfl m i k hc
  · have hval : Num.intVal .n8x4 c = (c % 256 : Nat) := by rfl
    rw [← hval]
    exact MmaSide.decode_get (n := 8) (by rw [h]; rfl) rfl m i k hc

/-! ## The end of a matrix operation -/

theorem exec_matrixOpEnd {s : State} {n : Nat} {o : EngOp} (hop : s.op? n = some o) (heng : o.eng = .matrix) (hact : o.active = true) :
    exec (.matrixOpEnd n) s = .next (s.runMatrix o) := by
  show execMatrixOpEnd n s = _
  unfold execMatrixOpEnd
  rw [hop]
  exact if_pos (by rw [heng, hact]; rfl)

/-- A fault poisons the destination in the state that has its crumb. -/
theorem State.matrixFault_eq {s u : State} {o : EngOp} {c : Cause} {va : Nat} {k : BitVec 32} (h : s.enginePoison o c va = (u, k)) (put : State → BitVec 32 → State) :
    s.matrixFault o c va put = (put u k).endMatrix o c k := by
  unfold State.matrixFault
  rw [h]

theorem State.team_default {s : State} {o : EngOp} {team : Team} (h : s.team? o.teamKey = some team) : (s.team? o.teamKey).getD default = team := by
  rw [h]; rfl

section Tiles

variable {s u : State} {o p : EngOp} {x : BitVec 5} {k : BitVec 32} {team : Team}

/-- A tile poisoned with a token; its data stay (R301). -/
def State.poisonTile (s : State) (o : EngOp) (x : BitVec 5) (k : BitVec 32) : State := s.setTile o x ((s.tileOf o x).poisonedWith k)

theorem State.runTld_cause (hc : o.status ≠ 0) (hp : s.enginePoison o o.status o.geo.s = (u, k)) :
    s.runTld o x = (u.poisonTile o x k).endMatrix o o.status k := by
  unfold State.runTld
  dsimp only
  rw [if_pos (by simpa using hc)]
  exact State.matrixFault_eq hp _

theorem State.runTld_locked (hc : o.status = 0) (hl : s.foreignLock o 0 false o.geo.segs = true) (hp : s.enginePoison o 0x05 o.geo.s = (u, k)) :
    s.runTld o x = (u.poisonTile o x k).endMatrix o 0x05 k := by
  unfold State.runTld
  dsimp only
  rw [if_neg (by simp [hc]), if_pos hl]
  exact State.matrixFault_eq hp _

theorem State.runTld_poisoned (ht : s.team? o.teamKey = some team) (hc : o.status = 0) (hl : s.foreignLock o 0 false o.geo.segs = false)
    (hk : team.lowestPoison o.geo.segs = some k) : s.runTld o x = (s.poisonTile o x k).endMatrix o stPoisoned k := by
  unfold State.runTld
  dsimp only
  rw [if_neg (by simp [hc]), if_neg (by simp [hl]), State.team_default ht, hk] <;> rfl

theorem State.runTld_clean (ht : s.team? o.teamKey = some team) (hc : o.status = 0) (hl : s.foreignLock o 0 false o.geo.segs = false)
    (hk : team.lowestPoison o.geo.segs = none) : s.runTld o x = (s.setTile o x ⟨o.geo.load team.scratch, false, 0⟩).endMatrix o 0 0 := by
  unfold State.runTld
  dsimp only
  rw [if_neg (by simp [hc]), if_neg (by simp [hl]), State.team_default ht, hk] <;> rfl

theorem State.runTst_cause (hc : o.status ≠ 0) : s.runTst o x = s.endMatrix o o.status 0 := by
  unfold State.runTst
  exact if_pos (by simpa using hc)

theorem State.runTst_waits (hc : o.status = 0) (hw : s.boxWaits o = true) : s.runTst o x = s.keepOp { o with active := false } := by
  unfold State.runTst
  dsimp only
  rw [if_neg (by simp [hc]), if_pos hw]
  rfl

/-- The state in which a store writes its rows: rows that overlap take free values. -/
def State.storing (s : State) (g : TileGeo) : State := if g.len ≤ g.p ∨ g.nrows = 1 then s else { s with fresh := s.fresh + 2 ^ 19 }

theorem State.runTst_stores (hc : o.status = 0) (hw : s.boxWaits o = false)
    (hcells : (s.storing o.geo).engScrCells o (o.geo.store (s.tileOf o x).data fun a => (Config.freeValue (s.fresh + a)).toNat)
      (if (s.tileOf o x).poison then some (s.tileOf o x).token else none) = (u, p)) :
    s.runTst o x = u.endMatrix p (if (s.tileOf o x).poison then stPoisoned else 0) (if (s.tileOf o x).poison then (s.tileOf o x).token else 0) := by
  have hstate : (if (decide (o.geo.len ≤ o.geo.p) || o.geo.nrows == 1) = true then s else ({ s with fresh := s.fresh + 2 ^ 19 } : State)) = s.storing o.geo := by
    unfold State.storing
    simp
  unfold State.runTst
  dsimp only
  rw [if_neg (by simp [hc]), if_neg (by simp [hw]), hstate, hcells]
  cases (s.tileOf o x).poison <;> rfl

end Tiles

theorem tileCommands_hold : tileCommands := by
  refine ⟨tileElements_hold, ?_⟩
  intro s u n o p x r q t team k hop heng hact hteam at_ pitch poison
  rw [exec_matrixOpEnd hop heng hact]
  refine ⟨fun e he hi => ?_, fun e he hi => ?_⟩
  case refine_1 =>
    intro g
    obtain ⟨hgeo, hrun⟩ : o.geo = g ∧ s.runMatrix o = s.runTld o x := by
      simp only [List.mem_cons, List.not_mem_nil, or_false] at he
      unfold EngOp.geo State.runMatrix
      rcases he with rfl | rfl <;> rw [hi] <;> exact ⟨rfl, rfl⟩
    rw [hrun]
    refine ⟨fun c hc hne hp => ?_, fun hc => ⟨fun hl hp => ?_, fun hl => ⟨fun hk => ?_, fun hk => ?_⟩⟩⟩
    · subst hc
      exact congrArg Host.Outcome.next (State.runTld_cause hne (by rw [hgeo]; exact hp))
    · exact congrArg Host.Outcome.next (State.runTld_locked hc (by rw [hgeo]; exact hl) (by rw [hgeo]; exact hp))
    · exact congrArg Host.Outcome.next (State.runTld_poisoned hteam hc (by rw [hgeo]; exact hl) (by rw [hgeo]; exact hk))
    · have h := State.runTld_clean (x := x) hteam hc (by rw [hgeo]; exact hl) (by rw [hgeo]; exact hk)
      rw [hgeo] at h
      exact congrArg Host.Outcome.next h
  case refine_2 =>
    intro g b
    obtain ⟨hgeo, hrun⟩ : o.geo = g ∧ s.runMatrix o = s.runTst o x := by
      simp only [List.mem_cons, List.not_mem_nil, or_false] at he
      unfold EngOp.geo State.runMatrix
      rcases he with rfl | rfl <;> rw [hi] <;> exact ⟨rfl, rfl⟩
    rw [hrun]
    exact ⟨fun hc => congrArg Host.Outcome.next (State.runTst_cause hc), fun hc hw => congrArg Host.Outcome.next (State.runTst_waits hc hw),
      fun hc hw hcells => congrArg Host.Outcome.next (State.runTst_stores hc hw (by rw [hgeo]; exact hcells))⟩

/-! ## Multiplication -/

section Multiply

variable {s u : State} {o : EngOp} {x y : BitVec 5} {d : BitVec 3} {sparse : Bool} {k : BitVec 32}

theorem State.runMma_poisoned (ha : (s.accOf o d).poison = true) : s.runMma o x y d sparse = s.endMatrix o stPoisoned (s.accOf o d).token := by
  unfold State.runMma
  exact if_pos ha

theorem State.runMma_cause (ha : (s.accOf o d).poison = false) (hc : o.status ≠ 0) (hp : s.enginePoison o o.status 0 = (u, k)) :
    s.runMma o x y d sparse = (u.setAcc o d { s.accOf o d with poison := true, token := k }).endMatrix o o.status k := by
  unfold State.runMma
  dsimp only
  rw [if_neg (by simp [ha]), if_pos (by simpa using hc)]
  exact State.matrixFault_eq hp _

/-- Without a cause the format block, then the two tiles, give the accumulator their poison, else it takes the product. -/
theorem State.runMma_clean (ha : (s.accOf o d).poison = false) (hc : o.status = 0) :
    s.runMma o x y d sparse = match o.imgPois with
      | w :: _ => (s.setAcc o d { s.accOf o d with poison := true, token := w.2 }).endMatrix o stPoisoned w.2
      | [] =>
        if (s.tileOf o x).poison then (s.setAcc o d { s.accOf o d with poison := true, token := (s.tileOf o x).token }).endMatrix o stPoisoned (s.tileOf o x).token
        else if (s.tileOf o y).poison then (s.setAcc o d { s.accOf o d with poison := true, token := (s.tileOf o y).token }).endMatrix o stPoisoned (s.tileOf o y).token
        else (s.setAcc o d ⟨accMem (mmaWords o (o.shape x) (o.shape y) sparse ((o.args.getD 0 0).toNat % 2 ^ 19) (s.tileOf o x).data (s.tileOf o y).data
          (s.accOf o d).data), false, 0⟩).endMatrix o 0 0 := by
  unfold State.runMma
  dsimp only
  rw [if_neg (by simp [ha]), if_neg (by simp [hc])]
  cases o.imgPois <;> rfl

/-- Word (i, j) of an accumulator after a product. -/
theorem memNat_product (o : EngOp) (sa sb : Shape) (sparse : Bool) (f : Nat) (ta tb acc : Mem) {i j : Nat} (hi : i < 128) (hj : j < 128) :
    memNat (accMem (mmaWords o sa sb sparse f ta tb acc)) (512 * i + 4 * j) 4 = ((mmaWords o sa sb sparse f ta tb acc).getD i []).getD j 0 % 2 ^ 32 := by
  obtain ⟨hl, hr⟩ := mmaWords_length o sa sb sparse f ta tb acc
  rw [accMem_get hr (by omega) hj, List.getD_eq_getElem?_getD (l := mmaWords o sa sb sparse f ta tb acc), List.getElem?_eq_getElem (by omega), Option.getD_some]

end Multiply

theorem multiplyCommands_hold : multiplyCommands := by
  refine ⟨matrixSums_hold, ?_⟩
  intro s u n o x y r d k w ws hop heng hact e he hi a ta tb carried
  have hrun : s.runMatrix o = s.runMma o x y d e.2 := by
    simp only [List.mem_cons, List.not_mem_nil, or_false] at he
    unfold State.runMatrix
    rcases he with rfl | rfl <;> rw [hi]
  rw [exec_matrixOpEnd hop heng hact, hrun]
  refine ⟨fun ha => congrArg Host.Outcome.next (State.runMma_poisoned ha), fun ha hc hp => congrArg Host.Outcome.next (State.runMma_cause ha hc hp), fun ha hc => ?_⟩
  rw [State.runMma_clean ha hc]
  refine ⟨fun him => ?_, fun him => ?_⟩ <;> rw [him]
  refine ⟨fun hx => congrArg Host.Outcome.next (if_pos hx), fun hx hy => ?_, fun hx hy => ?_⟩ <;> dsimp only <;> rw [if_neg (ne_true_of_eq_false hx)]
  · exact congrArg Host.Outcome.next (if_pos hy)
  · rw [if_neg (ne_true_of_eq_false hy)]
    refine ⟨_, rfl, fun i j hi hj => ?_⟩
    rw [memNat_product _ _ _ _ _ _ _ _ hi hj, mmaWords_get _ _ _ _ _ _ _ _ hi hj]
    rfl

/-! ## Loads of accumulators -/

/-- One line of `ald.mem`, lines before it newest first. -/
def readLine (o : EngOp) (r : State × List (List Byte) × Option (BitVec 8 × BitVec 32)) (q : Nat × Nat) : State × List (List Byte) × Option (BitVec 8 × BitVec 32) :=
  match r.2.2 with
  | some _ => r
  | none => match r.1.engRead o q.1 q.2 0 with
    | (s, _, .ok ⟨bs, none⟩) => (s, bs :: r.2.1, none)
    | (s, _, .ok ⟨_, some t⟩) => (s, r.2.1, some (stPoisoned, t))
    | (s, _, .error c) => let (s, t) := s.enginePoison o c q.1; (s, r.2.1, some (c, t))

theorem readLine_stopped (o : EngOp) (s : State) (bs : List (List Byte)) (e : BitVec 8 × BitVec 32) (qs : List (Nat × Nat)) :
    qs.foldl (readLine o) (s, bs, some e) = (s, bs, some e) := by
  induction qs with
  | nil => rfl
  | cons q qs ih => exact ih

section Lines

variable {o p : EngOp} {s t : State} {q : Nat × Nat} {line : List Byte} {k : BitVec 32} {c : Cause}

theorem readLine_clean (h : s.engRead o q.1 q.2 0 = (t, p, .ok ⟨line, none⟩)) (bs : List (List Byte)) : readLine o (s, bs, none) q = (t, line :: bs, none) := by
  unfold readLine
  dsimp only
  rw [h]

theorem readLine_poisoned (h : s.engRead o q.1 q.2 0 = (t, p, .ok ⟨line, some k⟩)) (bs : List (List Byte)) :
    readLine o (s, bs, none) q = (t, bs, some (stPoisoned, k)) := by
  unfold readLine
  dsimp only
  rw [h]

theorem readLine_faults (h : s.engRead o q.1 q.2 0 = (t, p, .error c)) (bs : List (List Byte)) :
    readLine o (s, bs, none) q = ((t.enginePoison o c q.1).1, bs, some (c, (t.enginePoison o c q.1).2)) := by
  unfold readLine
  dsimp only
  rw [h]

theorem linesRead_clean (h : s.engRead o q.1 q.2 0 = (t, p, .ok ⟨line, none⟩)) (qs : List (Nat × Nat)) :
    linesRead o s (q :: qs) = ((linesRead o t qs).1, line ++ (linesRead o t qs).2.1, (linesRead o t qs).2.2) := by
  rw [linesRead, h]

theorem linesRead_poisoned (h : s.engRead o q.1 q.2 0 = (t, p, .ok ⟨line, some k⟩)) (qs : List (Nat × Nat)) :
    linesRead o s (q :: qs) = (t, [], some (stPoisoned, k)) := by
  rw [linesRead, h]

theorem linesRead_faults (h : s.engRead o q.1 q.2 0 = (t, p, .error c)) (qs : List (Nat × Nat)) :
    linesRead o s (q :: qs) = ((t.enginePoison o c q.1).1, [], some (c, (t.enginePoison o c q.1).2)) := by
  rw [linesRead, h]

end Lines

/-- The engine's fold over lines reads what `linesRead` reads. -/
theorem foldl_readLine (o : EngOp) : ∀ (qs : List (Nat × Nat)) (s : State) (bs : List (List Byte)),
    (qs.foldl (readLine o) (s, bs, none)).1 = (linesRead o s qs).1 ∧ (qs.foldl (readLine o) (s, bs, none)).2.2 = (linesRead o s qs).2.2 ∧
    ((linesRead o s qs).2.2 = none → (qs.foldl (readLine o) (s, bs, none)).2.1.reverse.flatten = bs.reverse.flatten ++ (linesRead o s qs).2.1) := by
  intro qs
  induction qs with
  | nil => exact fun s bs => ⟨rfl, rfl, fun _ => (List.append_nil _).symm⟩
  | cons q qs ih =>
    intro s bs
    rw [List.foldl_cons]
    rcases hread : s.engRead o q.1 q.2 0 with ⟨t, p, c | ⟨line, _ | k⟩⟩
    · rw [readLine_faults hread, linesRead_faults hread, readLine_stopped]
      exact ⟨rfl, rfl, fun h => nomatch h⟩
    · rw [readLine_clean hread, linesRead_clean hread]
      obtain ⟨h1, h2, h3⟩ := ih t (line :: bs)
      exact ⟨h1, h2, fun h => (h3 h).trans (by simp)⟩
    · rw [readLine_poisoned hread, linesRead_poisoned hread, readLine_stopped]
      exact ⟨rfl, rfl, fun h => nomatch h⟩

/-- Bytes from 0 up, as a memory. -/
def memOfBytes (bs : List Byte) : Mem := (cellsAt 0 bs).filter fun c => c.2 != unlisted

theorem memGet_cellsAt (bs : List Byte) (a i : Nat) : memGet ((cellsAt a bs).filter fun c => c.2 != unlisted) (a + i) = bs.getD i 0 := by
  have above : ∀ (bs : List Byte) (a j : Nat), j < a → memGet ((cellsAt a bs).filter fun c => c.2 != unlisted) j = unlisted := by
    intro bs
    induction bs with
    | nil => exact fun _ _ _ => rfl
    | cons b bs ih =>
      intro a j hj
      rw [cellsAt, List.filter_cons]
      have hrest := ih (a + 1) j (by omega)
      split
      · rw [memGet, if_neg (by simp; omega), hrest]
      · exact hrest
  induction bs generalizing a i with
  | nil => rfl
  | cons b bs ih =>
    rw [cellsAt, List.filter_cons]
    cases i with
    | zero =>
      split
      next => rw [memGet, if_pos (by simp)]; rfl
      next hb =>
        rw [above bs (a + 1) (a + 0) (by omega)]
        exact (by simpa using hb : b = unlisted).symm
    | succ i =>
      have hrest : memGet ((cellsAt (a + 1) bs).filter fun c => c.2 != unlisted) (a + (i + 1)) = bs.getD i 0 := by
        rw [← ih (a + 1) i, Nat.add_right_comm a 1 i, Nat.add_assoc]
      split
      · rw [memGet, if_neg (by simp), hrest]; rfl
      · rw [hrest]; rfl

theorem memGet_memOfBytes (bs : List Byte) (i : Nat) : memGet (memOfBytes bs) i = bs.getD i 0 := by
  have h := memGet_cellsAt bs 0 i
  rwa [Nat.zero_add] at h

section Accumulators

variable {s u : State} {o : EngOp} {d : BitVec 3} {k : BitVec 32} {team : Team} {va : Nat} {st : BitVec 8} {bs : List Byte}

/-- An accumulator poisoned with a token; its data stay (R301). -/
def State.poisonAcc (s : State) (o : EngOp) (d : BitVec 3) (k : BitVec 32) : State := s.setAcc o d ((s.accOf o d).poisonedWith k)

theorem State.runAld_cause (hc : o.status ≠ 0) (hp : s.enginePoison o o.status ((o.args.getD 0 0).toNat % 2 ^ 19) = (u, k)) :
    s.runAld o d = (u.poisonAcc o d k).endMatrix o o.status k := by
  unfold State.runAld
  dsimp only
  rw [if_pos (by simpa using hc)]
  exact State.matrixFault_eq hp _

theorem State.runAld_locked (hc : o.status = 0) (hl : s.foreignLock o 0 false [((o.args.getD 0 0).toNat % 2 ^ 19, 65536)] = true)
    (hp : s.enginePoison o 0x05 ((o.args.getD 0 0).toNat % 2 ^ 19) = (u, k)) : s.runAld o d = (u.poisonAcc o d k).endMatrix o 0x05 k := by
  unfold State.runAld
  dsimp only
  rw [if_neg (by simp [hc]), if_pos hl]
  exact State.matrixFault_eq hp _

theorem State.runAld_reads (ht : s.team? o.teamKey = some team) (hc : o.status = 0)
    (hl : s.foreignLock o 0 false [((o.args.getD 0 0).toNat % 2 ^ 19, 65536)] = false) : s.runAld o d =
      match team.firstPoison ((o.args.getD 0 0).toNat % 2 ^ 19) 65536 with
      | some k => (s.poisonAcc o d k).endMatrix o stPoisoned k
      | none => (s.setAcc o d ⟨memSlice team.scratch ((o.args.getD 0 0).toNat % 2 ^ 19) 65536, false, 0⟩).endMatrix o 0 0 := by
  unfold State.runAld
  dsimp only
  rw [if_neg (by simp [hc]), if_neg (ne_true_of_eq_false hl), State.team_default ht]
  cases team.firstPoison ((o.args.getD 0 0).toNat % 2 ^ 19) 65536 <;> rfl

theorem State.runAldMem_cause (hc : o.status ≠ 0) (hp : s.enginePoison o o.status (o.args.getD 0 0).toNat = (u, k)) :
    s.runAldMem o d = (u.poisonAcc o d k).endMatrix o o.status k := by
  unfold State.runAldMem
  exact (if_pos (by simpa using hc)).trans (State.matrixFault_eq hp _)

theorem State.runAldMem_locked (hc : o.status = 0) (hl : s.foreignLock o 1 false [((o.args.getD 0 0).toNat, 65536)] = true)
    (hp : s.enginePoison o 0x05 (o.args.getD 0 0).toNat = (u, k)) : s.runAldMem o d = (u.poisonAcc o d k).endMatrix o 0x05 k := by
  unfold State.runAldMem
  exact (if_neg (by simp [hc])).trans ((if_pos hl).trans (State.matrixFault_eq hp _))

/-- Without a cause or a lock a load waits for a page that can come, else it reads its lines. -/
theorem State.runAldMem_free (hc : o.status = 0) (hl : s.foreignLock o 1 false [((o.args.getD 0 0).toNat, 65536)] = false) {segs : List (Nat × Nat)}
    (hsegs : vaSegs (o.args.getD 0 0).toNat 65536 = segs) {r : State × List (List Byte) × Option (BitVec 8 × BitVec 32)}
    (hr : segs.foldl (readLine o) (s, [], none) = r) : s.runAldMem o d =
      match s.firstMovable o .read segs with
      | some va => s.suspendOp { o with active := false } va
      | none => match r.2.2 with
        | some (st, k) => (r.1.poisonAcc o d k).endMatrix o st k
        | none => (r.1.setAcc o d ⟨memOfBytes r.2.1.reverse.flatten, false, 0⟩).endMatrix o 0 0 := by
  subst hsegs hr
  unfold State.runAldMem
  exact (if_neg (by simp [hc])).trans (if_neg (ne_true_of_eq_false hl))

theorem State.runAldMem_moves (hc : o.status = 0) (hl : s.foreignLock o 1 false [((o.args.getD 0 0).toNat, 65536)] = false)
    (hm : s.firstMovable o .read (vaSegs (o.args.getD 0 0).toNat 65536) = some va) : s.runAldMem o d = s.suspendOp { o with active := false } va := by
  rw [State.runAldMem_free hc hl rfl rfl, hm]

theorem State.runAldMem_reads (hc : o.status = 0) (hl : s.foreignLock o 1 false [((o.args.getD 0 0).toNat, 65536)] = false)
    (hm : s.firstMovable o .read (vaSegs (o.args.getD 0 0).toNat 65536) = none) {r : State × List (List Byte) × Option (BitVec 8 × BitVec 32)}
    (hr : (vaSegs (o.args.getD 0 0).toNat 65536).foldl (readLine o) (s, [], none) = r) : s.runAldMem o d =
      match r.2.2 with
      | some (st, k) => (r.1.poisonAcc o d k).endMatrix o st k
      | none => (r.1.setAcc o d ⟨memOfBytes r.2.1.reverse.flatten, false, 0⟩).endMatrix o 0 0 := by
  rw [State.runAldMem_free hc hl rfl hr, hm]

theorem State.runAldMem_poisoned (hc : o.status = 0) (hl : s.foreignLock o 1 false [((o.args.getD 0 0).toNat, 65536)] = false)
    (hm : s.firstMovable o .read (vaSegs (o.args.getD 0 0).toNat 65536) = none)
    (hr : linesRead o s (vaSegs (o.args.getD 0 0).toNat 65536) = (u, bs, some (st, k))) : s.runAldMem o d = (u.poisonAcc o d k).endMatrix o st k := by
  obtain ⟨h1, h2, _⟩ := foldl_readLine o (vaSegs (o.args.getD 0 0).toNat 65536) s []
  rw [hr] at h1 h2
  rw [State.runAldMem_reads hc hl hm rfl, h2, h1]

theorem State.runAldMem_clean (hc : o.status = 0) (hl : s.foreignLock o 1 false [((o.args.getD 0 0).toNat, 65536)] = false)
    (hm : s.firstMovable o .read (vaSegs (o.args.getD 0 0).toNat 65536) = none)
    (hr : linesRead o s (vaSegs (o.args.getD 0 0).toNat 65536) = (u, bs, none)) :
    s.runAldMem o d = (u.setAcc o d ⟨memOfBytes bs, false, 0⟩).endMatrix o 0 0 := by
  obtain ⟨h1, h2, h3⟩ := foldl_readLine o (vaSegs (o.args.getD 0 0).toNat 65536) s []
  rw [hr] at h1 h2 h3
  rw [State.runAldMem_reads hc hl hm rfl, h2, h1]
  dsimp only
  rw [h3 rfl]
  rfl

end Accumulators

theorem accumulatorCommands_hold : accumulatorCommands := by
  intro s u n va o r d k team bs st hop heng hact hteam poison
  rw [exec_matrixOpEnd hop heng hact]
  refine ⟨fun hi => ?_, fun e he hi => ?_, fun hi hc => ?_, fun hi hc => ?_⟩
  case refine_1 =>
    unfold State.runMatrix
    rw [hi] <;> rfl
  case refine_2 =>
    simp only [List.mem_cons, List.not_mem_nil, or_false] at he
    unfold State.runMatrix
    rcases he with rfl | rfl <;> rw [hi]
    · exact ⟨fun hc hp => congrArg Host.Outcome.next (State.runAld_cause hc hp), fun hc hl hp => congrArg Host.Outcome.next (State.runAld_locked hc hl hp)⟩
    · exact ⟨fun hc hp => congrArg Host.Outcome.next (State.runAldMem_cause hc hp), fun hc hl hp => congrArg Host.Outcome.next (State.runAldMem_locked hc hl hp)⟩
  case refine_3 =>
    intro a hl
    have hrun : s.runMatrix o = s.runAld o d := by unfold State.runMatrix; rw [hi]
    rw [hrun, State.runAld_reads hteam hc hl]
    refine ⟨fun hk => ?_, fun hk => ?_⟩ <;> rw [hk]
    · rfl
    · exact ⟨_, rfl, fun i hi => memSlice_get _ _ _ _ hi⟩
  case refine_4 =>
    intro a hl
    have hrun : s.runMatrix o = s.runAldMem o d := by unfold State.runMatrix; rw [hi]
    rw [hrun]
    exact ⟨fun hm => congrArg Host.Outcome.next (State.runAldMem_moves hc hl hm), fun hm =>
      ⟨fun hr => congrArg Host.Outcome.next (State.runAldMem_poisoned hc hl hm hr),
        fun hr => ⟨_, congrArg Host.Outcome.next (State.runAldMem_clean hc hl hm hr), memGet_memOfBytes bs⟩⟩⟩

/-! ## Drains -/

theorem drainBits_pos (f : DrainFmt) : 0 < drainBits f := by cases f <;> decide

/-- Rows and columns of the accumulator that a drain takes. -/
theorem drainWords_get (q : DrainRec) (acc : Mem) {i c : Nat} (hi : i < q.rows) (hc : c < q.cols) (hr : q.row0 + q.rows ≤ 128) (hcol : q.col0 + q.cols ≤ 128) :
    ∃ row, ((((accWords acc).drop q.row0).take q.rows).map fun w => (w.drop q.col0).take q.cols)[i]? = some row ∧ row.length = q.cols ∧
      row[c]? = some (memNat acc (512 * (q.row0 + i) + 4 * (q.col0 + c)) 4) := by
  have hw := accWords_get acc (i := q.row0 + i) (j := q.col0 + c) (by omega) (by omega)
  have hl : (accWords acc).length = 128 := by simp [accWords]
  have hrow : ((accWords acc)[q.row0 + i]'(by omega)).length = 128 := by simp [accWords]
  rw [List.getD_eq_getElem?_getD (l := accWords acc), List.getElem?_eq_getElem (by omega), Option.getD_some, List.getD_eq_getElem?_getD,
    List.getElem?_eq_getElem (by omega), Option.getD_some] at hw
  refine ⟨(((accWords acc)[q.row0 + i]'(by omega)).drop q.col0).take q.cols, ?_, ?_, ?_⟩
  · rw [List.getElem?_map, List.getElem?_take_of_lt hi, List.getElem?_drop, List.getElem?_eq_getElem (by omega)]
    rfl
  · rw [List.length_take, List.length_drop, hrow]; omega
  · rw [List.getElem?_take_of_lt hc, List.getElem?_drop, List.getElem?_eq_getElem (by omega), hw]

theorem leNat_words_elem (row : List Nat) {c v : Nat} (hc : row[c]? = some v) : bits (leNat (row.flatMap fun x => toBytes 4 x)) (32 * c) 32 = v % 2 ^ 32 := by
  induction row generalizing c with
  | nil => exact nomatch hc
  | cons a row ih =>
    have hcons : leNat ((a :: row).flatMap fun x => toBytes 4 x) = a % 2 ^ 32 + 2 ^ 32 * leNat (row.flatMap fun x => toBytes 4 x) := by
      rw [List.flatMap_cons, leNat_append, leNat_toBytes, toBytes_length, bytes4]
    rw [hcons]
    cases c with
    | zero =>
      obtain rfl := Option.some.inj hc
      simp [bits]
    | succ c =>
      rw [← ih hc]
      unfold bits
      rw [Nat.mul_succ, Nat.add_comm (32 * c) 32, Nat.shiftRight_add, Nat.shiftRight_eq_div_pow _ 32, Nat.add_mul_div_left _ _ (by decide),
        Nat.div_eq_of_lt (Nat.mod_lt _ (by decide)), Nat.zero_add]

theorem DrainRec.data_words (q : DrainRec) (acc : Mem) : (q.data .w32 acc).1 =
    ((((accWords acc).drop q.row0).take q.rows).map fun w => (w.drop q.col0).take q.cols).map fun w => w.flatMap fun x => toBytes 4 x := rfl

/-- A drain without blocks rounds each word to the format (R321). -/
theorem DrainRec.data_rounded (q : DrainRec) (acc : Mem) {f : DrainFmt} {ty : Ty} (hty : drainTy f = some ty) (hs : q.scaled f = false) : (q.data f acc).1 =
    ((((accWords acc).drop q.row0).take q.rows).map fun w => (w.drop q.col0).take q.cols).map fun w =>
      packRow (drainBits f) (rowBytes q.cols (drainBits f)) (w.map fun x => Num.encode (Num.fmtOf ty) (Num.saturate (Num.fmtOf ty) (if q.sat then .type else .none)
        (Num.decode Num.f32 x) (Num.roundTo (Num.fmtOf ty) (rmOf q.rm) (Num.decode Num.f32 x)))) := by
  unfold DrainRec.data
  rw [hty]
  dsimp only
  rw [hs, if_neg Bool.false_ne_true]
  simp only [List.map_map, Function.comp_def]

theorem drainElements_hold : drainElements := by
  intro q acc i c hi hc hr hcol word
  obtain ⟨row, hrow, hlen, hword⟩ := drainWords_get q acc hi hc hr hcol
  have hlt : word < 2 ^ 32 := by rw [← bytes4]; exact memNat_lt _ _ _
  refine ⟨?_, fun f ty hty hs => ?_⟩
  · rw [DrainRec.data_words, List.getD_eq_getElem?_getD, List.getElem?_map, hrow]
    exact (leNat_words_elem row hword).trans (Nat.mod_eq_of_lt hlt)
  · rw [DrainRec.data_rounded q acc hty hs, List.getD_eq_getElem?_getD, List.getElem?_map, hrow]
    have hfit : (c + 1) * drainBits f ≤ 8 * rowBytes q.cols (drainBits f) := by
      have hle : (c + 1) * drainBits f ≤ q.cols * drainBits f := Nat.mul_le_mul_right _ hc
      unfold rowBytes
      omega
    refine (packRow_elem (drainBits_pos f) _ hfit).trans ?_
    rw [List.getD_eq_getElem?_getD, List.getElem?_map, hword]
    rfl

section Drains

variable {s u : State} {o p : EngOp} {dk : DrainKind} {d : BitVec 3} {f : DrainFmt} {z : Bool} {k : BitVec 32} {va : Nat} {c : Cause}
  {w : Nat × BitVec 32} {ws : List (Nat × BitVec 32)}

/-- The record of a drain in its image. -/
def EngOp.drainRec (o : EngOp) : DrainRec := DrainRec.of o.img ((o.args.getD 1 0).toNat % 2 ^ 19)

/-- Rows, scales and extra values of a drain, each byte at its place. -/
def State.drainCells (s : State) (o : EngOp) (dk : DrainKind) (d : BitVec 3) (f : DrainFmt) : Mem :=
  let out := o.drainRec.data f (s.accOf o d).data
  let parts := (if dk == .tile then [] else out.1) ++ (if o.drainRec.scaled f then [out.2.1] else []) ++ (if f == .x2m1 then [out.2.2] else [])
  (((o.drainTo dk f).2.map Prod.fst).zip parts).flatMap fun q => cellsAt q.1 q.2

/-- The poison that a drain carries: that of its accumulator. -/
def State.drainToken (s : State) (o : EngOp) (d : BitVec 3) : Option (BitVec 32) := if (s.accOf o d).poison then some (s.accOf o d).token else none

/-- A drain of `o` ends in `u` as `p`. -/
def State.drained (s u : State) (o p : EngOp) (d : BitVec 3) (z : Bool) : State :=
  (if z then u.setAcc o d ⟨[], false, 0⟩ else u).endMatrix p (if (s.accOf o d).poison then stPoisoned else 0) ((s.drainToken o d).getD 0)

/-- The tile that a drain writes. -/
def State.drainedTile (s : State) (o : EngOp) (d : BitVec 3) (f : DrainFmt) : Block :=
  let rows := (o.drainRec.data f (s.accOf o d).data).1
  if (s.accOf o d).poison then ⟨memOfRows 128 (rows.map fun b => b.map fun _ => 0), true, (s.accOf o d).token⟩ else ⟨memOfRows 128 rows, false, 0⟩

/-- The lines that a drain to memory writes. -/
def State.drainLines (s : State) (o : EngOp) (d : BitVec 3) (f : DrainFmt) : List (Nat × Mem) :=
  splitLines ((s.drainCells o .mem d f).map fun c => (c.1 % 2 ^ 64, c.2))

theorem State.runDrn_poisoned (him : o.imgPois = w :: ws) : s.runDrn o dk d f z = s.endMatrix o stPoisoned w.2 := by
  unfold State.runDrn
  dsimp only
  rw [him]

theorem State.runDrn_locked (him : o.imgPois = []) (hc : o.status = Cause.rangeLocked)
    (hp : s.enginePoison o Cause.rangeLocked ((o.args.getD 1 0).toNat % 2 ^ 19) = (u, k)) : s.runDrn o dk d f z = u.endMatrix o Cause.rangeLocked k := by
  unfold State.runDrn
  dsimp only
  rw [him]
  refine (if_pos (by rw [hc]; rfl)).trans ?_
  rw [hc]
  exact State.matrixFault_eq hp _

theorem State.runDrn_cause (him : o.imgPois = []) (h5 : o.status ≠ Cause.rangeLocked) (hc : o.status ≠ 0) : s.runDrn o dk d f z = s.endMatrix o o.status 0 := by
  unfold State.runDrn
  dsimp only
  rw [him]
  exact (if_neg (fun h => h5 (eq_of_beq h))).trans (if_pos (by simpa using hc))

/-- A drain off its unit, its sound record written out. -/
theorem EngOp.idle_of_sound (him : o.imgPois = []) : ({ o with imgPois := [], active := false } : EngOp) = { o with active := false } := by rw [← him]

theorem State.runDrn_waits (him : o.imgPois = []) (hc : o.status = 0) (hw : s.boxWaits o = true) : s.runDrn o dk d f z = s.keepOp { o with active := false } := by
  unfold State.runDrn
  dsimp only
  rw [him]
  refine (if_neg (by rw [hc]; decide)).trans ((if_neg (by simp [hc])).trans ?_)
  rw [if_pos hw]
  exact (congrArg s.keepOp (EngOp.idle_of_sound him)).symm

/-- A drain that nothing keeps writes memory line by line, or scratch and perhaps a tile (R321). -/
theorem State.runDrn_free (him : o.imgPois = []) (hc : o.status = 0) (hw : s.boxWaits o = false) : s.runDrn o dk d f z =
    if dk == .mem then
      match s.firstMovable o .write ((s.drainLines o d f).map fun q => (q.1 * 128, 128)) with
      | some va => s.suspendOp { o with imgPois := [], active := false } va
      | none => match s.drainMem o (s.drainToken o d) (s.drainLines o d f) with
        | (u, p, some c) => u.endMatrix p c (if p.ctime == 0 then 0 else (s.drainToken o d).getD 0)
        | (u, p, none) => s.drained u o p d z
    else
      match s.engScrCells o (s.drainCells o dk d f) (s.drainToken o d) with
      | (u, p) => s.drained (if dk == .tile then u.setTile p ((o.args.getD 0 0).setWidth 5) (s.drainedTile o d f) else u) o p d z := by
  unfold State.runDrn
  dsimp only
  rw [him]
  refine (if_neg (by rw [hc]; decide)).trans ((if_neg (by simp [hc])).trans ?_)
  rw [if_neg (ne_true_of_eq_false hw)]
  unfold State.drainLines State.drained State.drainedTile State.drainCells State.drainToken EngOp.drainRec
  generalize (DrainRec.of o.img ((o.args.getD 1 0).toNat % 2 ^ 19)).data f (s.accOf o d).data = out
  obtain ⟨rows, sc, xv⟩ := out
  dsimp only
  cases dk
  case mem =>
    refine (if_pos (by decide)).trans (Eq.trans ?_ (if_pos (by decide)).symm)
    generalize splitLines _ = lines
    rcases s.firstMovable o .write _ with _ | va
    · rcases s.drainMem o _ lines with ⟨u, p, _ | c⟩ <;> rfl
    · rfl
  case scratch | tile =>
    refine (if_neg (by decide)).trans (Eq.trans ?_ (if_neg (by decide)).symm)
    generalize s.engScrCells o _ _ = r
    obtain ⟨u, p⟩ := r
    rfl

end Drains

theorem drainCommands_hold : drainCommands := by
  refine ⟨drainElements_hold, ?_⟩
  intro s u n va o p dk d rd rr f z k w ws c hop heng hact hi rec_ dest
  have hrun : s.runMatrix o = s.runDrn o dk d f z := by unfold State.runMatrix; rw [hi]
  rw [exec_matrixOpEnd hop heng hact, hrun]
  refine ⟨fun him => congrArg Host.Outcome.next (State.runDrn_poisoned him), fun him hc hp => congrArg Host.Outcome.next (State.runDrn_locked him hc hp),
    fun him h5 hc => congrArg Host.Outcome.next (State.runDrn_cause him h5 hc), fun him hc hw => congrArg Host.Outcome.next (State.runDrn_waits him hc hw),
    fun him hc hw => ?_⟩
  rw [State.runDrn_free him hc hw]
  intro q a out places parts cells lines tok done
  have hcells : s.drainCells o dk d f = cells := by
    unfold State.drainCells EngOp.drainTo
    cases dk <;> cases f <;> rfl
  have hhead : ({ o with imgPois := [], active := false } : EngOp) = { o with active := false } := EngOp.idle_of_sound him
  rw [hhead, hcells]
  refine ⟨fun hk hscr => ?_, fun hk hscr => ?_, fun hk => ?_⟩
  case refine_1 =>
    refine congrArg Host.Outcome.next ((if_neg (by rw [hk]; decide)).trans ?_)
    have htok : s.engScrCells o cells (s.drainToken o d) = (u, p) := hscr
    rw [htok, hk] <;> rfl
  case refine_2 =>
    refine congrArg Host.Outcome.next ((if_neg (by rw [hk]; decide)).trans ?_)
    have htok : s.engScrCells o cells (s.drainToken o d) = (u, p) := hscr
    rw [htok, hk] <;> rfl
  case refine_3 =>
    have hlines : s.drainLines o d f = lines := by
      rw [hk] at hcells
      unfold State.drainLines
      rw [hcells]
    rw [hlines, if_pos (by rw [hk]; rfl)]
    refine ⟨fun hm => ?_, fun hm => ⟨fun hd => ?_, fun hd => ?_⟩⟩ <;> rw [hm]
    · have htok : s.drainMem o (s.drainToken o d) lines = (u, p, none) := hd
      exact congrArg Host.Outcome.next (by dsimp only; rw [htok] <;> rfl)
    · have htok : s.drainMem o (s.drainToken o d) lines = (u, p, some c) := hd
      refine congrArg Host.Outcome.next ?_
      dsimp only
      rw [htok]
      simp only [beq_iff_eq]
      rfl

/-! ## Copies, starts and snapshots -/

/-- A group that stands in no frame has none to refresh (R143, R311). -/
theorem State.endMatrix_eq {s : State} {o : EngOp} {st : BitVec 8} {k : BitVec 32} (h : ((s.endOp o st 0 k true).group? o.gkey).bind Group.frame = none) :
    s.endMatrix o st k = s.endOp o st 0 k true := by
  unfold State.endMatrix State.refreshFrame
  generalize s.endOp o st 0 k true = t at h ⊢
  rcases hg : t.group? o.gkey with _ | g
  · rfl
  · rw [hg] at h
    have hframe : g.frame = none := h
    dsimp only [Option.bind]
    rw [hframe] <;> rfl

section Steps

variable {s t : State} {n a : Nat} {o p : EngOp} {seg : CSeg} {f : Fetched} {va : BitVec 64} {r : BitVec 6}

theorem exec_copyLineComplete (hop : s.op? n = some o) (heng : o.eng = .copy) (hout : o.out = 0) (hmove : (s.movingCopies o.core).any (fun p => p.id == n) = true) :
    exec (.copyLineComplete n) s = .next (s.copyStep o) := by
  show execCopyLineComplete n s = _
  unfold execCopyLineComplete
  rw [hop]
  exact if_pos (by rw [heng, hout, hmove]; rfl)

theorem State.copyStep_ends (h : s.copySeg o = none) : s.copyStep o = s.endOp o (if o.failed = [] then o.status else stPartial) o.tally o.token true := by
  unfold State.copyStep
  rw [h]
  have hst : (if o.failed.isEmpty then o.status else stPartial) = if o.failed = [] then o.status else stPartial := by simp only [List.isEmpty_iff]
  exact congrArg (fun st => s.endOp o st o.tally o.token true) hst

theorem State.copyStep_mem (h : s.copySeg o = some seg) (hf : o.failed.contains (pieceId seg.piece) = false) (ht : seg.tok = none) (hs : seg.src = .mem a)
    (hr : s.engRead o a seg.n (copyHint o.instr) = (t, p, .ok f)) : s.copyStep o = t.copyLand p seg f := by
  unfold State.copyStep
  rw [h]
  dsimp only
  rw [hf, if_neg Bool.false_ne_true, ht, hs]
  dsimp only
  rw [hr]

theorem State.copyStep_scr (h : s.copySeg o = some seg) (hf : o.failed.contains (pieceId seg.piece) = false) (ht : seg.tok = none) (hs : seg.src = .scr a)
    (hr : s.engScrRead o a seg.n = (t, p, f)) : s.copyStep o = t.copyLand p seg f := by
  unfold State.copyStep
  rw [h]
  dsimp only
  rw [hf, if_neg Bool.false_ne_true, ht, hs]
  dsimp only
  rw [hr]

/-- A suspended operation resumes once its page has moved, where its group may run (R117). -/
theorem exec_copyResume (hop : s.op? n = some o) (hsus : o.suspended = some va) (hmig : s.migrating o.sysr.asid va = false) (hheld : s.opHeld o = false)
    (hteam : ∀ x, s.team? o.teamKey = some x → x.active = true ∨ x.endSt.isSome = true) : exec (.copyResume n) s = .next (s.keepOp { o with suspended := none }) := by
  show execCopyResume n s = _
  unfold execCopyResume
  rw [hop]
  dsimp only
  have hidle : ((s.team? o.teamKey).map fun t => !t.active && t.endSt.isNone).getD false = false := by
    rcases hx : s.team? o.teamKey with _ | x
    · rfl
    · rcases hteam x hx with h | h
      · simp [h]
      · simp [h]
  have hmay : s.mayResume o = true := by
    unfold State.mayResume
    rw [hsus]
    dsimp only
    rw [hmig, hheld, hidle]
    rfl
  exact congrArg Host.Outcome.next (if_pos hmay)

theorem exec_matrixOpStart (hop : s.op? n = some o) (heng : o.eng = .matrix) (hnext : s.nextMatrix o.core (matrixUnit o.instr) = some p) (hp : p.id = n) :
    exec (.matrixOpStart n) s = .next (s.keepOp { o with active := true, suspended := none }) := by
  show execMatrixOpStart n s = _
  unfold execMatrixOpStart
  rw [hop]
  exact if_pos (by rw [heng, hnext]; simp [hp])

theorem exec_snapshotOpEnd_last (hop : s.op? n = some o) (hready : s.snapReady o = true) (hsus : o.suspended = none) (hi : o.instr = .snap r)
    (hstep : s.snapStep o = (t, p, .ok true)) : exec (.snapshotOpEnd n) s = .next (t.endOp p 0 p.count 0 true) := by
  have ho : ({ o with suspended := none } : EngOp) = o := by rw [← hsus]
  show execSnapshotOpEnd n s = _
  unfold execSnapshotOpEnd
  rw [hop]
  dsimp only
  rw [hready, ho, hi]
  dsimp only
  rw [hstep]
  rfl

end Steps

/-- Settles O42: the matrix operations at their end, and the other engines' steps, by their lemmas. -/
theorem engineStepsComplete : Obligations.EngineStepsComplete := by
  refine ⟨tileCommands_hold, multiplyCommands_hold, accumulatorCommands_hold, drainCommands_hold, fun s o st k h => State.endMatrix_eq h, ?_⟩
  intro s t n a o p seg f va r hop
  refine ⟨fun heng hout hmove => ?_, fun hsus hmig hheld hteam => exec_copyResume hop hsus hmig hheld hteam,
    fun heng hnext hp => exec_matrixOpStart hop heng hnext hp, fun heng hact => exec_matrixOpEnd hop heng hact,
    fun hready hsus hi hstep => exec_snapshotOpEnd_last hop hready hsus hi hstep⟩
  rw [exec_copyLineComplete hop heng hout hmove]
  exact ⟨fun h => congrArg Host.Outcome.next (State.copyStep_ends h), fun h hf ht hs hr => congrArg Host.Outcome.next (State.copyStep_mem h hf ht hs hr),
    fun h hf ht hs hr => congrArg Host.Outcome.next (State.copyStep_scr h hf ht hs hr)⟩

end Sys2Proof.Machine
end

section
/-! # PROOFS. Packets of the Ethernet transport (R217, R381 to R386, R436): O43. -/

namespace Sys2Proof.Machine

/-! ## Local parts and completion -/

section Packets

variable {s t u : State} {n time : Nat} {o : EngOp} {p : NetPend} {a : BitVec 6} {k : UetPkt} {r : URx} {x y : UTx} {c : Ctx}
  {ps : List (Nat × Nat × Phys)} {asid : BitVec 16} {flow : FlowId}

theorem exec_networkLocalPartEnd_read (hop : s.op? n = some o) (heng : o.eng = .network) (hi : o.instr = .nread a) (hpos : o.pos = 1) :
    exec (.networkLocalPartEnd n) s = .next (s.endOp o o.status 0 o.token true) := by
  show execNetworkLocalPartEnd n s = _
  unfold execNetworkLocalPartEnd
  rw [hop]
  dsimp only
  rw [if_neg (by rw [heng]; decide), hi]
  exact if_pos (by simp [hpos])

theorem exec_networkLocalPartEnd_send (hop : s.op? n = some o) (heng : o.eng = .network) (hi : o.instr = .nsend a) (hsus : o.suspended = none) :
    exec (.networkLocalPartEnd n) s = .next (s.sendLocal o) := by
  have ho : ({ o with suspended := none } : EngOp) = o := by rw [← hsus]
  show execNetworkLocalPartEnd n s = _
  unfold execNetworkLocalPartEnd
  rw [hop]
  dsimp only
  rw [if_neg (by rw [heng]; decide), ho, hi, hsus] <;> rfl

theorem exec_workRequestComplete (hp : s.netPend.find? (fun q => q.op == n) = some p) (howns : s.ownsNet p.asid p.cntr = true) (ok : Bool) :
    exec (.workRequestComplete n ok) s = .next (({ s with netPend := s.netPend.filter fun q => q.op != n,
                                                          utx := s.utx.filter fun u => u.pkt.opId != n } : State).countNet p.cntr (!ok) p.ctime) := by
  show execWorkRequestComplete n ok s = _
  unfold execWorkRequestComplete
  rw [hp]
  exact if_pos howns

/-! ## Packets that arrive -/

/-- A packet of an unordered send (R383). -/
theorem exec_uetPacketReceive_send (hkind : k.kind = 1) (hord : k.ord = false) (hlen : k.len ≤ 9216) :
    exec (.uetPacketReceive k) s = .next (s.rxSend k).1 := by
  show execUetPacketReceive k s = _
  unfold execUetPacketReceive
  rw [if_neg (by omega), hkind, if_neg (by decide), hord, if_neg (by simp), if_neg (by simp)]
  exact congrArg Host.Outcome.next (if_neg (by simp))

theorem State.placeSend_again (h : (r.done || r.got.contains k.off) = true) : s.placeSend k r = (s.ackPkt k false, true) := by
  unfold State.placeSend
  exact if_pos h

theorem State.placeSend_new (h : (r.done || r.got.contains k.off) = false)
    (hx : s.xlateSegs (s.frontXl r.asid) .write ((r.laddr.toNat + k.off) % 2 ^ 64)
      (lineSegs ((r.laddr.toNat + k.off) % 2 ^ 64) (min k.len (r.room - k.off))) = (t, .ok ps))
    (hc : t.commitSegs ps k.bytes (fun o n => (markOf k.x o n).map bareToken) = (u, time)) :
    s.placeSend k r = (((u.putRx k (r.placed k time (min k.len (r.room - k.off) < k.len))).ackPkt k false).wholeRx
      (r.placed k time (min k.len (r.room - k.off) < k.len)), true) := by
  unfold State.placeSend
  rw [if_neg (by rw [h]; decide)]
  dsimp only
  rw [hx]
  dsimp only
  rw [hc]

theorem State.rxSend_known (h : s.rx? k = some r) : s.rxSend k = s.placeSend k r := by
  unfold State.rxSend
  rw [h]

theorem State.rxSend_refused (h : s.rx? k = none) (hc : s.ctxs.find? (fun c => c.res == k.res && !c.killed) = some c) (hv : ∀ v ∈ s.recvs, v.takes c.asid k = false) :
    s.rxSend k = (s.ackPkt k true, false) := by
  have hnone : s.recvs.find? (fun v => v.takes c.asid k) = none := List.find?_eq_none.mpr fun v hm => by simp [hv v hm]
  unfold State.rxSend
  rw [h]
  dsimp only
  rw [hc]
  dsimp only
  rw [hnone]

/-! ## Acknowledgements and retransmissions -/

/-- What comes back from a peer shows that it is there (R386). -/
def State.peerThere (s : State) (asid : BitVec 16) (flow : FlowId) : State :=
  { s with peers := s.peers.map fun e => if e.asid == asid && e.n.toNat == flow.entry && e.gen == flow.gen then { e with lost := false } else e }

theorem exec_uetAckReceive (s : State) (asid : BitVec 16) (flow : FlowId) (seqs : List Nat) (refused : Bool) : exec (.uetAckReceive asid flow seqs refused) s =
    .next (if refused then
        (dedup (((s.txOf asid flow seqs).filter fun u => u.pkt.kind != 1 && u.pkt.kind != 2).map fun u => u.pkt.opId)).foldl
          (fun s op => s.failNet op Cause.perm) (s.peerThere asid flow)
      else ((s.txOf asid flow seqs).foldl State.ackedTx (s.peerThere asid flow)).passTx asid flow ((s.txOf asid flow seqs).map fun u => u.pkt.seq)) := by
  show execUetAckReceive asid flow seqs refused s = _
  unfold execUetAckReceive
  cases refused <;> rfl

theorem UTx.isAt_self (x : UTx) : x.isAt x.asid x.flow x.pkt.seq = true := by simp [UTx.isAt]

/-- A packet that has retries left is sent again. -/
theorem State.resendPkt_again (hr : x.retries < 8) : s.resendPkt x =
    ({ s with utx := s.utx.map fun v => if v.isAt x.asid x.flow x.pkt.seq then { v with retries := v.retries + 1 } else v } : State).emit (.uet x.pkt) := by
  unfold State.resendPkt
  exact if_neg (by omega)

/-- The acknowledgement of the only packet of a message completes its request (R385). -/
theorem State.ackedTx_last (hkind : x.pkt.kind ≠ 4) (hutx : s.utx = [x]) (hpend : s.netPend = [p]) (hop : p.op = x.pkt.opId) (hleft : p.left = [x.pkt.seq]) :
    s.ackedTx x = ({ s with utx := [], netPend := [{ p with left := [] }] } : State).later (.workRequestComplete x.pkt.opId true) := by
  have hdrop : ([x].filter fun v => !v.isAt x.asid x.flow x.pkt.seq) = [] := by simp [UTx.isAt_self]
  have hdone : ([p].map fun q => if q.op == x.pkt.opId then { q with left := q.left.filter fun n => n != x.pkt.seq } else q) = [{ p with left := [] }] := by
    simp [hop, hleft]
  unfold State.ackedTx
  rw [if_neg (by simpa using hkind)]
  dsimp only
  rw [hutx, hpend, hdrop, hdone]
  exact if_pos (by simp [hop])

/-- Without a packet left, none is passed. -/
theorem State.passTx_nil (hutx : s.utx = []) (asid : BitVec 16) (flow : FlowId) (seqs : List Nat) : s.passTx asid flow seqs = s := by
  unfold State.passTx
  dsimp only
  rw [hutx]
  show ({ s with utx := [] } : State) = s
  rw [← hutx]

/-- The acknowledgement of a packet above another counts for that other (R436). -/
theorem State.ackedTx_above (hutx : s.utx = [x, y]) (hxa : x.asid = asid) (hya : y.asid = asid) (hxf : x.flow = flow) (hyf : y.flow = flow)
    (hlt : x.pkt.seq < y.pkt.seq) (hkind : y.pkt.kind ≠ 4) (hpend : s.netPend = []) : s.ackedTx y = { s with utx := [x] } := by
  have hdrop : ([x, y].filter fun v => !v.isAt y.asid y.flow y.pkt.seq) = [x] := by
    simp [UTx.isAt, hxa, hya, hxf, hyf, Nat.ne_of_lt hlt]
  unfold State.ackedTx
  rw [if_neg (by simpa using hkind)]
  dsimp only
  rw [hutx, hdrop, hpend]
  show ({ s with utx := [x], netPend := [] } : State) = _
  rw [← hpend]

theorem State.passTx_one (hutx : s.utx = [x]) (hxa : x.asid = asid) (hxf : x.flow = flow) (hlt : x.pkt.seq < n) : s.passTx asid flow [n] =
    ([x].filter fun u => decide (u.above < 3) && decide (3 ≤ u.above + 1)).foldl State.resendPkt { s with utx := [{ x with above := x.above + 1 }] } := by
  have hnow : (if (x.asid == asid && x.flow == flow) = true then x.above + ([n].filter fun m => decide (x.pkt.seq < m)).length else x.above) = x.above + 1 := by
    rw [if_pos (by simp [hxa, hxf])]
    simp [hlt]
  unfold State.passTx
  dsimp only
  rw [hutx, List.map_singleton, hnow]
  congr 1
  refine List.filter_congr fun u hu => ?_
  obtain rfl := List.mem_singleton.mp hu
  simp only [hnow]

theorem State.txOf_singleton (hutx : s.utx = [x]) (hxa : x.asid = asid) (hxf : x.flow = flow) : s.txOf asid flow [x.pkt.seq] = [x] := by
  unfold State.txOf
  simp [hutx, hxa, hxf]

theorem State.txOf_second (hutx : s.utx = [x, y]) (hya : y.asid = asid) (hyf : y.flow = flow) (hlt : x.pkt.seq < y.pkt.seq) : s.txOf asid flow [y.pkt.seq] = [y] := by
  unfold State.txOf
  simp [hutx, hya, hyf, Nat.ne_of_lt hlt]

/-- The acknowledgement of the packet above `x` alone. -/
theorem exec_uetAckReceive_above (hutx : s.utx = [x, y]) (hxa : x.asid = asid) (hya : y.asid = asid) (hxf : x.flow = flow) (hyf : y.flow = flow)
    (hlt : x.pkt.seq < y.pkt.seq) (hkind : y.pkt.kind ≠ 4) (hpend : s.netPend = []) : exec (.uetAckReceive asid flow [y.pkt.seq] false) s =
    .next (([x].filter fun u => decide (u.above < 3) && decide (3 ≤ u.above + 1)).foldl State.resendPkt
      { s.peerThere asid flow with utx := [{ x with above := x.above + 1 }] }) := by
  have hacked : (s.peerThere asid flow).ackedTx y = { s.peerThere asid flow with utx := [x] } :=
    State.ackedTx_above (s := s.peerThere asid flow) hutx hxa hya hxf hyf hlt hkind hpend
  rw [exec_uetAckReceive, State.txOf_second hutx hya hyf hlt, if_neg Bool.false_ne_true]
  dsimp only [List.foldl, List.map]
  rw [hacked, State.passTx_one (s := { s.peerThere asid flow with utx := [x] }) rfl hxa hxf hlt]

theorem exec_uetAckReceive_last (hutx : s.utx = [x]) (hxa : x.asid = asid) (hxf : x.flow = flow) (hkind : x.pkt.kind ≠ 4) (hpend : s.netPend = [p])
    (hop : p.op = x.pkt.opId) (hleft : p.left = [x.pkt.seq]) : exec (.uetAckReceive asid flow [x.pkt.seq] false) s =
    .next (({ s.peerThere asid flow with utx := [], netPend := [{ p with left := [] }] } : State).later (.workRequestComplete x.pkt.opId true)) := by
  have hacked := State.ackedTx_last (s := s.peerThere asid flow) hkind hutx hpend hop hleft
  rw [exec_uetAckReceive, State.txOf_singleton hutx hxa hxf, if_neg Bool.false_ne_true]
  dsimp only [List.foldl, List.map]
  rw [hacked, State.passTx_nil rfl]

/-- A send that its target refuses stays, as a lost packet (R383). -/
theorem exec_uetAckReceive_refused (hutx : s.utx = [x]) (hxa : x.asid = asid) (hxf : x.flow = flow) (hkind : x.pkt.kind = 1 ∨ x.pkt.kind = 2) :
    exec (.uetAckReceive asid flow [x.pkt.seq] true) s = .next (s.peerThere asid flow) := by
  have hrma : ([x].filter fun u => u.pkt.kind != 1 && u.pkt.kind != 2) = [] := by rcases hkind with h | h <;> simp [h]
  rw [exec_uetAckReceive, State.txOf_singleton hutx hxa hxf, if_pos rfl, hrma] <;> rfl

theorem exec_uetRetransmitTimeout (hutx : s.utx = [x]) (hxa : x.asid = asid) (hxf : x.flow = flow) (hseq : x.pkt.seq = n) :
    exec (.uetRetransmitTimeout asid flow n) s = .next (s.resendPkt x) := by
  subst hxa hxf hseq
  have hmore : ([x].filter fun v => x.pkt.ord && v.asid == x.asid && v.flow == x.flow && v.pkt.ord && decide (x.pkt.seq < v.pkt.seq)) = [] := by simp
  have hfind : ([x].find? fun u => u.isAt x.asid x.flow x.pkt.seq) = some x := by simp [UTx.isAt]
  show execUetRetransmitTimeout x.asid x.flow x.pkt.seq s = _
  unfold execUetRetransmitTimeout
  rw [hutx, hfind]
  dsimp only
  rw [hmore] <;> rfl

end Packets

/-- Settles O43: each event by its lemma; of two packets of a flow the acknowledgement of the upper one counts for the lower. -/
theorem networkEventsComplete : Obligations.NetworkEventsComplete := by
  intro s t u n time o p a ok k r x y c ps asid flow there
  refine ⟨exec_networkLocalPartEnd_read, exec_networkLocalPartEnd_send, fun hp howns => exec_workRequestComplete hp howns ok, fun hlen => if_pos hlen, ?_, ?_, ?_,
    fun hutx hxa hxf => ⟨fun hkind hpend hop hleft => exec_uetAckReceive_last hutx hxa hxf hkind hpend hop hleft,
      fun hkind => exec_uetAckReceive_refused hutx hxa hxf hkind, fun hseq => ?_⟩, fun hutx hxa hya hxf hyf hlt hkind hpend => ?_⟩
  case refine_1 =>
    intro hkind hord hlen hrx hdone
    rw [exec_uetPacketReceive_send hkind hord hlen, State.rxSend_known hrx, State.placeSend_again hdone]
  case refine_2 =>
    intro hkind hord hlen hrx hdone hx hc
    rw [exec_uetPacketReceive_send hkind hord hlen, State.rxSend_known hrx, State.placeSend_new hdone hx hc]
  case refine_3 =>
    intro hkind hord hlen hrx hc hv
    rw [exec_uetPacketReceive_send hkind hord hlen, State.rxSend_refused hrx hc hv]
  case refine_4 =>
    rw [exec_uetRetransmitTimeout hutx hxa hxf hseq]
    refine ⟨fun hr => ?_, fun hr => ?_⟩
    · rw [State.resendPkt_again hr, hutx, List.map_singleton, if_pos (UTx.isAt_self x)]
    · rw [← hxa, ← hxf]
      exact congrArg Host.Outcome.next (if_pos hr)
  case refine_5 =>
    rw [exec_uetAckReceive_above hutx hxa hya hxf hyf hlt hkind hpend]
    refine ⟨fun habove => ?_, fun habove hr => ?_⟩
    · rw [List.filter_cons_of_neg (by simp; omega)]
      rfl
    · rw [List.filter_cons_of_pos (by simp [habove])]
      show Host.Outcome.next (State.resendPkt _ x) = _
      have hat : ({ x with above := 3 } : UTx).isAt x.asid x.flow x.pkt.seq = true := UTx.isAt_self { x with above := 3 }
      rw [State.resendPkt_again hr, habove, List.map_singleton, if_pos hat] <;> rfl

end Sys2Proof.Machine
end

section
/-! # PROOFS. Lane instructions that compute, across lanes, and their frame (R228 to R251, R284 to R297): O44 to O47. -/

namespace Sys2Proof.Machine

/-! ## Integers, moves, floats -/

/-- Each integer instruction computes its function on every lane (R236 to R244). -/
theorem exec_laneIntegers (x : LOp) (s : State) : ∀ p ∈ laneIntegers, exec (p.1 x) s = s.laneMap x (formOf (p.1 x)) (p.2 x) := by
  simp only [laneIntegers, List.forall_mem_cons, List.not_mem_nil, IsEmpty.forall_iff, implies_true, and_true]
  and_intros <;> rfl

/-- Each move judges a lane's operands with their poison (R241, R245, R257 to R259). -/
theorem exec_laneMoves (x : LOp) (s : State) : ∀ p ∈ laneMoves s, exec (p.1 x) s = s.laneEach x (formOf (p.1 x)) (p.2 x) := by
  simp only [laneMoves, List.forall_mem_cons, List.not_mem_nil, IsEmpty.forall_iff, implies_true, and_true]
  and_intros <;> rfl

/-- Each float instruction computes its function on every lane (R284 to R297). -/
theorem exec_laneFloats (x : LOp) (s : State) : ∀ p ∈ laneFloats, exec (p.1 x) s = s.laneMap x (formOf (p.1 x)) (p.2 x) := by
  simp only [laneFloats, List.forall_mem_cons, List.not_mem_nil, IsEmpty.forall_iff, implies_true, and_true]
  and_intros <;> rfl

/-- Settles O44: an instruction that computes each lane writes the lanes' results. -/
theorem laneIntegerInstructionsComplete : Obligations.LaneIntegerInstructionsComplete := by
  intro s x hg
  exact ⟨fun p hp hf => (exec_laneIntegers x s p hp).trans (State.laneMap_out (p.2 x) hg hf),
    fun p hp hf => (exec_laneMoves x s p hp).trans (State.laneEach_out (p.2 x) hg hf)⟩
/-! ## Block quantisation -/

/-- Without shadow lanes the half at lane 0 holds every lane. -/
theorem half_all {s : State} {ls : List LaneIn} (hs : s.cur.shadow = false) (hw : ∀ l ∈ ls, l.lane < s.cur.width) :
    (ls.filter fun l => l.lane / s.cur.laneW == 0 / s.cur.laneW) = ls := by
  have hlaneW : s.cur.laneW = s.cur.width := by unfold Group.laneW; rw [hs]; rfl
  rw [hlaneW, Nat.zero_div]
  exact List.filter_eq_self.mpr fun l hl => by simp [Nat.div_eq_of_lt (hw l hl)]

theorem bases_unshadowed {s : State} (hs : s.cur.shadow = false) : s.cur.bases = [0] := by
  unfold Group.bases
  rw [hs]
  rfl

/-- The quantised block of each 32 lanes gives each of its lanes a result (R293, R296). -/
theorem State.laneQuant_out {s : State} {x : LOp} {F : Form} (f : Num.QBlock → Nat → LaneIn → Opd) (hg : s.cur.guardPoison x.guard = 0) (h : s.Fresh x F)
    (hs : s.cur.shadow = false) (hw : ∀ l ∈ s.laneIns x F, l.lane < s.cur.width) :
    s.laneQuant x F f = .next (s.laneOut x F ((s.laneIns x F).map fun l => (l.lane, quantLane x (s.laneIns x F) f l))) := by
  unfold State.laneQuant
  rw [State.laneGroup_out _ hg h, bases_unshadowed hs, List.flatMap_singleton, half_all hs hw]
  rfl

theorem exec_cvt (x : LOp) (s : State) : exec (.cvt x) s = execCvt x s := rfl

theorem exec_qblk (x : LOp) (s : State) : exec (.qblk x) s = execQblk x s := rfl

/-- Settles O45: floats lane by lane, block forms from the quantised block. -/
theorem laneFloatInstructionsComplete : Obligations.LaneFloatInstructionsComplete := by
  intro s x hg
  refine ⟨fun p hp hf => (exec_laneFloats x s p hp).trans (State.laneMap_out (p.2 x) hg hf), fun hf hblk => ?_, fun hf hblk hs hw => ?_, fun hf hs hw => ?_⟩
  case refine_1 =>
    rw [exec_cvt, execCvt, if_neg (by rw [hblk]; decide)]
    exact State.laneMap_out _ hg hf
  case refine_2 =>
    rw [exec_cvt, execCvt, if_pos hblk]
    exact State.laneQuant_out _ hg hf hs hw
  case refine_3 =>
    rw [exec_qblk, execQblk]
    exact State.laneQuant_out _ hg hf hs hw

/-! ## Across lanes -/

/-- An exchange takes S0 of the lane that it names, in its own half (R246). -/
theorem State.exchange_out {s : State} {x : LOp} {F : Form} (pick : Nat → Nat → Nat → Option Nat) (hg : s.cur.guardPoison x.guard = 0) (h : s.Fresh x F) :
    s.exchange x F pick = .next (s.laneOut x F (s.cur.bases.flatMap fun b =>
      exchanged s x F pick b ((s.laneIns x F).filter fun l => l.lane / s.cur.laneW == b / s.cur.laneW))) := by
  unfold State.exchange
  rw [State.laneGroup_out _ hg h]
  unfold exchanged Group.xchSrc
  simp only [Group.rdForm_enterCode]
  rfl

theorem exec_xchi (x : LOp) (s : State) : exec (.xchi x) s = execXchi x s := rfl

theorem exec_xchu (x : LOp) (s : State) : exec (.xchu x) s = execXchu x s := rfl

theorem exec_xchd (x : LOp) (s : State) : exec (.xchd x) s = execXchd x s := rfl

theorem exec_xchx (x : LOp) (s : State) : exec (.xchx x) s = execXchx x s := rfl

theorem exec_matchl (x : LOp) (s : State) : exec (.matchl x) s = execMatchl x s := rfl

theorem exec_scan (x : LOp) (s : State) : exec (.scan x) s = execScan x s := rfl

theorem exec_first (x : LOp) (s : State) : exec (.first x) s = execFirst x s := rfl

theorem exec_vote (x : LOp) (s : State) : exec (.vote x) s = execVote x s := rfl

theorem exec_gred (x : LOp) (s : State) : exec (.gred x) s = execGred x s := rfl

/-- Settles O47: results of each half from the lanes of the half, reductions from those of the group. -/
theorem crossLaneInstructionsComplete : Obligations.CrossLaneInstructionsComplete := by
  intro s x hg
  refine ⟨?_, fun hs => ?_⟩
  case refine_1 =>
    simp only [crossLanes, List.forall_mem_cons, List.not_mem_nil, IsEmpty.forall_iff, implies_true, and_true]
    refine ⟨fun hf => ?_, fun hf => ?_, fun hf => ?_, fun hf => ?_, fun hf => ?_, fun hf => ?_, fun hf => ?_⟩
    · rw [exec_xchi]
      exact State.exchange_out _ hg hf
    · rw [exec_xchu]
      exact State.exchange_out _ hg hf
    · rw [exec_xchd]
      exact State.exchange_out _ hg hf
    · rw [exec_xchx]
      exact State.exchange_out _ hg hf
    · rw [exec_matchl]
      exact State.laneGroup_out _ hg hf
    · rw [exec_scan]
      exact State.laneGroup_out _ hg hf
    · rw [exec_first]
      exact State.laneGroup_out _ hg hf
  case refine_2 =>
    simp only [List.forall_mem_cons, List.not_mem_nil, IsEmpty.forall_iff, implies_true, and_true]
    refine ⟨fun hf => ?_, fun hf => ?_⟩
    · rw [exec_vote]
      exact State.laneUni_out _ hg hf hs
    · rw [exec_gred, execGred, State.laneUni_out _ hg hf hs]
      unfold reduced
      simp only [Nat.zero_add, Bool.and_eq_true, beq_iff_eq]
      rfl

/-! ## Frame of the lane instructions that compute -/

/-- What a lane instruction that computes may change of its group. -/
structure LanePart where
  run : Option RunSt
  latches : List (List LatchElem)
  chunk : Chunk
  freads : List FRead
  v : List (List VElem)
  p : List PReg
  laneq : List LBlock
  finished : List (BitVec 64)

def State.lanePart (s : State) : LanePart :=
  ⟨s.cur.run, s.cur.latches, s.cur.chunk, s.cur.freads, s.cur.regs.v, s.cur.regs.p, s.cur.regs.laneq, s.cur.regs.finished⟩

/-- `s` with that part of the current group replaced. -/
def State.putLane (s : State) (a : LanePart) : State :=
  { s with cur := { s.cur with run := a.run, latches := a.latches, chunk := a.chunk, freads := a.freads,
                               regs := { s.cur.regs with v := a.v, p := a.p, laneq := a.laneq, finished := a.finished } } }

/-- `t` is `s` but for that part. -/
def State.LaneFrame (s t : State) : Prop := t = s.putLane t.lanePart

theorem State.LaneFrame.trans {s t u : State} (h1 : s.LaneFrame t) (h2 : t.LaneFrame u) : s.LaneFrame u := by
  unfold State.LaneFrame at *
  rw [h1] at h2
  exact h2

/-- A block signature changes the lane queue alone. -/
theorem Regs.mixBlock_queue (r : Regs) (e : BitVec 64) : ∃ q, r.mixBlock e = { r with laneq := q } := by
  unfold Regs.mixBlock
  cases hq : r.laneq with
  | nil => exact ⟨r.laneq, rfl⟩
  | cons b bs => exact ⟨_, rfl⟩

theorem State.laneFrame_enterCode (s : State) (op : Nat) : s.LaneFrame (s.enterCode op) := by
  obtain ⟨q, hq⟩ := s.cur.regs.mixBlock_queue (opEvent op)
  have h : s.enterCode op = { s with cur := { s.cur with regs := { s.cur.regs with laneq := q } } } :=
    congrArg (fun r => { s with cur := { s.cur with regs := r } }) hq
  rw [h]
  rfl

theorem State.laneFrame_onCur (s : State) {f : Group → Group}
    (h : f s.cur = { s.cur with run := (f s.cur).run, latches := (f s.cur).latches, chunk := (f s.cur).chunk, freads := (f s.cur).freads,
                                regs := { s.cur.regs with v := (f s.cur).regs.v, p := (f s.cur).regs.p, laneq := (f s.cur).regs.laneq,
                                                          finished := (f s.cur).regs.finished } }) : s.LaneFrame (s.onCur f) :=
  congrArg (fun g : Group => ({ s with cur := g } : State)) h

theorem State.laneFrame_laneStop (s : State) (lives : List Live) (skip : BitVec 64) : s.LaneFrame (s.laneStop lives skip) := rfl

theorem State.laneFrame_writeV (s : State) (n : Nat) (res : List (Nat × VElem)) : s.LaneFrame (s.onRegs fun r => r.writeV n res) :=
  s.laneFrame_onCur (f := fun g => { g with regs := g.regs.writeV n res }) rfl

theorem State.laneFrame_capture (s : State) (n : Nat) (res : List (Nat × VElem)) : s.LaneFrame (s.onCur fun g => g.capture n res) := s.laneFrame_onCur rfl

/-- The registers that a vector result writes. -/
def State.writeRegs (s : State) (x : LOp) (wide : Bool) (lo hi : List (Nat × VElem)) : State :=
  if x.dst.ws then s
  else if wide then (s.onRegs fun r => r.writeV x.dst.num.toNat lo).onRegs fun r => r.writeV (x.dst.num.toNat + 1) hi
  else s.onRegs fun r => r.writeV x.dst.num.toNat lo

/-- The latches that a vector result captures. -/
def State.writeLatches (s : State) (x : LOp) (wide : Bool) (lo hi : List (Nat × VElem)) : State :=
  if wide then (s.onCur fun g => g.capture x.dst.dl.toNat lo).onCur fun g => g.capture (x.dst.dl.toNat + 1) hi
  else s.onCur fun g => g.capture x.dst.dl.toNat lo

/-- A vector result writes registers, captures latches and counts its registers as written (R139, R156, R324). -/
theorem State.writeDst_eq (s : State) (x : LOp) (wide : Bool) (res : List (Nat × Opd)) {lo hi : List (Nat × VElem)} (hlo : res.map (fun r => (r.1, r.2.lo)) = lo)
    (hhi : res.map (fun r => (r.1, r.2.hi)) = hi) :
    s.writeDst x wide res = ((s.writeRegs x wide lo hi).writeLatches x wide lo hi).onChunk fun c => { c with vw := dedup (c.vw ++ vdests x wide) } := by
  unfold State.writeDst
  dsimp only
  rw [hlo, hhi]
  unfold State.writeRegs State.writeLatches
  cases x.dst.ws <;> cases wide <;> rfl

theorem State.laneFrame_writeRegs (s : State) (x : LOp) (wide : Bool) (lo hi : List (Nat × VElem)) : s.LaneFrame (s.writeRegs x wide lo hi) := by
  unfold State.writeRegs
  split
  · rfl
  · split
    · exact (s.laneFrame_writeV _ lo).trans (State.laneFrame_writeV _ _ hi)
    · exact s.laneFrame_writeV _ lo

theorem State.laneFrame_writeLatches (s : State) (x : LOp) (wide : Bool) (lo hi : List (Nat × VElem)) : s.LaneFrame (s.writeLatches x wide lo hi) := by
  unfold State.writeLatches
  split
  · exact (s.laneFrame_capture _ lo).trans (State.laneFrame_capture _ _ hi)
  · exact s.laneFrame_capture _ lo

theorem State.laneFrame_writeDst (s : State) (x : LOp) (wide : Bool) (res : List (Nat × Opd)) : s.LaneFrame (s.writeDst x wide res) := by
  rw [s.writeDst_eq x wide res rfl rfl]
  exact ((s.laneFrame_writeRegs x wide _ _).trans (State.laneFrame_writeLatches _ x wide _ _)).trans rfl

theorem State.laneFrame_writeRes (s : State) (x : LOp) (F : Form) (res : List (Nat × Opd)) : s.LaneFrame (s.writeRes x F res) := by
  unfold State.writeRes
  cases F.res with
  | vec wide => exact s.laneFrame_writeDst x wide res
  | pred | unif | none => rfl

/-- The queue of blocks at the end of a run, and the signatures of finished blocks. -/
theorem State.laneFrame_endRun (s : State) : s.LaneFrame s.endRun := by
  unfold State.endRun
  extract_lets w s1 s2
  have h1 : s.LaneFrame s1 := by
    refine s.laneFrame_onCur ?_
    cases hq : s.cur.regs.laneq with
    | nil => rfl
    | cons b bs =>
      dsimp only
      split <;> rfl
  have h2 : s1.LaneFrame s2 := rfl
  refine (h1.trans h2).trans ?_
  split <;> rfl

theorem State.laneFrame_laneNext (s : State) (last mods : Bool) : s.LaneFrame (s.laneNext last mods) := by
  unfold State.laneNext
  extract_lets s1
  have h1 : s.LaneFrame s1 := rfl
  cases last with
  | true => exact h1.trans s1.laneFrame_endRun
  | false => exact h1

/-! ### What stays of vector registers and predicates -/

theorem State.endRun_regs (s : State) : s.endRun.cur.regs.v = s.cur.regs.v ∧ s.endRun.cur.regs.p = s.cur.regs.p := by
  unfold State.endRun
  extract_lets w s1 s2
  have h : s2.cur.regs.v = s.cur.regs.v ∧ s2.cur.regs.p = s.cur.regs.p := by
    show (match s.cur.regs.laneq with | b :: bs => _ | [] => s.cur.regs : Regs).v = _ ∧ (match s.cur.regs.laneq with | b :: bs => _ | [] => s.cur.regs : Regs).p = _
    cases s.cur.regs.laneq with
    | nil => exact ⟨rfl, rfl⟩
    | cons b bs =>
      dsimp only
      split <;> exact ⟨rfl, rfl⟩
  split <;> exact h

theorem State.endRun_freads (s : State) : s.endRun.cur.freads = s.cur.freads.map fun f => { f with lat := false } := by
  unfold State.endRun
  extract_lets w s1 s2
  split <;> rfl

theorem State.laneNext_regs (s : State) (last mods : Bool) :
    (s.laneNext last mods).cur.regs.v = s.cur.regs.v ∧ (s.laneNext last mods).cur.regs.p = s.cur.regs.p := by
  unfold State.laneNext
  extract_lets s1
  cases last with
  | true => exact s1.endRun_regs
  | false => exact ⟨rfl, rfl⟩

theorem State.laneNext_freads (s : State) (last mods : Bool) :
    (s.laneNext last mods).cur.freads = s.cur.freads ∨ (s.laneNext last mods).cur.freads = s.cur.freads.map fun f => { f with lat := false } := by
  unfold State.laneNext
  extract_lets s1
  cases last with
  | true => exact .inr s1.endRun_freads
  | false => exact .inl rfl

theorem State.enterCode_regs (s : State) (op : Nat) : (s.enterCode op).cur.regs.v = s.cur.regs.v ∧ (s.enterCode op).cur.regs.p = s.cur.regs.p := by
  obtain ⟨hv, hp, -, -⟩ := Regs.mixBlock_same s.cur.regs (opEvent op)
  exact ⟨hv, hp⟩

theorem Regs.writeV_other (r : Regs) {m n : Nat} (h : n ≠ m) (res : List (Nat × VElem)) : (r.writeV m res).v[n]? = r.v[n]? :=
  List.getElem?_modify_ne _ _ (Ne.symm h)

theorem Regs.writeP_other (r : Regs) {m n : Nat} (h : n ≠ m) (res : List (Nat × Opd)) : (r.writeP m res).p[n]? = r.p[n]? :=
  List.getElem?_modify_ne _ _ (Ne.symm h)

theorem State.writeRegs_other (s : State) (x : LOp) (wide : Bool) (lo hi : List (Nat × VElem)) : (s.writeRegs x wide lo hi).cur.regs.p = s.cur.regs.p ∧
    ∀ n, n ∉ vdests x wide → (s.writeRegs x wide lo hi).cur.regs.v[n]? = s.cur.regs.v[n]? := by
  unfold State.writeRegs vdests
  split
  · exact ⟨rfl, fun _ _ => rfl⟩
  · split
    · refine ⟨rfl, fun n hn => ?_⟩
      simp only [List.mem_cons, List.not_mem_nil, or_false, not_or] at hn
      exact (Regs.writeV_other _ hn.2 hi).trans (Regs.writeV_other _ hn.1 lo)
    · refine ⟨rfl, fun n hn => Regs.writeV_other _ ?_ lo⟩
      simpa using hn

theorem State.writeLatches_regs (s : State) (x : LOp) (wide : Bool) (lo hi : List (Nat × VElem)) : (s.writeLatches x wide lo hi).cur.regs = s.cur.regs := by
  unfold State.writeLatches
  split <;> rfl

theorem State.writeRegs_freads (s : State) (x : LOp) (wide : Bool) (lo hi : List (Nat × VElem)) : (s.writeRegs x wide lo hi).cur.freads = s.cur.freads := by
  unfold State.writeRegs
  split
  · rfl
  · split <;> rfl

theorem State.writeLatches_freads (s : State) (x : LOp) (wide : Bool) (lo hi : List (Nat × VElem)) : (s.writeLatches x wide lo hi).cur.freads = s.cur.freads := by
  unfold State.writeLatches
  split <;> rfl

theorem State.writeRes_freads (s : State) (x : LOp) (F : Form) (res : List (Nat × Opd)) : (s.writeRes x F res).cur.freads = s.cur.freads := by
  unfold State.writeRes
  cases F.res with
  | vec wide =>
    dsimp only
    rw [s.writeDst_eq x wide res rfl rfl]
    exact (State.writeLatches_freads _ x wide _ _).trans (s.writeRegs_freads x wide _ _)
  | pred | unif | none => rfl

/-- A predicate result changes one predicate and no vector register (R231). -/
theorem State.writeRes_pred {s : State} {x : LOp} {F : Form} (hF : F.res = .pred) (res : List (Nat × Opd)) :
    (s.writeRes x F res).cur.regs.v = s.cur.regs.v ∧ ∀ n, n ≠ x.dst.num.toNat % 16 → (s.writeRes x F res).cur.regs.p[n]? = s.cur.regs.p[n]? := by
  unfold State.writeRes
  rw [hF]
  exact ⟨rfl, fun n hn => Regs.writeP_other s.cur.regs hn res⟩

/-- A vector result changes its destination registers and no predicate (R156). -/
theorem State.writeRes_vec {s : State} {x : LOp} {F : Form} {wide : Bool} (hF : F.res = .vec wide) (res : List (Nat × Opd)) :
    (s.writeRes x F res).cur.regs.p = s.cur.regs.p ∧ ∀ n, n ∉ vdests x wide → (s.writeRes x F res).cur.regs.v[n]? = s.cur.regs.v[n]? := by
  unfold State.writeRes
  rw [hF]
  dsimp only
  rw [s.writeDst_eq x wide res rfl rfl]
  obtain ⟨hp, hv⟩ := s.writeRegs_other x wide (res.map fun r => (r.1, r.2.lo)) (res.map fun r => (r.1, r.2.hi))
  have hregs := (s.writeRegs x wide (res.map fun r => (r.1, r.2.lo)) (res.map fun r => (r.1, r.2.hi))).writeLatches_regs x wide
    (res.map fun r => (r.1, r.2.lo)) (res.map fun r => (r.1, r.2.hi))
  exact ⟨(congrArg Regs.p hregs).trans hp, fun n hn => (congrArg (fun r : Regs => r.v[n]?) hregs).trans (hv n hn)⟩

/-! ### The frame -/

/-- Every form computes its lanes each on its own. -/
theorem exec_laneRegisterForms {s : State} {x : LOp} {i : Instr} (hi : i ∈ laneRegisterForms s x) : ∃ f, exec i s = s.laneEach x (formOf i) f := by
  unfold laneRegisterForms at hi
  rcases List.mem_append.mp hi with hi | hi
  · rcases List.mem_append.mp hi with hi | hi
    · obtain ⟨p, hp, rfl⟩ := List.mem_map.mp hi
      exact ⟨_, exec_laneIntegers x s p hp⟩
    · obtain ⟨p, hp, rfl⟩ := List.mem_map.mp hi
      exact ⟨_, exec_laneMoves x s p hp⟩
  · obtain ⟨p, hp, rfl⟩ := List.mem_map.mp hi
    exact ⟨_, exec_laneFloats x s p hp⟩

/-- A lane instruction writes its results, or a poisoned guard stops the lane stream at it (R230). -/
theorem State.laneEach_next {s t : State} {x : LOp} {F : Form} {f : LaneIn → Opd} (h : s.Fresh x F) (ht : s.laneEach x F f = .next t) :
    (∃ res, t = s.laneOut x F res) ∨ ∃ lives skip, t = s.laneStop lives skip := by
  by_cases hg : s.cur.guardPoison x.guard = 0
  · rw [State.laneEach_out f hg h] at ht
    exact .inl ⟨_, (Host.Outcome.next.inj ht).symm⟩
  · unfold State.laneEach State.guarded at ht
    rw [if_neg (by simpa using hg)] at ht
    exact .inr ⟨_, _, (Host.Outcome.next.inj ht).symm⟩

theorem State.laneFrame_laneOut (s : State) (x : LOp) (F : Form) (res : List (Nat × Opd)) : s.LaneFrame (s.laneOut x F res) :=
  ((s.laneFrame_enterCode F.op).trans (State.laneFrame_writeRes _ x F res)).trans (State.laneFrame_laneNext _ x.last x.mods.isSome)

/-- Settles O46: each step of a lane instruction that computes keeps the frame. -/
theorem laneRegisterFormsFrame : Obligations.LaneRegisterFormsFrame := by
  intro s t x i hi hf ht
  obtain ⟨f, hexec⟩ := exec_laneRegisterForms hi
  have hbyte (hframe : s.LaneFrame t) : ∀ m, t.byteAt m = s.byteAt m := by
    intro m
    rw [hframe]
    rfl
  rcases State.laneEach_next hf (hexec.symm.trans ht) with ⟨res, rfl⟩ | ⟨lives, skip, rfl⟩
  · have hframe := s.laneFrame_laneOut x (formOf i) res
    obtain ⟨hv, hp⟩ := ((s.enterCode (formOf i).op).writeRes x (formOf i) res).laneNext_regs x.last x.mods.isSome
    obtain ⟨hv0, hp0⟩ := s.enterCode_regs (formOf i).op
    refine ⟨hframe, ?_, fun hres => ?_, fun wide hres => ?_, hbyte hframe⟩
    · have hfreads := ((s.enterCode (formOf i).op).writeRes x (formOf i) res).laneNext_freads x.last x.mods.isSome
      rw [State.writeRes_freads] at hfreads
      exact hfreads
    · obtain ⟨h1, h2⟩ := State.writeRes_pred (s := s.enterCode (formOf i).op) (x := x) hres res
      exact ⟨hv.trans (h1.trans hv0), fun n hn => (congrArg (·[n]?) hp).trans ((h2 n hn).trans (congrArg (·[n]?) hp0))⟩
    · obtain ⟨h1, h2⟩ := State.writeRes_vec (s := s.enterCode (formOf i).op) (x := x) hres res
      exact ⟨hp.trans (h1.trans hp0), fun n hn => (congrArg (·[n]?) hv).trans ((h2 n hn).trans (congrArg (·[n]?) hv0))⟩
  · have hframe := s.laneFrame_laneStop lives skip
    exact ⟨hframe, .inl rfl, fun _ => ⟨rfl, fun _ _ => rfl⟩, fun _ _ => ⟨rfl, fun _ _ => rfl⟩, hbyte hframe⟩

end Sys2Proof.Machine
end

section
/-! # PROOFS. Masks, lane memory, poison and atomics: O48 to O52 -/

namespace Sys2Proof.Machine

/-! ## Mask instructions -/

section Masks

variable {s : State} {x : LOp} {m : List MaskEntry} {sv pd : BitVec 64} {n : BitVec 6} {q : LBlock} {qs : List LBlock}

/-- A condition without poison on which shadow lanes agree decides (R256, R345). -/
theorem State.masking_steady {p : Nat} (h : s.cur.condDiffers p = false ∧ s.cur.condPoison p = 0) (inv : Bool) (f : BitVec 64 → Ans) :
    s.masking p inv f = f (s.cur.condMask p inv) := by
  unfold State.masking
  dsimp only
  rw [h.1, h.2]
  rfl

/-- A mask instruction whose check holds perturbs no signature (R252). -/
theorem State.maskDone_checked {op : Nat} {act : Regs → Regs × Bool} {e : BitVec 64} {m : List MaskEntry} (hok : (act s.cur.regs).2 = true)
    (he : (act s.cur.regs).1.exm = e) (hm : (act s.cur.regs).1.mask = m) : s.maskDone x op act = .next (maskOut s x op e m) := by
  unfold State.maskDone
  generalize act s.cur.regs = r at hok he hm ⊢
  obtain ⟨r, ok⟩ := r
  subst hok he hm
  rfl

theorem exec_mif_all (hlen : s.cur.regs.mask.length < 32) (hall : x.imm.getLsbD 1 = true) :
    exec (.mif x) s = .next (maskOut s x 0x060 s.cur.regs.exm (s.cur.regs.mask ++ [⟨s.cur.regs.exm, 0⟩])) := by
  show execMif x s = _
  unfold execMif
  rw [if_neg (by omega), if_pos hall]
  exact State.maskDone_checked (by simp [Regs.mif]) rfl (by simp [Regs.mif])

/-- Of the lanes of `e` those that a condition takes and those that it leaves are all, and no lane is both. -/
theorem split_lanes (e f : BitVec 64) : (e &&& f) &&& (e &&& ~~~(e &&& f)) = 0 ∧ (e &&& f) ||| (e &&& ~~~(e &&& f)) = e ∧ e &&& ~~~(e &&& f) = e &&& ~~~f := by
  refine ⟨?_, ?_, ?_⟩ <;> ext i hi <;> simp only [BitVec.getElem_and, BitVec.getElem_or, BitVec.getElem_not, BitVec.ofNat_eq_ofNat, BitVec.getElem_zero] <;>
    cases e[i] <;> cases f[i] <;> rfl

theorem exec_mif_some (hlen : s.cur.regs.mask.length < 32) (hall : x.imm.getLsbD 1 = false)
    (hsteady : s.cur.condDiffers x.fn.toNat = false ∧ s.cur.condPoison x.fn.toNat = 0) : exec (.mif x) s = .next (maskOut s x 0x060
      (s.cur.regs.exm &&& s.cur.condMask x.fn.toNat (maskInv x))
      (s.cur.regs.mask ++ [⟨s.cur.regs.exm, s.cur.regs.exm &&& ~~~s.cur.condMask x.fn.toNat (maskInv x)⟩])) := by
  obtain ⟨hdisj, hall', hrest⟩ := split_lanes s.cur.regs.exm (s.cur.condMask x.fn.toNat (maskInv x))
  show execMif x s = _
  unfold execMif
  rw [if_neg (by omega), if_neg (ne_true_of_eq_false hall), State.masking_steady hsteady]
  refine State.maskDone_checked ?_ rfl ?_
  · show (_ && _) = true
    rw [if_neg Bool.false_ne_true, hdisj, hall']
    simp
  · rw [← hrest]
    rfl

theorem onTop_append (f : MaskEntry → MaskEntry) (m : List MaskEntry) (t : MaskEntry) : onTop f (m ++ [t]) = m ++ [f t] := by
  have hlast : (m ++ [t]).modify m.length f = m ++ [f t] := by
    induction m with
    | nil => rfl
    | cons a m ih => exact congrArg (a :: ·) ih
  unfold onTop
  rw [List.length_append, List.length_singleton, Nat.add_sub_cancel, hlast]

theorem exec_melse (hm : s.cur.regs.mask = m ++ [⟨sv, pd⟩]) (hp : pd &&& s.cur.regs.exm = 0) :
    exec (.melse x) s = .next (maskOut s x 0x061 pd (m ++ [⟨sv, s.cur.regs.exm⟩])) := by
  show execMelse x s = _
  unfold execMelse
  rw [if_neg (by simp [hm])]
  refine State.maskDone_checked ?_ ?_ ?_ <;> unfold Regs.melse <;> rw [hm]
  · simp [hp]
  · simp
  · exact onTop_append _ m _

theorem exec_mend (hm : s.cur.regs.mask = m ++ [⟨sv, pd⟩]) (hp : s.cur.regs.exm ||| pd = sv) : exec (.mend x) s = .next (maskOut s x 0x062 sv m) := by
  show execMend x s = _
  unfold execMend
  rw [if_neg (by simp [hm])]
  refine State.maskDone_checked ?_ ?_ ?_ <;> unfold Regs.mend <;> rw [hm]
  · simp [hp]
  · simp
  · simp

/-- `mget` reads what FN names where the stack has the entry (R255). -/
theorem exec_mget (h : x.fn = 0 ∨ maskK x < s.cur.regs.mask.length) : exec (.mget x) s = .next (((s.enterCode 0x063).writeU x (.ok ((match x.fn.toNat with
    | 0 => s.cur.regs.exm
    | 1 => (s.cur.regs.entryAt (maskK x)).saved
    | _ => (s.cur.regs.entryAt (maskK x)).pending) &&& s.cur.fullMask).toNat)).laneNext x.last x.mods.isSome) := by
  show execMget x s = _
  unfold execMget
  rw [if_neg (by rcases h with h | h <;> simp [h])]
  rfl

/-- `mput` with a clean source and no lane left out writes what FN names (R255). -/
theorem exec_mput (hs : x.s0 = .unif n) (hclean : (s.cur.regs.captured n).poison = false) (hskip : s.cur.skipped = 0) (h : x.fn = 0 ∨ s.cur.regs.mask ≠ []) :
    exec (.mput x) s = .next (((s.enterCode 0x064).onRegs fun r =>
      if x.fn == 0 then { r with exm := (s.cur.regs.captured n).val &&& s.cur.fullMask }
      else { r with mask := onTop (fun e => { e with pending := (s.cur.regs.captured n).val &&& s.cur.fullMask }) r.mask }).laneNext x.last x.mods.isSome) := by
  show execMput x s = _
  unfold execMput
  rw [hs]
  dsimp only
  rw [if_neg (by rcases h with h | h <;> simp [h]), if_neg (by simp [hskip]), if_neg (by simp [hclean])]
  rfl

theorem exec_mbrk (hk : maskK x < s.cur.regs.mask.length) (hsteady : s.cur.condDiffers x.fn.toNat = false ∧ s.cur.condPoison x.fn.toNat = 0)
    (hok : (s.cur.regs.mbrk (maskK x) (s.cur.condMask x.fn.toNat (maskInv x))).2 = true) : exec (.mbrk x) s = .next (maskOut s x 0x065
      (s.cur.regs.exm &&& ~~~(s.cur.regs.exm &&& s.cur.condMask x.fn.toNat (maskInv x)))
      (s.cur.regs.mbrk (maskK x) (s.cur.condMask x.fn.toNat (maskInv x))).1.mask) := by
  show execMbrk x s = _
  unfold execMbrk
  rw [if_neg (by omega), State.masking_steady hsteady]
  exact State.maskDone_checked hok rfl rfl

theorem exec_lsig_unchecked (hc : s.cur.checked = false) (last : Bool) (b : BitVec 24) : exec (.lsig last b) s = .next ((s.enterCode 0x074).laneNext last false) := by
  show execLsig last b s = _
  unfold execLsig
  dsimp only
  rw [hc]
  rfl

theorem exec_lsig_checked (hc : s.cur.checked = true) (hq : s.cur.regs.laneq = q :: qs) (last : Bool) {b : BitVec 24} (hb : q.sig.extractLsb' 0 24 = b) :
    exec (.lsig last b) s = .next (((s.onRegs fun r => { r with laneq := { q with unchecked := false } :: qs }).enterCode 0x074).laneNext last false) := by
  have hregs : (s.onRegs fun r => { r with laneq := r.laneq.modify 0 fun b => { b with unchecked := false } }) =
      s.onRegs fun r => { r with laneq := { q with unchecked := false } :: qs } :=
    congrArg (fun l => { s with cur := { s.cur with regs := { s.cur.regs with laneq := l } } }) (by rw [hq]; rfl)
  show execLsig last b s = _
  unfold execLsig
  dsimp only
  rw [hq, hc]
  dsimp only
  rw [if_neg (by simp [hb]), if_pos rfl, hregs]

end Masks

/-- Settles O48: each mask instruction and `lsig` by its lemma. -/
theorem maskInstructionsComplete : Obligations.MaskInstructionsComplete := by
  intro s x m sv pd n last b q qs r steady cond
  refine ⟨exec_mif_all, exec_mif_some, exec_melse, exec_mend, fun hfn => ?_, fun hk => ⟨fun hfn => ?_, fun hfn => ?_⟩,
    fun hs hclean hskip => ⟨fun hfn => ?_, fun hfn hm => ?_⟩, exec_mbrk, fun hc => exec_lsig_unchecked hc last b, fun hc hq hb => exec_lsig_checked hc hq last hb⟩
  case refine_1 => rw [exec_mget (.inl hfn), hfn] <;> rfl
  case refine_2 | refine_3 => rw [exec_mget (.inr hk), hfn] <;> rfl
  case refine_4 => rw [exec_mput hs hclean hskip (.inl hfn), hfn] <;> rfl
  case refine_5 => rw [exec_mput hs hclean hskip (.inr hm), hfn] <;> rfl

/-! ## Lane loads, stores and prefetches -/

theorem State.laneLoad_out {s u : State} {x : LOp} {F : Form} {body : State → LaneIn → State × Option Opd} {res : List (Nat × Opd)}
    (hg : s.cur.guardPoison x.guard = 0)
    (h : (s.enterCode F.op).eachLane x F ((s.cur.active x.guard).head?.getD 0) body (s.cur.active x.guard) = (u, res)) :
    s.laneLoad x F body = .next ((u.writeRes x F res).laneNext x.last x.mods.isSome) := by
  unfold State.laneLoad
  rw [State.guarded_clean _ hg]
  dsimp only
  rw [h]
  rfl

theorem State.laneStore_agrees {s u : State} {x : LOp} {F : Form} {body : State → LaneIn → State} {res : List (Nat × Opd)} {differs : Bool}
    (hg : s.cur.guardPoison x.guard = 0) (hd : differs = false)
    (h : (s.enterCode F.op).eachLane x F ((s.cur.active x.guard).head?.getD 0) (fun s l => (body s l, none))
      ((s.cur.active x.guard).filter fun i => decide (i < s.cur.laneW)) = (u, res)) :
    s.laneStore x F differs body = .next (u.laneNext x.last x.mods.isSome) := by
  subst hd
  unfold State.laneStore
  rw [State.guarded_clean _ hg, if_neg Bool.false_ne_true]
  dsimp only
  rw [h]
  rfl

/-- Shadow lanes that disagree are a mismatch (R280, R345). -/
theorem State.laneStore_differs {s : State} {x : LOp} {F : Form} {body : State → LaneIn → State} {differs : Bool} (hg : s.cur.guardPoison x.guard = 0)
    (hd : differs = true) : s.laneStore x F differs body = .next (s.mismatch s.cur.lpc) := by
  subst hd
  unfold State.laneStore
  rw [State.guarded_clean _ hg, if_pos rfl]

theorem exec_laneLoads (s : State) (x : LOp) : ∀ p ∈ laneLoads s x, exec p.1 s = s.laneLoad x (formOf p.1) p.2 := by
  simp only [laneLoads, List.forall_mem_cons, List.not_mem_nil, IsEmpty.forall_iff, implies_true, and_true]
  and_intros <;> rfl

theorem exec_laneStores (s : State) (x : LOp) : ∀ p ∈ laneStores s x, exec p.1 s = s.laneStore x (formOf p.1) p.2.1 p.2.2 := by
  simp only [laneStores, List.forall_mem_cons, List.not_mem_nil, IsEmpty.forall_iff, implies_true, and_true]
  and_intros <;> rfl

theorem exec_pref (s : State) (x : LOp) : exec (.pref x) s = execPref x s := rfl

/-- Settles O49: loads, stores and prefetches by the shapes of their execution. -/
theorem laneMemoryInstructionsComplete : Obligations.LaneMemoryInstructionsComplete := by
  intro s u x res hg act first
  refine ⟨fun p hp h => (exec_laneLoads s x p hp).trans (State.laneLoad_out hg h),
    fun p hp => ⟨fun hd h => (exec_laneStores s x p hp).trans (State.laneStore_agrees hg hd h), fun hd => (exec_laneStores s x p hp).trans (State.laneStore_differs hg hd)⟩, ?_⟩
  rw [exec_pref, execPref, State.guarded_clean _ hg] <;> rfl

/-! ## What one lane of a load, a store or a reduction does -/

theorem LaneIn.token_clean {l : LaneIn} (ha : l.a.tok = none) (hb : l.b.tok = none) (hc : l.c.tok = none) : l.token = none := by
  rw [LaneIn.token, ha, hb, hc]; rfl

theorem LaneIn.addrToken_clean {l : LaneIn} {x : LOp} (ha : l.a.tok = none) (hb : l.b.tok = none) : l.addrToken x = none := by
  rw [LaneIn.addrToken, ha, hb]; rfl

theorem State.lanePoison_eq (s : State) (c : Cause) (a : Nat) (l : LaneIn) : s.lanePoison c a l.lane = lanePoisons s c a l := rfl

theorem memoryLanes_holds : memoryLanes := by
  intro s u x l bs c id vc k ha hb
  refine ⟨fun hc => ⟨fun h => ?bytes, fun h => ?bad, fun h => ?remote, fun h => ?stored, fun h => ?failed⟩, fun hc => ?poisoned⟩
  case bytes => simp only [State.ldLane, LaneIn.token_clean ha hb hc, h]
  case bad => simp only [State.ldLane, LaneIn.token_clean ha hb hc, h, State.lanePoison_eq]
  case remote => simp only [State.ldLane, LaneIn.token_clean ha hb hc, h]
  case stored =>
    have heq : State.stLane x s l = u.quarantine (storeEntry u id (ea64 l.a.val l.b.val) vc (Machine.sizeOf x) l) := by
      simp only [State.stLane, LaneIn.addrToken_clean ha hb, hc, h, storeEntry]
    exact ⟨heq, fun m => by rw [heq, State.byteAt_quarantine]⟩
  case failed => simp only [State.stLane, LaneIn.addrToken_clean ha hb, hc, h, State.lanePoison_eq]
  case poisoned => simp only [State.stLane, LaneIn.addrToken_clean ha hb, hc, carried]

/-- What a transposing fragment gives from what its rows give (R271). -/
def State.fragResult (x : LOp) (l : LaneIn) (r : State × Except Miss (List Nat)) : State × Option Opd :=
  match r with
  | (s, .ok vs) => (s, some (.ok (Num.packElems x.ty vs)))
  | (s, .error m) => let (s, t) := s.scratchMiss m (ea32 l.a.val l.b.val) l.lane; (s, some (.bad t))

/-- A fragment that stands in place within the scratch reads its rows. -/
theorem State.ldsxLane_rows {s : State} {x : LOp} {l : LaneIn} (ha : l.a.tok = none) (hb : l.b.tok = none) (hc : l.c.tok = none)
    (hal : ¬(x.ty.bits = 16 ∧ ea32 l.a.val l.b.val % 2 ≠ 0))
    (hin : ea32 l.a.val l.b.val + 128 * (32 / x.ty.bits - 1) + x.ty.bits / 8 ≤ s.team.scrSize) :
    State.ldsxLane x s l = State.fragResult x l (s.fragRows (ea32 l.a.val l.b.val) x.ty.bits 0 (32 / x.ty.bits)) := by
  have heven : (x.ty.bits == 16 && ea32 l.a.val l.b.val % 2 != 0) = false := by simpa using hal
  unfold State.ldsxLane
  rw [LaneIn.token_clean ha hb hc]
  dsimp only
  rw [heven, if_neg Bool.false_ne_true, if_neg (Nat.not_lt.mpr hin)]
  rfl

theorem scratchLanes_holds : scratchLanes := by
  intro s u x l bs c k vs ha hb
  refine ⟨fun hc => ⟨fun hal h => ?bytes, fun hal h => ?word, fun h => ?cause, fun hal h => ?stored, fun hu h => ?failed,
    fun hal hin => ⟨fun h => ?rows, fun h => ?rowWord, fun h => ?rowCause⟩, fun hu h => ?fragment⟩, fun hc => ?poisoned⟩
  case bytes => simp [State.ldsLane, LaneIn.token_clean ha hb hc, hal, h]
  case word => simp [State.ldsLane, LaneIn.token_clean ha hb hc, hal, h, State.scratchMiss, State.lanePoison_eq]
  case cause =>
    rcases h with ⟨hal, h⟩ | ⟨hal, rfl, rfl⟩
    · simp [State.ldsLane, LaneIn.token_clean ha hb hc, hal, h, State.scratchMiss, State.lanePoison_eq]
    · simp [State.ldsLane, LaneIn.token_clean ha hb hc, hal, State.scratchMiss, State.lanePoison_eq]
  case stored =>
    have heq : State.stsLane x s l =
        s.quarantine (storeEntry s (.scr s.team.key (ea32 l.a.val l.b.val / 128)) (ea32 l.a.val l.b.val) 0 (Machine.sizeOf x) l) := by
      simp [State.stsLane, LaneIn.addrToken_clean ha hb, hc, hal, h, storeEntry]
    exact ⟨heq, fun m => by rw [heq, State.byteAt_quarantine]⟩
  case failed =>
    subst hu
    rcases h with ⟨hal, rfl⟩ | ⟨hal, h⟩
    · simp [State.stsLane, LaneIn.addrToken_clean ha hb, hc, hal, State.lanePoison_eq]
    · simp [State.stsLane, LaneIn.addrToken_clean ha hb, hc, hal, h, State.lanePoison_eq]
  case rows => exact (State.ldsxLane_rows ha hb hc hal hin).trans (congrArg (State.fragResult x l) h)
  case rowWord => exact (State.ldsxLane_rows ha hb hc hal hin).trans (congrArg (State.fragResult x l) h)
  case rowCause => exact (State.ldsxLane_rows ha hb hc hal hin).trans (congrArg (State.fragResult x l) h)
  case fragment =>
    subst hu
    rcases h with ⟨hw, hal, rfl⟩ | ⟨hal, hin, rfl⟩
    · have hodd : (x.ty.bits == 16 && ea32 l.a.val l.b.val % 2 != 0) = true := by simpa [hw] using hal
      simp only [State.ldsxLane, LaneIn.token_clean ha hb hc, hodd, if_true, State.scratchMiss, State.lanePoison_eq]
    · have heven : (x.ty.bits == 16 && ea32 l.a.val l.b.val % 2 != 0) = false := by simpa using hal
      simp only [State.ldsxLane, LaneIn.token_clean ha hb hc, heven, Bool.false_eq_true, if_false, if_pos (Nat.lt_of_not_le hin),
        State.scratchMiss, State.lanePoison_eq]
  case poisoned => simp only [State.stsLane, LaneIn.addrToken_clean ha hb, hc, carried]

theorem fragmentRows_holds : fragmentRows := by
  intro s u v sa w j n bs vs m r
  refine ⟨rfl, fun hl hr => ?_, fun hl hr => ?_, fun hl hr => ?_⟩ <;> simp only [State.fragRows, hl, hr]

/-- L is a multiple of 128 that the half's lowest clean lane fixes, and a lane stands in its place in that line (R278). -/
theorem lineMisfit_eq {as : List (Nat × Nat)} {i j a ea : Nat} (h : as.find? (fun q => q.1 / 32 == i / 32) = some (j, a)) (hj : 4 * (j % 32) ≤ a)
    (ha : a < 2 ^ 64 - 128) : lineMisfit as i ea = !decide ((a - 4 * (j % 32)) % 128 = 0 ∧ ea = a - 4 * (j % 32) + 4 * (i % 32)) := by
  have hL : (a + 2 ^ 64 - 4 * (j % 32)) % 2 ^ 64 = a - 4 * (j % 32) := by omega
  have hplace : (a - 4 * (j % 32) + 4 * (i % 32)) % 2 ^ 64 = a - 4 * (j % 32) + 4 * (i % 32) := by omega
  simp only [lineMisfit, h, hL, hplace]
  by_cases h128 : (a - 4 * (j % 32)) % 128 = 0 <;> by_cases hea : ea = a - 4 * (j % 32) + 4 * (i % 32) <;> simp [h128, hea]

theorem reductionLanes_holds : reductionLanes := by
  intro s u x misfit l c id vc ha hb
  refine ⟨fun hm h => ?merged, fun h => ?failed, fun hal h => ?scratch, fun hu h => ?scratchFailed, fun as j a i => lineMisfit_eq⟩
  case merged =>
    have heq : State.redLane x misfit s l = u.quarantine (redEntry u id l.a.val vc x l) := by
      simp [State.redLane, LaneIn.addrToken_clean ha hb, hm, h, redEntry]
    exact ⟨heq, fun m => by rw [heq, State.byteAt_quarantine]⟩
  case failed =>
    rcases h with ⟨hm, h⟩ | ⟨hm, rfl, rfl⟩
    · simp [State.redLane, LaneIn.addrToken_clean ha hb, hm, h, State.lanePoison_eq, State.goLive]
    · simp [State.redLane, LaneIn.addrToken_clean ha hb, hm, State.lanePoison_eq, State.goLive]
  case scratch =>
    have heq : State.redsLane x s l = s.quarantine (redEntry s (.scr s.team.key (l.a.val / 128)) l.a.val 0 x l) := by
      simp [State.redsLane, LaneIn.addrToken_clean ha hb, hal, h, redEntry]
    exact ⟨heq, fun m => by rw [heq, State.byteAt_quarantine]⟩
  case scratchFailed =>
    subst hu
    rcases h with ⟨hal, rfl⟩ | ⟨hal, h⟩
    · simp [State.redsLane, LaneIn.addrToken_clean ha hb, hal, State.lanePoison_eq, State.goLive]
    · simp [State.redsLane, LaneIn.addrToken_clean ha hb, hal, h, State.lanePoison_eq, State.goLive]

/-- An element whose handle and indices resolve (R52, R273). -/
theorem shardLanes_holds : shardLanes := by
  intro s u v x first l os va e bs c k src p
  dsimp only
  refine ⟨fun hat hchip => ⟨fun hfit => ⟨fun hn h => ?here, fun hn h => ?hereBad, fun hn hr => ?remote, fun hn hr hv hc => ?unreachable,
    fun hc hos h => ?stored, fun hc hos h => ?failed, fun hc hos hv => ?away⟩, fun hfit hv hcause => ⟨?loadMisfit, fun hc => ?storeMisfit⟩,
    fun hc => ?poisoned⟩, fun h => ⟨?loadCause, ?storeCause⟩, fun h => ⟨?loadToken, ?storeToken⟩⟩
  case here => simp only [State.ldxLane, hat, shardMisfit, Shard.elemBytes, hfit, hn, h]; simp
  case hereBad => simp only [State.ldxLane, hat, shardMisfit, Shard.elemBytes, hfit, hn, h, State.lanePoison_eq]; simp
  case remote => simp [State.ldxLane, hat, shardMisfit, Shard.elemBytes, hfit, hn, hr]
  case unreachable => subst hv hc; simp [State.ldxLane, hat, shardMisfit, Shard.elemBytes, hfit, hn, hr, State.lanePoison_eq]
  case stored => simp only [State.stxLane, hat, hc, hchip, shardMisfit, Shard.elemBytes, hfit, hos, h]; simp
  case failed =>
    simp only [State.stxLane, hat, hc, hchip, shardMisfit, Shard.elemBytes, hfit, hos, h, State.lanePoison_eq, State.poisonShard]; simp
  case away => subst hv; simp only [State.stxLane, hat, hc, hchip, shardMisfit, Shard.elemBytes, hfit, hos]; simp
  case loadMisfit => subst hv hcause; simp only [State.ldxLane, hat, shardMisfit, Shard.elemBytes, hfit, State.lanePoison_eq]; simp
  case storeMisfit => subst hv hcause; simp only [State.stxLane, hat, hc, hchip, shardMisfit, Shard.elemBytes, hfit, State.lanePoison_eq]; simp
  case poisoned => simp only [State.stxLane, hat, hc, hchip, carried]
  case loadCause => simp only [State.ldxLane, h, State.lanePoison_eq]
  case storeCause => simp only [State.stxLane, h, State.lanePoison_eq, State.goLive]
  case loadToken => simp only [State.ldxLane, h]
  case storeToken => simp only [State.stxLane, h, State.liveLane, State.goLive, carried]

/-- Settles O50: a lane whose address is clean does what its access answers; the quarantine takes a store and memory keeps its bytes. -/
theorem laneAccesses : Obligations.LaneAccesses :=
  ⟨memoryLanes_holds, scratchLanes_holds, fragmentRows_holds, reductionLanes_holds, shardLanes_holds⟩

/-! ## Crumbs -/

/-- The words of a crumb record (R334). -/
theorem CrumbInfo.bytes_words (i : CrumbInfo) :
    leNat (i.bytes.take 8) = i.cause.toNat + (i.lane % 64) <<< 8 + b2n i.ctrl <<< 14 + (i.grp % 64) <<< 16 + (i.team % 4096) <<< 22 + (i.lpc % 2 ^ 20) <<< 34 ∧
    leNat ((i.bytes.drop 8).take 8) = i.gang % 2 ^ 32 + (i.cpcw % 2 ^ 24) <<< 32 ∧
    leNat ((i.bytes.drop 16).take 8) = i.va % 2 ^ 64 ∧ leNat (i.bytes.drop 24) = i.ltime % 2 ^ 64 := by
  have hb := b2n_le i.ctrl
  have hc := i.cause.isLt
  simp only [CrumbInfo.bytes, List.append_assoc]
  refine ⟨?_, ?_, ?_, ?_⟩
  · rw [List.take_left' (toBytes_length _ _), leNat_toBytes]
    simp only [Nat.shiftLeft_eq]
    omega
  · rw [List.drop_left' (toBytes_length _ _), List.take_left' (toBytes_length _ _), leNat_toBytes]
    simp only [Nat.shiftLeft_eq]
    omega
  · rw [show (16 : Nat) = 8 + 8 from rfl, ← List.drop_drop, List.drop_left' (toBytes_length _ _), List.drop_left' (toBytes_length _ _),
      List.take_left' (toBytes_length _ _), leNat_toBytes]
    omega
  · rw [show (24 : Nat) = 8 + (8 + 8) from rfl, ← List.drop_drop, ← List.drop_drop, List.drop_left' (toBytes_length _ _),
      List.drop_left' (toBytes_length _ _), List.drop_left' (toBytes_length _ _), leNat_toBytes]
    omega

theorem CrumbInfo.bytes_length (i : CrumbInfo) : i.bytes.length = 32 := by simp [CrumbInfo.bytes]

/-- Each field of the first word stands at its place, and the bits between are 0. -/
theorem crumbWord_fields {cause lane grp team lpc : Nat} (ctrl : Bool) (hc : cause < 256) (hl : lane < 64) (hg : grp < 64) (ht : team < 4096)
    (hp : lpc < 2 ^ 20) :
    let w := cause + lane <<< 8 + b2n ctrl <<< 14 + grp <<< 16 + team <<< 22 + lpc <<< 34
    bits w 0 8 = cause ∧ bits w 8 6 = lane ∧ bits w 14 1 = b2n ctrl ∧ bits w 16 6 = grp ∧ bits w 22 12 = team ∧ bits w 34 20 = lpc ∧
      bits w 15 1 = 0 ∧ bits w 54 10 = 0 := by
  have hb := b2n_le ctrl
  simp only [bits, Nat.shiftLeft_eq, Nat.shiftRight_eq_div_pow]
  refine ⟨?_, ?_, ?_, ?_, ?_, ?_, ?_, ?_⟩ <;> omega

/-- Where a crumb is written, by what its table's header answers (R333, R334). -/
theorem State.makeCrumb_cases (s t : State) (base : BitVec 64) (own core : Option Nat) (i : CrumbInfo) (hd : List Byte) (x : Option (BitVec 32))
    (h : s.peekBytes (crumbTable base) 16 = (t, hd, x)) :
    (x.isSome = true → s.makeCrumb base own core i = (t.emit (.note 1 i.cause.toNat), bareToken i.cause)) ∧
    (x = none → crumbEntries base ≤ leNat (hd.take 3) → s.makeCrumb base own core i =
      ((t.ownBytes own core (crumbTable base + 8) (toBytes 8 ((leNat (hd.drop 8) + 1) % 2 ^ 64))).1, bareToken i.cause)) ∧
    (x = none → leNat (hd.take 3) < crumbEntries base → s.makeCrumb base own core i =
      (((t.ownBytes own core (crumbTable base) (toBytes 3 (leNat (hd.take 3) + 1))).1.ownBytes own core
        (crumbTable base + 32 * leNat (hd.take 3)) i.bytes).1, i.cause ++ BitVec.ofNat 24 (leNat (hd.take 3)))) := by
  unfold State.makeCrumb
  dsimp only
  rw [h]
  refine ⟨fun hx => ?_, fun hx hfull => ?_, fun hx hroom => ?_⟩
  · obtain ⟨k, rfl⟩ := Option.isSome_iff_exists.mp hx
    rfl
  · subst hx
    exact if_pos hfull
  · subst hx
    exact if_neg (Nat.not_le.mpr hroom)

theorem crumbRecords_holds : crumbRecords := by
  refine ⟨fun s t base own core i hd x h => State.makeCrumb_cases s t base own core i hd x h, fun i => ?record, fun s c va lane lpc ctrl => ⟨rfl, rfl⟩⟩
  case record =>
    obtain ⟨h0, h1, h2, h3⟩ := i.bytes_words
    obtain ⟨f1, f2, f3, f4, f5, f6, f7, f8⟩ := crumbWord_fields (cause := i.cause.toNat) (lane := i.lane % 64) (grp := i.grp % 64)
      (team := i.team % 4096) (lpc := i.lpc % 2 ^ 20) i.ctrl i.cause.isLt (Nat.mod_lt _ (by decide)) (Nat.mod_lt _ (by decide))
      (Nat.mod_lt _ (by decide)) (Nat.mod_lt _ (by decide))
    refine ⟨i.bytes_length, ?_, h2, h3⟩
    dsimp only
    rw [h0, h1]
    refine ⟨f1, f2, f3, f4, f5, f6, f7, f8, ?_⟩
    simp only [bits, Nat.shiftLeft_eq, Nat.shiftRight_eq_div_pow]
    omega

/-! ## Poisoned guards -/

/-- A guard that is poisoned in a lane of EXM stops the stream at its instruction, with that lane's token live (R230). -/
theorem State.guarded_poisoned {s : State} {q : Option Guard} (f : Ans) (h : s.cur.guardPoison q ≠ 0) :
    s.guarded q f = .next (s.laneStop (s.cur.livesOf (s.cur.guardPoison q) ((q.map fun q => (s.cur.regs.pred q.p.toNat).token).getD 0)) (s.cur.guardPoison q)) :=
  if_neg (by simpa using h)

theorem State.laneEach_guarded (s : State) (x : LOp) (F : Form) (f : LaneIn → Opd) : ∃ a, s.laneEach x F f = s.guarded x.guard a := ⟨_, rfl⟩

theorem State.laneGroup_guarded (s : State) (x : LOp) (F : Form) (f : Group → Nat → List LaneIn → List (Nat × Opd)) :
    ∃ a, s.laneGroup x F f = s.guarded x.guard a := ⟨_, rfl⟩

theorem State.exchange_guarded (s : State) (x : LOp) (F : Form) (pick : Nat → Nat → Nat → Option Nat) :
    ∃ a, s.exchange x F pick = s.guarded x.guard a := by
  unfold State.exchange
  exact State.laneGroup_guarded s x F _

theorem State.laneQuant_guarded (s : State) (x : LOp) (F : Form) (f : Num.QBlock → Nat → LaneIn → Opd) :
    ∃ a, s.laneQuant x F f = s.guarded x.guard a := by
  unfold State.laneQuant
  exact State.laneGroup_guarded s x F _

theorem State.laneUni_guarded (s : State) (x : LOp) (F : Form) (f : Group → Nat → List LaneIn → Opd) : ∃ a, s.laneUni x F f = s.guarded x.guard a := ⟨_, rfl⟩

theorem State.laneLoad_guarded (s : State) (x : LOp) (F : Form) (body : State → LaneIn → State × Option Opd) :
    ∃ a, s.laneLoad x F body = s.guarded x.guard a := ⟨_, rfl⟩

theorem State.laneStore_guarded (s : State) (x : LOp) (F : Form) (differs : Bool) (body : State → LaneIn → State) :
    ∃ a, s.laneStore x F differs body = s.guarded x.guard a := ⟨_, rfl⟩

theorem State.atomic_guarded (s : State) (x : LOp) (F : Form) (scratch : Bool) : ∃ a, s.atomic x F scratch = s.guarded x.guard a := ⟨_, rfl⟩

theorem exec_atom (x : LOp) (s : State) : exec (.atom x) s = s.atomic x (formOf (.atom x)) false := rfl

theorem exec_atoms (x : LOp) (s : State) : exec (.atoms x) s = s.atomic x (formOf (.atoms x)) true := rfl

/-- The exchanges and the instructions over the lanes of a half are guarded. -/
theorem exec_crossLanes_guarded (s : State) (x : LOp) : ∀ i ∈ (crossLanes s x).map Prod.fst, ∃ a, exec i s = s.guarded x.guard a := by
  simp only [crossLanes, List.map_cons, List.map_nil, List.forall_mem_cons, List.not_mem_nil, IsEmpty.forall_iff, implies_true, and_true]
  refine ⟨?_, ?_, ?_, ?_, ?_, ?_, ?_⟩
  · rw [exec_xchi, execXchi]; exact State.exchange_guarded s x _ _
  · rw [exec_xchu, execXchu]; exact State.exchange_guarded s x _ _
  · rw [exec_xchd, execXchd]; exact State.exchange_guarded s x _ _
  · rw [exec_xchx, execXchx]; exact State.exchange_guarded s x _ _
  · rw [exec_matchl, execMatchl]; exact State.laneGroup_guarded s x _ _
  · rw [exec_scan, execScan]; exact State.laneGroup_guarded s x _ _
  · rw [exec_first, execFirst]; exact State.laneGroup_guarded s x _ _

theorem exec_cvt_guarded (s : State) (x : LOp) : ∃ a, exec (.cvt x) s = s.guarded x.guard a := by
  rw [exec_cvt]
  unfold execCvt
  split
  · exact State.laneQuant_guarded s x _ _
  · exact State.laneEach_guarded s x _ _

/-- Every lane instruction that a guard can hold back acts under its guard. -/
theorem exec_guardedForms {s : State} {x : LOp} {i : Instr} (hi : i ∈ guardedForms s x) : ∃ a, exec i s = s.guarded x.guard a := by
  simp only [guardedForms, List.mem_append, List.mem_cons, List.not_mem_nil, or_false] at hi
  rcases hi with (((hi | hi) | hi) | hi) | rfl | rfl | rfl | rfl | rfl | rfl | rfl | rfl
  · obtain ⟨f, h⟩ := exec_laneRegisterForms hi
    rw [h]
    exact State.laneEach_guarded s x _ f
  · exact exec_crossLanes_guarded s x i hi
  · obtain ⟨p, hp, rfl⟩ := List.mem_map.mp hi
    rw [exec_laneLoads s x p hp]
    exact State.laneLoad_guarded s x _ _
  · obtain ⟨p, hp, rfl⟩ := List.mem_map.mp hi
    rw [exec_laneStores s x p hp]
    exact State.laneStore_guarded s x _ _ _
  · exact exec_cvt_guarded s x
  · rw [exec_qblk, execQblk]; exact State.laneQuant_guarded s x _ _
  · rw [exec_vote, execVote]; exact State.laneUni_guarded s x _ _
  · rw [exec_gred, execGred]; exact State.laneUni_guarded s x _ _
  · rw [exec_laneStores s x (.stx x, _) (List.mem_cons_of_mem _ (List.mem_cons_of_mem _ (List.mem_cons_self ..)))]
    exact State.laneStore_guarded s x _ _ _
  · rw [exec_pref, execPref]; exact ⟨_, rfl⟩
  · rw [exec_atom]; exact State.atomic_guarded s x _ _
  · rw [exec_atoms]; exact State.atomic_guarded s x _ _

/-- Each lane on its own with whatever its operands are, an invalid latch among them (R139, R228). -/
theorem State.laneMap_clean {s : State} {x : LOp} {F : Form} (f : Nat → Nat → Nat → Nat) (h : s.cur.guardPoison x.guard = 0) :
    s.laneMap x F f = .next ((((s.enterCode F.op).operands x F).1.writeRes x F
      (((s.enterCode F.op).operands x F).2.map fun l => (l.lane, l.map f))).laneNext x.last x.mods.isSome) := by
  unfold State.laneMap State.laneEach
  rw [State.guarded_clean _ h]
  rfl

/-- Settles O51: every guarded form is `State.guarded` of its action; a crumb's record is read back word by word. -/
theorem poisonedGuardsAndInvalidLatches : Obligations.PoisonedGuardsAndInvalidLatches := by
  refine ⟨crumbRecords_holds, fun s x => ⟨fun hbad i hi => ?_, fun i => rfl, fun hbad p hp => ?_⟩⟩
  · obtain ⟨a, h⟩ := exec_guardedForms hi
    rw [h, State.guarded_poisoned a hbad]
  · have h : exec (p.1 x) s = s.laneMap x (formOf (p.1 x)) (p.2 x) := by
      rcases List.mem_append.mp hp with hp | hp
      · exact exec_laneIntegers x s p hp
      · exact exec_laneFloats x s p hp
    rw [h]
    exact State.laneMap_clean _ hbad

/-! ## Atomics -/

theorem State.onChunk_same {c : State} {f : Chunk → Chunk} (h : f c.cur.chunk = c.cur.chunk) : c.onChunk f = c := by
  unfold State.onChunk
  rw [h]

/-- A chunk without live poison and without a poisoned entry has nothing to leave out (R275). -/
theorem State.onChunk_clean {c : State} (h : atomReady c) :
    (c.onChunk fun k => { k with live := [], quar := k.quar.filter fun q => q.poison.isNone }) = c := by
  obtain ⟨hlive, hquar⟩ := h
  have hq : c.cur.chunk.quar.filter (fun q => q.poison.isNone) = c.cur.chunk.quar :=
    List.filter_eq_self.mpr fun q hq => by rw [hquar q hq]; rfl
  exact State.onChunk_same (by rw [hq, ← hlive])

theorem poisonedLines_clean {c : State} (h : atomReady c) : (c.cur.chunk.quar.filter fun q => q.poison.isSome).map QEntry.line = [] := by
  rw [List.map_eq_nil_iff, List.filter_eq_nil_iff]
  intro q hq
  rw [h.2 q hq]
  exact Bool.false_ne_true

theorem exec_atomics (s : State) (x : LOp) : ∀ p ∈ ([(.atom x, false), (.atoms x, true)] : List (Instr × Bool)),
    exec p.1 s = s.atomic x (formOf p.1) p.2 := by
  simp only [List.forall_mem_cons, List.not_mem_nil, IsEmpty.forall_iff, implies_true, and_true]
  exact ⟨exec_atom x s, exec_atoms x s⟩

/-- What an atomic whose chunk is admitted does: the lines are folded, the lanes applied at one time, and its chunk commits (R275). -/
def State.atomicActs (c : State) (x : LOp) (F : Form) (as : List AtomLane) : Ans :=
  let e := c.settleChunk
  let t := maxNat ([e.pts e.cur.core + 1] ++ e.cur.chunk.quar.map fun q => (e.idTimes q.line).2 + 1)
  let (u, res) := e.atomAll x t as
  let both := if u.cur.shadow then res ++ res.map (fun r => (32 + r.1, r.2)) else res
  .next ((((if as.isEmpty then u else u.raisePts e.cur.core t).writeDst x x.ty.wide both).enterCode F.op).laneNext x.last x.mods.isSome).committed

section
variable {s c : State} {x : LOp} {F : Form} {scratch : Bool} {as : List AtomLane} (hg : s.cur.guardPoison x.guard = 0)
  (hpair : s.cur.pairDiffers x F none = false)
include hg hpair

theorem State.atomic_unchecked (h : s.cur.anyUnchecked = true) : s.atomic x F scratch = .next (s.sigGap.laneStop [] 0) := by
  unfold State.atomic
  rw [State.guarded_clean _ hg, hpair, h]
  rfl

/-- An atomic whose checks left nothing poisoned waits at its arbiters or acts. -/
theorem State.atomic_checked (hu : s.cur.anyUnchecked = false)
    (hchk : s.retract.atomChecks x F scratch ((s.cur.active x.guard).head?.getD 0) ((s.cur.active x.guard).filter fun i => decide (i < s.cur.laneW)) = (c, as))
    (hready : atomReady c) :
    s.atomic x F scratch = if !c.admitted s.cur.chunk && c.mustWait then
      .next (s.onChunk fun k => { k with quar := c.cur.chunk.quar }).queueCommit.laneWaits else c.atomicActs x F as := by
  unfold State.atomic
  rw [State.guarded_clean _ hg, hpair, hu, if_neg Bool.false_ne_true, if_neg Bool.false_ne_true]
  dsimp only
  rw [hchk]
  dsimp only
  rw [hready.1, poisonedLines_clean hready, State.onChunk_clean hready]
  have hall : (as.filter fun a => !([] : List LineId).contains a.line) = as := List.filter_eq_self.mpr fun _ _ => rfl
  rw [hall]
  exact if_neg Bool.false_ne_true

end

/-- An atomic in memory reads its word, writes the operation's result and gives the old value (R275, R276). -/
theorem State.atomApply_mem {s u : State} {x : LOp} {a : AtomLane} {l time : Nat} {cp : LineSt} (ha : a.line = .mem l)
    (h : (s.countRmw l a.vc).rmwRead l a.vc = (u, cp)) (hx : cp.x = none) :
    let old := memNat cp.data (a.ea % 128) (tyBytes x.ty)
    let v := u.writePlace l a.vc (cellsAt (a.ea % 128) (toBytes (tyBytes x.ty) (atomOp x.fn.toNat x.ty old a.s1 a.s2))) none time
    (∀ q, v.cur.chunk.entry? (.mem l) = some q → s.atomApply x a time = (v.ownCopy q l time, some (.ok old))) ∧
    (v.cur.chunk.entry? (.mem l) = none → s.atomApply x a time = (v, some (.ok old))) := by
  refine ⟨fun q hq => ?_, fun hq => ?_⟩ <;> simp only [State.atomApply, ha, h, hx, hq]

/-- Settles O52: after checks that left nothing poisoned an atomic waits at its arbiters or acts and commits. -/
theorem atomicsComplete : Obligations.AtomicsComplete := by
  intro s c u x as res a l time cp
  refine ⟨fun hg p hp hpair => ⟨fun hu => ?unchecked, fun hu hchk hready => ⟨fun hadm hwait => ?waits, fun hadm => ?acts⟩⟩, fun ha h hx => ?applied⟩
  case unchecked => exact (exec_atomics s x p hp).trans (State.atomic_unchecked hg hpair hu)
  case waits =>
    have hcond : (!c.admitted s.cur.chunk && c.mustWait) = true := by
      rw [show c.admitted s.cur.chunk = false from hadm, hwait]; rfl
    exact ((exec_atomics s x p hp).trans (State.atomic_checked hg hpair hu hchk hready)).trans (if_pos hcond)
  case acts =>
    have hcond : ¬(!c.admitted s.cur.chunk && c.mustWait) = true := by
      rcases hadm with hadm | hwait
      · rw [show c.admitted s.cur.chunk = true from hadm]; exact Bool.false_ne_true
      · rw [hwait, Bool.and_false]; exact Bool.false_ne_true
    intro e t hall both
    refine ((exec_atomics s x p hp).trans (State.atomic_checked hg hpair hu hchk hready)).trans ((if_neg hcond).trans ?_)
    unfold State.atomicActs
    dsimp only
    rw [show c.settleChunk.atomAll x _ as = (u, res) from hall] <;> rfl
  case applied =>
    obtain ⟨hsome, hnone⟩ := State.atomApply_mem (x := x) (time := time) ha h hx
    dsimp only
    split
    next q hq => exact hsome q hq
    next hq => exact hnone hq

end Sys2Proof.Machine
end

section
/-! # PROOFS. Steps: what goes on, fixed words, reset: O53, O54, O57, O60 -/

namespace Sys2Proof.Machine

/-! ## A step of a control stream -/

/-- A group that runs, with a `nop` at its PC, whose control stream has not issued yet. -/
def unissued : State := State.reset.withFetchWord 32 0x02000000

/-- That state in its turn. -/
def unissuedNext : State := { unissued with rr := unissued.rr + 1, engHeld := false }

/-- The number of the group whose control stream issued last, in the state of a turn's instruction. -/
def Turn.lastCtl : Turn → Option Nat
  | .instr _ _ t => some t.lastCtl
  | _ => none

/-- The turn notes the group whose control stream issues (R405). -/
theorem unissued_turn : unissued.turn.lastCtl = some 2 := by decide +kernel

theorem unissued_word : (unissuedNext.fetchControl unissued.cur.regs.cpc).2.toOption = some 0x02000000#32 := by decide +kernel

theorem unissued_fetch_lastCtl : (unissuedNext.fetchControl unissued.cur.regs.cpc).1.beginChunk.lastCtl = 0 := by decide +kernel

theorem unissued_ready : unissuedNext.controlReady unissued.cur = true := by decide +kernel

/-- Refutes O53: where the control stream of another group issued last, or none has, the turn notes the group that issues now in `lastCtl`
(R405); the statement leaves that number as it was. -/
theorem not_stepRunsTheFetchedInstruction : ¬ Obligations.StepRunsTheFetchedInstruction := by
  intro h
  obtain ⟨_, _, _, hctl⟩ := h unissued (unissuedNext.fetchControl unissued.cur.regs.cpc).1 .nop [] 0x02000000 0 0 0 .control default
  obtain ⟨_, hfetch⟩ := hctl rfl (by decide +kernel) rfl
  obtain ⟨hnop, _⟩ := hfetch rfl rfl rfl unissued_ready
  have hword : unissuedNext.fetchControl unissued.cur.regs.cpc = ((unissuedNext.fetchControl unissued.cur.regs.cpc).1, .ok 0x02000000#32) := by
    have hw := unissued_word
    cases hr : unissuedNext.fetchControl unissued.cur.regs.cpc with
    | mk u r => cases r with
      | error c => rw [hr] at hw; exact absurd hw (by simp [Except.toOption])
      | ok w => rw [hr] at hw; rw [Option.some.inj hw]
  have hturn := congrArg Turn.lastCtl (hnop hword rfl)
  rw [unissued_turn] at hturn
  exact absurd (Option.some.inj hturn) (by rw [unissued_fetch_lastCtl]; decide)

/-! ## Fixed words, and the state after reset -/

/-- Settles O54: each word is decoded field by field. -/
theorem wordsOfTheTablesDecode : Obligations.WordsOfTheTablesDecode := by
  unfold Obligations.WordsOfTheTablesDecode
  and_intros <;> rfl

/-- Settles O57: the fields of the reset state by evaluation; no time has passed at any core. -/
theorem resetState : Obligations.ResetState := by
  refine ⟨rfl, rfl, rfl, rfl, fun c => rfl, rfl, rfl, rfl, rfl, rfl, rfl, rfl, rfl, ?_⟩
  intro g hg
  rw [List.mem_singleton.mp hg]
  exact ⟨by decide, by decide⟩

/-! ## Every instruction goes on; only a package that is OFF stops (R428) -/

theorem goes_withEntry {s : State} {f : Ans} (h : Goes f) : Goes (s.withEntry f) := goes_ite (goes_next _) h

theorem goes_copyCommand (s : State) (i : Instr) : Goes (s.copyCommand i) := goes_deciding (goes_closing fun _ => goes_issueOrHold _ _ _)

theorem goes_matrixCommand (s : State) (i : Instr) : Goes (s.matrixCommand i) :=
  goes_ite (goes_next _) (goes_deciding (goes_closing fun _ => goes_issueOrHold _ _ _))

theorem goes_netCommand (s : State) (i : Instr) : Goes (s.netCommand i) := goes_deciding (goes_closing fun _ => goes_issueOrHold _ _ _)

theorem goes_snapCommand (s : State) (i : Instr) : Goes (s.snapCommand i) := goes_deciding (goes_closing fun _ => goes_next _)

theorem goes_onVcOperand {s : State} {d v : BitVec 6} {f : State → Nat → Ans} (h : ∀ u n, Goes (f u n)) : Goes (s.onVcOperand d v f) :=
  goes_interlock (goes_closing fun _ => goes_ite (goes_failToken _ _ _) (h _ _))

theorem goes_exchange (s : State) (x : LOp) (F : Form) (pick : Nat → Nat → Nat → Option Nat) : Goes (s.exchange x F pick) := by
  unfold State.exchange; exact goes_laneGroup s x F _

theorem goes_laneQuant (s : State) (x : LOp) (F : Form) (f : Num.QBlock → Nat → LaneIn → Opd) : Goes (s.laneQuant x F f) := by
  unfold State.laneQuant; exact goes_laneGroup s x F _

theorem goes_execMatchl (x : LOp) (s : State) : Goes (execMatchl x s) := by unfold execMatchl; exact goes_laneGroup s x _ _

theorem goes_execScan (x : LOp) (s : State) : Goes (execScan x s) := by unfold execScan; exact goes_laneGroup s x _ _

theorem goes_execFirst (x : LOp) (s : State) : Goes (execFirst x s) := by unfold execFirst; exact goes_laneGroup s x _ _

theorem goes_execMput (x : LOp) (s : State) : Goes (execMput x s) :=
  goes_ite (goes_next _) (goes_ite (goes_laneDone _ _) (goes_ite (goes_next _) (goes_laneDone _ _)))


theorem goes_execLblk (n : BitVec 5) (i : BitVec 20) (s : State) : Goes (execLblk n i s) := goes_withEntry (goes_queueBlock _ _ _)

theorem goes_execLblkr (a : BitVec 6) (s : State) : Goes (execLblkr a s) := goes_withEntry (goes_deciding (goes_queueBlock _ _ _))

theorem goes_execLwait (s : State) : Goes (execLwait s) := by
  unfold execLwait
  split <;> exact goes_next _

theorem goes_execYield (e : Engine) (a : BitVec 6) (o : BitVec 16) (s : State) : Goes (execYield e a o s) := goes_deciding (goes_closing fun _ => goes_ite (goes_next _) (goes_next _))

theorem goes_execEndg (s : State) : Goes (execEndg s) := goes_closing fun _ => goes_ite (goes_next _) (goes_next _)

theorem goes_execBrk (k : BitVec 19) (s : State) : Goes (execBrk k s) := goes_ite (goes_next _) (goes_closing fun _ => goes_ite (goes_next _) (goes_next _))

theorem goes_execSysc (k : BitVec 19) (s : State) : Goes (execSysc k s) := goes_ite (goes_next _) (goes_closing fun _ => goes_next _)

theorem goes_execRunIssue (_slot : BitVec 2) (s : State) : Goes (execRunIssue _slot s) := by
  unfold execRunIssue
  split <;> exact goes_next _

theorem goes_execChunkClose (k : Nat) (s : State) : Goes (execChunkClose k s) := by
  unfold execChunkClose
  split <;> exact goes_next _

theorem goes_execArbiterAdmit (k : Nat) (s : State) : Goes (execArbiterAdmit k s) := by
  unfold execArbiterAdmit
  split <;> exact goes_next _

theorem goes_execReplayResume (k : Nat) (s : State) : Goes (execReplayResume k s) := by
  unfold execReplayResume
  repeat' split
  all_goals exact goes_next _

theorem goes_execSigGapTimeout (k : Nat) (s : State) : Goes (execSigGapTimeout k s) := by
  unfold execSigGapTimeout
  split <;> exact goes_next _

theorem goes_execGroupStop (k : Nat) (s : State) : Goes (execGroupStop k s) := by
  unfold execGroupStop
  repeat' split
  all_goals exact goes_next _

theorem goes_execLdw (d a : BitVec 6) (i : BitVec 13) (s : State) : Goes (execLdw d a i s) := by
  refine goes_deciding ?_
  dsimp only
  split <;> exact goes_next _

theorem goes_execStw (r a : BitVec 6) (i : BitVec 13) (s : State) : Goes (execStw r a i s) := by
  refine goes_deciding (goes_reserveOne ?_)
  dsimp only
  split <;> exact goes_next _

theorem goes_execLdws (d a : BitVec 6) (i : BitVec 13) (s : State) : Goes (execLdws d a i s) := by
  refine goes_deciding (goes_ite (goes_next _) ?_)
  split <;> exact goes_next _

theorem goes_execStws (r a : BitVec 6) (i : BitVec 13) (s : State) : Goes (execStws r a i s) := by
  refine goes_deciding (goes_reserveOne ?_)
  dsimp only
  split <;> exact goes_next _

theorem goes_execMfs (d : BitVec 6) (r : BitVec 13) (s : State) : Goes (execMfs d r s) := goes_ite (goes_next _) (goes_ite (goes_next _) (goes_interlock (goes_ite (goes_ite (goes_next _) (goes_next _)) (goes_next _))))

theorem goes_execMts (a : BitVec 6) (r : BitVec 13) (s : State) : Goes (execMts a r s) := goes_ite (goes_next _) (goes_ite (goes_next _) (goes_ite (goes_next _) (goes_deciding (goes_ite (goes_closing fun _ => goes_next _)
    (goes_ite (goes_writeExm fun _ => goes_next _) (goes_ite (goes_next _) (goes_next _)))))))

theorem goes_execFence (sc : Scope) (s : State) : Goes (execFence sc s) := by
  refine goes_closing fun u => goes_ite (goes_next _) ?_
  split <;> exact goes_next _

theorem goes_execRgn (p : Policy) (o : BitVec 23) (s : State) : Goes (execRgn p o s) := goes_closing fun _ => goes_next _

theorem goes_execCmt (a : BitVec 6) (s : State) : Goes (execCmt a s) := goes_deciding (goes_ite (goes_next _) (goes_closing fun _ => goes_next _))

theorem goes_execArrive (d a : BitVec 6) (n : BitVec 7) (s : State) : Goes (execArrive d a n s) := by
  refine goes_deciding (goes_closing fun u => ?_)
  dsimp only
  split
  · exact goes_failLive _ _ _ _
  · exact goes_ite (goes_failLive _ _ _ _) (goes_next _)

theorem goes_execWaitb (a b : BitVec 6) (s : State) : Goes (execWaitb a b s) := by
  refine goes_deciding (goes_closing fun u => ?_)
  dsimp only
  split
  · exact goes_failLive _ _ _ _
  · exact goes_waitPhase _ _ _ _

theorem goes_execBars (a : BitVec 6) (n : BitVec 7) (s : State) : Goes (execBars a n s) := by
  refine goes_deciding (goes_closing fun u => ?_)
  dsimp only
  split
  · exact goes_failLive _ _ _ _
  · exact goes_ite (goes_failLive _ _ _ _) (goes_waitPhase _ _ _ _)

theorem goes_execWatch (a : BitVec 6) (s : State) : Goes (execWatch a s) := by
  refine goes_deciding (goes_closing fun u => ?_)
  dsimp only
  split
  · exact goes_failLive _ _ _ _
  · exact goes_ite (goes_next _) (goes_next _)

theorem goes_execVclaim (n : BitVec 7) (s : State) : Goes (execVclaim n s) := goes_closing fun _ => goes_ite (goes_next _) (goes_next _)

theorem goes_execVrel (n : BitVec 7) (s : State) : Goes (execVrel n s) := goes_closing fun _ => goes_ite (goes_next _) (goes_next _)

theorem goes_execSigchk (p : BitVec 24) (s : State) : Goes (execSigchk p s) := by
  unfold execSigchk
  repeat' split
  all_goals exact goes_next _

theorem goes_execEfen (e : Engine) (d r : BitVec 6) (s : State) : Goes (execEfen e d r s) := goes_deciding (goes_closing fun _ => goes_ite (goes_failLive _ _ _ _) (goes_next _))

theorem goes_execCwait (a b d : BitVec 6) (s : State) : Goes (execCwait a b d s) := by
  refine goes_deciding (goes_closing fun u => ?_)
  dsimp only
  split
  · exact goes_failLive _ _ _ _
  · exact goes_ite (goes_next _) (goes_next _)

theorem goes_execLaunch (d a : BitVec 6) (s : State) : Goes (execLaunch d a s) := by
  refine goes_deciding (goes_closing fun u => goes_ite (goes_next _) ?_)
  repeat' split
  all_goals exact goes_next _

theorem goes_execHostLaunchMessage (hdr bs : List Byte) (s : State) : Goes (execHostLaunchMessage hdr bs s) := by
  unfold execHostLaunchMessage
  dsimp only
  repeat' split
  all_goals exact goes_next _

theorem goes_execSyslaunch (asid : BitVec 16) (bs : List Byte) (s : State) : Goes (execSyslaunch asid bs s) := by
  unfold execSyslaunch
  repeat' split
  all_goals exact goes_next _

theorem goes_execGangAbortResend (lid : BitVec 32) (s : State) : Goes (execGangAbortResend lid s) := by
  unfold execGangAbortResend
  split <;> exact goes_next _

theorem goes_execTeamActivate (team : Nat) (s : State) : Goes (execTeamActivate team s) := by
  unfold execTeamActivate
  repeat' split
  all_goals exact goes_next _

theorem goes_execPreempt (k : Nat) (s : State) : Goes (execPreempt k s) := by
  unfold execPreempt
  repeat' split
  all_goals exact goes_next _

theorem goes_execParkedTeamTimeout (team : Nat) (s : State) : Goes (execParkedTeamTimeout team s) := by
  unfold execParkedTeamTimeout
  repeat' split
  all_goals exact goes_next _

theorem goes_execQuantumExpiry (team : Nat) (s : State) : Goes (execQuantumExpiry team s) := by
  unfold execQuantumExpiry
  dsimp only
  repeat' split
  all_goals exact goes_next _

theorem goes_execTeamComplete (team : Nat) (s : State) : Goes (execTeamComplete team s) := by
  unfold execTeamComplete
  repeat' split
  all_goals exact goes_next _

theorem goes_execResume (asid : BitVec 16) (lid gang : BitVec 32) (team : BitVec 12) (grp : BitVec 6) (s : State) : Goes (execResume asid lid gang team grp s) := by
  unfold execResume
  dsimp only
  repeat' split
  all_goals exact goes_next _

theorem goes_execWithdraw (asid : BitVec 16) (lid : BitVec 32) (all : Bool) (s : State) : Goes (execWithdraw asid lid all s) := by
  unfold execWithdraw
  dsimp only
  repeat' split
  all_goals exact goes_next _

theorem goes_execCopyIssue (k : Nat) (s : State) : Goes (execCopyIssue k s) := by
  unfold execCopyIssue
  repeat' split
  all_goals exact goes_next _

theorem goes_execCopyLineComplete (op : Nat) (s : State) : Goes (execCopyLineComplete op s) := by
  unfold execCopyLineComplete
  repeat' split
  all_goals exact goes_next _

theorem goes_execCopyResume (op : Nat) (s : State) : Goes (execCopyResume op s) := by
  unfold execCopyResume
  split <;> exact goes_next _

theorem goes_execLsig (last : Bool) (p : BitVec 24) (s : State) : Goes (execLsig last p s) := by
  unfold execLsig
  dsimp only
  repeat' split
  all_goals exact goes_next _

theorem goes_execFabricReadRequest (q : Req) (s : State) : Goes (execFabricReadRequest q s) := by
  unfold execFabricReadRequest
  split <;> exact goes_next _

theorem goes_execPutReceive (q : Req) (s : State) : Goes (execPutReceive q s) := by
  unfold execPutReceive
  split <;> exact goes_next _

theorem goes_execRemoteAtomicReceive (q : Req) (s : State) : Goes (execRemoteAtomicReceive q s) := by
  unfold execRemoteAtomicReceive
  split <;> exact goes_next _

theorem goes_execRemoteRedReceive (q : Req) (s : State) : Goes (execRemoteRedReceive q s) := by
  unfold execRemoteRedReceive
  split <;> exact goes_next _

theorem goes_execRequestTimeout (id : Nat) (s : State) : Goes (execRequestTimeout id s) := by
  unfold execRequestTimeout
  split <;> exact goes_next _

theorem goes_execRetryResend (id : Nat) (s : State) : Goes (execRetryResend id s) := by
  unfold execRetryResend
  split <;> exact goes_next _

theorem goes_execWcbAgeExpiry (core n : Nat) (s : State) : Goes (execWcbAgeExpiry core n s) := by
  unfold execWcbAgeExpiry
  split <;> exact goes_next _

theorem goes_execSropen (a d : BitVec 6) (s : State) : Goes (execSropen a d s) := goes_deciding (goes_closing fun _ => goes_next _)

theorem goes_execSrjoin (h v r : BitVec 6) (s : State) : Goes (execSrjoin h v r s) := by
  refine goes_deciding (goes_closing fun u => goes_ite (goes_failLive _ _ _ _) ?_)
  split
  · exact goes_failLive _ _ _ _
  · exact goes_next _

theorem goes_execSlotOpenRequest (q : Req) (s : State) : Goes (execSlotOpenRequest q s) := by
  unfold execSlotOpenRequest
  split <;> exact goes_next _

theorem goes_execSlotContribution (q : Req) (s : State) : Goes (execSlotContribution q s) := by
  unfold execSlotContribution
  split <;> exact goes_next _

theorem goes_execSlotTimeout (slot : BitVec 9) (s : State) : Goes (execSlotTimeout slot s) := by
  unfold execSlotTimeout
  repeat' split
  all_goals exact goes_next _

theorem goes_execShoot (a b c : BitVec 6) (s : State) : Goes (execShoot a b c s) := goes_ite (goes_next _) (goes_deciding (goes_closing fun _ => goes_next _))

theorem goes_execShootdownRemove (id rcpt : Nat) (s : State) : Goes (execShootdownRemove id rcpt s) := by
  unfold execShootdownRemove
  repeat' split
  all_goals exact goes_next _

theorem goes_execShootdownAck (id rcpt : Nat) (s : State) : Goes (execShootdownAck id rcpt s) := by
  unfold execShootdownAck
  repeat' split
  all_goals exact goes_next _

theorem goes_execStset (d h r : BitVec 6) (s : State) : Goes (execStset d h r s) := goes_deciding (goes_closing fun _ => goes_ite (goes_next _) (goes_ite (goes_next _) (goes_ite (goes_next _) (goes_next _))))

theorem goes_execStsetComplete (k : Nat) (s : State) : Goes (execStsetComplete k s) := by
  unfold execStsetComplete
  repeat' split
  all_goals exact goes_next _

theorem goes_execMigrationSwitch (id : Nat) (s : State) : Goes (execMigrationSwitch id s) := by
  unfold execMigrationSwitch
  split <;> exact goes_next _

theorem goes_execMigrationDone (id : Nat) (s : State) : Goes (execMigrationDone id s) := by
  unfold execMigrationDone
  split <;> exact goes_next _

theorem goes_execMatrixIssue (k : Nat) (s : State) : Goes (execMatrixIssue k s) := by
  unfold execMatrixIssue
  repeat' split
  all_goals exact goes_next _

theorem goes_execMatrixOpStart (op : Nat) (s : State) : Goes (execMatrixOpStart op s) := by
  unfold execMatrixOpStart
  repeat' split
  all_goals exact goes_next _

theorem goes_execMatrixOpEnd (op : Nat) (s : State) : Goes (execMatrixOpEnd op s) := by
  unfold execMatrixOpEnd
  repeat' split
  all_goals exact goes_next _

theorem goes_execNetworkIssue (k : Nat) (s : State) : Goes (execNetworkIssue k s) := by
  unfold execNetworkIssue
  repeat' split
  all_goals exact goes_next _

theorem goes_execNetworkLocalPartEnd (op : Nat) (s : State) : Goes (execNetworkLocalPartEnd op s) := by
  unfold execNetworkLocalPartEnd
  dsimp only
  repeat' split
  all_goals exact goes_next _

theorem goes_execWorkRequestComplete (op : Nat) (ok : Bool) (s : State) : Goes (execWorkRequestComplete op ok s) := by
  unfold execWorkRequestComplete
  dsimp only
  repeat' split
  all_goals exact goes_next _

theorem goes_execUetPacketReceive (p : UetPkt) (s : State) : Goes (execUetPacketReceive p s) := by
  unfold execUetPacketReceive
  repeat' split
  all_goals exact goes_next _

theorem goes_execUetAckReceive (asid : BitVec 16) (flow : FlowId) (acked : List Nat) (refused : Bool) (s : State) : Goes (execUetAckReceive asid flow acked refused s) := by
  unfold execUetAckReceive
  split <;> exact goes_next _

theorem goes_execUetRetransmitTimeout (asid : BitVec 16) (flow : FlowId) (seq : Nat) (s : State) : Goes (execUetRetransmitTimeout asid flow seq s) := by
  unfold execUetRetransmitTimeout
  split <;> exact goes_next _

theorem goes_execSnapshotIssue (k : Nat) (s : State) : Goes (execSnapshotIssue k s) := by
  unfold execSnapshotIssue
  repeat' split
  all_goals exact goes_next _

theorem goes_execSnapshotOpEnd (op : Nat) (s : State) : Goes (execSnapshotOpEnd op s) := by
  unfold execSnapshotOpEnd
  dsimp only
  repeat' split
  all_goals exact goes_next _

theorem goes_execLineRequest (core : Nat) (s : State) : Goes (execLineRequest core s) := by
  unfold execLineRequest
  dsimp only
  repeat' split
  all_goals exact goes_next _

theorem goes_execFillReply (core : Nat) (s : State) : Goes (execFillReply core s) := by
  unfold execFillReply
  dsimp only
  repeat' split
  all_goals exact goes_next _

theorem goes_execLinkLaneFailure (port : Nat) (s : State) : Goes (execLinkLaneFailure port s) := by
  unfold execLinkLaneFailure
  split <;> exact goes_next _

theorem goes_execFlitCrcReplay (port : Nat) (s : State) : Goes (execFlitCrcReplay port s) := by
  unfold execFlitCrcReplay
  split <;> exact goes_next _

theorem goes_execVcdef (d v : BitVec 6) (s : State) : Goes (execVcdef d v s) := by
  refine goes_ite (goes_next _) (goes_onVcOperand fun u n => goes_ite (goes_next _) (goes_ite (goes_next _) ?_))
  split
  · exact goes_failToken _ _ _
  · exact goes_next _

theorem goes_execVcLineMove (vc line : Nat) (s : State) : Goes (execVcLineMove vc line s) := by
  unfold execVcLineMove
  split <;> exact goes_next _

theorem goes_execVcPhaseAdvance (vc : Nat) (s : State) : Goes (execVcPhaseAdvance vc s) := by
  unfold execVcPhaseAdvance
  repeat' split
  all_goals exact goes_next _

theorem goes_execVcflush (d v : BitVec 6) (m : FlushMode) (s : State) : Goes (execVcflush d v m s) := goes_ite (goes_next _) (goes_onVcOperand fun _ _ => goes_ite (goes_next _) (goes_next _))

theorem goes_execOvertempTrip (s : State) : Goes (execOvertempTrip s) := by
  unfold execOvertempTrip
  split <;> exact goes_next _

theorem goes_execPowerOn (r : BringUp) (s : State) : Goes (execPowerOn r s) := by
  unfold execPowerOn
  split <;> exact goes_next _

theorem goes_execCtxcreate (asid : BitVec 16) (pt crumb shard : BitVec 64) (res : BitVec 16) (s : State) : Goes (execCtxcreate asid pt crumb shard res s) := by
  unfold execCtxcreate
  exact goes_unlessSafe _ _ _

theorem goes_execCtxdestroy (asid : BitVec 16) (s : State) : Goes (execCtxdestroy asid s) := by
  unfold execCtxdestroy
  exact goes_unlessSafe _ _ _

theorem goes_execWinset (n : BitVec 12) (desc : List Byte) (s : State) : Goes (execWinset n desc s) := by
  unfold execWinset
  exact goes_unlessSafe _ _ _

theorem goes_execPeerset (asid : BitVec 16) (n : BitVec 12) (p : Peer) (s : State) : Goes (execPeerset asid n p s) := by
  unfold execPeerset
  exact goes_unlessSafe _ _ _

theorem goes_execCntrset (n : BitVec 12) (owner : Option (BitVec 16)) (v : BitVec 64) (s : State) : Goes (execCntrset n owner v s) := by
  unfold execCntrset
  exact goes_unlessSafe _ _ _

theorem goes_execConfig (c : ConfigItem) (s : State) : Goes (execConfig c s) := by
  unfold execConfig
  exact goes_unlessSafe _ _ _

theorem goes_execLink (port : Nat) (s : State) : Goes (execLink port s) := by
  unfold execLink
  exact goes_unlessSafe _ _ _

theorem goes_execRetest (r : BringUp) (s : State) : Goes (execRetest r s) := by
  unfold execRetest
  split <;> exact goes_next _

theorem goes_execPower (p : Power) (s : State) : Goes (execPower p s) := by
  unfold execPower
  exact goes_unlessSafe _ _ _

theorem goes_execPin (pa size : BitVec 64) (s : State) : Goes (execPin pa size s) := by
  unfold execPin
  exact goes_unlessSafe _ _ _

theorem goes_execUnpin (pa size : BitVec 64) (s : State) : Goes (execUnpin pa size s) := by
  unfold execUnpin
  exact goes_unlessSafe _ _ _

theorem goes_execMigrate (asid : BitVec 16) (va : BitVec 64) (n : Nat) (tier die : BitVec 8) (s : State) : Goes (execMigrate asid va n tier die s) := by
  unfold execMigrate
  exact goes_unlessSafe _ _ _

theorem goes_execAddiw (d a : BitVec 6) (i : BitVec 13) (s : State) : Goes (execAddiw d a i s) := by
  unfold execAddiw
  exact goes_wal1 _ _ _ _

theorem goes_execAndiw (d a : BitVec 6) (i : BitVec 13) (s : State) : Goes (execAndiw d a i s) := by
  unfold execAndiw
  exact goes_wal1 _ _ _ _

theorem goes_execOriw (d a : BitVec 6) (i : BitVec 13) (s : State) : Goes (execOriw d a i s) := by
  unfold execOriw
  exact goes_wal1 _ _ _ _

theorem goes_execXoriw (d a : BitVec 6) (i : BitVec 13) (s : State) : Goes (execXoriw d a i s) := by
  unfold execXoriw
  exact goes_wal1 _ _ _ _

theorem goes_execSltiw (d a : BitVec 6) (i : BitVec 13) (s : State) : Goes (execSltiw d a i s) := by
  unfold execSltiw
  exact goes_wal1 _ _ _ _

theorem goes_execShliw (d a : BitVec 6) (n : BitVec 6) (s : State) : Goes (execShliw d a n s) := by
  unfold execShliw
  exact goes_wal1 _ _ _ _

theorem goes_execShriw (d a : BitVec 6) (n : BitVec 6) (s : State) : Goes (execShriw d a n s) := by
  unfold execShriw
  exact goes_wal1 _ _ _ _

theorem goes_execSariw (d a : BitVec 6) (n : BitVec 6) (s : State) : Goes (execSariw d a n s) := by
  unfold execSariw
  exact goes_wal1 _ _ _ _

theorem goes_execLeaw (d a b : BitVec 6) (n : BitVec 6) (s : State) : Goes (execLeaw d a b n s) := by
  unfold execLeaw
  exact goes_wal2 _ _ _ _ _

/-- Every control instruction and every event goes on. -/
theorem goes_exec_of_no_form {i : Instr} (s : State) (hform : laneForm i = none) : Goes (exec i s) := by
  cases i
  case shareRetire | nop | br | illegalControlWord | controlWordFetchFault | prioWrite | tshWrite | asidWrite | leaseWrite | gangLaunchReceive | gangAckReceive | gangTimeout | gangAbortReceive | gangKeyExpiry | gangAdmit | holdResponseTimer | fabricReadResponse | putAckReceive | atomicResponse | holdResponseReceive | retryResponseReceive | slotAnswer | slotResultLand | migrationStart | snoop | watchTimeout | patrolScrub | linkRetrainComplete | dieHeartbeatTimeout | dieLinkRetrainTimeout | dieFaultDetected | status | report | fwload => exact goes_next _
  case brc | brz | brnz => exact goes_deciding (goes_branchIf _ _ _)
  case call | liw | orsw | selw => exact goes_interlock (goes_next _)
  case jmpr | callr => exact goes_deciding (goes_next _)
  case exmWrite => exact goes_writeExm fun _ => goes_next _
  case ewait => exact goes_deciding (goes_ite (goes_next _) (goes_next _))
  case cpy | cpyg | cpyx | cpyxTt => exact goes_copyCommand _ _
  case tld | tldP | tst | tstP | mma | mmas | drn | azr | ald | aldMem => exact goes_matrixCommand _ _
  case nsend | nwrite | nread | npost => exact goes_netCommand _ _
  case snap | sload | manif => exact goes_snapCommand _ _
  case addw | subw | andw | orw | xorw | shlw | shrw | sarw | minw | maxw | minuw | maxuw | mulw | mulhw | mulhuw | sltw | sltuw | seqw => exact goes_wal2 _ _ _ _ _
  case lblk n iv => exact goes_execLblk n iv s
  case lblkr a => exact goes_execLblkr a s
  case lwait => exact goes_execLwait s
  case yield e a o => exact goes_execYield e a o s
  case endg => exact goes_execEndg s
  case brk k => exact goes_execBrk k s
  case sysc k => exact goes_execSysc k s
  case runIssue slot => exact goes_execRunIssue slot s
  case chunkClose k => exact goes_execChunkClose k s
  case arbiterAdmit k => exact goes_execArbiterAdmit k s
  case replayResume k => exact goes_execReplayResume k s
  case sigGapTimeout k => exact goes_execSigGapTimeout k s
  case groupStop k => exact goes_execGroupStop k s
  case ldw d a iv => exact goes_execLdw d a iv s
  case stw r a iv => exact goes_execStw r a iv s
  case ldws d a iv => exact goes_execLdws d a iv s
  case stws r a iv => exact goes_execStws r a iv s
  case mfs d r => exact goes_execMfs d r s
  case mts a r => exact goes_execMts a r s
  case fence sc => exact goes_execFence sc s
  case rgn p o => exact goes_execRgn p o s
  case cmt a => exact goes_execCmt a s
  case arrive d a n => exact goes_execArrive d a n s
  case waitb a b => exact goes_execWaitb a b s
  case bars a n => exact goes_execBars a n s
  case watch a => exact goes_execWatch a s
  case vclaim n => exact goes_execVclaim n s
  case vrel n => exact goes_execVrel n s
  case sigchk p => exact goes_execSigchk p s
  case efen e d r => exact goes_execEfen e d r s
  case cwait a b d => exact goes_execCwait a b d s
  case launch d a => exact goes_execLaunch d a s
  case hostLaunchMessage hdr bs => exact goes_execHostLaunchMessage hdr bs s
  case syslaunch asid bs => exact goes_execSyslaunch asid bs s
  case gangAbortResend lid => exact goes_execGangAbortResend lid s
  case teamActivate team => exact goes_execTeamActivate team s
  case preempt k => exact goes_execPreempt k s
  case parkedTeamTimeout team => exact goes_execParkedTeamTimeout team s
  case quantumExpiry team => exact goes_execQuantumExpiry team s
  case teamComplete team => exact goes_execTeamComplete team s
  case resume asid lid gang team grp => exact goes_execResume asid lid gang team grp s
  case withdraw asid lid all => exact goes_execWithdraw asid lid all s
  case copyIssue k => exact goes_execCopyIssue k s
  case copyLineComplete op => exact goes_execCopyLineComplete op s
  case copyResume op => exact goes_execCopyResume op s
  case lsig last p => exact goes_execLsig last p s
  case fabricReadRequest q => exact goes_execFabricReadRequest q s
  case putReceive q => exact goes_execPutReceive q s
  case remoteAtomicReceive q => exact goes_execRemoteAtomicReceive q s
  case remoteRedReceive q => exact goes_execRemoteRedReceive q s
  case requestTimeout id => exact goes_execRequestTimeout id s
  case retryResend id => exact goes_execRetryResend id s
  case wcbAgeExpiry core n => exact goes_execWcbAgeExpiry core n s
  case sropen a d => exact goes_execSropen a d s
  case srjoin h v r => exact goes_execSrjoin h v r s
  case slotOpenRequest q => exact goes_execSlotOpenRequest q s
  case slotContribution q => exact goes_execSlotContribution q s
  case slotTimeout slot => exact goes_execSlotTimeout slot s
  case shoot a b c => exact goes_execShoot a b c s
  case shootdownRemove id rcpt => exact goes_execShootdownRemove id rcpt s
  case shootdownAck id rcpt => exact goes_execShootdownAck id rcpt s
  case stset d h r => exact goes_execStset d h r s
  case stsetComplete k => exact goes_execStsetComplete k s
  case migrationSwitch id => exact goes_execMigrationSwitch id s
  case migrationDone id => exact goes_execMigrationDone id s
  case matrixIssue k => exact goes_execMatrixIssue k s
  case matrixOpStart op => exact goes_execMatrixOpStart op s
  case matrixOpEnd op => exact goes_execMatrixOpEnd op s
  case networkIssue k => exact goes_execNetworkIssue k s
  case networkLocalPartEnd op => exact goes_execNetworkLocalPartEnd op s
  case workRequestComplete op ok => exact goes_execWorkRequestComplete op ok s
  case uetPacketReceive p => exact goes_execUetPacketReceive p s
  case uetAckReceive asid flow acked refused => exact goes_execUetAckReceive asid flow acked refused s
  case uetRetransmitTimeout asid flow seq => exact goes_execUetRetransmitTimeout asid flow seq s
  case snapshotIssue k => exact goes_execSnapshotIssue k s
  case snapshotOpEnd op => exact goes_execSnapshotOpEnd op s
  case lineRequest core => exact goes_execLineRequest core s
  case fillReply core => exact goes_execFillReply core s
  case linkLaneFailure port => exact goes_execLinkLaneFailure port s
  case flitCrcReplay port => exact goes_execFlitCrcReplay port s
  case vcdef d v => exact goes_execVcdef d v s
  case vcLineMove vc line => exact goes_execVcLineMove vc line s
  case vcPhaseAdvance vc => exact goes_execVcPhaseAdvance vc s
  case vcflush d v m => exact goes_execVcflush d v m s
  case overtempTrip => exact goes_execOvertempTrip s
  case powerOn r => exact goes_execPowerOn r s
  case ctxcreate asid pt crumb shard res => exact goes_execCtxcreate asid pt crumb shard res s
  case ctxdestroy asid => exact goes_execCtxdestroy asid s
  case winset n desc => exact goes_execWinset n desc s
  case peerset asid n p => exact goes_execPeerset asid n p s
  case cntrset n owner v => exact goes_execCntrset n owner v s
  case config c => exact goes_execConfig c s
  case link port => exact goes_execLink port s
  case retest r => exact goes_execRetest r s
  case power p => exact goes_execPower p s
  case pin pa size => exact goes_execPin pa size s
  case unpin pa size => exact goes_execUnpin pa size s
  case migrate asid va n tier die => exact goes_execMigrate asid va n tier die s
  case addiw d a iv => exact goes_execAddiw d a iv s
  case andiw d a iv => exact goes_execAndiw d a iv s
  case oriw d a iv => exact goes_execOriw d a iv s
  case xoriw d a iv => exact goes_execXoriw d a iv s
  case sltiw d a iv => exact goes_execSltiw d a iv s
  case shliw d a n => exact goes_execShliw d a n s
  case shriw d a n => exact goes_execShriw d a n s
  case sariw d a n => exact goes_execSariw d a n s
  case leaw d a b n => exact goes_execLeaw d a b n s
  all_goals cases hform

/-- Every lane instruction with a form goes on. -/
theorem goes_exec_of_form {i : Instr} {p : LOp × Form} (s : State) (hform : laneForm i = some p) : Goes (exec i s) := by
  cases i
  case and | or | xor | lut3 | shl | shr | sar | popc | clz | brev | bfe | bfi | iset | alignb | blut | plog | iadd | isub | imul | imulh | imad
     | imin | imax | iabs | fadd | fsub | fmul | fmadd | fmin | fmax | fminn | fmaxn | fset | fclass | frcp | frsq | fsqrt | fdiv | fexp2 | flog2 | fsin
     | fcos | ftanh | pack | unpack | dqblk => exact goes_laneMap _ _ _ _
  case sel | mov | movp | sread | ptst | pclr | crumb => exact goes_laneEach _ _ _ _
  case xchi x => rw [exec_xchi, execXchi]; exact goes_exchange _ _ _ _
  case xchu x => rw [exec_xchu, execXchu]; exact goes_exchange _ _ _ _
  case xchd x => rw [exec_xchd, execXchd]; exact goes_exchange _ _ _ _
  case xchx x => rw [exec_xchx, execXchx]; exact goes_exchange _ _ _ _
  case matchl x => rw [exec_matchl]; exact goes_execMatchl x s
  case scan x => rw [exec_scan]; exact goes_execScan x s
  case first x => rw [exec_first]; exact goes_execFirst x s
  case qblk x => rw [exec_qblk, execQblk]; exact goes_laneQuant _ _ _ _
  case cvt x =>
    rw [exec_cvt, execCvt]
    split
    · exact goes_laneQuant _ _ _ _
    · exact goes_laneMap _ _ _ _
  case ld | lds | ldsx | ldx => exact goes_laneLoad _ _ _ _
  case st | sts | stx | red | reds => exact goes_laneStore _ _ _ _ _
  case atom x => rw [exec_atom]; exact goes_atomic _ _ _ _
  case atoms x => rw [exec_atoms]; exact goes_atomic _ _ _ _
  case vote x => rw [exec_vote, execVote]; exact goes_laneUni _ _ _ _
  case gred x => rw [exec_gred, execGred]; exact goes_laneUni _ _ _ _
  case pref x => exact goes_guarded (goes_laneDone _ _)
  case mif => exact goes_ite (goes_next _) (goes_ite (goes_maskDone _ _ _ _) (goes_masking fun _ => goes_maskDone _ _ _ _))
  case melse | mend => exact goes_ite (goes_next _) (goes_maskDone _ _ _ _)
  case mbrk => exact goes_ite (goes_next _) (goes_masking fun _ => goes_maskDone _ _ _ _)
  case mget => exact goes_ite (goes_next _) (goes_laneDone _ _)
  case mput x => exact goes_execMput x s
  all_goals cases hform

theorem goes_exec (i : Instr) (s : State) : Goes (exec i s) := by
  cases h : laneForm i with
  | none => exact goes_exec_of_no_form s h
  | some p => exact goes_exec_of_form s h

/-! ## Only a package that is OFF has no turn (R428) -/

/-- Nothing at all happens in this turn. -/
def Turn.isOff : Turn → Bool
  | .off => true
  | _ => false

/-- If there is a turn, something happens in it. -/
def acts (o : Option Turn) : Prop := o.any Turn.isOff = false

theorem isOff_of_acts {o : Option Turn} {t : Turn} (h : acts o) (ht : o = some t) : t.isOff = false := by
  rw [ht] at h
  exact h

theorem acts_map {α : Type} {f : α → Turn} (o : Option α) (h : ∀ a, (f a).isOff = false) : acts (o.map f) := by
  cases o with
  | none => rfl
  | some a => exact h a

theorem acts_findSome {α : Type} {f : α → Option Turn} (l : List α) (h : ∀ a, acts (f a)) : acts (l.findSome? f) := by
  cases hf : l.findSome? f with
  | none => rfl
  | some t =>
    obtain ⟨a, _, ha⟩ := List.exists_of_findSome?_eq_some hf
    exact ha ▸ h a

theorem acts_ite {c : Prop} [Decidable c] {a b : Option Turn} (h1 : acts a) (h2 : acts b) : acts (if c then a else b) := by split <;> assumption

theorem controlTurn_acts (s : State) : s.controlTurn.isOff = false := by
  unfold State.controlTurn
  split
  · rfl
  · split <;> rfl

theorem laneTurn_acts (s : State) : acts s.laneTurn := by
  refine acts_ite rfl ?_
  split
  · rfl
  · split
    · exact acts_ite rfl rfl
    · rfl

theorem runTurn_acts (s : State) : acts s.runTurn := by
  unfold State.runTurn
  cases h : s.laneTurn with
  | some t => exact isOff_of_acts (laneTurn_acts s) h
  | none => exact acts_findSome _ fun g => acts_ite (laneTurn_acts _) rfl

/-- Whatever class is due, something happens. -/
theorem classes_act (s : State) : ∀ f ∈ classes, acts (f s) := by
  simp only [classes, List.cons_append, List.nil_append, List.forall_mem_cons, List.not_mem_nil, IsEmpty.forall_iff, implies_true, and_true]
  refine ⟨?control, ?issue, ?close, ?arbiter, ?copy, ?matrix, ?net, ?held, ?line, ?wake, ?group, ?shoot, ?team, ?page, ?vc, ?wire⟩
  case control => exact acts_map _ fun k => controlTurn_acts _
  case issue => exact acts_map _ fun _ => rfl
  case close => exact acts_map _ fun _ => rfl
  case arbiter => exact acts_map _ fun _ => rfl
  case copy =>
    refine acts_findSome _ fun o => acts_ite rfl ?_
    split <;> exact acts_ite rfl rfl
  case matrix => exact acts_findSome _ fun o => acts_ite rfl (acts_ite (acts_ite rfl rfl) (acts_ite rfl rfl))
  case net =>
    refine acts_findSome _ fun o => ?_
    split
    · exact acts_ite rfl rfl
    · exact acts_ite rfl rfl
    · rfl
  case held =>
    refine acts_findSome _ fun g => ?_
    split
    · exact acts_ite rfl rfl
    · rfl
  case line =>
    unfold State.lineDue
    split
    · rfl
    · split
      · rfl
      · exact acts_map _ fun _ => rfl
  case wake => exact acts_map _ fun _ => rfl
  case group =>
    unfold State.groupDue
    refine acts_findSome _ fun g => ?_
    cases g.phase with
    | parked p =>
      cases p with
      | replay => exact acts_ite rfl rfl
      | fetch => exact acts_ite rfl rfl
      | _ => rfl
    | wait w =>
      cases w with
      | stset => exact acts_ite rfl rfl
      | _ => rfl
    | run => exact acts_ite rfl rfl
    | ending => exact acts_ite rfl rfl
    | _ => rfl
  case shoot =>
    refine acts_findSome _ fun t => ?_
    split
    · rfl
    · exact acts_map _ fun _ => rfl
  case team =>
    unfold State.teamDue
    split
    · rfl
    · split
      · rfl
      · split
        · rfl
        · exact acts_ite rfl rfl
  case page =>
    unfold State.pageDue
    split
    · rfl
    · split
      · rfl
      · exact acts_ite rfl rfl
  case vc =>
    unfold State.vcTurn
    split
    · rfl
    · cases s.vcs.find? fun c => c.phase == .move with
      | none => rfl
      | some c => exact acts_map _ fun _ => rfl
  case wire => exact acts_map _ fun _ => rfl

theorem scanClasses_acts (s : State) (n i : Nat) : acts (s.scanClasses n i) := by
  induction n generalizing i with
  | zero => rfl
  | succ n ih =>
    unfold State.scanClasses
    split
    next t ht =>
      have hlt : (s.rr + i) % classes.length < classes.length := Nat.mod_lt _ (by decide)
      rw [List.getD_eq_getElem _ _ hlt] at ht
      exact ht ▸ classes_act _ _ (List.getElem_mem hlt)
    next => exact ih (i + 1)

theorem ownTurn_acts (s : State) : s.ownTurn.isOff = false := by
  unfold State.ownTurn
  split
  · rfl
  · split
    next t ht => exact isOff_of_acts (scanClasses_acts s classes.length 0) ht
    next =>
      unfold State.idleTurn
      split <;> rfl

/-- A package that is not OFF has a turn. -/
theorem turn_acts {s : State} (h : s.dev ≠ .off) : s.turn.isOff = false := by
  unfold State.turn
  rw [if_neg (by simpa using h)]
  split
  · rfl
  · dsimp only
    split
    next t ht => exact isOff_of_acts (runTurn_acts _) ht
    next =>
      split
      · exact ownTurn_acts _
      · unfold State.agendaTurn
        split
        · exact ownTurn_acts _
        · rfl

theorem turn_off {s : State} (h : s.dev = .off) : s.turn =
    match s.agenda.dropWhile fun i => !isPowerOn i with
    | [] => .off
    | i :: is => .event i { s with agenda := is, rr := s.rr + classes.length } := by
  unfold State.turn
  exact if_pos (by rw [h]; rfl)

theorem isPowerOn_iff {i : Instr} : isPowerOn i = true ↔ ∃ r, i = .powerOn r := by
  constructor
  · intro h
    unfold isPowerOn at h
    split at h
    next r => exact ⟨r, rfl⟩
    next => cases h
  · rintro ⟨r, rfl⟩
    rfl

/-- Without a bring-up in the agenda the whole of it is lost (R428). -/
theorem dropWhile_powerOn {is : List Instr} : is.dropWhile (fun i => !isPowerOn i) = [] ↔ ∀ r, Instr.powerOn r ∉ is := by
  rw [List.dropWhile_eq_nil_iff]
  constructor
  · intro h r hr
    exact absurd (h _ hr) Bool.false_ne_true
  · intro h i hi
    cases hp : isPowerOn i with
    | false => rfl
    | true =>
      obtain ⟨r, rfl⟩ := isPowerOn_iff.mp hp
      exact absurd hi (h r)

theorem step_goes {s : State} (h : s.turn.isOff = false) : Goes (step s) := by
  unfold step
  split
  next hoff => rw [hoff] at h; cases h
  next => exact goes_next _
  next k i t _ =>
    obtain ⟨u, hu⟩ := goes_exec i t
    rw [hu]
    exact goes_next _

theorem step_of_off {s : State} (h : s.turn = .off) : step s = .fault .packageOff := by
  unfold step
  rw [h]

/-- Settles O60: every class of events answers with something that happens, and every instruction goes on; only the empty turn of OFF stops. -/
theorem stepStopsOnlyWhenOff : Obligations.StepStopsOnlyWhenOff := by
  have hstop : ∀ s : State, s.dev = .off → (∀ r, Instr.powerOn r ∉ s.agenda) → step s = .fault .packageOff := fun s hoff hno =>
    step_of_off (by rw [turn_off hoff, dropWhile_powerOn.mpr hno])
  refine ⟨goes_exec, fun s => ?_, hstop, fun s t r before after hoff hag hbefore hexec hheld => ?_⟩
  · by_cases hoff : s.dev = .off
    · cases hw : s.agenda.dropWhile fun i => !isPowerOn i with
      | nil =>
        have hno := dropWhile_powerOn.mp hw
        exact Or.inl ⟨hstop s hoff hno, hoff, hno⟩
      | cons i is => exact Or.inr (step_goes (by rw [turn_off hoff, hw]; rfl))
    · exact Or.inr (step_goes (turn_acts hoff))
  · have hw : s.agenda.dropWhile (fun i => !isPowerOn i) = .powerOn r :: after := by
      rw [hag, List.dropWhile_append_of_pos fun i hi => ?_]
      · rfl
      · cases hp : isPowerOn i with
        | false => rfl
        | true =>
          obtain ⟨r', rfl⟩ := isPowerOn_iff.mp hp
          exact absurd hi (hbefore r')
    have hturn : s.turn = .instr .event (.powerOn r) { s with agenda := after, rr := s.rr + 16 } := by
      rw [turn_off hoff, hw]
      rfl
    unfold step
    rw [hturn]
    dsimp only
    rw [hexec]
    dsimp only
    rw [hheld]
    rfl

end Sys2Proof.Machine
end

section
/-! # PROOFS. Frames, RESUME and WITHDRAW: O37 -/

namespace Sys2Proof.Machine

/-! ## A group comes back from its frame (R143) -/

theorem Regs.eq_of_fields {r q : Regs} (hv : r.v = q.v) (hw : r.w = q.w) (hp : r.p = q.p) (hexm : r.exm = q.exm) (hmask : r.mask = q.mask)
    (hsigr : r.sigr = q.sigr) (hun : r.unchecked = q.unchecked) (hcpc : r.cpc = q.cpc) (hlaneq : r.laneq = q.laneq) (hfin : r.finished = q.finished)
    (htsh : r.tsh = q.tsh) (hprio : r.prio = q.prio) : r = q := by
  cases r
  cases q
  rw [Regs.mk.injEq]
  exact ⟨hv, hw, hp, hexm, hmask, hsigr, hun, hcpc, hlaneq, hfin, htsh, hprio⟩

section
variable {g : Group} (hf : g.Framed) (pts reason : Nat) (c : BitVec 32)
include hf

/-- The registers of a frame are those of its group. -/
theorem Regs.ofImage_frame (hb : g.AtBoundary) {old : Regs} (hdests : old.laneq.map LBlock.dests = g.regs.laneq.map LBlock.dests)
    (hfin : old.finished.drop 16 = g.regs.finished.drop 16) :
    old.ofImage (g.frameImage pts reason c) g.width (laneWidth g.shadow g.width) g.regs.v.length = g.regs := by
  obtain ⟨h4, hcpc, hexm, hmask, -⟩ := id hb
  exact Regs.eq_of_fields (ofImage_v hf pts reason c old _) (ofImage_w hf pts reason c old _ _ _) (ofImage_p hf pts reason c old _ _ _)
    (ofImage_exm hf pts reason c old _ _ _ hexm) (ofImage_mask hf pts reason c old _ _ _ hmask) (ofImage_sigr hf pts reason c old _ _ _)
    (ofImage_unchecked hf pts reason c old _ _ _) (ofImage_cpc hf pts reason c old _ _ _ h4 hcpc)
    (ofImage_laneq hf pts reason c old _ _ _ hb hdests) (ofImage_finished hf pts reason c old _ _ _ hfin) (ofImage_tsh hf pts reason c old _ _ _)
    (ofImage_prio hf pts reason c old _ _ _)

/-- The engine's numbers and cursor of an image. -/
def EngSt.ofImage (m : Mem) (e : EngSt) (i : Nat) : EngSt :=
  { e with openNum := BitVec.ofNat 32 (memNat m (0x100 + 8 * i) 4), closedNum := BitVec.ofNat 32 (memNat m (0x104 + 8 * i) 4),
           cursor := if bit (memNat m (0x270 + 8 * i) 8) 63 then none else some (memNat m (0x270 + 8 * i) 8 % 2 ^ 19) }

/-- Block `i` of those that start at `o`, of `n` bytes each, with its flag word (R142). -/
def Block.ofImage (m : Mem) (o n flags i : Nat) : Block :=
  { data := memSlice m (o + i * n) n, poison := bit (memNat m (flags + 8 * i) 8) 32, token := BitVec.ofNat 32 (memNat m (flags + 8 * i) 4) }

theorem engines_ofImage (hb : g.AtBoundary) {old : List EngSt} (hlen : old.length = g.eng.length) :
    (old.zipIdx.map fun e => EngSt.ofImage (g.frameImage pts reason c) e.1 e.2) =
      (old.zip g.eng).map fun e => { e.1 with openNum := e.2.openNum, closedNum := e.2.closedNum, cursor := e.2.cursor } := by
  have hcur := hb.2.2.2.2.2.2.2.2.2
  apply List.ext_getElem (by simp [hlen])
  intro i h1 h2
  have hi : i < g.eng.length := by simpa [hlen] using h1
  obtain ⟨ho, hc, hx⟩ := image_engine hf pts reason c hi
  simp only [List.getElem_map, List.getElem_zipIdx, List.getElem_zip, Nat.zero_add, EngSt.ofImage]
  rw [ho, hc, hx fun a ha => hcur _ (List.getElem_mem hi) a ha]

theorem tiles_ofImage : ((List.range g.tiles.length).map fun i =>
    Block.ofImage (g.frameImage pts reason c) (0x1000 + vecArea g.regs.v.length g.width) 16384 0x700 i) = g.tiles := by
  apply List.ext_getElem (by simp)
  intro i h1 h2
  simp only [List.getElem_map, List.getElem_range, Block.ofImage]
  rw [image_tile hf pts reason c h2, (image_tileFlag hf pts reason c h2).1, (image_tileFlag hf pts reason c h2).2]

theorem accs_ofImage : ((List.range g.accs.length).map fun i =>
    Block.ofImage (g.frameImage pts reason c) (0x1000 + vecArea g.regs.v.length g.width + g.tiles.length * 16384) 65536 0x800 i) = g.accs := by
  apply List.ext_getElem (by simp)
  intro i h1 h2
  simp only [List.getElem_map, List.getElem_range, Block.ofImage]
  rw [image_acc hf pts reason c h2, (image_accFlag hf pts reason c h2).1, (image_accFlag hf pts reason c h2).2]

end

/-- The checks of a frame's header (R143). -/
def Group.mismatches (h : Group) (m : Mem) : Bool :=
  bits (memNat m 0 8) 0 8 != 1 || bits (memNat m 0 8) 8 7 != h.width || bits (memNat m 0x38 8) 0 9 != h.regs.v.length ||
    bits (memNat m 0x38 8) 16 6 != h.tiles.length || bits (memNat m 0x38 8) 24 4 != h.accs.length

theorem Group.ofImage_mismatch {h : Group} {m : Mem} (full : Bool) (hm : h.mismatches m = true) : h.ofImage m full = none := by
  unfold Group.mismatches at hm
  unfold Group.ofImage
  simp only [hm, if_true]

theorem Group.ofImage_match {h : Group} {m : Mem} (full : Bool) (hm : h.mismatches m = false) : h.ofImage m full =
    let r := h.regs.ofImage m h.width (laneWidth (bit (memNat m 0 8) 16) h.width) h.regs.v.length
    let t0 := 0x1000 + vecArea h.regs.v.length h.width
    some { h with regs := r, undo := r, latches := [], run := none, freads := [], stall := false, lstall := false,
                  shadow := bit (memNat m 0 8) 16, checked := bit (memNat m 0 8) 17, user := !bit (memNat m 0 8) 18,
                  region := Region.ofImage (memNat m 0x20 8), crumbLast := BitVec.ofNat 32 (memNat m 0x28 4),
                  eng := h.eng.zipIdx.map fun e => EngSt.ofImage m e.1 e.2,
                  tiles := if full then (List.range h.tiles.length).map fun i => Block.ofImage m t0 16384 0x700 i else h.tiles,
                  accs := if full then (List.range h.accs.length).map fun i => Block.ofImage m (t0 + h.tiles.length * 16384) 65536 0x800 i else h.accs } := by
  unfold Group.mismatches at hm
  unfold Group.ofImage
  simp only [hm, Bool.false_eq_true, if_false, EngSt.ofImage, Block.ofImage]

theorem framesGiveBack_holds : framesGiveBack := by
  refine ⟨fun g h pts reason cause full hf hb hwidth hv htiles haccs heng hdests hfin => ?_, fun h m full hm => Group.ofImage_mismatch full ?_⟩
  · obtain ⟨k0, k1, k2, k3, k4, k5, k6, k7⟩ := image_checks hf pts reason cause
    have hok : h.mismatches (g.frameImage pts reason cause) = false := by
      rw [Group.mismatches, k0, k1, k2, k3, k4, hwidth, hv, htiles, haccs]
      simp
    rw [Group.ofImage_match full hok]
    dsimp only
    rw [k5, k6, k7, Bool.not_not, hwidth, hv, htiles, haccs, Regs.ofImage_frame hf pts reason cause hb hdests hfin, image_region hf, image_crumb hf,
      engines_ofImage hf pts reason cause hb heng, tiles_ofImage hf, accs_ofImage hf]
  · simpa [Group.mismatches, or_assoc] using hm

/-! ## The layout of a frame (R140 to R142) -/

theorem Block.flag_eq (b : Block) : b.flag = b.token.toNat + b2n b.poison * 2 ^ 32 := by
  unfold Block.flag
  cases b.poison <;> simp [b2n]

theorem Block.flag_lt (b : Block) : b.flag < 2 ^ 64 := by
  have h1 := b.token.isLt
  have h2 := b2n_le b.poison
  rw [Block.flag_eq]
  omega

section
variable {g : Group} (hf : g.Framed) (pts reason : Nat) (c : BitVec 32)
include hf

theorem image_cpc (hc : g.regs.cpc.toNat < 2 ^ 57) : memNat (g.frameImage pts reason c) 0x08 8 = g.regs.cpc.toNat := by
  have e : memNat (g.frameImage pts reason c) 0x08 8 = g.regs.cpc.toNat % 2 ^ 57 % 256 ^ 8 := frame_word hf pts reason c 0 rfl (i := 1) (by simp)
  rw [e, Nat.mod_eq_of_lt hc, bytes8, Nat.mod_eq_of_lt (by omega)]

theorem image_pts : memNat (g.frameImage pts reason c) 0x18 8 = pts % 2 ^ 64 := by
  have e : memNat (g.frameImage pts reason c) 0x18 8 = pts % 2 ^ 64 % 256 ^ 8 := frame_word hf pts reason c 0 rfl (i := 3) (by simp)
  rw [e, bytes8, Nat.mod_mod]

theorem image_crumbLast : memNat (g.frameImage pts reason c) 0x28 8 = g.crumbLast.toNat := by
  have e : memNat (g.frameImage pts reason c) 0x28 8 = g.crumbLast.toNat % 256 ^ 8 := frame_word hf pts reason c 0 rfl (i := 5) (by simp)
  have := g.crumbLast.isLt
  rw [e, bytes8, Nat.mod_eq_of_lt (by omega)]

theorem image_cause : memNat (g.frameImage pts reason c) 0x30 8 = c.toNat := by
  have e : memNat (g.frameImage pts reason c) 0x30 8 = c.toNat % 256 ^ 8 := frame_word hf pts reason c 0 rfl (i := 6) (by simp)
  have := c.isLt
  rw [e, bytes8, Nat.mod_eq_of_lt (by omega)]

/-- The word of the stream: the current block's place and its runs, and the length of the queue. -/
theorem image_queue (hb : g.AtBoundary) {b : LBlock} (hq : g.regs.laneq.head? = some b) :
    memNat (g.frameImage pts reason c) 0x10 8 = (if b.begun then b.lpc.toNat + b.left * 2 ^ 20 else 0) + g.regs.laneq.length * 2 ^ 32 := by
  obtain ⟨-, -, -, -, hlen, -, hbegun, -⟩ := hb
  have hmem : b ∈ g.regs.laneq := List.mem_of_mem_head? hq
  have hlpc := b.lpc.isLt
  have hcur : g.regs.current = if b.begun then some b else none := by
    unfold Regs.current
    cases hl : g.regs.laneq with
    | nil => rw [hl] at hq; cases hq
    | cons a as => rw [hl] at hq; rw [Option.some.inj hq]
  rw [image_stream hf, hcur, List.take_of_length_le hlen, bytes8]
  simp only [Nat.shiftLeft_eq]
  cases hbeg : b.begun with
  | true =>
    have hleft := (hbegun b hmem hbeg).2.2
    simp only [if_true]
    omega
  | false =>
    simp only [Bool.false_eq_true, if_false]
    omega

theorem image_entry (hb : g.AtBoundary) {k : Nat} {b : LBlock} (hk : g.regs.laneq[k]? = some b) :
    memNat (g.frameImage pts reason c) (0x40 + 4 * k) 4 = b.start.toNat + b.nruns % 32 * 2 ^ 20 + 2 ^ 31 := by
  obtain ⟨hlt, rfl⟩ := List.getElem?_eq_some_iff.mp hk
  have hlen := hb.2.2.2.2.1
  have e := frame_word hf pts reason c 1 rfl (i := k) (by simp; omega)
  rw [List.take_of_length_le hlen, map_getD _ _ hlt, bytes4] at e
  have hs := g.regs.laneq[k].start.isLt
  rw [e, Nat.shiftLeft_eq]
  omega

theorem image_engineWords (hb : g.AtBoundary) {i : Nat} {e : EngSt} (hi : g.eng[i]? = some e) :
    memNat (g.frameImage pts reason c) (0x100 + 8 * i) 8 = e.openNum.toNat + e.closedNum.toNat * 2 ^ 32 ∧
    memNat (g.frameImage pts reason c) (0x270 + 8 * i) 8 = match e.cursor with | some a => a | none => 2 ^ 63 := by
  obtain ⟨hlt, rfl⟩ := List.getElem?_eq_some_iff.mp hi
  have hcur := hb.2.2.2.2.2.2.2.2.2 _ (List.getElem_mem hlt)
  have e1 := frame_word hf pts reason c 2 rfl (i := i) (by simpa using hlt)
  have e2 := frame_word hf pts reason c 7 rfl (i := i) (by simpa using hlt)
  rw [map_getD _ _ hlt, bytes8] at e1 e2
  have h1 := g.eng[i].openNum.isLt
  have h2 := g.eng[i].closedNum.isLt
  refine ⟨by rw [e1, Nat.shiftLeft_eq]; omega, ?_⟩
  rw [e2]
  cases hx : g.eng[i].cursor with
  | none => rfl
  | some a =>
    have ha := hcur a hx
    show a % 2 ^ 19 % 2 ^ 64 = a
    omega

theorem image_tsh {i : Nat} {b : BitVec 20} (hi : g.regs.tsh[i]? = some b) : memNat (g.frameImage pts reason c) (0x120 + 4 * i) 4 = b.toNat := by
  obtain ⟨hlt, rfl⟩ := List.getElem?_eq_some_iff.mp hi
  obtain ⟨-, -, -, -, hl, -⟩ := id hf
  have e := frame_word hf pts reason c 3 rfl (i := i) (by simp; omega)
  rw [padTo_eq _ (by simpa using hl), map_getD _ _ hlt, bytes4] at e
  have := g.regs.tsh[i].isLt
  omega

theorem image_pred {i : Nat} {p : PReg} (hi : g.regs.p[i]? = some p) : memNat (g.frameImage pts reason c) (0xB40 + 8 * i) 8 = p.bits.toNat ∧
    memNat (g.frameImage pts reason c) (0xBC0 + 8 * i) 8 = p.pois.toNat ∧ memNat (g.frameImage pts reason c) (0x230 + 4 * i) 4 = p.token.toNat := by
  obtain ⟨hlt, rfl⟩ := List.getElem?_eq_some_iff.mp hi
  obtain ⟨-, -, -, hl, -⟩ := id hf
  have e1 := frame_word hf pts reason c 13 rfl (i := i) (by simp; omega)
  have e2 := frame_word hf pts reason c 14 rfl (i := i) (by simp; omega)
  have e3 := frame_word hf pts reason c 6 rfl (i := i) (by simp; omega)
  rw [padTo_eq _ (by simpa using hl), map_getD _ _ hlt, bytes8, Nat.mod_eq_of_lt (BitVec.isLt _)] at e1 e2
  rw [padTo_eq _ (by simpa using hl), map_getD _ _ hlt, bytes4, Nat.mod_eq_of_lt (BitVec.isLt _)] at e3
  exact ⟨e1, e2, e3⟩

theorem image_exm : memNat (g.frameImage pts reason c) 0xC40 8 = g.regs.exm.toNat := by
  have e : memNat (g.frameImage pts reason c) 0xC40 8 = g.regs.exm.toNat % 256 ^ 8 := frame_word hf pts reason c 15 rfl (i := 0) (by simp)
  rw [e, bytes8, Nat.mod_eq_of_lt (BitVec.isLt _)]

theorem image_sigr : memNat (g.frameImage pts reason c) 0xE80 8 = g.regs.sigr.toNat := by
  have e : memNat (g.frameImage pts reason c) 0xE80 8 = g.regs.sigr.toNat % 256 ^ 8 := frame_word hf pts reason c 17 rfl (i := 0) (by simp)
  rw [e, bytes8, Nat.mod_eq_of_lt (BitVec.isLt _)]

theorem image_signature {i : Nat} {b : BitVec 64} (h16 : i < 16) (hi : g.regs.finished[i]? = some b) :
    memNat (g.frameImage pts reason c) (0xEC0 + 8 * i) 8 = b.toNat := by
  obtain ⟨hlt, rfl⟩ := List.getElem?_eq_some_iff.mp hi
  have hlt' : i < (g.regs.finished.take 16).length := by simp; omega
  have e := frame_word hf pts reason c 18 rfl (i := i) (by simpa using hlt')
  rw [map_getD _ _ hlt', bytes8, Nat.mod_eq_of_lt (BitVec.isLt _), List.getElem_take] at e
  exact e

theorem image_tileWord {i : Nat} {b : Block} (hi : g.tiles[i]? = some b) :
    memSlice (g.frameImage pts reason c) (0x1000 + vecArea g.regs.v.length g.width + i * 16384) 16384 = b.data ∧
    memNat (g.frameImage pts reason c) (0x700 + 8 * i) 8 = b.token.toNat + b2n b.poison * 2 ^ 32 := by
  obtain ⟨hlt, rfl⟩ := List.getElem?_eq_some_iff.mp hi
  have e := frame_word hf pts reason c 9 rfl (i := i) (by simpa using hlt)
  rw [map_getD _ _ hlt, bytes8, Nat.mod_eq_of_lt (Block.flag_lt _), Block.flag_eq] at e
  exact ⟨image_tile hf pts reason c hlt, e⟩

theorem image_accWord {i : Nat} {b : Block} (hi : g.accs[i]? = some b) :
    memSlice (g.frameImage pts reason c) (0x1000 + vecArea g.regs.v.length g.width + g.tiles.length * 16384 + i * 65536) 65536 = b.data ∧
    memNat (g.frameImage pts reason c) (0x800 + 8 * i) 8 = b.token.toNat + b2n b.poison * 2 ^ 32 := by
  obtain ⟨hlt, rfl⟩ := List.getElem?_eq_some_iff.mp hi
  have e := frame_word hf pts reason c 10 rfl (i := i) (by simpa using hlt)
  rw [map_getD _ _ hlt, bytes8, Nat.mod_eq_of_lt (Block.flag_lt _), Block.flag_eq] at e
  exact ⟨image_acc hf pts reason c hlt, e⟩

theorem image_vector {n i : Nat} {r : List VElem} {e : VElem} (hn : g.regs.v[n]? = some r) (hi : r[i]? = some e) :
    memNat (g.frameImage pts reason c) (0x1000 + 4 * (n * g.width + i)) 4 = e.val.toNat ∧
    bit (memNat (g.frameImage pts reason c) (0x1000 + 4 * g.regs.v.length * g.width + (n * g.width + i) / 8) 1) ((n * g.width + i) % 8) = e.poison := by
  obtain ⟨hlt, rfl⟩ := List.getElem?_eq_some_iff.mp hn
  obtain ⟨hlt', rfl⟩ := List.getElem?_eq_some_iff.mp hi
  exact ⟨image_v hf pts reason c hlt hlt', image_vPoison hf pts reason c hlt hlt'⟩

theorem image_uniform {i : Nat} {e : UElem} (hi : g.regs.w[i]? = some e) : memNat (g.frameImage pts reason c) (0x900 + 8 * i) 8 = e.val.toNat ∧
    bit (memNat (g.frameImage pts reason c) 0xB00 8) i = e.poison := by
  obtain ⟨hlt, rfl⟩ := List.getElem?_eq_some_iff.mp hi
  exact ⟨image_w hf pts reason c hlt, image_wPoison hf pts reason c hlt⟩

theorem image_maskEntry {i : Nat} {e : MaskEntry} (hi : g.regs.mask[i]? = some e) :
    memNat (g.frameImage pts reason c) (0xC50 + 16 * i) 8 = e.saved.toNat ∧ memNat (g.frameImage pts reason c) (0xC58 + 16 * i) 8 = e.pending.toNat := by
  obtain ⟨hlt, rfl⟩ := List.getElem?_eq_some_iff.mp hi
  exact image_mask hf pts reason c hlt

end

theorem frameLayout_holds : frameLayout := by
  intro g pts reason c hf hb
  obtain ⟨-, hcpc, -⟩ := id hb
  dsimp only
  have harea : roundUp (4 * g.regs.v.length * g.width + g.regs.v.length * g.width / 8) 4096 = vecArea g.regs.v.length g.width := rfl
  have hsize : 0x1000 + vecArea g.regs.v.length g.width + 16384 * g.tiles.length + 65536 * g.accs.length = g.frameSize := by
    rw [Group.frameSize, frameSize]
    omega
  rw [harea, hsize]
  refine ⟨?header, image_cpc hf pts reason c hcpc, fun b hq => image_queue hf pts reason c hb hq, image_pts hf pts reason c, image_crumbLast hf pts reason c,
    image_cause hf pts reason c, ?counts, fun k b hk => image_entry hf pts reason c hb hk, fun i e hi => image_engineWords hf pts reason c hb hi,
    fun i b hi => image_tsh hf pts reason c hi, fun i e hi => image_uniform hf pts reason c hi, fun i p hi => image_pred hf pts reason c hi,
    image_exm hf pts reason c, image_depth hf pts reason c, fun i e hi => image_maskEntry hf pts reason c hi, image_sigr hf pts reason c,
    image_finished hf pts reason c, fun i b h16 hi => image_signature hf pts reason c h16 hi, fun n i r e hn hi => image_vector hf pts reason c hn hi,
    fun i b hi => image_tileWord hf pts reason c hi, fun i b hi => ?acc⟩
  case header => rw [image_header hf]; simp only [Nat.shiftLeft_eq]
  case counts => rw [image_counts hf]; simp only [Nat.shiftLeft_eq]
  case acc =>
    rw [Nat.mul_comm 16384]
    exact image_accWord hf pts reason c hi

/-! ## Saving and returning -/

theorem State.inPhase_eq (s : State) (p : Phase) : s.inPhase p = s.onCur fun g => { g with phase := p } := rfl

theorem framesAreSavedAndRead_holds : framesAreSavedAndRead := by
  intro s t x h m bad full a reason cause
  refine ⟨fun hteam => ?saved, fun hframe hread => ⟨fun hbad himg => ?back, fun hlost => ?lost⟩⟩
  case saved =>
    intro at_ img u
    have hat : s.frameAddr s.cur = at_ := by
      unfold State.frameAddr
      rw [hteam]
      rfl
    unfold State.saveFrame State.writeImage
    dsimp only
    rw [hat]
    rfl
  case back =>
    unfold State.resumeFrame
    dsimp only
    rw [hframe]
    dsimp only
    rw [hread]
    dsimp only
    rw [hbad, if_neg Bool.false_ne_true, himg, State.inPhase_eq]
    rfl
  case lost =>
    have hnone : (if bad then none else t.cur.ofImage m full) = none := by
      rcases hlost with hbad | himg
      · rw [hbad]; rfl
      · rw [himg, ite_self]
    unfold State.resumeFrame
    dsimp only
    rw [hframe]
    dsimp only
    rw [hread]
    dsimp only
    rw [hnone]

/-- The group that RESUME names stands at its `brk` or `sysc` (R389). -/
def Group.resumable (s : State) (asid : BitVec 16) (lid gang : BitVec 32) (team : BitVec 12) (grp : BitVec 6) (g : Group) : Bool :=
  (match g.phase with | .parked .brk | .parked .sysc => true | _ => false) && g.lid == lid && g.gang == gang && g.team == team && g.grp == grp &&
    ((s.team? g.teamKey).map Team.asid) == some asid

theorem exec_resume {s : State} {asid : BitVec 16} {lid gang : BitVec 32} {team : BitVec 12} {grp : BitVec 6} {g : Group} (hrun : s.dev = .running)
    (hctx : asid = 0 ∨ (s.ctx? asid).isSome = true) (hg : s.groups.find? (Group.resumable s asid lid gang team grp) = some g) :
    exec (.resume asid lid gang team grp) s = .next ((if s.activeTeam g.teamKey then s.withGroup g.key (fun s => s.resumeFrame false)
      else s.onGroup g.key fun g => { g with phase := .run }).emit (.answer 14 ansOk 0)) := by
  have hknown : (asid != 0 && (s.ctx? asid).isNone) = false := by
    rcases hctx with rfl | hctx
    · rfl
    · rw [Option.isNone_eq_false_iff.mpr hctx, Bool.and_false]
  show execResume asid lid gang team grp s = _
  unfold execResume
  rw [hrun, hknown, if_neg (by decide), if_neg Bool.false_ne_true]
  dsimp only
  split
  next hnone => exact absurd (hg.symm.trans hnone) (by simp)
  next k hk => rw [Option.some.inj (hg.symm.trans hk)]

theorem exec_withdraw_one {s : State} {asid : BitVec 16} {lid : BitVec 32} {l : Launch} (hrun : s.dev = .running)
    (hctx : asid = 0 ∨ (s.ctx? asid).isSome = true) (hl : s.launches = [l]) (ha : l.asid = asid) (hlid : l.lid = lid) :
    exec (.withdraw asid lid false) s = .next ((({ s with withdrawals := s.withdrawals ++ [⟨[lid], (l.lrec.gangs - l.nextGang) *
      (l.lrec.here s.chip).length + (s.teams.filter fun t => t.lid == lid && t.endSt.isNone).length⟩] } : State).withdrawLaunch l).answerWithdrawals) := by
  subst ha hlid
  have hknown : (l.asid != 0 && (s.ctx? l.asid).isNone) = false := by
    rcases hctx with h0 | hctx
    · rw [h0]; rfl
    · rw [Option.isNone_eq_false_iff.mpr hctx, Bool.and_false]
  have hls : (s.launches.filter fun k => k.asid == l.asid && (false || k.lid == l.lid)) = [l] := by
    rw [hl]
    simp
  show execWithdraw l.asid l.lid false s = _
  unfold execWithdraw
  refine (if_neg (by rw [hrun]; decide)).trans ((if_neg (by rw [hknown]; exact Bool.false_ne_true)).trans ?_)
  dsimp only
  rw [hls, if_neg (by simp)]
  simp only [List.map_cons, List.map_nil, List.foldl_cons, List.foldl_nil, sumNat, Nat.zero_add]

/-- Settles O37: the parts of a frame are read back word by word, and from them the group; RESUME and WITHDRAW find the one that they name. -/
theorem resumeAndWithdrawComplete : Obligations.ResumeAndWithdrawComplete := by
  refine ⟨frameLayout_holds, framesGiveBack_holds, framesAreSavedAndRead_holds, fun s asid lid gang team grp t l hrun hctx =>
    ⟨fun hphase hlid hgang hteam hgrp ht hasid => ?_, fun hl ha hlid => exec_withdraw_one hrun hctx hl ha hlid⟩⟩
  have hhit : Group.resumable s asid lid gang team grp s.cur = true := by
    unfold Group.resumable
    rw [hlid, hgang, hteam, hgrp, ht]
    rcases hphase with h | h <;> simp [h, hasid]
  have hfind : s.groups.find? (Group.resumable s asid lid gang team grp) = some s.cur := by
    unfold State.groups
    rw [List.find?_cons, hhit]
  refine ⟨fun hact => ?_, fun hact => ?_⟩ <;> rw [exec_resume hrun hctx hfind, hact]
  · rw [if_pos rfl, State.withGroup_cur _ rfl]
    rfl
  · rw [if_neg Bool.false_ne_true]
    rfl

end Sys2Proof.Machine
end
